-- ==== Sys2Proof/Word.lean ====
section
/-! DEFINITION. The word types of the controller's links: the byte, and a field of bytes. -/

namespace Sys2Proof

/-- One byte of a link frame (R186). -/
abbrev Byte := BitVec 8

/-- A sequence of bytes: a payload, a response frame, a partial frame (R186, R207). -/
abbrev Bytes := List Byte

end Sys2Proof
end

