-- ==== Sys2Proof/Syntax.lean ====
section
/-! DEFINITION. The commands of the block: one constructor of Instr for each row of spec/opcode_table.json. -/

namespace Sys2Proof

/-- The three links, in the order of their codes (R209). -/
inductive LinkId where
  | supervisor | telemetry | service
  deriving DecidableEq, Repr

/-- The two measurement windows of a cycle (R55, R56). -/
inductive MWindow where
  | on | off
  deriving DecidableEq, Repr

/-- What the converters see at one tick notice, in units of one code: the potential (R70), the two outputs (R109) and scan
channels 0 to 7 (R175). An input may lie beyond either end of its converter's range. -/
structure Samples where
  pot  : Int
  iout : Int
  vout : Int
  scan : Vector Int 8
  deriving DecidableEq, Repr

/-- The commands: what can happen to the controller, row by row of spec/opcode_table.json. -/
inductive Instr where
  /-- TICK (R1): one tick of the oscillator, with what the converters see at it. -/
  | tick (x : Samples)
  /-- SECOND_BOUNDARY (R1): the wrap that a tick at count 2399 has made due. -/
  | secondBoundary
  /-- REGULATION_TICK (R108). `riseFirst`: the ramp limit rises before the duty update (R115 leaves the order). -/
  | regulationTick (riseFirst : Bool)
  /-- PULSE_EDGE (R4): a rising edge on TPULSE. -/
  | pulseEdge
  /-- HOLDOVER_ENTRY (R10): the edge age has reached 2402 in LOCKED. -/
  | holdoverEntry
  /-- ENTER_LOST (R11): the holdover seconds have reached the holdover limit. -/
  | enterLost
  /-- CYCLE_BOUNDARY (R59). -/
  | cycleBoundary
  /-- OFF_EDGE (R58). -/
  | offEdge
  /-- MEASUREMENT_WINDOW_OPEN (R58). -/
  | measurementWindowOpen (w : MWindow)
  /-- MEASUREMENT_WINDOW_CLOSE (R74). -/
  | measurementWindowClose (w : MWindow)
  /-- SCAN_END (R176). -/
  | scanEnd
  /-- BYTE_RECEIVED (R186). `stopGood` is false where the byte's stop bit is found low. -/
  | byteReceived (l : LinkId) (b : Byte) (stopGood : Bool)
  /-- GAP_EXPIRY (R187). -/
  | gapExpiry (l : LinkId)
  /-- RESPONSE_SENT (R190). -/
  | responseSent (l : LinkId)
  /-- BIT_RATE_SWITCH (R200). -/
  | bitRateSwitch (l : LinkId)
  /-- SAVE_COMPLETE (R202). -/
  | saveComplete
  /-- STGFLT_ASSERTED (R132). -/
  | stgfltAsserted
  /-- STGFLT_DEASSERTED (R132). -/
  | stgfltDeasserted
  /-- LOCAL_CHANGE (R193), with the new level. -/
  | localChange (asserted : Bool)
  /-- POWER_ON_RESET (R203): power is applied or RST_N is asserted. -/
  | powerOnReset
  /-- SET_TIME (R14). This and the rows after it: the processor takes its next frame, of this command's code. -/
  | setTime
  /-- READ_TIME (R20). -/
  | readTime
  /-- ADD_WINDOW (R32). -/
  | addWindow
  /-- DELETE_WINDOW (R34). -/
  | deleteWindow
  /-- READ_WINDOWS (R36). -/
  | readWindows
  /-- READ_PROFILE (R27). -/
  | readProfile
  /-- CHANGE (R139). -/
  | change
  /-- CANCEL_CHANGE (R143). -/
  | cancelChange
  /-- READ_QUEUE (R144). -/
  | readQueue
  /-- READ_SETTINGS (R118). -/
  | readSettings
  /-- START (R123). -/
  | start
  /-- STOP (R124). -/
  | stop
  /-- READ_STATUS (R136). -/
  | readStatus
  /-- READ_CAPTURES (R94). -/
  | readCaptures
  /-- READ_CHANNELS (R182). -/
  | readChannels
  /-- SET_CHANNEL_LIMITS (R181). -/
  | setChannelLimits
  /-- WRITE_CALIBRATION (R184). -/
  | writeCalibration
  /-- READ_FRAME (R161). -/
  | readFrame
  /-- RESUME (R167). -/
  | resume
  /-- CLEAR_LOCKOUT (R172). -/
  | clearLockout
  /-- SET_MASK (R195). -/
  | setMask
  /-- ACK_EVENTS (R196). -/
  | ackEvents
  /-- SAVE_SETTINGS (R202). -/
  | saveSettings
  /-- RESTART (R205). -/
  | restart
  /-- UNKNOWN_COMMAND (R192): the next frame's code names no command. -/
  | unknownCommand
  deriving DecidableEq, Repr

end Sys2Proof
end

