-- ==== Sys2Proof/Decode.lean ====
section
/-! DEFINITION. The words of spec/opcode_table.json. No row of the table gives bits (its "fixed" is absent and its
"fields" are empty), so no word spells a command (log 10). The commands' own byte layouts (R207) are read by Machine/Operands.lean
from the frames that BYTE_RECEIVED brings. -/

namespace Sys2Proof

/-- The command that a word spells by the table's bits: none, since no row gives bits. -/
def decodeTableWord (_nbits _w : Nat) : Option Instr := none

end Sys2Proof
end

