-- ==== Sys2Proof/Config.lean ====
section
/-! DEFINITION. What the part fixes as numbers, and the one value that its manual leaves open. -/

namespace Sys2Proof.Config

/-- Ticks in one second of station time (spec/00_scope.md, Time). -/
abbrev ticksPerSecond : Nat := 2400

/-- Values of a 32-bit count (R1, R92). -/
abbrev count32 : Nat := 4294967296

/-- The ratings of the part: 100.00 A and 60.00 V (spec/05, before 5.1). -/
abbrev currentRating : Int := 10000
abbrev voltageRating : Int := 6000

/-- Sizes of the collections (R29, R31, R91, R138, R156, R189). -/
abbrev maxWindows : Nat := 16
abbrev maxNotices : Nat := 8
abbrev maxRecords : Nat := 32
abbrev maxQueue   : Nat := 4
abbrev maxFrames  : Nat := 2
abbrev maxFifo    : Nat := 2

/-- The edge age at which LOCKED is left (R10). -/
abbrev maxEdgeAge : Nat := 2402

/-- Tick notices after which a scan ends (R174), and after which a store write has ended (R202). -/
abbrev scanTicks  : Nat := 1000
abbrev writeTicks : Nat := 960

/-- The start byte of a link frame (R207). -/
abbrev startByte : Byte := 165

/-- FREE VALUE (DESIGN CHOICE, log 4). The mean code of an accumulator that holds no sample. R73 says that no measurement window
closes with a count below 20, so the spec gives no value; nothing can prove one here. -/
opaque meanOfNoSamples : Int → Int

end Sys2Proof.Config
end

