-- ==== Sys2Proof/Machine/Types.lean ====
section
/-! DEFINITION. The kinds of data that State is made of, block by block, in the manual's names.
Enumerations list their constructors in the order of their codes (R209). -/

namespace Sys2Proof.Machine

/-- One value for each of the three links. -/
structure PerLink (α : Type) where
  sup : α
  tel : α
  svc : α
  deriving DecidableEq, Repr

/-! ### Settings (the image of R201) -/

/-- Regulation modes (R96). -/
inductive Mode where
  | current | voltage | potentialOff
  deriving DecidableEq, Repr

/-- Loss actions (R12). -/
inductive LossAction where
  | cont | suspend
  deriving DecidableEq, Repr

/-- REJECTION settings (R23). -/
inductive Rejection where
  | none | hz50 | hz60
  deriving DecidableEq, Repr

/-- One entry of the profile table (R23): durations in ms, NOISE_LIMIT in mV. -/
structure Profile where
  on        : Nat
  off       : Nat
  delay     : Nat
  window    : Nat
  onOffset  : Nat
  noise     : Nat
  rejection : Rejection
  deriving DecidableEq, Repr

/-- The regulation settings (R97), the mode among them. -/
structure RegSettings where
  mode       : Mode
  iset       : Int
  vset       : Int
  imin       : Int
  ilim       : Int
  vlim       : Int
  trip       : Int
  target     : Int
  outerGain  : Int
  deadband   : Int
  stepLimit  : Int
  innerGain  : Int
  rampRate   : Int
  overLimit  : Int
  underLimit : Int
  deriving DecidableEq, Repr

/-- One entry of the calibration table (R183). -/
structure Cal where
  coff  : Int
  cgain : Int
  deriving DecidableEq, Repr

/-- The limits of one scan channel (R175, R181). -/
structure Limits where
  low  : Int
  high : Int
  deriving DecidableEq, Repr

/-- The bit rates of a link (R200). -/
inductive Rate where
  | r9600 | r19200 | r38400 | r115200
  deriving DecidableEq, Repr

/-- The settings that the non-volatile image holds (R201). -/
structure Image where
  reg           : RegSettings
  profiles      : Vector Profile 8
  cal           : Vector Cal 11
  limits        : Vector Limits 8
  holdoverLimit : Nat
  lossAction    : LossAction
  autoRestart   : Bool
  rates         : PerLink Rate
  deriving DecidableEq, Repr

/-! ### TB -/

inductive TbState where
  | unset | locked | holdover | lost
  deriving DecidableEq, Repr

inductive EdgeOutcome where
  | accepted | rejected
  deriving DecidableEq, Repr

/-- The last edge (R4). -/
structure LastEdge where
  count   : Nat
  sec     : Nat
  outcome : EdgeOutcome
  deriving DecidableEq, Repr

/-- The staged time (R15). -/
structure StagedTime where
  value  : Nat
  origin : LinkId
  deriving DecidableEq, Repr

/-- What TB holds (spec/01). -/
structure Tb where
  tick          : Nat
  seconds       : Nat
  state         : TbState
  lastEdge      : Option LastEdge
  rejectStreak  : List Nat
  edgeAge       : Nat
  holdoverSec   : Nat
  holdoverLimit : Nat
  lossAction    : LossAction
  staged        : Option StagedTime
  deriving DecidableEq, Repr

/-! ### SL -/

inductive EndCause where
  | time | delete
  deriving DecidableEq, Repr

/-- The cycle part of the ACTIVE or ENDING window (R29): the anchor as a second and a tick (R49), the anchor cycle
number, and the cycle in progress (R51). -/
structure CyclePart where
  anchorSec   : Nat
  anchorTick  : Nat
  anchorCycle : Int
  cycle       : Int
  phase       : Nat
  deriving DecidableEq, Repr

/-- Where a window stands in its life (R29). Only an ACTIVE or ENDING window has a cycle part, and only an ENDING one an
end cause. -/
inductive Life where
  | scheduled
  | active (c : CyclePart)
  | ending (c : CyclePart) (cause : EndCause)
  deriving DecidableEq, Repr

/-- One record of the survey window list (R29). -/
structure WindowRec where
  id      : Nat
  start   : Nat
  stop    : Nat
  profile : Fin 8
  origin  : LinkId
  life    : Life
  deriving DecidableEq, Repr

inductive NoticeOutcome where
  | added | activated | ended | deleted | skipped
  deriving DecidableEq, Repr

/-- A window notice (R31). -/
structure Notice where
  number   : Nat
  windowId : Nat
  outcome  : NoticeOutcome
  sec      : Nat
  deriving DecidableEq, Repr

inductive SwitchPos where
  | closed | opened
  deriving DecidableEq, Repr

/-- The status of a measurement window while a capture is OPEN (R57). -/
inductive WStatus where
  | short | pending | opened | done | missed
  deriving DecidableEq, Repr

/-- What SL keeps while the capture state is OPEN (R57). -/
structure Capture where
  entryPhase : Nat
  realigned  : Bool
  onStatus   : WStatus
  offStatus  : WStatus
  deriving DecidableEq, Repr

/-- What SL holds (spec/02, spec/03). `capture = none` is the capture state NONE. `outright` is set by a large time step
and by RESTART: the next notice's pair is taken outright (R68, R69). -/
structure Sl where
  profiles : Vector Profile 8
  windows  : List WindowRec
  nextId   : Nat
  notices  : List Notice
  noticeNo : Nat
  demand   : SwitchPos
  capture  : Option Capture
  outright : Bool
  deriving DecidableEq, Repr

/-! ### MU -/

/-- A signed sum of codes and how many it holds (R71, R109). The sum is unbounded: the bounds of R73 and R109 keep it in 32
bits (DEDUCED, log 11). -/
structure Acc where
  sum   : Int
  count : Nat
  deriving DecidableEq, Repr

/-- The off window's result (R77). -/
structure OffResult where
  potential : Int
  spread    : Int
  noisy     : Bool
  deriving DecidableEq, Repr

/-- What MU holds (spec/04, R109, R183), and the two marks by which R110 is tested at the end of the running regulation
interval. -/
structure Mu where
  onAcc            : Acc
  offAcc           : Acc
  offMin           : Option Int
  offMax           : Option Int
  onResult         : Option Int
  offResult        : Option OffResult
  iAcc             : Acc
  vAcc             : Acc
  cal              : Vector Cal 11
  switchOpenInside : Bool
  mainsBadInside   : Bool
  deriving DecidableEq, Repr

/-! ### OC -/

/-- Stop causes (R121). -/
inductive StopCause where
  | command | mains | reset | cleared
  deriving DecidableEq, Repr

/-- The output state (R121); the stop cause is present in STOPPED only. -/
inductive Output where
  | stopped (cause : StopCause)
  | ramp | run | held | lockout
  deriving DecidableEq, Repr

/-- The output state without its cause, as records and reports name it. -/
inductive OutKind where
  | stopped | ramp | run | held | lockout
  deriving DecidableEq, Repr

/-- What OC holds (spec/06). `switch` and `drive` are the levels of the SWITCH and DRIVE pins. -/
structure Oc where
  output         : Output
  restartPending : Bool
  autoRestart    : Bool
  rampLimit      : Int
  switch         : SwitchPos
  drive          : Int
  deriving DecidableEq, Repr

/-! ### CL -/

/-- What the off-edge notice leaves in the assembly (R81). -/
structure OffEdge where
  sec    : Nat
  tick   : Nat
  tb     : TbState
  output : OutKind
  deriving DecidableEq, Repr

/-- The assembly of the capture in progress (R79). `closedNow` says that the collection was closed at the present
moment, whose regulation tick still belongs to it (R81). -/
structure Assembly where
  windowId  : Nat
  cycle     : Int
  offEdge   : Option OffEdge
  current   : Option Int
  closed    : Bool
  closedNow : Bool
  noOutput  : Bool
  deriving DecidableEq, Repr

/-- The nine flags of a record, in the order of their bits (R84, R208). -/
structure CFlags where
  noisy     : Bool
  shortOn   : Bool
  shortOff  : Bool
  unsynced  : Bool
  ramp      : Bool
  noOutput  : Bool
  realigned : Bool
  underLim  : Bool
  overLim   : Bool
  deriving DecidableEq, Repr

/-- A capture record (R83). -/
structure CRecord where
  seq       : Nat
  windowId  : Nat
  cycle     : Int
  offTime   : Option (Nat × Nat)
  onPot     : Option Int
  offPot    : Option Int
  irDrop    : Option Int
  spread    : Option Int
  current   : Option Int
  inducedAc : Option Int
  flags     : CFlags
  deriving DecidableEq, Repr

/-- What CL holds (spec/04). -/
structure Cl where
  log      : List CRecord
  nextSeq  : Nat
  assembly : Option Assembly
  deriving DecidableEq, Repr

/-! ### RG -/

/-- Which limit holds the output (R114). -/
inductive LimitKind where
  | current | voltage | both
  deriving DecidableEq, Repr

/-- What RG holds (spec/05). -/
structure Rg where
  set        : RegSettings
  duty       : Int
  current    : Option Int
  voltage    : Option Int
  limited    : Option LimitKind
  tripStreak : Nat
  overStreak : Nat
  deriving DecidableEq, Repr

/-! ### CQ -/

/-- The regulation targets of CHANGE (R97, R137). -/
inductive RegTarget where
  | mode | currentSet | voltageSet | offTarget | currentMin | currentLimit | voltageLimit | tripLevel
  | outerGain | deadband | stepLimit | innerGain | rampRate | overLimit | underLimit
  deriving DecidableEq, Repr

/-- The profile targets of CHANGE (R24). -/
inductive ProfileField where
  | on | off | delay | window | onOffset | noise | rejection
  deriving DecidableEq, Repr

/-- The setting that an entry changes: its target and, for a profile target, the profile index. Two entries are the same
setting exactly when these are equal (R137). -/
inductive Setting where
  | reg (t : RegTarget)
  | profile (f : ProfileField) (i : Fin 8)
  deriving DecidableEq, Repr

/-- One entry of the change queue (R137). -/
structure QEntry where
  setting : Setting
  value   : Int
  origin  : LinkId
  deriving DecidableEq, Repr

structure Cq where
  queue : List QEntry
  deriving DecidableEq, Repr

/-! ### SK -/

/-- Frame formats (R152). -/
inductive Format where
  | output | capture | timeline
  deriving DecidableEq, Repr

/-- Fault kinds (R152). -/
inductive FaultKind where
  | overcurrent | stageFault | overprotection | timingLost | timeStep
  deriving DecidableEq, Repr

/-- Continuations (R152, R164). -/
inductive Continuation where
  | none | ramp | cycle
  deriving DecidableEq, Repr

/-- The timeline part of a frame (R154). -/
structure TimelinePart where
  windowId : Nat
  cycle    : Int
  phase    : Nat
  deriving DecidableEq, Repr

/-- The capture part of a frame (R154). -/
structure CapturePart where
  seq    : Nat
  offPot : Int
  deriving DecidableEq, Repr

/-- One element of a pending list (R148). -/
structure PElement where
  valid : Bool
  entry : QEntry
  deriving DecidableEq, Repr

/-- A fault frame (R153); its format is the kind's (R152). -/
structure Frame where
  seq          : Nat
  kind         : FaultKind
  sec          : Nat
  tick         : Nat
  output       : OutKind
  mode         : Mode
  iset         : Int
  duty         : Int
  timeline     : Option TimelinePart
  capture      : Option CapturePart
  pendingList  : List PElement
  continuation : Continuation
  deriving DecidableEq, Repr

/-- The lockout record (R158). -/
structure LockoutRec where
  kind : FaultKind
  sec  : Nat
  tick : Nat
  deriving DecidableEq, Repr

/-- What SK holds (spec/08); the head of `stack` is the top frame. -/
structure Sk where
  stack     : List Frame
  nextFrame : Nat
  lockout   : Option LockoutRec
  deriving DecidableEq, Repr

/-! ### HS -/

inductive Mains where
  | unknown | present | lost
  deriving DecidableEq, Repr

inductive Alarm where
  | none | low | high
  deriving DecidableEq, Repr

/-- One channel of the result table (spec/09). Channel 0 uses no alarm state and no counts: its alarm is the mains state. -/
structure Channel where
  value  : Option Int
  fresh  : PerLink Bool
  limits : Limits
  alarm  : Alarm
  low    : Nat
  high   : Nat
  inside : Nat
  deriving DecidableEq, Repr

/-- What HS holds (spec/09). `scan = none` is IDLE; `some n` is RUNNING with n notices counted, and `some 1000` a scan
that has ended and whose SCAN_END step is due. `sums` holds, channel by channel, the sum of the codes that the scan has sampled
so far (DEDUCED, log 6). -/
structure Hs where
  scan       : Option Nat
  sums       : Vector Int 8
  lastScan   : Option Nat
  channels   : Vector Channel 8
  mains      : Mains
  mainsCount : Nat
  mainsMark  : Bool
  deriving DecidableEq, Repr

/-! ### LC -/

/-- The event classes, in the order of their bits (R194, R209). -/
inductive EventClass where
  | timing | timeSet | window | capture | fault | resumed | change | output | mains | channel | limit | store
  | superseded | link
  deriving DecidableEq, Repr

/-- A set of event classes: bit b stands for class b (R212). -/
abbrev EventSet := BitVec 14

inductive RxState where
  | hunt | length | payload | check
  deriving DecidableEq, Repr

/-- The error flags of a link (R192). -/
structure ErrFlags where
  overrun : Bool
  check   : Bool
  framing : Bool
  deriving DecidableEq, Repr

/-- What LC holds for one link (spec/10). `pendingRate` is a reloaded rate that the link has not taken yet (R200).
`partialBytes` is the partial frame: the length byte and the payload received so far. `txBits` counts the bits of the
response that the tick notices have carried (R190; DEDUCED, log 7). -/
structure Link where
  rate         : Rate
  pendingRate  : Option Rate
  rx           : RxState
  partialBytes : Bytes
  gap          : Nat
  fifo         : List Bytes
  buffer       : Option Bytes
  txBits       : Nat
  errors       : ErrFlags
  flags        : EventSet
  mask         : EventSet
  attention    : Bool
  deriving DecidableEq, Repr

structure Lc where
  links      : PerLink Link
  lastServed : LinkId
  deriving DecidableEq, Repr

/-- The statuses of a response, in the order of their codes (R192, R207). -/
inductive Status where
  | ok | adjusted | unknownCommand | badLength | outOfRange | notReady | past | overlap | listFull | queueFull | noSuch
  | held | localHeld | lockedOut | stale | notTop | format | busy
  deriving DecidableEq, Repr

/-- What a command answers with: its status and the result fields after the result byte (R192). -/
structure Reply where
  status : Status
  fields : Bytes
  deriving DecidableEq, Repr

/-! ### NS -/

inductive ImageState where
  | valid | invalid
  deriving DecidableEq, Repr

/-- A write in progress (R202): the snapshot, and the tick notices since the command. -/
structure Write where
  snapshot : Image
  age      : Nat
  deriving DecidableEq, Repr

/-- What NS holds (spec/11). `imageGood` says whether the stored check value agrees with the stored image (DESIGN CHOICE,
log 5). -/
structure Ns where
  image      : Image
  imageGood  : Bool
  imageState : ImageState
  write      : Option Write
  deriving DecidableEq, Repr

/-! ### Pins and the present moment -/

/-- The digital input levels (spec/00_scope.md, Pins). -/
structure Pins where
  stgflt  : Bool
  localIn : Bool
  deriving DecidableEq, Repr

/-- The positions of a cycle (R50). -/
inductive Position where
  | boundary
  | opens (w : MWindow)
  | closes (w : MWindow)
  | offEdge
  deriving DecidableEq, Repr

/-- The MODEL's own record of the present moment (DESIGN CHOICE, log 2): what has come due at it and has not been taken yet.
`wrap` holds the samples of the tick that falls while the tick count is 2399; `regTick` says that a regulation tick is due
and `regMoment` that the moment has or had one (R110; log 33); `positions` are the positions that the last notice took (R51)
and whose actions are still to be done, in cycle order; `tickCode` is the potential code of the moment's tick notice, once it
has been handed (R57, R58); `mainsBad` says that the mains was not PRESENT when the moment began (R110, R126; logs 19 and
33); `requeued` names the settings whose entries a RESUME has put back in the queue at the moment, which wait for an apply
point after it (R150; log 38). -/
structure Moment where
  wrap      : Option Samples
  lost      : Bool
  regTick   : Bool
  regMoment : Bool
  mainsBad  : Bool
  exam      : Bool
  positions : List Position
  tickCode  : Option Int
  requeued  : List Setting
  deriving DecidableEq, Repr

end Sys2Proof.Machine
end

