-- ==== Sys2Proof/Machine/Defaults.lean ====
section
/-! DEFINITION. The default settings: what each owner takes when the image does not verify (R23, R97, R175,
R183, R200), and what each block holds right after power-on reset. -/

namespace Sys2Proof.Machine

/-- R23. -/
def defaultProfile : Profile :=
  { on := 12000, off := 3000, delay := 200, window := 100, onOffset := 200, noise := 30, rejection := .hz50 }

/-- R97. -/
def defaultReg : RegSettings :=
  { mode := .current, iset := 0, vset := 0, imin := 0, ilim := 10000, vlim := 6000, trip := 11000, target := -950,
    outerGain := 32, deadband := 10, stepLimit := 50, innerGain := 256, rampRate := 10, overLimit := -1200,
    underLimit := -850 }

/-- R183: entries 0 to 2, then the scan channels with their nominal gains (R175). -/
def defaultCal : Vector Cal 11 :=
  #v[⟨0, 1250⟩, ⟨0, 2500⟩, ⟨0, 1500⟩, ⟨0, 125⟩, ⟨0, 2500⟩, ⟨0, 1250⟩, ⟨0, 1250⟩, ⟨0, 375⟩, ⟨0, 1625⟩, ⟨0, 8192⟩, ⟨0, 8192⟩]

/-- R175. -/
def defaultLimits : Vector Limits 8 :=
  #v[⟨160, 190⟩, ⟨0, 1500⟩, ⟨-5000, 5000⟩, ⟨-5000, 5000⟩, ⟨-200, 700⟩, ⟨2200, 2600⟩, ⟨-32768, 32767⟩, ⟨-32768, 32767⟩]

/-- Every setting at its default (R21, R28, R119, R135, R185, R200). -/
def defaultImage : Image :=
  { reg := defaultReg, profiles := Vector.replicate 8 defaultProfile, cal := defaultCal, limits := defaultLimits,
    holdoverLimit := 600, lossAction := .suspend, autoRestart := true, rates := ⟨.r19200, .r19200, .r19200⟩ }

/-! ### After power-on reset, with the settings `img` loaded -/

/-- R21. -/
def Tb.reset (img : Image) : Tb :=
  { tick := 0, seconds := 0, state := .unset, lastEdge := none, rejectStreak := [], edgeAge := 0, holdoverSec := 0,
    holdoverLimit := img.holdoverLimit, lossAction := img.lossAction, staged := none }

/-- R28, R46, R69. No pair waits to be taken outright (DESIGN CHOICE, log 23). -/
def Sl.reset (img : Image) : Sl :=
  { profiles := img.profiles, windows := [], nextId := 1, notices := [], noticeNo := 1, demand := .closed,
    capture := none, outright := false }

/-- R72, R95, R109, R185. The mains is UNKNOWN and the switch CLOSED in the interval that begins (R110). -/
def Mu.reset (img : Image) : Mu :=
  { onAcc := ⟨0, 0⟩, offAcc := ⟨0, 0⟩, offMin := none, offMax := none, onResult := none, offResult := none,
    iAcc := ⟨0, 0⟩, vAcc := ⟨0, 0⟩, cal := img.cal, switchOpenInside := false, mainsBadInside := true }

/-- R95. -/
def Cl.reset : Cl := { log := [], nextSeq := 1, assembly := none }

/-- R119. -/
def Rg.reset (img : Image) : Rg :=
  { set := img.reg, duty := 0, current := none, voltage := none, limited := none, tripStreak := 0, overStreak := 0 }

/-- R135. -/
def Oc.reset (img : Image) : Oc :=
  { output := .stopped .reset, restartPending := img.autoRestart, autoRestart := img.autoRestart, rampLimit := 0,
    switch := .closed, drive := 0 }

/-- R151. -/
def Cq.reset : Cq := { queue := [] }

/-- R173. -/
def Sk.reset : Sk := { stack := [], nextFrame := 1, lockout := none }

/-- R185, one channel. -/
def Channel.reset (l : Limits) : Channel :=
  { value := none, fresh := ⟨false, false, false⟩, limits := l, alarm := .none, low := 0, high := 0, inside := 0 }

/-- R180, R185. No scan has taken a sample: the sums are 0 (DESIGN CHOICE, log 6). -/
def Hs.reset (img : Image) : Hs :=
  { scan := none, sums := Vector.replicate 8 0, lastScan := none, channels := Vector.ofFn fun i => Channel.reset (img.limits.get i),
    mains := .unknown, mainsCount := 0, mainsMark := true }

/-- R200, one link. -/
def Link.reset (rate : Rate) : Link :=
  { rate := rate, pendingRate := none, rx := .hunt, partialBytes := [], gap := 0, fifo := [], buffer := none,
    txBits := 0, errors := ⟨false, false, false⟩, flags := 0, mask := 0, attention := false }

/-- R200. -/
def Lc.reset (img : Image) : Lc :=
  { links := ⟨Link.reset img.rates.sup, Link.reset img.rates.tel, Link.reset img.rates.svc⟩, lastServed := .service }

/-- Nothing is due (log 2); the reset begins the first regulation interval (DESIGN CHOICE, log 23). -/
def Moment.reset : Moment :=
  { wrap := none, lost := false, regTick := false, regMoment := true, mainsBad := true, exam := false,
    positions := [], tickCode := none, requeued := [] }

end Sys2Proof.Machine
end

