-- ==== Sys2Proof/Machine/State.lean ====
section
/-! DEFINITION. State, the outcomes' reasons, and the machine right after power-on reset. -/

namespace Sys2Proof.Machine

/-- The controller's state, block by block, the present moment (the model's own, log 2) and the queue of the commands
that are waiting, first in, first out. -/
structure State where
  tb      : Tb
  sl      : Sl
  mu      : Mu
  cl      : Cl
  rg      : Rg
  oc      : Oc
  cq      : Cq
  sk      : Sk
  hs      : Hs
  lc      : Lc
  ns      : Ns
  pins    : Pins
  moment  : Moment
  pending : List Instr
  deriving DecidableEq, Repr

/-- No step of this block stops: the faults of R152 are state (a fault frame, the lockout record) and the controller
goes on. -/
inductive Fault where
  deriving DecidableEq, Repr

/-- Why a step is refused. -/
inductive Refusal where
  /-- Raised by an arm of exec that has no meaning yet, by the row's mnemonic. No arm of this model raises it. Safe: the
  model stops. -/
  | notModelled (mnemonic : String)
  deriving DecidableEq, Repr

/-- The controller right after power-on reset, with the settings `img` in force and the store, the inputs and the
waiting commands as given (block by block in Machine/Defaults.lean). -/
def State.powerOn (img : Image) (ns : Ns) (pins : Pins) (pending : List Instr) : State :=
  { tb := Tb.reset img, sl := Sl.reset img, mu := Mu.reset img, cl := Cl.reset, rg := Rg.reset img, oc := Oc.reset img,
    cq := Cq.reset, sk := Sk.reset, hs := Hs.reset img, lc := Lc.reset img, ns := ns, pins := pins,
    moment := Moment.reset, pending := pending }

/-- The machine right after reset: power-on with an image that verifies and holds the defaults (DESIGN CHOICE, log 5), the
inputs deasserted (DESIGN CHOICE, log 8) and no command waiting. -/
def State.reset : State :=
  State.powerOn defaultImage { image := defaultImage, imageGood := true, imageState := .valid, write := none }
    { stgflt := false, localIn := false } []

end Sys2Proof.Machine
end

