-- ==== Sys2Proof/Machine/Arith.lean ====
section
/-! DEFINITION. The arithmetic words of the manual (spec/00_scope.md, Arithmetic words) and the arithmetic from codes to
quantities (R74, R75, R109, R175). -/

namespace Sys2Proof.Machine

/-- Rounded to nearest, halves away from zero: num / den for a positive den (R74's formula). -/
def roundNearest (num : Int) (den : Nat) : Int :=
  let m : Int := ((num.natAbs + den / 2) / den : Nat)
  if num < 0 then -m else m

/-- Clamped to a…b. -/
def clampTo (a b x : Int) : Int := min b (max a x)

/-- Truncated toward zero. -/
def truncDiv (num den : Int) : Int := Int.tdiv num den

/-- A converter's code for an input: an input beyond either end of the range gives the end code (R70). -/
def convert (x : Int) : Int := clampTo (-32768) 32767 x

/-- One more code in an accumulator (R71). -/
def Acc.add (a : Acc) (code : Int) : Acc := { sum := a.sum + code, count := a.count + 1 }

/-- An accumulator that holds nothing. -/
def Acc.zero : Acc := { sum := 0, count := 0 }

/-- The mean code of an accumulator (R74). No spec value exists for an empty one (log 4). -/
def Acc.mean (a : Acc) : Int :=
  if a.count = 0 then Config.meanOfNoSamples a.sum else roundNearest a.sum a.count

/-- (M − Coff) × Cgain / 8192, rounded to nearest with halves away from zero (R75, R109, R175). -/
def Cal.apply (c : Cal) (m : Int) : Int := roundNearest ((m - c.coff) * c.cgain) 8192

/-- The difference a − b of two 32-bit counts as the signed value that equals it modulo 2^32 (R49, R93). -/
def signedDiff (a b : Nat) : Int := Int.bmod ((a : Int) - (b : Int)) Config.count32

/-- The count after n in a 32-bit count (R1, R92). -/
def next32 (n : Nat) : Nat := (n + 1) % Config.count32

/-- The value after n in a count that goes from 65 535 to 1 (R30, R31, R155). -/
def next16 (n : Nat) : Nat := if n ≥ 65535 then 1 else n + 1

end Sys2Proof.Machine
end

