-- ==== Sys2Proof/Machine/Flags.lean ====
section
/-! DEFINITION. Per-link state, event flags, event masks, attention outputs and error flags (R194 to R198), and the flags of
a capture record as their word (R208). -/

namespace Sys2Proof.Machine

/-- The value of one link. -/
def PerLink.get {α : Type} (p : PerLink α) : LinkId → α
  | .supervisor => p.sup
  | .telemetry => p.tel
  | .service => p.svc

/-- The value of one link replaced. -/
def PerLink.set {α : Type} (p : PerLink α) (l : LinkId) (v : α) : PerLink α :=
  match l with
  | .supervisor => { p with sup := v }
  | .telemetry => { p with tel := v }
  | .service => { p with svc := v }

/-- A function applied on all three links. -/
def PerLink.map {α β : Type} (f : α → β) (p : PerLink α) : PerLink β := ⟨f p.sup, f p.tel, f p.svc⟩

/-- The three links in the order of their codes. -/
def allLinks : List LinkId := [.supervisor, .telemetry, .service]

/-- The bit of an event class: its code (R209). -/
def EventClass.code : EventClass → Nat
  | .timing => 0 | .timeSet => 1 | .window => 2 | .capture => 3 | .fault => 4 | .resumed => 5 | .change => 6
  | .output => 7 | .mains => 8 | .channel => 9 | .limit => 10 | .store => 11 | .superseded => 12 | .link => 13

/-- The set that holds one class. -/
def EventClass.bit (c : EventClass) : EventSet := BitVec.ofNat 14 (2 ^ c.code)

/-- Attention is asserted while a flag is set whose class is enabled (R198). -/
def Link.reattend (k : Link) : Link := { k with attention := decide (k.flags &&& k.mask ≠ 0) }

/-- An event raised on a link sets its flag; a flag already set stays set (R194). -/
def Link.raise (c : EventClass) (k : Link) : Link := { k with flags := k.flags ||| c.bit }.reattend

/-- The state of one link. -/
def State.link (s : State) (l : LinkId) : Link := s.lc.links.get l

/-- One link's state replaced by a function of it. -/
def State.onLink (s : State) (l : LinkId) (f : Link → Link) : State :=
  { s with lc := { s.lc with links := s.lc.links.set l (f (s.lc.links.get l)) } }

/-- Every link's state replaced by a function of it. -/
def State.onLinks (s : State) (f : Link → Link) : State :=
  { s with lc := { s.lc with links := s.lc.links.map f } }

/-- An event raised on one link (SUPERSEDED, LINK; R194). -/
def raiseOn (l : LinkId) (c : EventClass) (s : State) : State := s.onLink l (Link.raise c)

/-- An event raised on all three links (R194). -/
def raiseAll (c : EventClass) (s : State) : State := s.onLinks (Link.raise c)

/-- The three error flags. -/
inductive ErrKind where
  | overrun | check | framing
  deriving DecidableEq, Repr

def ErrFlags.isSet (e : ErrFlags) : ErrKind → Bool
  | .overrun => e.overrun
  | .check => e.check
  | .framing => e.framing

def ErrFlags.setFlag (e : ErrFlags) : ErrKind → ErrFlags
  | .overrun => { e with overrun := true }
  | .check => { e with check := true }
  | .framing => { e with framing := true }

/-- No error flag set. -/
def ErrFlags.clear : ErrFlags := ⟨false, false, false⟩

/-- An error flag set on a link: it sets the link's LINK event flag, unless the error flag was already set (R197; DEDUCED,
log 20). -/
def Link.err (e : ErrKind) (k : Link) : Link :=
  if k.errors.isSet e then k else ({ k with errors := k.errors.setFlag e }).raise .link

/-- Bit b of a word, as a number. -/
def bitAt (b : Nat) (set : Bool) : Nat := if set then 2 ^ b else 0

/-- The flags word of a record, bits 0 to 8 (R208). -/
def CFlags.word (f : CFlags) : Nat :=
  bitAt 0 f.noisy + bitAt 1 f.shortOn + bitAt 2 f.shortOff + bitAt 3 f.unsynced + bitAt 4 f.ramp + bitAt 5 f.noOutput
    + bitAt 6 f.realigned + bitAt 7 f.underLim + bitAt 8 f.overLim

end Sys2Proof.Machine
end

