-- ==== Sys2Proof/Machine/Geometry.lean ====
section
/-! DEFINITION. Cycle geometry: durations in ticks, the measurement windows, cycle number and phase, and the positions of a
cycle (R48 to R51, R54 to R56). -/

namespace Sys2Proof.Machine

/-- d ms in ticks (R48). -/
def msTicks (d : Nat) : Nat := d * 12 / 5

def Profile.onT (p : Profile) : Nat := msTicks p.on
def Profile.offT (p : Profile) : Nat := msTicks p.off
def Profile.delayT (p : Profile) : Nat := msTicks p.delay
def Profile.windowT (p : Profile) : Nat := msTicks p.window
def Profile.onOffsetT (p : Profile) : Nat := msTicks p.onOffset

/-- The cycle period P (R48). -/
def Profile.period (p : Profile) : Nat := p.onT + p.offT

/-- The rejection period (R54). -/
def Rejection.ticks : Rejection → Nat
  | .none => 1
  | .hz50 => 48
  | .hz60 => 40

/-- The effective window length Nw (R54). -/
def Profile.nw (p : Profile) : Nat := max p.rejection.ticks (p.windowT / p.rejection.ticks * p.rejection.ticks)

/-- Whether a measurement window fits (R55, R56). -/
def Profile.fits (p : Profile) : MWindow → Bool
  | .on => decide (p.onOffsetT + p.nw ≤ p.onT)
  | .off => decide (p.onT + p.delayT + p.nw ≤ p.period)

/-- The phase at which a measurement window opens (R55, R56); meaningful where it fits. -/
def Profile.opensAt (p : Profile) : MWindow → Nat
  | .on => p.onT - p.onOffsetT - p.nw
  | .off => p.onT + p.delayT

/-- The phase at which a measurement window closes (R55, R56). -/
def Profile.closesAt (p : Profile) : MWindow → Nat
  | .on => p.onT - p.onOffsetT
  | .off => p.onT + p.delayT + p.nw

/-- Whether a phase lies within a measurement window, a half-open interval (R55, R56). -/
def Profile.inWindow (p : Profile) (w : MWindow) (phase : Nat) : Bool :=
  p.fits w && decide (p.opensAt w ≤ phase ∧ phase < p.closesAt w)

/-- The elapsed ticks e between an anchor and a moment (R49). -/
def elapsed (c : CyclePart) (sec tick : Nat) : Int :=
  signedDiff sec c.anchorSec * Config.ticksPerSecond + ((tick : Int) - c.anchorTick)

/-- Cycle number and phase of a moment (R49): n = nA + floor(e / P), φ = e mod P. -/
def derive (p : Profile) (c : CyclePart) (sec tick : Nat) : Int × Nat :=
  let e := elapsed c sec tick
  (c.anchorCycle + e / p.period, (e % p.period).toNat)

/-- The positions of one cycle with their phases, in order of phase (R50). An off window that ends at P closes at the
moment of the next boundary, and before it. -/
def Profile.positions (p : Profile) : List (Nat × Position) :=
  [(0, .boundary)]
    ++ (if p.fits .on then [(p.opensAt .on, .opens .on), (p.closesAt .on, .closes .on)] else [])
    ++ [(p.onT, .offEdge)]
    ++ (if p.fits .off then [(p.opensAt .off, .opens .off), (p.closesAt .off, .closes .off)] else [])

/-- The positions after phase `φ` of one cycle and at or before phase `φ'` of the cycle `k` later, in cycle order (R51). -/
def Profile.between (p : Profile) (φ k φ' : Nat) : List Position :=
  (List.range (k + 1)).flatMap fun j =>
    p.positions.filterMap fun q =>
      if φ < j * p.period + q.1 ∧ j * p.period + q.1 ≤ k * p.period + φ' then some q.2 else none

/-- The cycle part of a record that is ACTIVE or ENDING (R29). -/
def Life.part : Life → Option CyclePart
  | .scheduled => none
  | .active c => some c
  | .ending c _ => some c

/-- The cycle part replaced, where there is one. -/
def Life.withPart (c : CyclePart) : Life → Life
  | .scheduled => .scheduled
  | .active _ => .active c
  | .ending _ cause => .ending c cause

/-- The ACTIVE or ENDING window with its cycle part: it is the first of the list (R29). -/
def activeOf : List WindowRec → Option (WindowRec × CyclePart)
  | [] => none
  | w :: _ => w.life.part.map fun c => (w, c)

/-- The ACTIVE or ENDING window of the controller. -/
def State.active (s : State) : Option (WindowRec × CyclePart) := activeOf s.sl.windows

/-- The profile that a window names, as it stands (R23). -/
def State.profileOf (s : State) (w : WindowRec) : Profile := s.sl.profiles.get w.profile

/-- The cycle part of the ACTIVE or ENDING window replaced. -/
def withCyclePart (c : CyclePart) : List WindowRec → List WindowRec
  | [] => []
  | w :: ws => { w with life := w.life.withPart c } :: ws

/-- The cycle in progress set to cycle number n at phase φ. -/
def State.setPair (s : State) (n : Int) (φ : Nat) : State :=
  match s.active with
  | none => s
  | some (_, c) => { s with sl := { s.sl with windows := withCyclePart { c with cycle := n, phase := φ } s.sl.windows } }

end Sys2Proof.Machine
end

