-- ==== Sys2Proof/Machine/Ops.lean ====
section
/-! DEFINITION. The shared operations on the outputs, the output state, the suspension stack and the inputs: switch and drive
(R52, R133, R134), changes of output state (R121 to R131), taking a fault (R152 to R160), the STAGE FAULT input (R132). -/

namespace Sys2Proof.Machine

/-! ### The two outputs -/

/-- RAMP and RUN: the states in which the power stage is driven (R133). -/
def Output.drives : Output → Bool
  | .ramp | .run => true
  | .stopped _ | .held | .lockout => false

/-- The state without its cause. -/
def Output.kind : Output → OutKind
  | .stopped _ => .stopped
  | .ramp => .ramp
  | .run => .run
  | .held => .held
  | .lockout => .lockout

/-- The switch demand as R52 gives it: OPEN while a window is ACTIVE or ENDING, the stack is empty and the phase in
progress lies in the OFF phase. -/
def State.wantsOpen (s : State) : Bool :=
  match s.active with
  | none => false
  | some (w, c) => s.sk.stack.isEmpty && decide ((s.profileOf w).onT ≤ c.phase)

/-- The present moment is that of a regulation tick by counting or at a second boundary, or of a wrap that is due, which brings
one (R2): not strictly between two regulation ticks (R110; DESIGN CHOICE, log 33). -/
def State.atRegTick (s : State) : Bool := s.moment.regMoment || s.moment.wrap.isSome

/-- SL re-evaluates the switch demand and OC drives the two pins from it (R52, R133, R134). A switch that stands OPEN at
a moment other than a regulation tick's freezes the tick that ends the interval (R110). -/
def sync (s : State) : State :=
  let d : SwitchPos := if s.wantsOpen then .opened else .closed
  let sw : SwitchPos := if d = .opened ∧ s.oc.output = .run then .opened else .closed
  let drive : Int := if s.oc.output.drives ∧ sw = .closed then s.rg.duty else 0
  { s with
    sl := { s.sl with demand := d }
    oc := { s.oc with switch := sw, drive := drive }
    mu := { s.mu with
      switchOpenInside := s.mu.switchOpenInside || (decide (sw = .opened) && !s.atRegTick) } }

/-! ### The output state -/

/-- The condition of R82: the output is neither RUN nor RAMP, or the mains is not PRESENT. -/
def State.noOutput (s : State) : Bool := !s.oc.output.drives || decide (s.hs.mains ≠ .present)

/-- CL sets the NO_OUTPUT mark of the assembly in progress where the condition holds (R82). -/
def markNoOutput (s : State) : State :=
  { s with cl := { s.cl with assembly := s.cl.assembly.map fun a => { a with noOutput := a.noOutput || s.noOutput } } }

/-- A change of output state or of stop cause: the duty value becomes 0 outside RAMP and RUN (R116), the outputs follow
(R133, R134), CL marks the assembly (R82) and an OUTPUT event is raised; where nothing changes, nothing happens (R121). -/
def changeOutput (o : Output) (s : State) : State :=
  if s.oc.output = o then s
  else
    raiseAll .output (markNoOutput (sync
      { s with oc := { s.oc with output := o }, rg := { s.rg with duty := if o.drives then s.rg.duty else 0 } }))

/-- Entering RAMP: ramp limit 0, restart-pending clear (R125). -/
def enterRamp (s : State) : State :=
  changeOutput .ramp { s with oc := { s.oc with rampLimit := 0, restartPending := false } }

/-- Putting the output in HELD for an output-holding frame (R129). -/
def holdOutput (s : State) : State :=
  if s.oc.output = .held then s
  else
    changeOutput .held { s with oc := { s.oc with restartPending := s.oc.restartPending || s.oc.output.drives } }

/-! ### The capture in progress, as SL, CL and MU drop it -/

/-- MU drops a window's accumulators and result (R72). -/
def Mu.drop (m : Mu) : MWindow → Mu
  | .on => { m with onAcc := Acc.zero, onResult := none }
  | .off => { m with offAcc := Acc.zero, offMin := none, offMax := none, offResult := none }

/-- The capture is discarded: no record, no event (R63, R69, R72, R89). -/
def discardCapture (s : State) : State :=
  { s with
    sl := { s.sl with capture := none }
    cl := { s.cl with assembly := none }
    mu := (s.mu.drop .on).drop .off }

/-! ### Taking a fault -/

/-- The format of a kind (R152). -/
def FaultKind.format : FaultKind → Format
  | .overcurrent => .output
  | .stageFault => .output
  | .overprotection => .capture
  | .timingLost => .timeline
  | .timeStep => .timeline

/-- Whether a frame of the kind holds the output (R152). -/
def FaultKind.holds (k : FaultKind) : Bool := decide (k.format ≠ .timeline)

/-- The continuation written at the build (R152). -/
def FaultKind.continuation (k : FaultKind) (windowRuns : Bool) : Continuation :=
  if k.format = .timeline then (if windowRuns then .cycle else .none) else .ramp

/-- The frame that SK builds from the state as it stands (R153, R154, R156 steps 1 to 3). -/
def buildFrame (kind : FaultKind) (cap : Option CapturePart) (s : State) : Frame :=
  { seq := s.sk.nextFrame
    kind := kind
    sec := s.tb.seconds
    tick := s.tb.tick
    output := s.oc.output.kind
    mode := s.rg.set.mode
    iset := s.rg.set.iset
    duty := s.rg.duty
    timeline := s.active.map fun wc => ⟨wc.1.id, wc.2.cycle, wc.2.phase⟩
    capture := cap
    pendingList := s.cq.queue.map fun e => ⟨true, e⟩
    continuation := kind.continuation s.active.isSome }

/-- SK builds a frame and pushes it (R156). MU drops its windows where a capture is discarded (R63; DEDUCED, log 31). -/
def pushFrame (kind : FaultKind) (cap : Option CapturePart) (s : State) : State :=
  let pushed : State :=
    { s with
      sk := { s.sk with stack := buildFrame kind cap s :: s.sk.stack, nextFrame := next16 s.sk.nextFrame }
      cq := { queue := [] } }
  let dropped := if s.sl.capture.isSome then discardCapture pushed else pushed
  let suspended := if s.sk.stack.isEmpty then sync dropped else pushed
  raiseAll .fault (if kind.holds then holdOutput suspended else suspended)

/-- SK takes a fault: it updates the lockout record in LOCKOUT (R159), enters LOCKOUT with two frames held (R158), and
builds a frame otherwise (R156). -/
def takeFault (kind : FaultKind) (cap : Option CapturePart) (s : State) : State :=
  let recorded : State := { s with sk := { s.sk with lockout := some ⟨kind, s.tb.seconds, s.tb.tick⟩ } }
  if s.oc.output = .lockout then raiseAll .fault recorded
  else if s.sk.stack.length ≥ Config.maxFrames then raiseAll .fault (changeOutput .lockout recorded)
  else pushFrame kind cap s

/-- OC raises STAGE_FAULT while STGFLT is asserted, no STAGE_FAULT frame is held and the output is not in LOCKOUT
(R132). -/
def stageCheck (s : State) : State :=
  if s.pins.stgflt = true ∧ (s.sk.stack.all fun f => decide (f.kind ≠ .stageFault)) = true ∧ s.oc.output ≠ .lockout then
    takeFault .stageFault none s
  else s

/-! ### Mains declarations -/

/-- HS declares the mains LOST or PRESENT: OC acts (R127, R128), RG freezes ticks by it (R110), CL marks the assembly
(R82) and a MAINS event is raised (R176). UNKNOWN to LOST leaves OC as it was (R128). -/
def declareMains (m : Mains) (s : State) : State :=
  let declared : State :=
    { s with
      hs := { s.hs with mains := m, mainsCount := 0 }
      mu := { s.mu with mainsBadInside := s.mu.mainsBadInside || decide (m ≠ .present) } }
  let acted :=
    if m = .lost ∧ s.hs.mains ≠ .unknown ∧ s.oc.output.drives = true then
      changeOutput (.stopped .mains)
        { declared with oc := { declared.oc with restartPending := s.oc.restartPending || s.oc.autoRestart } }
    else if m = .present ∧ s.oc.output.kind = .stopped ∧ s.oc.restartPending = true then enterRamp declared
    else declared
  raiseAll .mains (markNoOutput acted)

/-! ### Window notices -/

/-- A window notice: it takes the notice number, the oldest of 8 leaves, and a WINDOW event is raised (R31). -/
def addNotice (id : Nat) (o : NoticeOutcome) (s : State) : State :=
  let kept := s.sl.notices.drop (s.sl.notices.length + 1 - Config.maxNotices)
  raiseAll .window
    { s with sl := { s.sl with
        notices := kept ++ [⟨s.sl.noticeNo, id, o, s.tb.seconds⟩]
        noticeNo := next16 s.sl.noticeNo } }

end Sys2Proof.Machine
end

