-- ==== Sys2Proof/Machine/Capture.lean ====
section
/-! DEFINITION. Captures: sampling and the measurement windows in MU (R70 to R77), the assembly and the capture record in CL
(R78 to R92), and what RG does with a completed record: outer loop and over-protection streak (R101 to R106). -/

namespace Sys2Proof.Machine

/-! ### Measurement windows -/

/-- The status of one measurement window (R57). -/
def Capture.status (c : Capture) : MWindow → WStatus
  | .on => c.onStatus
  | .off => c.offStatus

def Capture.setStatus (c : Capture) (w : MWindow) (v : WStatus) : Capture :=
  match w with
  | .on => { c with onStatus := v }
  | .off => { c with offStatus := v }

/-- The status of a window while a capture is OPEN. -/
def State.windowStatus (s : State) (w : MWindow) : Option WStatus := s.sl.capture.map fun c => c.status w

def State.setWindowStatus (s : State) (w : MWindow) (v : WStatus) : State :=
  { s with sl := { s.sl with capture := s.sl.capture.map fun c => c.setStatus w v } }

/-- One code accumulated into a window (R71). -/
def Mu.accumulate (m : Mu) (w : MWindow) (code : Int) : Mu :=
  match w with
  | .on => { m with onAcc := m.onAcc.add code }
  | .off =>
    { m with
      offAcc := m.offAcc.add code
      offMin := some (match m.offMin with | none => code | some x => min x code)
      offMax := some (match m.offMax with | none => code | some x => max x code) }

/-- Whether the phase in progress lies within a measurement window of the profile in force (R58). -/
def State.phaseIn (s : State) (w : MWindow) : Bool :=
  match s.active with
  | none => false
  | some (r, c) => (s.profileOf r).inWindow w c.phase

/-- A code offered to a window: it is accumulated if the window's status is OPEN and the phase in progress lies within it
(R58, R70). -/
def offerTo (w : MWindow) (code : Int) (s : State) : State :=
  if s.windowStatus w = some .opened ∧ s.phaseIn w = true then { s with mu := s.mu.accumulate w code } else s

/-- The code of a tick notice offered to both windows (R70). -/
def offerCode (code : Int) (s : State) : State := offerTo .off code (offerTo .on code s)

/-- A PENDING window opens: its accumulators are cleared (R58, R71), and the code of this moment's tick notice, where there
is one, is accumulated into it (R57, R58). -/
def openWindow (w : MWindow) (s : State) : State :=
  if s.windowStatus w = some .pending then
    let opened : State := { (s.setWindowStatus w .opened) with mu := s.mu.drop w }
    match s.moment.tickCode with
    | none => opened
    | some code => offerTo w code opened
  else s

/-- NOISE_LIMIT of the profile that the ACTIVE or ENDING window names (R76). -/
def State.noiseLimit (s : State) : Nat :=
  match s.active with
  | none => 0
  | some (r, _) => (s.profileOf r).noise

/-- The potential of a mean code (R75). -/
def potentialOf (cal : Cal) (a : Acc) : Int := clampTo (-5000) 5000 (cal.apply a.mean)

/-- The spread in mV (R76). -/
def spreadOf (cal : Cal) (m : Mu) : Int :=
  let code : Int := m.offMax.getD 0 - m.offMin.getD 0
  (code * cal.cgain) / 8192

/-- MU's result for a window that closes (R74 to R77). -/
def Mu.result (m : Mu) (w : MWindow) (noiseLimit : Nat) : Mu :=
  let cal := m.cal.get 0
  match w with
  | .on => { m with onResult := some (potentialOf cal m.onAcc) }
  | .off =>
    let spread := spreadOf cal m
    { m with offResult := some ⟨potentialOf cal m.offAcc, spread, decide (spread > noiseLimit)⟩ }

/-- An OPEN window closes DONE with its result (R58, R74). -/
def closeWindow (w : MWindow) (s : State) : State :=
  if s.windowStatus w = some .opened then
    { (s.setWindowStatus w .done) with mu := s.mu.result w s.noiseLimit }
  else s

/-! ### Opening a capture -/

/-- The status of a window when a capture opens at an entry phase (R57). -/
def Profile.statusAt (p : Profile) (entry : Nat) (w : MWindow) : WStatus :=
  if p.fits w then (if entry ≤ p.opensAt w then .pending else .missed) else .short

/-- The assembly with which CL follows a capture that opens (R79). -/
def Assembly.start (windowId : Nat) (cycle : Int) (noOutput : Bool) : Assembly :=
  { windowId := windowId, cycle := cycle, offEdge := none, current := none, closed := false, closedNow := false,
    noOutput := noOutput }

/-- A capture opens for the cycle in progress, with its entry phase and REALIGNED mark (R57); CL starts an assembly (R79,
R82); a window whose start is the entry phase opens at once. -/
def openCapture (entry : Nat) (realigned : Bool) (s : State) : State :=
  match s.active with
  | none => s
  | some (r, c) =>
    let p := s.profileOf r
    let opened : State :=
      { s with
        sl := { s.sl with capture := some ⟨entry, realigned, p.statusAt entry .on, p.statusAt entry .off⟩ }
        cl := { s.cl with assembly := some (Assembly.start r.id c.cycle s.noOutput) } }
    let on := if p.opensAt .on = entry then openWindow .on opened else opened
    if p.opensAt .off = entry then openWindow .off on else on

/-! ### The off edge -/

/-- The off-edge notice (R81): it fills an assembly whose off-edge time is absent. -/
def offEdgeNotice (s : State) : State :=
  { s with cl := { s.cl with assembly := s.cl.assembly.map fun a =>
      if a.offEdge.isSome then a
      else { a with
        offEdge := some ⟨s.tb.seconds, s.tb.tick, s.tb.state, s.oc.output.kind⟩
        closed := true
        closedNow := true } } }

/-! ### What RG does with a record -/

/-- ΔI of the outer loop for the off potential of a valid capture (R102). -/
def outerStep (r : RegSettings) (pot : Int) : Int :=
  if pot < r.overLimit then -r.stepLimit
  else
    let e := pot - r.target
    if (e.natAbs : Int) ≤ r.deadband then 0
    else clampTo (-r.stepLimit) r.stepLimit (truncDiv (e * r.outerGain) 256)

/-- Iset after the outer loop (R102). -/
def outerLoop (r : RegSettings) (pot : Int) : RegSettings :=
  { r with iset := clampTo r.imin r.ilim (r.iset + outerStep r pot) }

/-- Validity of a record (R85). -/
def CRecord.valid (r : CRecord) : Bool :=
  r.offPot.isSome && !r.flags.noisy && !r.flags.shortOn && !r.flags.unsynced && !r.flags.ramp && !r.flags.noOutput
    && !r.flags.realigned

/-- RG takes a record that CL hands it: the outer loop in POTENTIAL_OFF (R101, R102), the streak in every mode (R105), and
OVERPROTECTION when the streak reaches 3 (R106). -/
def judgeRecord (r : CRecord) (s : State) : State :=
  match r.valid, r.offPot with
  | true, some pot =>
    let reg := if s.rg.set.mode = .potentialOff then outerLoop s.rg.set pot else s.rg.set
    let streak := if r.flags.overLim then s.rg.overStreak + 1 else 0
    let judged : State := { s with rg := { s.rg with set := reg, overStreak := streak } }
    if r.flags.overLim ∧ streak ≥ 3 then takeFault .overprotection (some ⟨r.seq, pot⟩) judged else judged
  | _, _ => s

/-! ### Completing a record -/

/-- The record of the capture in progress (R83 to R86), from the assembly, SL's statuses and MU's results. -/
def buildRecord (cap : Capture) (a : Assembly) (s : State) : CRecord :=
  let onPot := if cap.onStatus = .done then s.mu.onResult else none
  let off := if cap.offStatus = .done then s.mu.offResult else none
  let offPot := off.map OffResult.potential
  let tb := match a.offEdge with | some o => o.tb | none => s.tb.state
  let out := match a.offEdge with | some o => o.output | none => s.oc.output.kind
  let plain : CRecord :=
    { seq := s.cl.nextSeq
      windowId := a.windowId
      cycle := a.cycle
      offTime := a.offEdge.map fun o => (o.sec, o.tick)
      onPot := onPot
      offPot := offPot
      irDrop := match onPot, offPot with | some x, some y => some (x - y) | _, _ => none
      spread := off.map OffResult.spread
      current := a.current
      inducedAc := (s.hs.channels.get 1).value
      flags :=
        { noisy := match off with | some o => o.noisy | none => false
          shortOn := decide (cap.onStatus = .short)
          shortOff := decide (cap.offStatus = .short)
          unsynced := decide (tb ≠ .locked)
          ramp := decide (out = .ramp)
          noOutput := a.noOutput
          realigned := cap.realigned
          underLim := false
          overLim := false } }
  let pot := offPot.getD 0
  { plain with flags := { plain.flags with
      underLim := plain.valid && decide (pot > s.rg.set.underLimit)
      overLim := plain.valid && decide (pot < s.rg.set.overLimit) } }

/-- A record placed in the log as the newest, the oldest of 32 removed first (R91). -/
def logRecord (r : CRecord) (log : List CRecord) : List CRecord :=
  log.drop (log.length + 1 - Config.maxRecords) ++ [r]

/-- CL completes the record of the capture in progress (R87): it enters the log, a CAPTURE event is raised, the capture
state becomes NONE and the assembly ends, and RG takes the record. -/
def completeCapture (s : State) : State :=
  match s.sl.capture, s.cl.assembly with
  | some cap, some a =>
    let r := buildRecord cap a s
    judgeRecord r (raiseAll .capture
      { s with
        sl := { s.sl with capture := none }
        cl := { log := logRecord r s.cl.log, nextSeq := next32 s.cl.nextSeq, assembly := none } })
  | _, _ => { s with sl := { s.sl with capture := none }, cl := { s.cl with assembly := none } }

/-- CL completes the record at once with REALIGNED set; MU drops an OPEN window's accumulators (R66, R88), where R72 has them stay
as they are until the next opening (DESIGN CHOICE, log 41). -/
def cutShort (s : State) : State :=
  let realigned : State := { s with sl := { s.sl with capture := s.sl.capture.map fun c => { c with realigned := true } } }
  let dropOpen (w : MWindow) (t : State) : State :=
    if s.windowStatus w = some .opened then { t with mu := t.mu.drop w } else t
  dropOpen .off (dropOpen .on (completeCapture realigned))

end Sys2Proof.Machine
end

