-- ==== Sys2Proof/Machine/Scan.lean ====
section
/-! DEFINITION. The housekeeping scan: its start and its end, the channel alarms and the mains state (R174 to R180), and the
ranges of channels and calibration entries (R175, R183). -/

namespace Sys2Proof.Machine

/-- A lower and an upper end, both included. -/
structure Range where
  lo : Int
  hi : Int
  deriving DecidableEq, Repr

def Range.has (r : Range) (v : Int) : Bool := decide (r.lo ≤ v ∧ v ≤ r.hi)

/-- The range of each scan channel (R175). -/
def channelRanges : Vector Range 8 :=
  #v[⟨0, 500⟩, ⟨0, 10000⟩, ⟨-5000, 5000⟩, ⟨-5000, 5000⟩, ⟨-500, 1500⟩, ⟨0, 6500⟩, ⟨-32768, 32767⟩, ⟨-32768, 32767⟩]

/-- The calibration entry of a scan channel: entries 3 to 10 (R183). -/
def scanCal (i : Fin 8) : Fin 11 := ⟨i.val + 3, by omega⟩

/-- A channel's value at the end of a scan: the mean of its 240 samples, calibrated and clamped (R175). -/
def scanValue (s : State) (i : Fin 8) : Int :=
  let r := channelRanges.get i
  clampTo r.lo r.hi ((s.mu.cal.get (scanCal i)).apply (roundNearest (s.hs.sums.get i) 240))

/-- HS begins a scan at a second boundary, with no sample taken (R174). -/
def startScan (s : State) : State := { s with hs := { s.hs with scan := some 0, sums := Vector.replicate 8 0 } }

/-- Whether a round of samples falls in the tick that ends with the notice after the n-th: 240 rounds in 1000 ticks at an even
rate (R174; DEDUCED, log 6). -/
def scanRound (n : Nat) : Bool := decide (n * 6 / 25 < (n + 1) * 6 / 25)

/-- One round of samples: the code of each channel's input, the end code for an input beyond the range (R174, R175). -/
def addRound (sums inputs : Vector Int 8) : Vector Int 8 := Vector.ofFn fun i => sums.get i + convert (inputs.get i)

/-- HS counts a tick notice of a running scan, with the round of samples that falls in its tick, where one does (R174). -/
def Hs.notice (h : Hs) (inputs : Vector Int 8) : Hs :=
  match h.scan with
  | none => h
  | some n =>
    if n < Config.scanTicks then
      { h with scan := some (n + 1), sums := if scanRound n then addRound h.sums inputs else h.sums }
    else h

/-- SCAN_END is due. -/
def State.scanDue (s : State) : Bool :=
  match s.hs.scan with
  | none => false
  | some n => decide (Config.scanTicks ≤ n)

/-! ### The mains state -/

/-- What one scan of channel 0 does to the mains state: the declaration it makes, the mains count and the mark after it
(R179, R180). -/
def mainsStep (state : Mains) (count : Nat) (mark : Bool) (lim : Limits) (v : Int) : Option Mains × Nat × Bool :=
  match state with
  | .present =>
    if v < lim.low then (if count + 1 ≥ 3 then (some .lost, 0, mark) else (none, count + 1, mark)) else (none, 0, mark)
  | .lost =>
    if v ≥ lim.high then (if count + 1 ≥ 3 then (some .present, 0, mark) else (none, count + 1, mark)) else (none, 0, mark)
  | .unknown =>
    let mark' := mark && decide (v ≥ lim.high)
    if count + 1 ≥ 3 then (some (if mark' then .present else .lost), 0, mark') else (none, count + 1, mark')

/-- The mains step that the scan now due would take. -/
def State.mainsVerdict (s : State) : Option Mains × Nat × Bool :=
  mainsStep s.hs.mains s.hs.mainsCount s.hs.mainsMark (s.hs.channels.get 0).limits (scanValue s 0)

/-- The scan end now due will declare the mains LOST: a regulation tick of the same moment is frozen in either order
(R176; DEDUCED, log 19). -/
def State.scanDeclaresLost (s : State) : Bool := s.scanDue && decide (s.mainsVerdict.1 = some .lost)

/-! ### Channel alarms -/

/-- A value against its limits (R177). -/
inductive Side where
  | below | inside | above
  deriving DecidableEq, Repr

def Limits.side (l : Limits) (v : Int) : Side := if v < l.low then .below else if l.high < v then .above else .inside

/-- A change of alarm state: all three counts become 0 (R177). -/
def Channel.enter (a : Alarm) (c : Channel) : Channel := { c with alarm := a, low := 0, high := 0, inside := 0 }

/-- The counts and the alarm state of a channel after a scan end (R177). -/
def Channel.judge (c : Channel) (side : Side) : Channel :=
  match c.alarm, side with
  | .none, .below => if c.low + 1 ≥ 3 then c.enter .low else { c with low := c.low + 1, high := 0 }
  | .none, .above => if c.high + 1 ≥ 3 then c.enter .high else { c with high := c.high + 1, low := 0 }
  | .none, .inside => { c with low := 0, high := 0 }
  | .low, .inside => if c.inside + 1 ≥ 3 then c.enter .none else { c with inside := c.inside + 1, high := 0 }
  | .low, .below => { c with inside := 0, high := 0 }
  | .low, .above => if c.high + 1 ≥ 3 then c.enter .high else { c with high := c.high + 1, inside := 0 }
  | .high, .inside => if c.inside + 1 ≥ 3 then c.enter .none else { c with inside := c.inside + 1, low := 0 }
  | .high, .above => { c with inside := 0, low := 0 }
  | .high, .below => if c.low + 1 ≥ 3 then c.enter .low else { c with low := c.low + 1, inside := 0 }

/-- One channel's alarm updated from its stored value; a change raises CHANNEL (R176 step 3). -/
def judgeChannel (i : Fin 8) (s : State) : State :=
  let c := s.hs.channels.get i
  let c' := c.judge (c.limits.side (c.value.getD 0))
  let judged : State := { s with hs := { s.hs with channels := s.hs.channels.set i c' } }
  if c'.alarm = c.alarm then judged else raiseAll .channel judged

/-! ### The end of a scan -/

/-- A value stored with the fresh flags of all links set (R176 step 1). -/
def Channel.store (c : Channel) (v : Int) : Channel := { c with value := some v, fresh := ⟨true, true, true⟩ }

/-- Step 1 of R176: the eight values, the fresh flags, the last scan time; the scan progress becomes IDLE (R174). -/
def storeScan (s : State) : State :=
  { s with hs := { s.hs with
      scan := none
      lastScan := some s.tb.seconds
      channels := Vector.ofFn fun i => (s.hs.channels.get i).store (scanValue s i) } }

/-- Step 2 of R176: the mains state from channel 0, by the verdict taken on the values just stored. -/
def updateMains (verdict : Option Mains × Nat × Bool) (s : State) : State :=
  let counted : State := { s with hs := { s.hs with mainsCount := verdict.2.1, mainsMark := verdict.2.2 } }
  match verdict.1 with
  | none => counted
  | some m => declareMains m counted

/-- The end of a scan (R176). -/
def endScan (s : State) : State :=
  let stored := updateMains s.mainsVerdict (storeScan s)
  ([1, 2, 3, 4, 5, 6, 7] : List (Fin 8)).foldl (fun t i => judgeChannel i t) stored

/-- The ranges of a calibration entry's offset and gain (R183). -/
def calOffsetRange : Range := ⟨-512, 511⟩

def calGainRange (entry : Nat) : Range :=
  if entry = 0 then ⟨1000, 1500⟩ else if entry = 1 then ⟨2000, 3000⟩ else if entry = 2 then ⟨1200, 1800⟩ else ⟨1, 16383⟩

end Sys2Proof.Machine
end

