-- ==== Sys2Proof/Machine/Regulation.lean ====
section
/-! DEFINITION. Regulation: the tests and the application of settings (R24, R97 to R100), and the regulation tick with its block
averages, its inner loop, the overcurrent trip and the soft-start ramp (R108 to R117, R126). -/

namespace Sys2Proof.Machine

/-! ### Settings: ranges, arrival, application -/

/-- The absolute range of a regulation target (R97); MODE by its codes. -/
def RegTarget.range : RegTarget → Range
  | .mode => ⟨0, 2⟩
  | .currentSet => ⟨0, 11000⟩
  | .voltageSet => ⟨0, 6500⟩
  | .currentMin => ⟨0, 11000⟩
  | .currentLimit => ⟨0, 11000⟩
  | .voltageLimit => ⟨0, 6500⟩
  | .tripLevel => ⟨0, 11000⟩
  | .offTarget => ⟨-2500, 0⟩
  | .outerGain => ⟨0, 2048⟩
  | .deadband => ⟨0, 200⟩
  | .stepLimit => ⟨1, 1000⟩
  | .innerGain => ⟨1, 4096⟩
  | .rampRate => ⟨1, 100⟩
  | .overLimit => ⟨-2500, -800⟩
  | .underLimit => ⟨-1500, 0⟩

/-- The range of a profile field (R23); REJECTION by its codes. -/
def ProfileField.range : ProfileField → Range
  | .on => ⟨200, 60000⟩
  | .off => ⟨100, 20000⟩
  | .delay => ⟨5, 2000⟩
  | .window => ⟨10, 1000⟩
  | .onOffset => ⟨0, 2000⟩
  | .noise => ⟨1, 500⟩
  | .rejection => ⟨0, 2⟩

/-- The five duration fields, which hold multiples of 5 ms (R23). -/
def ProfileField.isDuration : ProfileField → Bool
  | .on | .off | .delay | .window | .onOffset => true
  | .noise | .rejection => false

def Setting.range : Setting → Range
  | .reg t => t.range
  | .profile f _ => f.range

/-- The value taken for a regulation target on arrival, against the settings in force (R98). -/
def RegTarget.clamped (t : RegTarget) (r : RegSettings) (v : Int) : Int :=
  match t with
  | .currentSet => clampTo r.imin r.ilim v
  | .voltageSet => min v r.vlim
  | .currentMin => min v Config.currentRating
  | .currentLimit => min v Config.currentRating
  | .voltageLimit => min v Config.voltageRating
  | .tripLevel => max v r.ilim
  | .mode | .offTarget | .outerGain | .deadband | .stepLimit | .innerGain | .rampRate | .overLimit | .underLimit => v

/-- The value taken on arrival: none where the value is refused with OUT_OF_RANGE (R24, R98). -/
def Setting.taken (x : Setting) (r : RegSettings) (v : Int) : Option Int :=
  if x.range.has v then
    match x with
    | .reg t => some (t.clamped r v)
    | .profile f _ => some (if f.isDuration then v / 5 * 5 else v)
  else none

/-- Whether RESUME accepts a value of an element marked valid: the range of R164, in which nothing is rounded or clamped. -/
def Setting.acceptsExact (x : Setting) (v : Int) : Bool :=
  x.range.has v &&
    match x with
    | .profile f _ => !f.isDuration || decide (v % 5 = 0)
    | .reg .currentMin => decide (v ≤ Config.currentRating)
    | .reg .currentLimit => decide (v ≤ Config.currentRating)
    | .reg .voltageLimit => decide (v ≤ Config.voltageRating)
    | .reg _ => true

/-- The mode of a code (R209). -/
def Mode.ofCode (v : Int) : Mode := if v = 0 then .current else if v = 1 then .voltage else .potentialOff

/-- The REJECTION setting of a code (R209). -/
def Rejection.ofCode (v : Int) : Rejection := if v = 0 then .none else if v = 1 then .hz50 else .hz60

/-- A regulation entry applied: the value is written and the relations of R97 restored (R99, R100). -/
def RegSettings.apply (r : RegSettings) (t : RegTarget) (v : Int) : RegSettings :=
  match t with
  | .mode => { r with mode := Mode.ofCode v }
  | .currentSet => { r with iset := clampTo r.imin r.ilim v }
  | .voltageSet => { r with vset := min v r.vlim }
  | .currentMin => let m := min v r.ilim; { r with imin := m, iset := max r.iset m }
  | .currentLimit => { r with ilim := v, imin := min r.imin v, iset := min r.iset v, trip := max r.trip v }
  | .voltageLimit => { r with vlim := v, vset := min r.vset v }
  | .tripLevel => { r with trip := max v r.ilim }
  | .offTarget => { r with target := v }
  | .outerGain => { r with outerGain := v }
  | .deadband => { r with deadband := v }
  | .stepLimit => { r with stepLimit := v }
  | .innerGain => { r with innerGain := v }
  | .rampRate => { r with rampRate := v }
  | .overLimit => { r with overLimit := v }
  | .underLimit => { r with underLimit := v }

/-- A profile field written (R26). -/
def Profile.write (p : Profile) (f : ProfileField) (v : Int) : Profile :=
  match f with
  | .on => { p with on := v.toNat }
  | .off => { p with off := v.toNat }
  | .delay => { p with delay := v.toNat }
  | .window => { p with window := v.toNat }
  | .onOffset => { p with onOffset := v.toNat }
  | .noise => { p with noise := v.toNat }
  | .rejection => { p with rejection := Rejection.ofCode v }

/-- One queue entry handed to its owner (R145). -/
def applyEntry (e : QEntry) (s : State) : State :=
  match e.setting with
  | .reg t => { s with rg := { s.rg with set := s.rg.set.apply t e.value } }
  | .profile f i =>
    { s with sl := { s.sl with profiles := s.sl.profiles.set i ((s.sl.profiles.get i).write f e.value) } }

/-! ### The regulation tick -/

/-- A regulation tick is frozen (R110, R176). The interval is as long as the notices that it held (DEDUCED, log 32). It is frozen by
a mains loss of the same moment in either order, so that a ramp does not end at it (R110, R176 against R126; DESIGN CHOICE, log 42),
and in RAMP too by a switch that was OPEN inside its interval (R110 against R126; DESIGN CHOICE, log 43). -/
def State.frozen (s : State) : Bool :=
  s.mu.switchOpenInside || s.mu.mainsBadInside || decide (s.hs.mains ≠ .present) || decide (s.mu.iAcc.count = 0)
    || s.scanDeclaresLost

/-- The measured current and voltage of the interval that ends (R109). -/
def State.measuredCurrent (s : State) : Int := clampTo 0 11000 ((s.mu.cal.get 1).apply s.mu.iAcc.mean)
def State.measuredVoltage (s : State) : Int := clampTo 0 6500 ((s.mu.cal.get 2).apply s.mu.vAcc.mean)

/-- MU completes the averages and RG records them; CL takes the current of a tick that is not frozen while its collection
is open, or was closed at this very moment (R80, R81); the next interval begins (R108 step 1, R109). -/
def takeAverages (frozen : Bool) (s : State) : State :=
  let measured : State :=
    if s.mu.iAcc.count = 0 then s
    else { s with rg := { s.rg with current := some s.measuredCurrent, voltage := some s.measuredVoltage } }
  { measured with
    cl := { s.cl with assembly := s.cl.assembly.map fun a =>
      if frozen = false ∧ (a.closed = false ∨ a.closedNow = true) then { a with current := some s.measuredCurrent } else a }
    mu := { s.mu with
      iAcc := Acc.zero, vAcc := Acc.zero, switchOpenInside := false
      mainsBadInside := s.moment.mainsBad || decide (s.hs.mains ≠ .present) }
    moment := { s.moment with regTick := false } }

/-- The ramp limit rises at an unfrozen regulation tick in RAMP; at 1000 permille the output enters RUN (R126). -/
def rampRise (frozen : Bool) (s : State) : State :=
  if frozen = false ∧ s.oc.output = .ramp then
    let lim := s.oc.rampLimit + s.rg.set.rampRate
    if lim ≥ 1000 then changeOutput .run { s with oc := { s.oc with rampLimit := 1000 } }
    else { s with oc := { s.oc with rampLimit := lim } }
  else s

/-- The gain step Δd (R112). -/
def gainStep (r : RegSettings) (i v : Int) : Int :=
  let e := match r.mode with
    | .current | .potentialOff => r.iset - i
    | .voltage => r.vset - v
  clampTo (-50) 50 (truncDiv (e * r.innerGain) 4096)

/-- The step after the limit override (R113). -/
def overrideStep (r : RegSettings) (i v step : Int) : Int :=
  if i > r.ilim ∨ v > r.vlim then -10 else if i = r.ilim ∨ v = r.vlim then min step 0 else step

/-- Which limit holds the output (R114). -/
def limitedBy (r : RegSettings) (i v : Int) : Option LimitKind :=
  if i ≥ r.ilim ∧ v ≥ r.vlim then some .both
  else if i ≥ r.ilim then some .current
  else if v ≥ r.vlim then some .voltage
  else none

/-- Limit override, limited status and duty update of an unfrozen tick that raised no trip (R112 to R115). -/
def updateDuty (i v : Int) (s : State) : State :=
  let step := overrideStep s.rg.set i v (gainStep s.rg.set i v)
  let lim := limitedBy s.rg.set i v
  let updated := sync { s with rg := { s.rg with limited := lim, duty := clampTo 0 s.oc.rampLimit (s.rg.duty + step) } }
  if s.rg.limited = none ∧ lim.isSome = true then raiseAll .limit updated else updated

/-- The inner loop at a regulation tick (R108 steps 2 to 6, R111, R116). Where a STAGE_FAULT taken first at the moment has put
the output in HELD, no trip is counted and no OVERCURRENT raised: one frame (R108, R152 against R160; DESIGN CHOICE, log 39). -/
def innerLoop (frozen : Bool) (s : State) : State :=
  if s.oc.output.drives then
    if frozen then s
    else
      let i := s.rg.current.getD 0
      let v := s.rg.voltage.getD 0
      if i ≥ s.rg.set.trip then
        if s.rg.tripStreak + 1 ≥ 2 then takeFault .overcurrent none { s with rg := { s.rg with tripStreak := 0 } }
        else updateDuty i v { s with rg := { s.rg with tripStreak := s.rg.tripStreak + 1 } }
      else updateDuty i v { s with rg := { s.rg with tripStreak := 0 } }
  else { s with rg := { s.rg with tripStreak := 0, limited := none } }

/-- A regulation tick (R108). `riseFirst` is the order of the ramp's rise and the duty update, which R115 leaves open. -/
def regulate (riseFirst : Bool) (s : State) : State :=
  let frozen := s.frozen
  let measured := takeAverages frozen s
  if riseFirst then innerLoop frozen (rampRise frozen measured) else rampRise frozen (innerLoop frozen measured)

end Sys2Proof.Machine
end

