-- ==== Sys2Proof/Machine/Timeline.lean ====
section
/-! DEFINITION. The survey timeline: the list examination and the life of a window (R37 to R42), apply points and re-anchoring
(R61, R62, R145, R146), the positions of a cycle (R50, R51, R59), re-phase notices (R65 to R67) and the end of a suspension
(R64). -/

namespace Sys2Proof.Machine

/-! ### The life of a window -/

/-- The timebase state as it stands once TB has made its own changes at this moment: LOST where an entry to LOST is due
(R37). -/
def State.tbSettled (s : State) : TbState :=
  if s.moment.lost = true ∧ s.tb.state = .holdover then .lost else s.tb.state

/-- An ACTIVE record becomes ENDING with a cause (R35, R39). -/
def WindowRec.toEnding (cause : EndCause) (w : WindowRec) : WindowRec :=
  match w.life with
  | .active c => { w with life := .ending c cause }
  | .scheduled | .ending _ _ => w

/-- Step 1 of an examination: an ACTIVE first entry whose E has come becomes ENDING with cause TIME (R39). -/
def endByTime (s : State) : State :=
  match s.sl.windows with
  | [] => s
  | w :: ws => if w.stop ≤ s.tb.seconds then { s with sl := { s.sl with windows := w.toEnding .time :: ws } } else s

/-- The notice outcome of an ENDING window's removal (R42). -/
def EndCause.outcome : EndCause → NoticeOutcome
  | .time => .ended
  | .delete => .deleted

/-- An ENDING first entry is removed at its cycle boundary (R42 steps 2 to 4); the positions of its next cycle lapse with
it. -/
def removeEnding (s : State) : State :=
  match s.sl.windows with
  | [] => s
  | w :: ws =>
    match w.life with
    | .ending _ cause =>
      let removed := addNotice w.id cause.outcome { s with sl := { s.sl with windows := ws } }
      sync { removed with
        rg := { removed.rg with overStreak := 0 }
        moment := { removed.moment with positions := [] } }
    | .scheduled | .active _ => s

/-- Whether step 3 of an examination removes a record (R38). -/
def WindowRec.skipped (now : Nat) (w : WindowRec) : Bool := decide (w.life = .scheduled) && decide (w.stop ≤ now)

/-- Step 3 of an examination: SCHEDULED entries whose E has passed are removed, one SKIPPED notice each, in list order
(R38). -/
def skipWindows (s : State) : State :=
  let gone := s.sl.windows.filter (WindowRec.skipped s.tb.seconds)
  let kept := s.sl.windows.filter fun w => !w.skipped s.tb.seconds
  gone.foldl (fun t w => addNotice w.id .skipped t) { s with sl := { s.sl with windows := kept } }

/-- The conditions of R40 for the first entry. -/
def State.mayActivate (s : State) (w : WindowRec) : Bool :=
  decide (w.life = .scheduled) && decide (w.start ≤ s.tb.seconds) && decide (s.tb.seconds < w.stop)
    && (decide (s.tbSettled = .locked) || decide (s.tbSettled = .holdover))
    && s.sl.windows.all fun x => decide (x.life = .scheduled)

/-- Step 4 of an examination: the first entry is activated where R40 allows (R41), with its switch demand (R53) and, with
the stack empty, its capture (R57). -/
def activateFirst (s : State) : State :=
  match s.sl.windows with
  | [] => s
  | w :: ws =>
    if s.mayActivate w then
      let anchor : CyclePart := { anchorSec := w.start, anchorTick := 0, anchorCycle := 0, cycle := 0, phase := 0 }
      let pair := derive (s.profileOf w) anchor s.tb.seconds s.tb.tick
      let part : CyclePart := { anchor with cycle := pair.1, phase := pair.2 }
      let active := sync (addNotice w.id .activated
        { s with sl := { s.sl with windows := { w with life := .active part } :: ws } })
      if s.sk.stack.isEmpty then openCapture pair.2 (decide (pair.2 ≠ 0)) active else active
    else s

/-! ### Apply points -/

/-- Whether an entry writes the profile that the ACTIVE or ENDING window names (R26). -/
def State.touchesActive (s : State) (e : QEntry) : Bool :=
  match s.active, e.setting with
  | some (w, _), .profile _ i => decide (w.profile = i)
  | _, _ => false

/-- SL re-anchors the window at the present moment (R62): at a cycle boundary the cycle number in progress is already the
one that begins here; elsewhere it is one more. Positions of the old geometry are set aside. -/
def reanchor (atBoundary : Bool) (s : State) : State :=
  match s.active with
  | none => s
  | some (_, c) =>
    let n := if atBoundary then c.cycle else c.cycle + 1
    let part : CyclePart :=
      { anchorSec := s.tb.seconds, anchorTick := s.tb.tick, anchorCycle := n, cycle := n, phase := 0 }
    sync { s with
      sl := { s.sl with windows := withCyclePart part s.sl.windows }
      moment := { s.moment with positions := [] } }

/-- Whether an entry waits for an apply point of a later moment: a RESUME has put it back in the queue at this one (R150). -/
def State.waits (s : State) (e : QEntry) : Bool := decide (e.setting ∈ s.moment.requeued)

/-- An apply point: CQ hands every entry to its owner in queue order, they leave the queue, the active profile's change
re-anchors once, and one CHANGE event is raised (R145, R146). The entries that a RESUME of the same moment has put back stay in the
queue for the next apply point (R150, which R61 and R145 do not except; log 38). -/
def applyPoint (atBoundary : Bool) (s : State) : State :=
  let due := s.cq.queue.filter fun e => !s.waits e
  if due.isEmpty then s
  else
    let written := due.foldl (fun t e => applyEntry e t) s
    let left : State := { written with cq := { queue := s.cq.queue.filter s.waits } }
    let anchored := if due.any s.touchesActive then reanchor atBoundary left else left
    raiseAll .change anchored

/-! ### Examinations away from a cycle boundary -/

/-- The list examination of a second boundary that is not a cycle boundary taken by R51, with its apply point (R37, R61):
one if the stack is non-empty or no window was ACTIVE or ENDING when the moment began. -/
def examineSecond (s : State) : State :=
  let ended := endByTime s
  let applied := if s.sk.stack.isEmpty = false ∨ s.active.isNone = true then applyPoint false ended else ended
  let examined := activateFirst (skipWindows applied)
  { examined with moment := { examined.moment with exam := false } }

/-- The list examination at a point where a staged time is applied that is not a second boundary (R17, R37): no apply point
is marked. -/
def examineStep (s : State) : State := activateFirst (skipWindows (endByTime s))

/-! ### The positions of a cycle -/

/-- The pair in progress is not about to be replaced: the next notice does not take the pair outright, or the pair that the
profile now in force gives is the one in progress (R28, R69). -/
def State.pairStands (s : State) : Bool :=
  match s.active with
  | none => true
  | some (w, c) => !s.sl.outright || decide (derive (s.profileOf w) c s.tb.seconds s.tb.tick = (c.cycle, c.phase))

/-- Step 6 of R59: with a window ACTIVE or ENDING its new cycle begins; with the stack empty a capture opens at entry phase
0, unmarked, unless an activation of step 5 has opened one (R57). At a boundary taken after a RESTART of the same moment whose
reloaded profile gives another pair none opens: the next notice takes that pair outright (R69; DESIGN CHOICE, log 14). -/
def beginCycle (s : State) : State :=
  let synced := sync s
  if s.sk.stack.isEmpty = true ∧ s.sl.capture = none ∧ s.pairStands = true then openCapture 0 false synced else synced

/-- A cycle boundary taken by R51 (R59). -/
def cycleBoundary (s : State) : State :=
  let second := s.moment.exam
  let completed := completeCapture s
  let removed := removeEnding (if second then endByTime completed else completed)
  let applied := if removed.sk.stack.isEmpty = true ∨ second = true then applyPoint true removed else removed
  let examined := if second then activateFirst (skipWindows applied) else applied
  beginCycle { examined with moment := { examined.moment with exam := false } }

/-- The off edge (R58): the switch demand follows and, while a capture is OPEN, CL is handed an off-edge notice. -/
def offEdge (s : State) : State :=
  let noticed := if s.sl.capture.isSome then offEdgeNotice s else s
  sync noticed

/-- The actions that belong to a position (R50, R58, R59). -/
def takePosition (p : Position) (s : State) : State :=
  match p with
  | .boundary => cycleBoundary s
  | .opens w => openWindow w s
  | .closes w => closeWindow w s
  | .offEdge => offEdge s

/-- The first of the positions still to be done is done. -/
def takeNext (s : State) : State :=
  match s.moment.positions with
  | [] => s
  | p :: ps => takePosition p { s with moment := { s.moment with positions := ps } }

/-- The first n of the positions still to be done are done, in cycle order. -/
def takeSome : Nat → State → State
  | 0, s => s
  | n + 1, s => takeSome n (takeNext s)

/-- The positions still to be done up to and including `p`, where `p` is among them (R51: in cycle order). -/
def takeThrough (p : Position) (s : State) : State :=
  if p ∈ s.moment.positions then takeSome (s.moment.positions.idxOf p + 1) s else s

/-- SL does everything that the notices of this moment have given it to do: the positions, then the examination of a second
boundary that no cycle boundary has done. -/
def finishTimeline (s : State) : State :=
  let done := takeSome s.moment.positions.length s
  if done.moment.exam then examineSecond done else done

/-! ### Notices from TB -/

/-- Whether a derived pair is later than the pair in progress (R51). -/
def later (n : Int) (φ : Nat) (c : CyclePart) : Bool := decide (c.cycle < n) || (decide (n = c.cycle) && decide (c.phase < φ))

/-- SL takes a tick notice (R51): the pair derived from the time now in force is taken if it is later, with the positions
it passes; after a large step or a RESTART it is taken outright (R68, R69). A capture that is OPEN then, which a RESUME or CLEAR
LOCKOUT has opened between the step and this notice, goes on as it stands, with the cycle number it opened with and its windows'
statuses (DESIGN CHOICE, log 44). -/
def tickNotice (s : State) : State :=
  match s.active with
  | none => { s with sl := { s.sl with outright := false } }
  | some (w, c) =>
    let p := s.profileOf w
    let pair := derive p c s.tb.seconds s.tb.tick
    if s.sl.outright then
      let taken := s.setPair pair.1 pair.2
      sync { taken with sl := { taken.sl with outright := false } }
    else if later pair.1 pair.2 c then
      let passed := p.between c.phase (pair.1 - c.cycle).toNat pair.2
      let taken := s.setPair pair.1 pair.2
      { taken with moment := { taken.moment with positions := taken.moment.positions ++ passed } }
    else s

/-- A window's status after a re-phase that leaves the cycle number unchanged (R67). A PENDING window whose start is the
phase landed at opens at once (DEDUCED, log 17). -/
def rephaseWindow (p : Profile) (φ : Nat) (w : MWindow) (s : State) : State :=
  match s.windowStatus w with
  | some .opened => { (s.setWindowStatus w .missed) with mu := s.mu.drop w }
  | some .pending =>
    if p.opensAt w < φ then s.setWindowStatus w .missed
    else if p.opensAt w = φ then openWindow w s
    else s
  | _ => s

/-- SL acts on a re-phase notice (R65): the pair that the time now in force gives is taken outright; a change of cycle
number cuts the capture short and opens another (R66), otherwise the capture goes on with REALIGNED set (R67). -/
def rephase (s : State) : State :=
  match s.active with
  | none => s
  | some (w, c) =>
    let p := s.profileOf w
    let pair := derive p c s.tb.seconds s.tb.tick
    let moved := sync (s.setPair pair.1 pair.2)
    if s.sl.capture.isSome = false then moved
    else if pair.1 = c.cycle then
      let marked : State :=
        { moved with sl := { moved.sl with capture := moved.sl.capture.map fun k => { k with realigned := true } } }
      rephaseWindow p pair.2 .off (rephaseWindow p pair.2 .on marked)
    else
      let cut := cutShort moved
      if cut.sk.stack.isEmpty then openCapture pair.2 true cut else cut

/-- The stack has become empty (R64): the switch demand follows the phase in progress and a capture opens at it, marked
REALIGNED. At a cycle boundary that is still to be taken no capture opens here: the boundary opens it, not marked (R64, second
paragraph). A frame pushed after RESTART and resumed within the same cycle opens a capture too, by R64, though R69 opens none
until the next cycle boundary (DESIGN CHOICE, log 37). Between a large step at a re-alignment, or a RESTART, and the next notice
the phase in progress is the one from before it, and the capture opens there (R64 with R68; DESIGN CHOICE, log 44). -/
def endSuspension (s : State) : State :=
  match s.active with
  | none => s
  | some (_, c) => if Position.boundary ∈ s.moment.positions then sync s else openCapture c.phase true (sync s)

end Sys2Proof.Machine
end

