-- ==== Sys2Proof/Machine/Timebase.lean ====
section
/-! DEFINITION. The timebase: what one tick notice does to every block (R1, R2), the wrap into the next second, staged time
(R15 to R19), pulse edges and re-alignment (R4 to R9), holdover and loss (R10 to R12). -/

namespace Sys2Proof.Machine

/-! ### Tick notices -/

/-- Bits that a link's transmitter sends in one tick of 1/2400 s (R190). -/
def Rate.bitsPerTick : Rate → Nat
  | .r9600 => 4
  | .r19200 => 8
  | .r38400 => 16
  | .r115200 => 48

/-- LC's part of a tick notice: the gap count advances while a frame is partial (R187), and a response moves on by the bits
of one tick (R190). -/
def Link.notice (k : Link) : Link :=
  { k with
    gap := if k.rx = .hunt then k.gap else min (k.gap + 1) 49
    txBits := if k.buffer.isSome then k.txBits + k.rate.bitsPerTick else k.txBits }

/-- NS's part of a tick notice: a write in progress grows older (R202). -/
def Ns.notice (n : Ns) : Ns := { n with write := n.write.map fun w => { w with age := w.age + 1 } }

/-- MU's part of a tick notice for the output converter (R109). -/
def Mu.notice (m : Mu) (x : Samples) : Mu :=
  { m with iAcc := m.iAcc.add (convert x.iout), vAcc := m.vAcc.add (convert x.vout) }

/-- A switch that stands OPEN from one moment to the next lies strictly inside the regulation interval (R110). -/
def Mu.stands (m : Mu) (sw : SwitchPos) : Mu := { m with switchOpenInside := m.switchOpenInside || decide (sw = .opened) }

/-- Everything a tick notice does but for TB's counts and SL: MU's output converter, HS, LC, NS, and the present moment,
which begins, with no potential code handed yet. -/
def beginMoment (x : Samples) (regMoment : Bool) (s : State) : State :=
  { s with
    mu := s.mu.notice x
    hs := s.hs.notice x.scan
    lc := { s.lc with links := s.lc.links.map Link.notice }
    ns := s.ns.notice
    cl := { s.cl with assembly := s.cl.assembly.map fun a => { a with closedNow := false } }
    tb := { s.tb with edgeAge := min (s.tb.edgeAge + 1) Config.maxEdgeAge }
    moment := { s.moment with
      wrap := none, regTick := regMoment, regMoment := regMoment, mainsBad := decide (s.hs.mains ≠ .present)
      tickCode := none } }

/-- SL takes the notice and MU offers the potential code of it to the measurement windows that are OPEN; to one that opens
later in the moment it is given as it opens, so that each window holds the code once (R2, R51, R58, R70). -/
def handNotice (x : Samples) (s : State) : State :=
  let offered := offerCode (convert x.pot) (tickNotice s)
  { offered with moment := { offered.moment with tickCode := some (convert x.pot) } }

/-- The tick counts at which a regulation tick falls by counting (R2). -/
def isRegulationCount (t : Nat) : Bool := decide (t % 240 = 0)

/-- A tick that falls below 2399: the tick count advances by one (R1, R2). -/
def countTick (x : Samples) (s : State) : State :=
  let t := s.tb.tick + 1
  let begun := beginMoment x (isRegulationCount t) s
  handNotice x { begun with tb := { begun.tb with tick := t } }

/-! ### Timebase states -/

/-- A change of timebase state, with its TIMING event (R3). -/
def enterTb (st : TbState) (s : State) : State := raiseAll .timing { s with tb := { s.tb with state := st } }

/-- HOLDOVER is entered when the edge age reaches 2402 in LOCKED (R10). -/
def enterHoldover (s : State) : State :=
  if s.tb.state = .locked ∧ s.tb.edgeAge ≥ Config.maxEdgeAge then
    enterTb .holdover { s with tb := { s.tb with holdoverSec := 0 } }
  else s

/-- LOST is entered where an advance of the holdover seconds has reached the limit, and TB acts on the loss action (R11,
R12). -/
def enterLostNow (s : State) : State :=
  if s.moment.lost = true ∧ s.tb.state = .holdover then
    let entered := enterTb .lost { s with moment := { s.moment with lost := false } }
    if s.tb.lossAction = .suspend ∧ s.active.isSome = true then takeFault .timingLost none entered else entered
  else s

/-- The holdover seconds advance at a second boundary taken by the wrap or by a re-alignment, in HOLDOVER and LOST; in
HOLDOVER they are then compared with the limit (R11). -/
def advanceHoldover (s : State) : State :=
  if s.tb.state = .holdover ∨ s.tb.state = .lost then
    let n := min (s.tb.holdoverSec + 1) (Config.count32 - 1)
    { s with
      tb := { s.tb with holdoverSec := n }
      moment := { s.moment with lost := s.moment.lost || (decide (s.tb.state = .holdover) && decide (s.tb.holdoverLimit ≤ n)) } }
  else s

/-! ### The staged time -/

/-- A staged time applied at its application point, which an accepted edge takes or not (R17 to R19). After a large step the
next notice is taken outright (R68; DEDUCED, log 18). -/
def applyStaged (atEdge : Bool) (s : State) : State :=
  match s.tb.staged with
  | none => s
  | some st =>
    let step : Int := (st.value : Int) - s.tb.seconds
    let set := raiseAll .timeSet { s with tb := { s.tb with seconds := st.value, tick := 0, staged := none } }
    let named :=
      if s.tb.state = .unset then
        enterTb (if atEdge then .locked else .holdover) { set with tb := { set.tb with holdoverSec := 0 } }
      else set
    if step = 0 then named
    else if step = 1 ∨ step = -1 then rephase named
    else if named.active.isSome then
      let faulted := takeFault .timeStep none named
      { faulted with sl := { faulted.sl with outright := true } }
    else named

/-! ### Second boundaries -/

/-- What TB hands on at a second boundary: the examination and the regulation tick are due, and HS begins its scan (R2,
R174). The mains state is looked at again (DESIGN CHOICE, log 33). -/
def markSecond (s : State) : State :=
  startScan { s with moment := { s.moment with
    exam := true, regTick := true, regMoment := true, mainsBad := decide (s.hs.mains ≠ .present) } }

/-- Whether the states other than LOCKED reach the application point of a staged time at a second boundary (R16). -/
def TbState.appliesAtBoundary (st : TbState) : Bool := decide (st ≠ .locked)

/-- The examination that SL makes of the new second, unless a cycle boundary of the same moment is still to be taken, which
makes it (R37, R59; DEDUCED, log 12). -/
def examineNow (s : State) : State :=
  if s.moment.exam = true ∧ Position.boundary ∉ s.moment.positions then examineSecond s else s

/-- The wrap that a tick at count 2399 has made due (R1): the counts, the holdover seconds, a staged time whose point this
is, and the notices. Where the wrap both reaches the holdover limit and applies a staged time, the staged time comes first and
the entry to LOST is left due (R11, R17; DESIGN CHOICE, log 36). -/
def takeWrap (s : State) : State :=
  match s.moment.wrap with
  | none => s
  | some x =>
    let begun := beginMoment x true s
    let counted := advanceHoldover { begun with tb := { begun.tb with tick := 0, seconds := next32 begun.tb.seconds } }
    let marked := markSecond counted
    handNotice x (if s.tb.state.appliesAtBoundary then applyStaged false marked else marked)

/-- SECOND_BOUNDARY: the wrap, and the examination of the new second. -/
def secondBoundaryStep (s : State) : State := examineNow (takeWrap s)

/-- REGULATION_TICK: at the wrap the count is changed first, and a staged time applied, so that the notice carries them (R2;
DEDUCED, log 12). Sent before SECOND_BOUNDARY or CYCLE_BOUNDARY, the tick comes before SL's examination and its apply point, which
stay due (R147). -/
def regulationStep (riseFirst : Bool) (s : State) : State :=
  let counted := takeWrap s
  if counted.moment.regTick then regulate riseFirst counted else counted

/-! ### Pulse edges -/

/-- The acceptance band: within 2 ticks of a second boundary (R4). -/
def inBand (c : Nat) : Bool := decide (c ≥ 2398 ∨ c ≤ 2)

/-- The difference of two counts taken around the second (R7). -/
def aroundSecond (a b : Nat) : Nat :=
  let d := if a ≤ b then b - a else a - b
  min d (Config.ticksPerSecond - d)

/-- Every two of the counts differ by at most 2 (R7). -/
def agree (streak : List Nat) : Bool := streak.all fun a => streak.all fun b => decide (aroundSecond a b ≤ 2)

/-- The edge recorded as the last edge (R4). -/
def recordEdge (c : Nat) (o : EdgeOutcome) (s : State) : State :=
  { s with tb := { s.tb with lastEdge := some ⟨c, s.tb.seconds, o⟩ } }

/-- A second boundary taken at an edge or a re-alignment: what an earlier moment of this second has left due for MU and HS
is done first (DESIGN CHOICE, log 13), then the seconds count advances and the tick count becomes 0 (R1, R5, R8). -/
def boundaryAtEdge (s : State) : State :=
  let ended := if s.scanDue then endScan s else s
  let ticked := if ended.moment.regTick then regulate true ended else ended
  markSecond { ticked with tb := { ticked.tb with tick := 0, seconds := next32 ticked.tb.seconds } }

/-- An accepted edge (R5, R6, R16, R17). Its correction gives MU no sample (DEDUCED, log 15). At a second boundary SL's positions
and its examination, and the regulation tick, are left due for the rows that take them in the sender's order (R59, R147; DESIGN
CHOICE, log 13). An edge that does not coincide with a wrap is a moment of its own for the entries that a RESUME has put back
(R4, R150; DESIGN CHOICE, log 38). -/
def acceptEdge (c : Nat) (s : State) : State :=
  let before := s.tb.state
  let boundary := decide (c ≥ 2398)
  let recorded := recordEdge c .accepted { s with
    moment := { s.moment with wrap := none, requeued := if s.moment.wrap.isSome then s.moment.requeued else [] } }
  let corrected :=
    if boundary then boundaryAtEdge recorded
    else { recorded with tb := { recorded.tb with tick := 0 } }
  let aligned : State :=
    { corrected with
      tb := { corrected.tb with rejectStreak := [], edgeAge := 0, holdoverSec := 0 }
      moment := { corrected.moment with tickCode := if c = 0 then corrected.moment.tickCode else none } }
  let locked := if before = .holdover ∨ before = .lost then enterTb .locked aligned else aligned
  let isPoint := locked.tb.staged.isSome && (boundary || decide (before = .locked))
  let applied := if isPoint then applyStaged true locked else locked
  let noticed := tickNotice applied
  if boundary then noticed else finishTimeline (if isPoint then examineStep noticed else noticed)

/-- A re-alignment to the third agreeing edge (R8, R9, R11, R16), the re-phase before a staged time (DEDUCED, log 15). It is no
tick, and a window that opens at it gets no code at that moment (R57, R70; DESIGN CHOICE, log 35). It is a moment of its own for the
entries that a RESUME has put back (R150; DESIGN CHOICE, log 38). Where it both reaches the holdover limit and applies a staged time,
the staged time comes first, with TIME_STEP after a large step, and the entry to LOST is left due after it (R11, R17; DESIGN CHOICE,
log 36). The re-phase too, which may complete a record, comes before an entry to LOST at the limit, with a staged time or without (R9,
R11; DESIGN CHOICE, log 36). A second boundary's examination and regulation tick are left due (R147; DESIGN CHOICE, log 13). -/
def realign (c : Nat) (s : State) : State :=
  let before := s.tb.state
  let emptied : State :=
    { s with tb := { s.tb with rejectStreak := [] }, moment := { s.moment with tickCode := none, requeued := [] } }
  if c ≥ 1200 then
    let stepped := rephase (raiseAll .timing (advanceHoldover (boundaryAtEdge emptied)))
    if before.appliesAtBoundary then applyStaged false stepped else stepped
  else rephase (raiseAll .timing { emptied with tb := { emptied.tb with tick := 0 } })

/-- A rejected edge (R7). -/
def rejectEdge (c : Nat) (s : State) : State :=
  let streak := s.tb.rejectStreak ++ [c]
  let recorded := recordEdge c .rejected s
  if streak.length < 3 then { recorded with tb := { recorded.tb with rejectStreak := streak } }
  else if agree streak then realign c recorded
  else { recorded with tb := { recorded.tb with rejectStreak := streak.drop (streak.length - 2) } }

/-- PULSE_EDGE: an entry to LOST and SL's work that earlier notices of the moment have made due come first; then the edge
is captured and judged (R4; DESIGN CHOICE, log 13). -/
def pulseEdgeStep (s : State) : State :=
  let ready := finishTimeline (enterLostNow s)
  let c := ready.tb.tick
  if inBand c then acceptEdge c ready else rejectEdge c ready

end Sys2Proof.Machine
end

