-- ==== Sys2Proof/Machine/Store.lean ====
section
/-! DEFINITION. The settings store: the snapshot of the settings in force and the end of a write (R201, R202), loading at
power-on (R203), and the steps of RESTART (R205). -/

namespace Sys2Proof.Machine

/-! ### Saving -/

/-- Every setting of R201 as it stands in force, with the bit rates that the image is to hold (R202). -/
def State.snapshot (s : State) (rates : PerLink Rate) : Image :=
  { reg := s.rg.set, profiles := s.sl.profiles, cal := s.mu.cal, limits := Vector.ofFn fun i => (s.hs.channels.get i).limits,
    holdoverLimit := s.tb.holdoverLimit, lossAction := s.tb.lossAction, autoRestart := s.oc.autoRestart, rates := rates }

/-- The bit rates in force on the three links; a reloaded rate that waits is not in force (DEDUCED, log 29). -/
def State.ratesInForce (s : State) : PerLink Rate := s.lc.links.map Link.rate

/-- A passed SAVE SETTINGS: the write begins with its snapshot (R202). -/
def beginWrite (rates : PerLink Rate) (s : State) : State :=
  { s with ns := { s.ns with write := some ⟨s.snapshot rates, 0⟩ } }

/-- The end of the write: the snapshot and its check value stand in the image, which is VALID, and a STORE event is raised
(R202). -/
def saveDone (s : State) : State :=
  match s.ns.write with
  | none => s
  | some w =>
    raiseAll .store { s with ns := { image := w.snapshot, imageGood := true, imageState := .valid, write := none } }

/-- The write has taken all of its 960 ticks (R202; DESIGN CHOICE, log 30). -/
def State.saveDue (s : State) : Bool :=
  match s.ns.write with
  | none => false
  | some w => decide (Config.writeTicks ≤ w.age)

/-! ### Loading -/

/-- The settings that loading gives: those of the image where its check value agrees, the defaults otherwise (R203). -/
def Ns.loaded (n : Ns) : Image := if n.imageGood then n.image else defaultImage

/-- The image read and verified (R203, R205 step 1). -/
def Ns.verified (n : Ns) : Ns := { n with imageState := if n.imageGood then .valid else .invalid }

/-- The STORE event of an image found INVALID (R203, R205 step 7). -/
def reportImage (s : State) : State := if s.ns.imageState = .invalid then raiseAll .store s else s

/-- A reset that falls during a write leaves the image unfinished: its check value does not agree (R202). -/
def Ns.cutWrite (n : Ns) : Ns := if n.write.isSome then { n with imageGood := false, write := none } else n

/-- Power-on reset (R203), with the inputs as they stand (DESIGN CHOICE, log 28); STGFLT is looked at when the reset ends (R132, R135). -/
def powerOnStep (s : State) : State :=
  let ns := s.ns.cutWrite.verified
  stageCheck (reportImage (State.powerOn ns.loaded ns s.pins s.pending))

/-! ### RESTART -/

/-- LC at RESTART: flags, masks and error flags cleared, attention deasserted, and the bit rate reloaded; a rate that
changes waits for the link (R200, R205 steps 4 and 5). -/
def Link.restart (rate : Rate) (k : Link) : Link :=
  { k with
    pendingRate := if rate = k.rate then none else some rate
    errors := ErrFlags.clear, flags := 0, mask := 0, attention := false }

/-- HS at RESTART, one channel: the limits reloaded and the counts 0 (R185). -/
def Channel.restart (l : Limits) (c : Channel) : Channel := { c with limits := l, low := 0, high := 0, inside := 0 }

/-- HS at RESTART (R185). -/
def Hs.restart (limits : Vector Limits 8) (h : Hs) : Hs :=
  { h with
    channels := Vector.ofFn fun i => (h.channels.get i).restart (limits.get i)
    mainsCount := 0
    mainsMark := h.mainsMark || decide (h.mains = .unknown) }

/-- RG at RESTART: the settings reloaded, duty value 0, streaks and limited status clear (R120). -/
def Rg.restart (set : RegSettings) (r : Rg) : Rg :=
  { r with set := set, duty := 0, limited := none, tripStreak := 0, overStreak := 0 }

/-- Steps 1 to 5 of R205, and the first part of step 6: what is discarded, what is reloaded, the links cleared, and the
output in STOPPED with cause RESET without an event. The pair of a window that runs is taken outright at the next tick
notice (R69; DEDUCED, log 26). -/
def reload (s : State) : State :=
  let ns := s.ns.verified
  let img := ns.loaded
  let s := discardCapture s
  sync { s with
    ns := ns
    tb := { s.tb with staged := none, holdoverLimit := img.holdoverLimit, lossAction := img.lossAction }
    sl := { s.sl with profiles := img.profiles, outright := s.active.isSome }
    mu := { s.mu with iAcc := Acc.zero, vAcc := Acc.zero, cal := img.cal }
    cq := { queue := [] }
    sk := { s.sk with stack := [], lockout := none }
    rg := s.rg.restart img.reg
    hs := s.hs.restart img.limits
    lc := { s.lc with links :=
      ⟨s.lc.links.sup.restart img.rates.sup, s.lc.links.tel.restart img.rates.tel, s.lc.links.svc.restart img.rates.svc⟩ }
    oc := { s.oc with output := .stopped .reset, autoRestart := img.autoRestart, restartPending := img.autoRestart } }

/-- The rest of step 6 of R205: STAGE_FAULT where STGFLT is asserted, otherwise RAMP where the flag is set and the mains is
PRESENT (R132, R135). -/
def releaseReset (s : State) : State :=
  if s.pins.stgflt then stageCheck s
  else if s.oc.restartPending = true ∧ s.hs.mains = .present then enterRamp s
  else s

/-- A RESTART that has passed R204 (R205). What is due at the moment stays due, and is taken on the restarted station (DEDUCED,
log 14). -/
def restartStation (s : State) : State := reportImage (releaseReset (reload s))

end Sys2Proof.Machine
end

