-- ==== Sys2Proof/Machine/Operands.lean ====
section
/-! DEFINITION. The bytes of the links: fields most significant byte first (R206), the check byte (R188), the codes of R209, and
the operand fields of the commands (R207, R210). -/

namespace Sys2Proof.Machine

/-! ### Fields -/

/-- The n bytes of a value, most significant first, two's complement (R206). -/
def beBytes (n : Nat) (v : Int) : Bytes :=
  (List.range n).map fun i => BitVec.ofInt 8 (v / ((256 ^ (n - 1 - i) : Nat) : Int))

def u8 (v : Int) : Bytes := beBytes 1 v
def u16 (v : Int) : Bytes := beBytes 2 v
def u32 (v : Int) : Bytes := beBytes 4 v

/-- An optional field: its bytes, or as many bytes of 0 where it is absent (R207). -/
def optBytes (n : Nat) (v : Option Int) : Bytes := beBytes n (v.getD 0)

/-- The unsigned field of n bytes at an offset. -/
def fieldU (bs : Bytes) (off n : Nat) : Nat := ((bs.drop off).take n).foldl (fun acc b => acc * 256 + b.toNat) 0

/-- The signed field of n bytes at an offset (R206). -/
def fieldS (bs : Bytes) (off n : Nat) : Int :=
  let v := fieldU bs off n
  if v < 2 ^ (8 * n - 1) then (v : Int) else (v : Int) - (2 ^ (8 * n) : Nat)

/-- Bit b of the byte at an offset. -/
def fieldBit (bs : Bytes) (off b : Nat) : Bool := (fieldU bs off 1).testBit b

/-- The numeric code of a flag. -/
def flagCode (b : Bool) : Nat := if b then 1 else 0

/-! ### The check byte -/

/-- One bit of the CRC with polynomial x⁸ + x² + x + 1 (R188). -/
def crcBit (c : Byte) : Byte := if c.msb then (c <<< 1) ^^^ 7 else c <<< 1

/-- One byte of the CRC, from its most significant bit (R188). -/
def crcByte (c b : Byte) : Byte := (List.range 8).foldl (fun x _ => crcBit x) (c ^^^ b)

/-- The check byte over the length byte and the payload, initial value 0, no final inversion (R188). -/
def checkByte (bs : Bytes) : Byte := bs.foldl crcByte 0

/-- A link frame: start byte, length byte, payload, check byte (R207). -/
def frameOf (payload : Bytes) : Bytes :=
  let len : Byte := BitVec.ofNat 8 payload.length
  [Config.startByte, len] ++ payload ++ [checkByte (len :: payload)]

/-! ### Codes (R209) -/

def linkCode : LinkId → Nat
  | .supervisor => 0 | .telemetry => 1 | .service => 2

def TbState.code : TbState → Nat
  | .unset => 0 | .locked => 1 | .holdover => 2 | .lost => 3

def LossAction.code : LossAction → Nat
  | .cont => 0 | .suspend => 1

def LossAction.ofCode : Nat → Option LossAction
  | 0 => some .cont
  | 1 => some .suspend
  | _ => none

def Mode.code : Mode → Nat
  | .current => 0 | .voltage => 1 | .potentialOff => 2

def Rejection.code : Rejection → Nat
  | .none => 0 | .hz50 => 1 | .hz60 => 2

def Life.code : Life → Nat
  | .scheduled => 0 | .active _ => 1 | .ending _ _ => 2

/-- The end cause as an optional byte: its code plus 1, 0 for absent (R209, R210). -/
def Life.causeCode : Life → Nat
  | .scheduled => 0
  | .active _ => 0
  | .ending _ .time => 1
  | .ending _ .delete => 2

def NoticeOutcome.code : NoticeOutcome → Nat
  | .added => 0 | .activated => 1 | .ended => 2 | .deleted => 3 | .skipped => 4

def OutKind.code : OutKind → Nat
  | .stopped => 0 | .ramp => 1 | .run => 2 | .held => 3 | .lockout => 4

/-- The stop cause as an optional byte (R209, R211). -/
def Output.causeCode : Output → Nat
  | .stopped .command => 1
  | .stopped .mains => 2
  | .stopped .reset => 3
  | .stopped .cleared => 4
  | .ramp | .run | .held | .lockout => 0

def Mains.code : Mains → Nat
  | .unknown => 0 | .present => 1 | .lost => 2

def Alarm.code : Alarm → Nat
  | .none => 0 | .low => 1 | .high => 2

def Format.code : Format → Nat
  | .output => 0 | .capture => 1 | .timeline => 2

def FaultKind.code : FaultKind → Nat
  | .overcurrent => 0 | .stageFault => 1 | .overprotection => 2 | .timingLost => 3 | .timeStep => 4

def Continuation.code : Continuation → Nat
  | .none => 0 | .ramp => 1 | .cycle => 2

def EdgeOutcome.code : EdgeOutcome → Nat
  | .accepted => 0 | .rejected => 1

def ImageState.code : ImageState → Nat
  | .valid => 0 | .invalid => 1

/-- A bit rate's code, 1 to 4 in rising order (R207, R211). -/
def Rate.code : Rate → Nat
  | .r9600 => 1 | .r19200 => 2 | .r38400 => 3 | .r115200 => 4

/-- The switch output: 0 CLOSED, 1 OPEN (R211). -/
def SwitchPos.code : SwitchPos → Nat
  | .closed => 0 | .opened => 1

/-- The limited status: 0 for clear, 1 to 3 (R209). -/
def limitCode : Option LimitKind → Nat
  | none => 0
  | some .current => 1
  | some .voltage => 2
  | some .both => 3

def Status.code : Status → Nat
  | .ok => 0 | .adjusted => 1 | .unknownCommand => 2 | .badLength => 3 | .outOfRange => 4 | .notReady => 5 | .past => 6
  | .overlap => 7 | .listFull => 8 | .queueFull => 9 | .noSuch => 10 | .held => 11 | .localHeld => 12 | .lockedOut => 13
  | .stale => 14 | .notTop => 15 | .format => 16 | .busy => 17

def RegTarget.code : RegTarget → Nat
  | .mode => 0 | .currentSet => 1 | .voltageSet => 2 | .offTarget => 3 | .currentMin => 4 | .currentLimit => 5
  | .voltageLimit => 6 | .tripLevel => 7 | .outerGain => 8 | .deadband => 9 | .stepLimit => 10 | .innerGain => 11
  | .rampRate => 12 | .overLimit => 13 | .underLimit => 14

def ProfileField.code : ProfileField → Nat
  | .on => 15 | .off => 16 | .delay => 17 | .window => 18 | .onOffset => 19 | .noise => 20 | .rejection => 21

def Setting.code : Setting → Nat
  | .reg t => t.code
  | .profile f _ => f.code

/-- The profile index of a setting that has one. -/
def Setting.index : Setting → Option Nat
  | .reg _ => none
  | .profile _ i => some i.val

/-- What a target code names (R209). -/
inductive TargetName where
  | reg (t : RegTarget)
  | profile (f : ProfileField)
  deriving DecidableEq, Repr

def TargetName.ofCode : Nat → Option TargetName
  | 0 => some (.reg .mode)
  | 1 => some (.reg .currentSet)
  | 2 => some (.reg .voltageSet)
  | 3 => some (.reg .offTarget)
  | 4 => some (.reg .currentMin)
  | 5 => some (.reg .currentLimit)
  | 6 => some (.reg .voltageLimit)
  | 7 => some (.reg .tripLevel)
  | 8 => some (.reg .outerGain)
  | 9 => some (.reg .deadband)
  | 10 => some (.reg .stepLimit)
  | 11 => some (.reg .innerGain)
  | 12 => some (.reg .rampRate)
  | 13 => some (.reg .overLimit)
  | 14 => some (.reg .underLimit)
  | 15 => some (.profile .on)
  | 16 => some (.profile .off)
  | 17 => some (.profile .delay)
  | 18 => some (.profile .window)
  | 19 => some (.profile .onOffset)
  | 20 => some (.profile .noise)
  | 21 => some (.profile .rejection)
  | _ => none

/-- The setting that a target code and an index name; the index is ignored for a target that is no profile target (R139,
R143). None: the code names no target, or a profile target's index lies outside 0 to 7. -/
def settingOf (code index : Nat) : Option Setting :=
  match TargetName.ofCode code with
  | none => none
  | some (.reg t) => some (.reg t)
  | some (.profile f) => if h : index < 8 then some (.profile f ⟨index, h⟩) else none

/-- A rate code of SAVE SETTINGS: the rate in force for 0, a rate for 1 to 4, nothing otherwise (R202, R207). -/
def rateOf (inForce : Rate) : Nat → Option Rate
  | 0 => some inForce
  | 1 => some .r9600
  | 2 => some .r19200
  | 3 => some .r38400
  | 4 => some .r115200
  | _ => none

/-- An optional auto-restart field (R123, R207): absent, a value, or a code other than the two. -/
def autoRestartField (args : Bytes) : Option (Option Bool) :=
  if args.length = 0 then some none
  else match fieldU args 0 1 with
    | 0 => some (some false)
    | 1 => some (some true)
    | _ => none

/-! ### The fields of RESUME (R210) -/

/-- One pending element as RESUME carries it (R162). -/
structure ResumeElement where
  valid  : Bool
  target : Nat
  index  : Nat
  value  : Int
  deriving DecidableEq, Repr

/-- The fields of a RESUME (R162, R210). -/
structure ResumeFields where
  seq      : Nat
  format   : Nat
  kind     : Nat
  iset     : Int
  ramp     : Bool
  cycle    : Bool
  elements : List ResumeElement
  deriving DecidableEq, Repr

def resumeElement (args : Bytes) (i : Nat) : ResumeElement :=
  let off := 8 + 7 * i
  { valid := fieldBit args off 0, target := fieldU args (off + 1) 1, index := fieldU args (off + 2) 1,
    value := fieldS args (off + 3) 4 }

/-- The fields after the command code; none where the length does not agree with the element count (R163, R207). Bits that
name nothing are not looked at (DESIGN CHOICE, log 21). -/
def resumeFields (args : Bytes) : Option ResumeFields :=
  let n := fieldU args 7 1
  if 8 ≤ args.length ∧ n ≤ 4 ∧ args.length = 8 + 7 * n then
    some { seq := fieldU args 0 2, format := fieldU args 2 1, kind := fieldU args 3 1, iset := fieldU args 4 2,
           ramp := fieldBit args 6 0, cycle := fieldBit args 6 1, elements := (List.range n).map (resumeElement args) }
  else none

end Sys2Proof.Machine
end

