-- ==== Sys2Proof/Machine/Links.lean ====
section
/-! DEFINITION. The links: receivers, receive FIFOs, response buffers, bit rates, and the command processor's choice of a frame
and its response (R186 to R192, R200, R207). -/

namespace Sys2Proof.Machine

/-! ### Receivers -/

/-- The partial frame is discarded, FRAMING is set and the receiver returns to HUNT (R186, R187). -/
def Link.framing (k : Link) : Link := { k with rx := .hunt, partialBytes := [], gap := 0 }.err .framing

/-- A complete command frame is offered to the receive FIFO (R189). -/
def Link.offer (payload : Bytes) (k : Link) : Link :=
  if k.fifo.length < Config.maxFifo then { k with fifo := k.fifo ++ [payload] } else k.err .overrun

/-- The length that a partial frame declares (R186). -/
def declaredLength : Bytes → Nat
  | [] => 0
  | len :: _ => len.toNat

/-- The check byte is tested (R188); either way the receiver returns to HUNT (R186). -/
def Link.check (b : Byte) (k : Link) : Link :=
  let hunting : Link := { k with rx := .hunt, partialBytes := [], gap := 0 }
  if b = checkByte k.partialBytes then hunting.offer k.partialBytes.tail else hunting.err .check

/-- One byte taken by a receiver (R186). -/
def Link.receive (b : Byte) (stopGood : Bool) (k : Link) : Link :=
  match k.rx with
  | .hunt =>
    if stopGood = true ∧ b = Config.startByte then { k with rx := .length, partialBytes := [], gap := 0 } else k
  | .length =>
    if stopGood = true ∧ 1 ≤ b.toNat ∧ b.toNat ≤ 240 then { k with rx := .payload, partialBytes := [b], gap := 0 }
    else k.framing
  | .payload =>
    if stopGood then
      let got := k.partialBytes ++ [b]
      { k with
        rx := if got.length - 1 = declaredLength got then .check else .payload
        partialBytes := got
        gap := 0 }
    else k.framing
  | .check => if stopGood then k.check b else k.framing

/-- The gap count has passed 48 in a partial frame (R187). -/
def Link.gapDue (k : Link) : Bool := decide (k.rx ≠ .hunt) && decide (k.gap > 48)

/-- GAP_EXPIRY on a link (R187). -/
def Link.expireGap (k : Link) : Link := if k.gapDue then k.framing else k

/-! ### Responses and bit rates -/

/-- The response's last stop bit has been sent: the buffer becomes FREE (R190). -/
def Link.sent (k : Link) : Link := { k with buffer := none, txBits := 0 }

/-- The last stop bit may have been sent: the notices since the response was placed tell the time elapsed to within two
ticks (R190; DEDUCED, log 7). -/
def Link.maySend (k : Link) : Bool :=
  match k.buffer with
  | none => false
  | some bs => decide (10 * bs.length ≤ k.txBits + 2 * k.rate.bitsPerTick)

/-- RESPONSE_SENT on a link (R190). -/
def Link.finish (k : Link) : Link := if k.maySend then k.sent else k

/-- The tick notices have carried every bit of the response, ten a byte (R190). -/
def Link.sentDue (k : Link) : Bool :=
  match k.buffer with
  | none => false
  | some bs => decide (10 * bs.length ≤ k.txBits)

/-- A reloaded bit rate is taken once the buffer is FREE and the receiver is in HUNT (R200). -/
def Link.switchRate (k : Link) : Link :=
  match k.pendingRate with
  | none => k
  | some r => if k.buffer = none ∧ k.rx = .hunt then { k with rate := r, pendingRate := none } else k

/-! ### The command processor -/

/-- A link is eligible while its FIFO holds a frame and its buffer is FREE (R191). -/
def Link.eligible (k : Link) : Bool := !k.fifo.isEmpty && k.buffer.isNone

/-- The links in the rotating order counted from the link after the last served (R191). -/
def rotation : LinkId → List LinkId
  | .supervisor => [.telemetry, .service, .supervisor]
  | .telemetry => [.service, .supervisor, .telemetry]
  | .service => [.supervisor, .telemetry, .service]

/-- The link that the processor serves next: the first eligible one in the rotating order (R191). -/
def State.nextLink (s : State) : Option LinkId := (rotation s.lc.lastServed).find? fun l => (s.link l).eligible

/-- The frame that the processor takes next, with its link (R191). -/
def State.nextFrame (s : State) : Option (LinkId × Bytes) :=
  match s.nextLink with
  | none => none
  | some l => (s.link l).fifo.head?.map fun p => (l, p)

/-- The command code of a frame: the first byte of its payload (R192). -/
def codeOf (payload : Bytes) : Nat := fieldU payload 0 1

/-- The frame leaves the FIFO and its link becomes the last served (R189, R191). A bit rate that the link was to take as
soon as its buffer was FREE is taken first (R200; DESIGN CHOICE, log 25). -/
def takeFrame (l : LinkId) (s : State) : State :=
  let switched := s.onLink l fun k => { k.switchRate with fifo := k.switchRate.fifo.tail }
  { switched with lc := { switched.lc with lastServed := l } }

/-- The error flags in bits 5, 6 and 7 of the result byte (R207). -/
def ErrFlags.word (e : ErrFlags) : Nat := bitAt 5 e.overrun + bitAt 6 e.check + bitAt 7 e.framing

/-- The payload of a response: the code answered, the result byte, the result fields (R192, R207). -/
def responsePayload (code : Nat) (e : ErrFlags) (r : Reply) : Bytes := u8 code ++ u8 (r.status.code + e.word : Nat) ++ r.fields

/-- The response is placed in the link's buffer and reports and clears the error flags (R190, R192). -/
def Link.respond (code : Nat) (r : Reply) (k : Link) : Link :=
  { k with buffer := some (frameOf (responsePayload code k.errors r)), txBits := 0, errors := ErrFlags.clear }

/-- What a command does: from the requesting link and the bytes after the command code, its reply and the state after. -/
abbrev Command := LinkId → Bytes → State → Reply × State

/-- The processor takes the frame and carries the command out, whole, and places its response (R191, R192). -/
def serve (cmd : Command) (l : LinkId) (payload : Bytes) (s : State) : State :=
  let out := cmd l payload.tail (takeFrame l s)
  out.2.onLink l (Link.respond (codeOf payload) out.1)

/-- The step of a command row: it happens where the processor's next frame carries the row's code (R191, R192). -/
def serveCode (code : Nat) (cmd : Command) (s : State) : State :=
  match s.nextFrame with
  | none => s
  | some (l, payload) => if codeOf payload = code then serve cmd l payload s else s

end Sys2Proof.Machine
end

