-- ==== Sys2Proof/Machine/Report.lean ====
section
/-! DEFINITION. The result fields of the responses: the layouts of R208, R210, R211 and R212. -/

namespace Sys2Proof.Machine

/-- A refusal carries nothing after the result byte (R207). -/
def refusal (st : Status) : Reply := { status := st, fields := [] }

/-- OK with result fields. -/
def okWith (fields : Bytes) : Reply := { status := .ok, fields := fields }

/-- A flag as one byte. -/
def flagByte (b : Bool) : Bytes := u8 (flagCode b : Nat)

/-- n bytes of 0. -/
def zeros (n : Nat) : Bytes := List.replicate n 0

/-! ### TB and SL -/

/-- READ TIME (R20, R212). -/
def timeReport (t : Tb) : Bytes :=
  u32 t.seconds ++ u16 t.tick ++ u8 t.state.code ++ u32 t.holdoverSec ++ u32 t.holdoverLimit ++ u8 t.lossAction.code
    ++ u8 (bitAt 0 t.staged.isSome + bitAt 1 t.lastEdge.isSome : Nat)
    ++ optBytes 4 (t.staged.map fun x => (x.value : Int)) ++ optBytes 1 (t.staged.map fun x => (linkCode x.origin : Int))
    ++ optBytes 2 (t.lastEdge.map fun x => (x.count : Int)) ++ optBytes 4 (t.lastEdge.map fun x => (x.sec : Int))
    ++ optBytes 1 (t.lastEdge.map fun x => (x.outcome.code : Int)) ++ u8 t.rejectStreak.length

/-- One profile (R212). -/
def profileBytes (i : Nat) (p : Profile) : Bytes :=
  u8 i ++ u16 p.on ++ u16 p.off ++ u16 p.delay ++ u16 p.window ++ u16 p.onOffset ++ u16 p.noise ++ u8 p.rejection.code

/-- One window notice (R210). -/
def noticeBytes (n : Notice) : Bytes := u16 n.number ++ u16 n.windowId ++ u8 n.outcome.code ++ u32 n.sec

/-- The cycle part of the ACTIVE or ENDING entry (R210). -/
def cyclePartBytes (c : CyclePart) : Bytes :=
  u32 c.anchorSec ++ u16 c.anchorTick ++ u32 c.anchorCycle ++ u32 c.cycle ++ u32 c.phase

/-- One entry of the window list, with its cycle part where it has one (R210). -/
def windowBytes (w : WindowRec) : Bytes :=
  u16 w.id ++ u32 w.start ++ u32 w.stop ++ u8 w.profile.val ++ u8 (linkCode w.origin) ++ u8 w.life.code ++ u8 w.life.causeCode
    ++ match w.life.part with | none => [] | some c => cyclePartBytes c

/-- READ WINDOWS from a first position (R36, R210). -/
def windowsReport (first : Nat) (sl : Sl) : Bytes :=
  u8 sl.windows.length ++ u16 sl.nextId ++ u16 sl.noticeNo ++ u8 sl.notices.length
    ++ (sl.notices.flatMap noticeBytes ++ zeros (9 * (Config.maxNotices - sl.notices.length)))
    ++ ((sl.windows.drop first).take 8).flatMap windowBytes

/-! ### CL -/

/-- The flags word of a record with the presence bits 9 to 13 (R208). -/
def CRecord.word (r : CRecord) : Nat :=
  r.flags.word + bitAt 9 r.offTime.isSome + bitAt 10 r.onPot.isSome + bitAt 11 r.offPot.isSome + bitAt 12 r.current.isSome
    + bitAt 13 r.inducedAc.isSome

/-- One capture record, 28 bytes (R208). -/
def recordBytes (r : CRecord) : Bytes :=
  u32 r.seq ++ u16 r.windowId ++ u32 r.cycle ++ optBytes 4 (r.offTime.map fun t => (t.1 : Int))
    ++ optBytes 2 (r.offTime.map fun t => (t.2 : Int)) ++ optBytes 2 r.onPot ++ optBytes 2 r.offPot ++ optBytes 2 r.spread
    ++ optBytes 2 r.current ++ optBytes 2 r.inducedAc ++ u16 r.word

/-- The position of a requested sequence number: how many records to pass over, and GAP (R93, R94). None: beyond. -/
def seekRecord (log : List CRecord) (k : Nat) : Option (Nat × Bool) :=
  match log with
  | [] => none
  | r :: _ =>
    let d := signedDiff k r.seq
    if d < 0 then some (0, true) else if d < log.length then some (d.toNat, false) else none

/-- READ CAPTURES from sequence number k, at most c records (R94, R208). -/
def capturesReport (k c : Nat) (cl : Cl) : Bytes :=
  let at? := seekRecord cl.log k
  let recs := match at? with | none => [] | some (d, _) => (cl.log.drop d).take c
  let gap := match at? with | none => false | some (_, g) => g
  u8 (recs.length + bitAt 6 (!cl.log.isEmpty) + bitAt 7 gap : Nat)
    ++ optBytes 4 (cl.log.head?.map fun r => (r.seq : Int)) ++ u32 cl.nextSeq ++ recs.flatMap recordBytes

/-! ### CQ -/

/-- One entry of READ QUEUE (R212). -/
def queueEntryBytes (e : QEntry) : Bytes :=
  u8 e.setting.code ++ u8 (match e.setting.index with | none => 0 | some i => (i : Int) + 1) ++ u32 e.value
    ++ u8 (linkCode e.origin)

/-- The kind of the next apply point: SECOND 0, CYCLE 1 (R144). -/
def State.nextApply (s : State) : Nat := if s.active.isSome ∧ s.sk.stack.isEmpty then 1 else 0

/-- READ QUEUE (R144, R212). -/
def queueReport (s : State) : Bytes :=
  u8 s.cq.queue.length ++ u8 s.sk.stack.length ++ u8 s.nextApply ++ s.cq.queue.flatMap queueEntryBytes

/-! ### Settings and status -/

/-- The regulation part of READ SETTINGS, 28 bytes (R212). -/
def regSettingsBytes (r : RegSettings) : Bytes :=
  u8 r.mode.code ++ u16 r.iset ++ u16 r.vset ++ u16 r.imin ++ u16 r.ilim ++ u16 r.vlim ++ u16 r.trip ++ u16 r.target
    ++ u16 r.outerGain ++ u16 r.deadband ++ u16 r.stepLimit ++ u16 r.innerGain ++ u8 r.rampRate ++ u16 r.overLimit
    ++ u16 r.underLimit

def calBytes (c : Cal) : Bytes := u16 c.coff ++ u16 c.cgain

/-- READ SETTINGS (R118, R212). -/
def settingsReport (s : State) : Bytes :=
  regSettingsBytes s.rg.set ++ (u32 s.tb.holdoverLimit ++ u8 s.tb.lossAction.code) ++ flagByte s.oc.autoRestart
    ++ s.mu.cal.toList.flatMap calBytes
    ++ (u8 s.lc.links.sup.rate.code ++ u8 s.lc.links.tel.rate.code ++ u8 s.lc.links.svc.rate.code)
    ++ (u8 s.ns.imageState.code ++ flagByte s.ns.write.isSome)

/-- The regulation part of READ STATUS, 15 bytes (R118, R211). -/
def regStatus (r : Rg) : Bytes :=
  u8 r.set.mode.code ++ u16 r.set.iset ++ u16 r.set.vset ++ u16 r.duty
    ++ u8 (bitAt 0 r.current.isSome + bitAt 1 r.voltage.isSome : Nat) ++ optBytes 2 r.current ++ optBytes 2 r.voltage
    ++ u8 (limitCode r.limited) ++ u8 r.tripStreak ++ u8 r.overStreak

/-- The output part of READ STATUS, 11 bytes (R136, R211). -/
def outStatus (s : State) : Bytes :=
  u8 s.oc.output.kind.code ++ u8 s.oc.output.causeCode ++ flagByte s.oc.restartPending ++ flagByte s.oc.autoRestart
    ++ u16 s.oc.rampLimit ++ u16 s.oc.drive ++ u8 s.oc.switch.code ++ u8 s.hs.mains.code
    ++ u8 (bitAt 0 s.pins.stgflt + bitAt 1 s.pins.localIn : Nat)

/-- The link part of READ STATUS, 8 bytes (R199, R211). -/
def linkStatus (k : Link) : Bytes :=
  u16 k.flags.toNat ++ u16 k.mask.toNat ++ flagByte k.attention ++ u8 k.rate.code ++ u8 k.fifo.length ++ zeros 1

/-- READ STATUS for a link (R211). -/
def statusReport (l : LinkId) (s : State) : Bytes := regStatus s.rg ++ outStatus s ++ linkStatus (s.link l)

/-! ### HS -/

/-- One channel of READ CHANNELS; channel 0 has no alarm state (R212). -/
def channelBytes (l : LinkId) (i : Nat) (c : Channel) : Bytes :=
  u8 (bitAt 0 c.value.isSome + bitAt 1 (c.fresh.get l) : Nat) ++ optBytes 2 c.value ++ u16 c.limits.low ++ u16 c.limits.high
    ++ u8 (if i = 0 then 0 else c.alarm.code : Nat)

/-- READ CHANNELS (R182, R212). -/
def channelsReport (l : LinkId) (h : Hs) : Bytes :=
  u8 h.mains.code ++ flagByte h.lastScan.isSome ++ optBytes 4 (h.lastScan.map fun t => (t : Int))
    ++ h.channels.toList.zipIdx.flatMap fun ci => channelBytes l ci.2 ci.1

/-! ### SK -/

/-- One pending element of a frame, 8 bytes (R210). -/
def elementBytes (e : PElement) : Bytes :=
  u8 (bitAt 0 e.valid + bitAt 1 e.entry.setting.index.isSome : Nat) ++ u8 e.entry.setting.code
    ++ optBytes 1 (e.entry.setting.index.map fun i => (i : Int)) ++ u32 e.entry.value ++ u8 (linkCode e.entry.origin)

/-- A fault frame (R210). -/
def faultFrameBytes (f : Frame) : Bytes :=
  u16 f.seq ++ u8 f.kind.format.code ++ u8 f.kind.code ++ u32 f.sec ++ u16 f.tick ++ u8 f.output.code ++ u8 f.mode.code
    ++ u16 f.iset ++ u16 f.duty ++ u8 (bitAt 0 f.timeline.isSome + bitAt 1 f.capture.isSome : Nat) ++ u8 f.continuation.code
    ++ optBytes 2 (f.timeline.map fun t => (t.windowId : Int)) ++ optBytes 4 (f.timeline.map TimelinePart.cycle)
    ++ optBytes 4 (f.timeline.map fun t => (t.phase : Int))
    ++ optBytes 4 (f.capture.map fun c => (c.seq : Int)) ++ optBytes 2 (f.capture.map CapturePart.offPot)
    ++ u8 f.pendingList.length ++ f.pendingList.flatMap elementBytes

/-- READ FRAME at a position, 0 the top (R161, R210). An absent frame is sent as 35 bytes of 0 (DESIGN CHOICE,
log 16). -/
def frameReport (pos : Nat) (k : Sk) : Bytes :=
  u8 k.stack.length
    ++ (flagByte k.lockout.isSome ++ optBytes 1 (k.lockout.map fun r => (r.kind.code : Int))
      ++ optBytes 4 (k.lockout.map fun r => (r.sec : Int)) ++ optBytes 2 (k.lockout.map fun r => (r.tick : Int)))
    ++ u16 k.nextFrame
    ++ match k.stack[pos]? with
      | none => flagByte false ++ zeros 35
      | some f => flagByte true ++ faultFrameBytes f

/-- The field of STALE and NOT_TOP: the top frame's sequence number or its absence (R166, R207). -/
def topField (k : Sk) : Bytes :=
  flagByte (!k.stack.isEmpty) ++ optBytes 2 (k.stack.head?.map fun f => (f.seq : Int))

end Sys2Proof.Machine
end

