-- ==== Sys2Proof/Machine/TimeCommands.lean ====
section
/-! DEFINITION. What the commands of TB and SL do: SET TIME, READ TIME, ADD WINDOW, DELETE WINDOW, READ WINDOWS, READ PROFILE
(R14, R15, R20, R27, R30, R32 to R36). A command answers with its reply and the state after it. -/

namespace Sys2Proof.Machine

/-- The Telemetry link while LOCAL is asserted (R193). -/
def State.barred (s : State) (l : LinkId) : Bool := decide (l = .telemetry) && s.pins.localIn

/-! ### SET TIME and READ TIME -/

/-- The tests of SET TIME (R14). Bits of the presence byte that name nothing are not looked at (DESIGN CHOICE, log 21), and
the length is tested where the rule puts a missing field (DEDUCED, log 24; so for each command below). -/
def setTimeTest (l : LinkId) (args : Bytes) (s : State) : Option Status :=
  if s.barred l then some .localHeld
  else if args.length ≠ 10 ∨ (fieldBit args 0 0 || fieldBit args 0 1 || fieldBit args 0 2) = false then some .badLength
  else if (fieldBit args 0 0 = true ∧ fieldU args 1 4 = 0)
      ∨ (fieldBit args 0 1 = true ∧ ¬ (10 ≤ fieldU args 5 4 ∧ fieldU args 5 4 ≤ 86400))
      ∨ (fieldBit args 0 2 = true ∧ LossAction.ofCode (fieldU args 9 1) = none) then some .outOfRange
  else none

/-- T staged with its origin; the one it replaces raises SUPERSEDED on its origin (R15). -/
def stageTime (l : LinkId) (t : Nat) (s : State) : State :=
  let staged : State := { s with tb := { s.tb with staged := some ⟨t, l⟩ } }
  match s.tb.staged with
  | none => staged
  | some old => raiseOn old.origin .superseded staged

/-- SET TIME (R14, R15). -/
def cmdSetTime : Command := fun l args s =>
  match setTimeTest l args s with
  | some st => (refusal st, s)
  | none =>
    let limited : State :=
      if fieldBit args 0 1 then { s with tb := { s.tb with holdoverLimit := fieldU args 5 4 } } else s
    let acting : State :=
      if fieldBit args 0 2 then
        { limited with tb := { limited.tb with lossAction := (LossAction.ofCode (fieldU args 9 1)).getD s.tb.lossAction } }
      else limited
    (okWith [], if fieldBit args 0 0 then stageTime l (fieldU args 1 4) acting else acting)

/-- READ TIME (R20). -/
def cmdReadTime : Command := fun _ args s =>
  if args.length ≠ 0 then (refusal .badLength, s) else (okWith (timeReport s.tb), s)

/-! ### ADD WINDOW -/

/-- The next ID that no entry holds, counted from n (R30); at most `fuel` values are passed over. -/
def freeId : Nat → List Nat → Nat → Nat
  | 0, _, n => n
  | fuel + 1, held, n => if n ∈ held then freeId fuel held (next16 n) else n

/-- The ID that the next record gets (R30). -/
def Sl.assignId (sl : Sl) : Nat := freeId 17 (sl.windows.map WindowRec.id) sl.nextId

/-- An entry that a new interval [a, b) meets, or before which it would start while the entry runs (R32 test 6). -/
def WindowRec.meets (w : WindowRec) (a b : Nat) : Bool :=
  (decide (a < w.stop) && decide (w.start < b)) || (w.life.part.isSome && decide (a < w.start))

/-- The tests of ADD WINDOW (R32). -/
def addWindowTest (l : LinkId) (args : Bytes) (s : State) : Option Status :=
  let a := fieldU args 0 4
  let b := fieldU args 4 4
  if s.barred l then some .localHeld
  else if args.length ≠ 9 then some .badLength
  else if s.tb.state = .unset then some .notReady
  else if a < s.tb.seconds + 2 then some .past
  else if b ≤ a ∨ b - a > 604800 ∨ fieldU args 8 1 > 7 then some .outOfRange
  else if s.sl.windows.any fun w => w.meets a b then some .overlap
  else if s.sl.windows.length ≥ Config.maxWindows then some .listFull
  else none

/-- A record inserted in order of start (R33). -/
def insertWindow (w : WindowRec) (ws : List WindowRec) : List WindowRec :=
  ws.takeWhile (fun x => decide (x.start < w.start)) ++ w :: ws.dropWhile (fun x => decide (x.start < w.start))

/-- A SCHEDULED window placed in the list with the next free ID and its ADDED notice (R30, R33). -/
def placeWindow (l : LinkId) (a b : Nat) (p : Fin 8) (s : State) : State :=
  let id := s.sl.assignId
  addNotice id .added
    { s with sl := { s.sl with
        windows := insertWindow ⟨id, a, b, p, l, .scheduled⟩ s.sl.windows
        nextId := next16 id } }

/-- ADD WINDOW (R32, R33). -/
def cmdAddWindow : Command := fun l args s =>
  match addWindowTest l args s with
  | some st => (refusal st, s)
  | none =>
    (okWith (u16 s.sl.assignId), placeWindow l (fieldU args 0 4) (fieldU args 4 4) (Fin.ofNat 8 (fieldU args 8 1)) s)

/-! ### DELETE WINDOW -/

/-- The window that DELETE WINDOW or a RESUME with NONE ends: E becomes now or S + 1, whichever is greater, and it is
ENDING with cause DELETE (R35, R169). An ACTIVE entry whose E has come, which stands so only until the examination that is due at
the moment, is ENDING with cause TIME and keeps its E (R39), so that no interval grows (R29; DEDUCED, log 40). -/
def WindowRec.cut (now : Nat) (w : WindowRec) : WindowRec :=
  match w.life with
  | .active c =>
    if w.stop ≤ now then w.toEnding .time else { w with stop := max now (w.start + 1), life := .ending c .delete }
  | .scheduled | .ending _ _ => w

/-- The entry that holds an ID. -/
def State.windowOf (s : State) (id : Nat) : Option WindowRec := s.sl.windows.find? fun w => decide (w.id = id)

/-- The entry that holds an ID ends if it is ACTIVE (R35, R169). -/
def endWindow (id : Nat) (s : State) : State :=
  { s with sl := { s.sl with windows := s.sl.windows.map fun w => if w.id = id then w.cut s.tb.seconds else w } }

/-- A window deleted by its ID (R34, R35). -/
def deleteWindow (w : WindowRec) (s : State) : State :=
  if w.life = .scheduled then
    addNotice w.id .deleted { s with sl := { s.sl with windows := s.sl.windows.filter fun x => decide (x.id ≠ w.id) } }
  else endWindow w.id s

/-- DELETE WINDOW (R34, R35). -/
def cmdDeleteWindow : Command := fun l args s =>
  if s.barred l then (refusal .localHeld, s)
  else if args.length ≠ 2 then (refusal .badLength, s)
  else match s.windowOf (fieldU args 0 2) with
    | none => (refusal .noSuch, s)
    | some w => (okWith [], deleteWindow w s)

/-! ### Reading -/

/-- READ WINDOWS (R36). -/
def cmdReadWindows : Command := fun _ args s =>
  if args.length > 1 then (refusal .badLength, s)
  else if fieldU args 0 1 ≥ 16 then (refusal .outOfRange, s)
  else (okWith (windowsReport (fieldU args 0 1) s.sl), s)

/-- READ PROFILE (R27). -/
def cmdReadProfile : Command := fun _ args s =>
  if args.length > 1 then (refusal .badLength, s)
  else if args.length = 0 then
    (okWith (u8 8 ++ s.sl.profiles.toList.zipIdx.flatMap fun pi => profileBytes pi.2 pi.1), s)
  else if h : fieldU args 0 1 < 8 then
    (okWith (u8 1 ++ profileBytes (fieldU args 0 1) (s.sl.profiles.get ⟨fieldU args 0 1, h⟩)), s)
  else (refusal .outOfRange, s)

end Sys2Proof.Machine
end

