-- ==== Sys2Proof/Machine/SettingCommands.lean ====
section
/-! DEFINITION. What the commands of CQ, RG, OC, HS, MU, CL, LC and NS do: CHANGE, CANCEL CHANGE, READ QUEUE, READ SETTINGS,
START, STOP, READ STATUS, READ CAPTURES, READ CHANNELS, SET CHANNEL LIMITS, WRITE CALIBRATION, SET MASK, ACK EVENTS, SAVE
SETTINGS. -/

namespace Sys2Proof.Machine

/-! ### The change queue -/

/-- A change of the settings in force is held: frames are held or the output is in LOCKOUT (R140 test 5). -/
def State.changesHeld (s : State) : Bool := !s.sk.stack.isEmpty || decide (s.oc.output = .lockout)

/-- The position of the entry for a setting (R141). -/
def Cq.position (q : Cq) (x : Setting) : Option Nat := q.queue.findIdx? fun e => decide (e.setting = x)

/-- A change that has passed R139 and R140 enters the queue: in place of the entry for the same setting, whose origin gets
SUPERSEDED (R141), or as the last (R142). It waits for no later moment than its next apply point, also in place of an entry that
a RESUME of the moment has put back (R147; DEDUCED, log 38). -/
def enqueue (l : LinkId) (x : Setting) (v : Int) (adjusted : Bool) (s : State) : Reply × State :=
  let status : Status := if adjusted then .adjusted else .ok
  let entered (q : List QEntry) : State :=
    { s with cq := { queue := q }, moment := { s.moment with requeued := s.moment.requeued.filter fun y => decide (y ≠ x) } }
  match s.cq.position x with
  | some i =>
    let replaced := entered (s.cq.queue.set i ⟨x, v, l⟩)
    (⟨status, u32 v ++ u8 i ++ flagByte true⟩,
      match s.cq.queue[i]? with
      | none => replaced
      | some old => raiseOn old.origin .superseded replaced)
  | none =>
    if s.cq.queue.length ≥ Config.maxQueue then (refusal .queueFull, s)
    else
      (⟨status, u32 v ++ u8 s.cq.queue.length ++ flagByte false⟩, entered (s.cq.queue ++ [⟨x, v, l⟩]))

/-- CHANGE (R139 to R142). -/
def cmdChange : Command := fun l args s =>
  if args.length ≠ 6 then (refusal .badLength, s)
  else match settingOf (fieldU args 0 1) (fieldU args 1 1) with
    | none => (refusal .outOfRange, s)
    | some x =>
      match x.taken s.rg.set (fieldS args 2 4) with
      | none => (refusal .outOfRange, s)
      | some v =>
        if s.changesHeld then (refusal .held, s)
        else if s.barred l then (refusal .localHeld, s)
        else enqueue l x v (decide (v ≠ fieldS args 2 4)) s

/-- CANCEL CHANGE (R143). -/
def cmdCancelChange : Command := fun l args s =>
  if s.barred l then (refusal .localHeld, s)
  else if args.length ≠ 2 then (refusal .badLength, s)
  else match settingOf (fieldU args 0 1) (fieldU args 1 1) with
    | none => (refusal .outOfRange, s)
    | some x =>
      match s.cq.queue.find? fun e => decide (e.setting = x) with
      | none => (refusal .noSuch, s)
      | some e =>
        (okWith (u32 e.value),
          raiseOn e.origin .superseded
            { s with cq := { queue := s.cq.queue.eraseP fun y => decide (y.setting = x) } })

/-- READ QUEUE (R144). -/
def cmdReadQueue : Command := fun _ args s =>
  if args.length ≠ 0 then (refusal .badLength, s) else (okWith (queueReport s), s)

/-- READ SETTINGS (R118). -/
def cmdReadSettings : Command := fun _ args s =>
  if args.length ≠ 0 then (refusal .badLength, s) else (okWith (settingsReport s), s)

/-! ### START, STOP and READ STATUS -/

/-- An auto-restart value, where present, takes effect at once (R123). -/
def setAutoRestart (a : Option Bool) (s : State) : State :=
  match a with
  | none => s
  | some b => { s with oc := { s.oc with autoRestart := b } }

/-- START in the output state as it stands (R123). -/
def startOutput (s : State) : State :=
  match s.oc.output with
  | .stopped _ =>
    if s.hs.mains = .present then enterRamp s else { s with oc := { s.oc with restartPending := true } }
  | .ramp | .run | .held | .lockout => s

/-- START (R123). -/
def cmdStart : Command := fun l args s =>
  if args.length > 1 then (refusal .badLength, s)
  else if s.barred l then (refusal .localHeld, s)
  else match autoRestartField args with
    | none => (refusal .outOfRange, s)
    | some a =>
      if s.oc.output = .held then (refusal .held, s)
      else if s.oc.output = .lockout then (refusal .lockedOut, s)
      else (okWith [], startOutput (setAutoRestart a s))

/-- STOP in the output state as it stands (R124). -/
def stopOutput (s : State) : State :=
  let cleared : State := { s with oc := { s.oc with restartPending := false } }
  match s.oc.output with
  | .stopped _ | .ramp | .run => changeOutput (.stopped .command) cleared
  | .held | .lockout => cleared

/-- STOP (R124). -/
def cmdStop : Command := fun l args s =>
  if args.length > 1 then (refusal .badLength, s)
  else if s.barred l then (refusal .localHeld, s)
  else match autoRestartField args with
    | none => (refusal .outOfRange, s)
    | some a => (okWith [], stopOutput (setAutoRestart a s))

/-- READ STATUS (R118, R136, R199). -/
def cmdReadStatus : Command := fun l args s =>
  if args.length ≠ 0 then (refusal .badLength, s) else (okWith (statusReport l s), s)

/-! ### Captures, channels and calibration -/

/-- READ CAPTURES (R94). -/
def cmdReadCaptures : Command := fun _ args s =>
  if args.length ≠ 5 then (refusal .badLength, s)
  else if fieldU args 4 1 = 0 ∨ fieldU args 4 1 > 8 then (refusal .outOfRange, s)
  else (okWith (capturesReport (fieldU args 0 4) (fieldU args 4 1) s.cl), s)

/-- The fresh flags of one link cleared on every channel (R182). -/
def Hs.clearFresh (l : LinkId) (h : Hs) : Hs :=
  { h with channels := Vector.ofFn fun i => { h.channels.get i with fresh := (h.channels.get i).fresh.set l false } }

/-- READ CHANNELS (R182). -/
def cmdReadChannels : Command := fun l args s =>
  if args.length ≠ 0 then (refusal .badLength, s)
  else (okWith (channelsReport l s.hs), if s.barred l then s else { s with hs := s.hs.clearFresh l })

/-- SET CHANNEL LIMITS (R181). -/
def cmdSetChannelLimits : Command := fun l args s =>
  if s.barred l then (refusal .localHeld, s)
  else if args.length ≠ 5 then (refusal .badLength, s)
  else if h : fieldU args 0 1 < 8 then
    let i : Fin 8 := ⟨fieldU args 0 1, h⟩
    let low := fieldS args 1 2
    let high := fieldS args 3 2
    if (channelRanges.get i).has low = true ∧ (channelRanges.get i).has high = true ∧ low ≤ high then
      (okWith [],
        { s with hs := { s.hs with channels := s.hs.channels.set i { s.hs.channels.get i with limits := ⟨low, high⟩ } } })
    else (refusal .outOfRange, s)
  else (refusal .outOfRange, s)

/-- WRITE CALIBRATION (R184). -/
def cmdWriteCalibration : Command := fun l args s =>
  if s.barred l then (refusal .localHeld, s)
  else if args.length ≠ 5 then (refusal .badLength, s)
  else if h : fieldU args 0 1 < 11 then
    let coff := fieldS args 1 2
    let cgain : Int := fieldU args 3 2
    if calOffsetRange.has coff = true ∧ (calGainRange (fieldU args 0 1)).has cgain = true then
      (okWith [], { s with mu := { s.mu with cal := s.mu.cal.set (fieldU args 0 1) ⟨coff, cgain⟩ } })
    else (refusal .outOfRange, s)
  else (refusal .outOfRange, s)

/-! ### Events -/

/-- SET MASK (R195). -/
def cmdSetMask : Command := fun l args s =>
  if args.length ≠ 2 then (refusal .badLength, s)
  else if fieldU args 0 2 ≥ 16384 then (refusal .outOfRange, s)
  else
    let m : EventSet := BitVec.ofNat 14 (fieldU args 0 2)
    (okWith (u16 m.toNat ++ u16 (s.link l).flags.toNat), s.onLink l fun k => { k with mask := m }.reattend)

/-- ACK EVENTS (R196). -/
def cmdAckEvents : Command := fun l args s =>
  if args.length ≠ 2 then (refusal .badLength, s)
  else if fieldU args 0 2 ≥ 16384 then (refusal .outOfRange, s)
  else
    let named : EventSet := BitVec.ofNat 14 (fieldU args 0 2)
    (okWith (u16 ((s.link l).flags &&& ~~~named).toNat), s.onLink l fun k => { k with flags := k.flags &&& ~~~named }.reattend)

/-! ### The store -/

/-- The bit rates that SAVE SETTINGS gives the image; none where a code is none of those defined (R202, R207). -/
def saveRates (args : Bytes) (s : State) : Option (PerLink Rate) :=
  match rateOf s.lc.links.sup.rate (fieldU args 0 1), rateOf s.lc.links.tel.rate (fieldU args 1 1),
    rateOf s.lc.links.svc.rate (fieldU args 2 1) with
  | some a, some b, some c => some ⟨a, b, c⟩
  | _, _, _ => none

/-- SAVE SETTINGS (R202). -/
def cmdSaveSettings : Command := fun l args s =>
  if args.length ≠ 0 ∧ args.length ≠ 3 then (refusal .badLength, s)
  else if s.barred l then (refusal .localHeld, s)
  else if s.ns.write.isSome then (refusal .busy, s)
  else match saveRates args s with
    | none => (refusal .outOfRange, s)
    | some rates => (okWith [], beginWrite rates s)

/-- RESTART (R204, R205). -/
def cmdRestart : Command := fun l args s =>
  if args.length ≠ 0 then (refusal .badLength, s)
  else if s.barred l then (refusal .localHeld, s)
  else if s.ns.write.isSome then (refusal .busy, s)
  else if s.oc.output = .lockout ∧ ¬ (l = .supervisor ∧ s.pins.localIn = true) then (refusal .lockedOut, s)
  else (okWith [], restartStation s)

end Sys2Proof.Machine
end

