-- ==== Sys2Proof/Machine/FaultCommands.lean ====
section
/-! DEFINITION. What the commands of SK do: READ FRAME, RESUME, CLEAR LOCKOUT (R161 to R172). -/

namespace Sys2Proof.Machine

/-- READ FRAME (R161). -/
def cmdReadFrame : Command := fun _ args s =>
  if args.length > 1 then (refusal .badLength, s)
  else if fieldU args 0 1 > 1 then (refusal .outOfRange, s)
  else (okWith (frameReport (fieldU args 0 1) s.sk), s)

/-! ### RESUME: the tests -/

/-- The continuation that a RESUME names: neither means NONE, both are none of them (R162, R164). -/
def ResumeFields.continuation (f : ResumeFields) : Option Continuation :=
  match f.ramp, f.cycle with
  | false, false => some .none
  | true, false => some .ramp
  | false, true => some .cycle
  | true, true => none

/-- Whether a frame allows a continuation (R164). -/
def Frame.allows (f : Frame) : Continuation → Bool
  | .none => true
  | .ramp => f.kind.holds
  | .cycle => decide (f.kind.format = .timeline) && decide (f.continuation = .cycle)

/-- Whether an element of the command agrees with the held one (R164). -/
def ResumeElement.agrees (e : ResumeElement) (h : PElement) : Bool :=
  decide (e.target = h.entry.setting.code)
    && (match h.entry.setting.index with | none => true | some i => decide (e.index = i))
    && (!e.valid || (h.valid && h.entry.setting.acceptsExact e.value))

/-- The comparison of a RESUME with the top frame (R164). -/
def ResumeFields.fits (f : ResumeFields) (top : Frame) (r : RegSettings) : Bool :=
  decide (f.format = top.kind.format.code) && decide (f.kind = top.kind.code)
    && decide (f.elements.length = top.pendingList.length)
    && ((f.elements.zip top.pendingList).all fun p => p.1.agrees p.2)
    && (match f.continuation with | none => false | some c => top.allows c)
    && decide (r.imin ≤ f.iset ∧ f.iset ≤ r.ilim)

/-- The state of the station in which a RESUME that agrees is refused (R165). -/
def State.resumeNotReady (s : State) (top : Frame) (c : Continuation) : Bool :=
  (decide (c = .cycle) && (decide (s.tb.state = .lost) || decide (s.tb.state = .unset)))
    || (decide (top.kind = .stageFault) && s.pins.stgflt)

/-- STALE and NOT_TOP with their field (R166). -/
def refusalTop (st : Status) (s : State) : Reply := { status := st, fields := topField s.sk }

/-- The tests of RESUME in the order of R163 to R165: a refusal, or the fields, the top frame and the continuation. -/
def resumeTest (l : LinkId) (args : Bytes) (s : State) : Except Reply (ResumeFields × Frame × Continuation) :=
  if s.oc.output = .lockout then .error (refusal .lockedOut)
  else if s.barred l then .error (refusal .localHeld)
  else match resumeFields args with
    | none => .error (refusal .badLength)
    | some f =>
      match s.sk.stack with
      | [] => .error (refusalTop .stale s)
      | top :: lower =>
        if f.seq = top.seq then
          if f.fits top s.rg.set then
            match f.continuation with
            | none => .error (refusal .format)
            | some c => if s.resumeNotReady top c then .error (refusal .notReady) else .ok (f, top, c)
          else .error (refusal .format)
        else if lower.any fun g => decide (g.seq = f.seq) then .error (refusalTop .notTop s)
        else .error (refusalTop .stale s)

/-! ### RESUME: what it does -/

/-- The entries that a popped frame gives back: the elements marked valid, with the command's values and the held origins
(R150, R167 step 3). -/
def requeued (elements : List ResumeElement) (held : List PElement) : List QEntry :=
  (elements.zip held).filterMap fun p => if p.1.valid then some { p.2.entry with value := p.1.value } else none

/-- The release of a HELD output when no output-holding frame remains (R130, R168). CYCLE is no continuation of a frame that
holds the output, and leaves it (DESIGN CHOICE, log 27). -/
def releaseHeld (c : Continuation) (s : State) : State :=
  if s.oc.output = .held ∧ (s.sk.stack.all fun f => !f.kind.holds) = true then
    match c with
    | .ramp => if s.hs.mains = .present then enterRamp s else changeOutput (.stopped .mains) s
    | .none => changeOutput (.stopped .cleared) { s with oc := { s.oc with restartPending := false } }
    | .cycle => s
  else s

/-- What the continuation does to the window that the popped frame names (R169). -/
def resumeWindow (top : Frame) (c : Continuation) (s : State) : State :=
  match top.timeline with
  | none => s
  | some t => if c = .none ∧ top.kind.format = .timeline then endWindow t.windowId s else s

/-- A RESUME that has passed its tests, steps 1 to 7 of R167. The entries that it puts back wait for an apply point of a later
moment (R150). -/
def resumeFrame (f : ResumeFields) (top : Frame) (c : Continuation) (s : State) : State :=
  let back := requeued f.elements top.pendingList
  let popped : State :=
    { s with
      sk := { s.sk with stack := s.sk.stack.tail }
      rg := { s.rg with set := { s.rg.set with iset := f.iset }, overStreak := 0 }
      cq := { queue := s.cq.queue ++ back }
      moment := { s.moment with requeued := s.moment.requeued ++ back.map QEntry.setting } }
  let acted := resumeWindow top c (releaseHeld c popped)
  raiseAll .resumed (if acted.sk.stack.isEmpty then endSuspension acted else acted)

/-- RESUME (R162 to R170), against the state in force: SL's work that is still due at the moment comes after it (R61, R64). -/
def cmdResume : Command := fun l args s =>
  match resumeTest l args s with
  | .error r => (r, s)
  | .ok (f, top, c) =>
    (okWith (u8 (s.sk.stack.length - 1 : Nat) ++ u8 c.code ++ u8 (requeued f.elements top.pendingList).length),
      resumeFrame f top c s)

/-! ### CLEAR LOCKOUT -/

/-- A CLEAR LOCKOUT that has passed its tests, steps 1 to 6 of R172, and STGFLT as it stands then. -/
def clearLockout (s : State) : State :=
  let emptied : State :=
    { s with
      sk := { s.sk with stack := [], lockout := none }
      rg := { s.rg with overStreak := 0 }
      oc := { s.oc with restartPending := false } }
  stageCheck (raiseAll .resumed (endSuspension (changeOutput (.stopped .cleared) emptied)))

/-- CLEAR LOCKOUT (R172). SL's work that is still due at the moment comes after it. -/
def cmdClearLockout : Command := fun l args s =>
  if args.length ≠ 0 then (refusal .badLength, s)
  else if ¬ (l = .supervisor ∧ s.pins.localIn = true) then (refusal .localHeld, s)
  else if s.oc.output ≠ .lockout then (okWith [], s)
  else (okWith [], clearLockout s)

end Sys2Proof.Machine
end

