-- ==== Sys2Proof/Machine/Processor.lean ====
section
/-! DEFINITION. The command processor's table (R207), an unknown code (R192), and the processor at a moment at which links are
eligible (R191). -/

namespace Sys2Proof.Machine

/-- The command of a code (R207). None: the code names no command. -/
def commandOf : Nat → Option Command
  | 1 => some cmdSetTime
  | 2 => some cmdReadTime
  | 3 => some cmdAddWindow
  | 4 => some cmdDeleteWindow
  | 5 => some cmdReadWindows
  | 6 => some cmdReadProfile
  | 7 => some cmdChange
  | 8 => some cmdCancelChange
  | 9 => some cmdReadQueue
  | 10 => some cmdReadSettings
  | 11 => some cmdStart
  | 12 => some cmdStop
  | 16 => some cmdReadStatus
  | 17 => some cmdReadCaptures
  | 18 => some cmdReadChannels
  | 19 => some cmdSetChannelLimits
  | 20 => some cmdWriteCalibration
  | 21 => some cmdReadFrame
  | 22 => some cmdResume
  | 23 => some cmdClearLockout
  | 24 => some cmdSetMask
  | 25 => some cmdAckEvents
  | 26 => some cmdSaveSettings
  | 27 => some cmdRestart
  | _ => none

/-- A code that names no command changes nothing (R192). -/
def cmdUnknown : Command := fun _ _ s => (refusal .unknownCommand, s)

/-- UNKNOWN_COMMAND: the processor's next frame carries a code that names no command (R192). -/
def serveUnknown (s : State) : State :=
  match s.nextFrame with
  | none => s
  | some (l, payload) => if (commandOf (codeOf payload)).isNone then serve cmdUnknown l payload s else s

/-- The processor takes one frame, whatever its command (R191, R192). -/
def serveNext (s : State) : State :=
  match s.nextFrame with
  | none => s
  | some (l, payload) => serve ((commandOf (codeOf payload)).getD cmdUnknown) l payload s

/-- Every link that is eligible at this moment is served, once: a link just served is OCCUPIED (R191). -/
def serveAll (s : State) : State := serveNext (serveNext (serveNext s))

end Sys2Proof.Machine
end

