-- ==== Sys2Proof/Machine/Settle.lean ====
section
/-! DEFINITION. The end of a moment (DESIGN CHOICE, log 3): whatever has come due at it and was not sent as a step of its own
is done, in one fixed order, before the next tick begins another moment. -/

namespace Sys2Proof.Machine

/-- TB and SL: the wrap, an entry to LOST, an entry to HOLDOVER, the positions and the examination. -/
def settleTime (s : State) : State := finishTimeline (enterHoldover (enterLostNow (secondBoundaryStep s)))

/-- LC's receivers, NS, HS and RG: expired gaps, a write that has taken all its ticks, the end of a scan, a regulation tick
(the rise of the ramp limit first). -/
def settleStation (s : State) : State :=
  let gapped := s.onLinks Link.expireGap
  let saved := if gapped.saveDue then saveDone gapped else gapped
  let scanned := if saved.scanDue then endScan saved else saved
  if scanned.moment.regTick then regulate true scanned else scanned

/-- LC's transmitters and the processor: responses whose bits have all been carried, bit rates that can be taken, and the
frames of eligible links. -/
def settleLinks (s : State) : State := serveAll (s.onLinks fun k => (if k.sentDue then k.sent else k).switchRate)

/-- The moment ends. -/
def settle (s : State) : State := settleLinks (settleStation (settleTime s))

/-- A tick of the oscillator (R1): the moment before it ends, the switch has stood as it then was (R110), and no entry of the queue
waits for its moment to pass any more (R150); the tick count advances, or, at 2399, the wrap has come due. -/
def tickStep (x : Samples) (s : State) : State :=
  let settled := settle s
  let ended : State :=
    { settled with mu := settled.mu.stands settled.oc.switch, moment := { settled.moment with requeued := [] } }
  if ended.tb.tick + 1 < Config.ticksPerSecond then countTick x ended
  else { ended with moment := { ended.moment with wrap := some x } }

end Sys2Proof.Machine
end

