-- ==== Sys2Proof/Machine/CommandSteps.lean ====
section
/-! DEFINITION. The meanings of the command rows. Each is the processor taking its next frame, where that frame carries the
row's code (R191, R192, R207; DESIGN CHOICE, logs 1 and 22). -/

namespace Sys2Proof.Machine

/-- SET_TIME (R14, R15). -/
def execSetTime (s : State) : Host.Outcome State Fault Refusal := .next (serveCode 1 cmdSetTime s)

/-- READ_TIME (R20). -/
def execReadTime (s : State) : Host.Outcome State Fault Refusal := .next (serveCode 2 cmdReadTime s)

/-- ADD_WINDOW (R32, R33). -/
def execAddWindow (s : State) : Host.Outcome State Fault Refusal := .next (serveCode 3 cmdAddWindow s)

/-- DELETE_WINDOW (R34, R35). -/
def execDeleteWindow (s : State) : Host.Outcome State Fault Refusal := .next (serveCode 4 cmdDeleteWindow s)

/-- READ_WINDOWS (R36). -/
def execReadWindows (s : State) : Host.Outcome State Fault Refusal := .next (serveCode 5 cmdReadWindows s)

/-- READ_PROFILE (R27). -/
def execReadProfile (s : State) : Host.Outcome State Fault Refusal := .next (serveCode 6 cmdReadProfile s)

/-- CHANGE (R139 to R142). -/
def execChange (s : State) : Host.Outcome State Fault Refusal := .next (serveCode 7 cmdChange s)

/-- CANCEL_CHANGE (R143). -/
def execCancelChange (s : State) : Host.Outcome State Fault Refusal := .next (serveCode 8 cmdCancelChange s)

/-- READ_QUEUE (R144). -/
def execReadQueue (s : State) : Host.Outcome State Fault Refusal := .next (serveCode 9 cmdReadQueue s)

/-- READ_SETTINGS (R118). -/
def execReadSettings (s : State) : Host.Outcome State Fault Refusal := .next (serveCode 10 cmdReadSettings s)

/-- START (R123). -/
def execStart (s : State) : Host.Outcome State Fault Refusal := .next (serveCode 11 cmdStart s)

/-- STOP (R124). -/
def execStop (s : State) : Host.Outcome State Fault Refusal := .next (serveCode 12 cmdStop s)

/-- READ_STATUS (R118, R136, R199). -/
def execReadStatus (s : State) : Host.Outcome State Fault Refusal := .next (serveCode 16 cmdReadStatus s)

/-- READ_CAPTURES (R94). -/
def execReadCaptures (s : State) : Host.Outcome State Fault Refusal := .next (serveCode 17 cmdReadCaptures s)

/-- READ_CHANNELS (R182). -/
def execReadChannels (s : State) : Host.Outcome State Fault Refusal := .next (serveCode 18 cmdReadChannels s)

/-- SET_CHANNEL_LIMITS (R181). -/
def execSetChannelLimits (s : State) : Host.Outcome State Fault Refusal := .next (serveCode 19 cmdSetChannelLimits s)

/-- WRITE_CALIBRATION (R184). -/
def execWriteCalibration (s : State) : Host.Outcome State Fault Refusal := .next (serveCode 20 cmdWriteCalibration s)

/-- READ_FRAME (R161). -/
def execReadFrame (s : State) : Host.Outcome State Fault Refusal := .next (serveCode 21 cmdReadFrame s)

/-- RESUME (R162 to R170). -/
def execResume (s : State) : Host.Outcome State Fault Refusal := .next (serveCode 22 cmdResume s)

/-- CLEAR_LOCKOUT (R172). -/
def execClearLockout (s : State) : Host.Outcome State Fault Refusal := .next (serveCode 23 cmdClearLockout s)

/-- SET_MASK (R195). -/
def execSetMask (s : State) : Host.Outcome State Fault Refusal := .next (serveCode 24 cmdSetMask s)

/-- ACK_EVENTS (R196). -/
def execAckEvents (s : State) : Host.Outcome State Fault Refusal := .next (serveCode 25 cmdAckEvents s)

/-- SAVE_SETTINGS (R202). -/
def execSaveSettings (s : State) : Host.Outcome State Fault Refusal := .next (serveCode 26 cmdSaveSettings s)

/-- RESTART (R204, R205). -/
def execRestart (s : State) : Host.Outcome State Fault Refusal := .next (serveCode 27 cmdRestart s)

/-- UNKNOWN_COMMAND (R192). -/
def execUnknownCommand (s : State) : Host.Outcome State Fault Refusal := .next (serveUnknown s)

end Sys2Proof.Machine
end

