-- ==== Sys2Proof/Machine/CycleSteps.lean ====
section
/-! DEFINITION. The meanings of the cycle steps: CYCLE_BOUNDARY, OFF_EDGE, MEASUREMENT_WINDOW_OPEN, MEASUREMENT_WINDOW_CLOSE. Each
happens where the last notice has taken its position (R51), and changes nothing elsewhere (DESIGN CHOICE, log 1); positions
before it in cycle order are done with it (log 2). -/

namespace Sys2Proof.Machine

/-- CYCLE_BOUNDARY (R59). -/
def execCycleBoundary (s : State) : Host.Outcome State Fault Refusal := .next (takeThrough .boundary s)

/-- OFF_EDGE (R52, R58, R81). -/
def execOffEdge (s : State) : Host.Outcome State Fault Refusal := .next (takeThrough .offEdge s)

/-- MEASUREMENT_WINDOW_OPEN (R58, R71). -/
def execMeasurementWindowOpen (w : MWindow) (s : State) : Host.Outcome State Fault Refusal := .next (takeThrough (.opens w) s)

/-- MEASUREMENT_WINDOW_CLOSE (R58, R74 to R77). -/
def execMeasurementWindowClose (w : MWindow) (s : State) : Host.Outcome State Fault Refusal := .next (takeThrough (.closes w) s)

end Sys2Proof.Machine
end

