-- ==== Sys2Proof/Machine/LinkSteps.lean ====
section
/-! DEFINITION. The meanings of the link steps: BYTE_RECEIVED, GAP_EXPIRY, RESPONSE_SENT, BIT_RATE_SWITCH. -/

namespace Sys2Proof.Machine

/-- BYTE_RECEIVED (R186, R188, R189). -/
def execByteReceived (l : LinkId) (b : Byte) (stopGood : Bool) (s : State) :
    Host.Outcome State Fault Refusal := .next (s.onLink l (Link.receive b stopGood))

/-- GAP_EXPIRY (R187). -/
def execGapExpiry (l : LinkId) (s : State) : Host.Outcome State Fault Refusal := .next (s.onLink l Link.expireGap)

/-- RESPONSE_SENT (R190). -/
def execResponseSent (l : LinkId) (s : State) : Host.Outcome State Fault Refusal := .next (s.onLink l Link.finish)

/-- BIT_RATE_SWITCH (R200). -/
def execBitRateSwitch (l : LinkId) (s : State) : Host.Outcome State Fault Refusal := .next (s.onLink l Link.switchRate)

end Sys2Proof.Machine
end

