-- ==== Sys2Proof/Machine/StationSteps.lean ====
section
/-! DEFINITION. The meanings of the station steps: SCAN_END, SAVE_COMPLETE, STGFLT_ASSERTED, STGFLT_DEASSERTED, LOCAL_CHANGE,
POWER_ON_RESET. -/

namespace Sys2Proof.Machine

/-- SCAN_END (R174 to R180). -/
def execScanEnd (s : State) : Host.Outcome State Fault Refusal := .next (if s.scanDue then endScan s else s)

/-- SAVE_COMPLETE (R202). -/
def execSaveComplete (s : State) : Host.Outcome State Fault Refusal := .next (saveDone s)

/-- STGFLT_ASSERTED (R132). -/
def execStgfltAsserted (s : State) : Host.Outcome State Fault Refusal := .next (stageCheck { s with pins := { s.pins with stgflt := true } })

/-- STGFLT_DEASSERTED: the deassertion raises nothing (R132). -/
def execStgfltDeasserted (s : State) : Host.Outcome State Fault Refusal := .next ({ s with pins := { s.pins with stgflt := false } })

/-- LOCAL_CHANGE: the input is read at each command (R193). -/
def execLocalChange (asserted : Bool) (s : State) : Host.Outcome State Fault Refusal := .next ({ s with pins := { s.pins with localIn := asserted } })

/-- POWER_ON_RESET (R202, R203). -/
def execPowerOnReset (s : State) : Host.Outcome State Fault Refusal := .next (powerOnStep s)

end Sys2Proof.Machine
end

