-- ==== Sys2Proof/Machine/TimeSteps.lean ====
section
/-! DEFINITION. The meanings of the time steps: TICK, SECOND_BOUNDARY, REGULATION_TICK, PULSE_EDGE, HOLDOVER_ENTRY, ENTER_LOST. -/

namespace Sys2Proof.Machine

/-- TICK (R1, R2, R70). -/
def execTick (x : Samples) (s : State) : Host.Outcome State Fault Refusal := .next (tickStep x s)

/-- SECOND_BOUNDARY: the wrap that is due, and the list examination of the new second (R1, R2, R11, R17, R37, R174). -/
def execSecondBoundary (s : State) : Host.Outcome State Fault Refusal := .next (secondBoundaryStep s)

/-- REGULATION_TICK (R108, R126). -/
def execRegulationTick (riseFirst : Bool) (s : State) : Host.Outcome State Fault Refusal := .next (regulationStep riseFirst s)

/-- PULSE_EDGE (R4 to R9, R17). -/
def execPulseEdge (s : State) : Host.Outcome State Fault Refusal := .next (pulseEdgeStep s)

/-- HOLDOVER_ENTRY (R10). -/
def execHoldoverEntry (s : State) : Host.Outcome State Fault Refusal := .next (enterHoldover s)

/-- ENTER_LOST (R11, R12). -/
def execEnterLost (s : State) : Host.Outcome State Fault Refusal := .next (enterLostNow s)

end Sys2Proof.Machine
end

