-- ==== Sys2Proof/Machine/Dispatch.lean ====
section
/-! DEFINITION. One arm per command. -/

namespace Sys2Proof.Machine

def exec (i : Instr) (s : State) : Host.Outcome State Fault Refusal :=
  match i with
  | .tick x => Sys2Proof.Machine.execTick x s
  | .secondBoundary => Sys2Proof.Machine.execSecondBoundary s
  | .regulationTick riseFirst => Sys2Proof.Machine.execRegulationTick riseFirst s
  | .pulseEdge => Sys2Proof.Machine.execPulseEdge s
  | .holdoverEntry => Sys2Proof.Machine.execHoldoverEntry s
  | .enterLost => Sys2Proof.Machine.execEnterLost s
  | .cycleBoundary => Sys2Proof.Machine.execCycleBoundary s
  | .offEdge => Sys2Proof.Machine.execOffEdge s
  | .measurementWindowOpen w => Sys2Proof.Machine.execMeasurementWindowOpen w s
  | .measurementWindowClose w => Sys2Proof.Machine.execMeasurementWindowClose w s
  | .scanEnd => Sys2Proof.Machine.execScanEnd s
  | .byteReceived l b stopGood => Sys2Proof.Machine.execByteReceived l b stopGood s
  | .gapExpiry l => Sys2Proof.Machine.execGapExpiry l s
  | .responseSent l => Sys2Proof.Machine.execResponseSent l s
  | .bitRateSwitch l => Sys2Proof.Machine.execBitRateSwitch l s
  | .saveComplete => Sys2Proof.Machine.execSaveComplete s
  | .stgfltAsserted => Sys2Proof.Machine.execStgfltAsserted s
  | .stgfltDeasserted => Sys2Proof.Machine.execStgfltDeasserted s
  | .localChange asserted => Sys2Proof.Machine.execLocalChange asserted s
  | .powerOnReset => Sys2Proof.Machine.execPowerOnReset s
  | .setTime => Sys2Proof.Machine.execSetTime s
  | .readTime => Sys2Proof.Machine.execReadTime s
  | .addWindow => Sys2Proof.Machine.execAddWindow s
  | .deleteWindow => Sys2Proof.Machine.execDeleteWindow s
  | .readWindows => Sys2Proof.Machine.execReadWindows s
  | .readProfile => Sys2Proof.Machine.execReadProfile s
  | .change => Sys2Proof.Machine.execChange s
  | .cancelChange => Sys2Proof.Machine.execCancelChange s
  | .readQueue => Sys2Proof.Machine.execReadQueue s
  | .readSettings => Sys2Proof.Machine.execReadSettings s
  | .start => Sys2Proof.Machine.execStart s
  | .stop => Sys2Proof.Machine.execStop s
  | .readStatus => Sys2Proof.Machine.execReadStatus s
  | .readCaptures => Sys2Proof.Machine.execReadCaptures s
  | .readChannels => Sys2Proof.Machine.execReadChannels s
  | .setChannelLimits => Sys2Proof.Machine.execSetChannelLimits s
  | .writeCalibration => Sys2Proof.Machine.execWriteCalibration s
  | .readFrame => Sys2Proof.Machine.execReadFrame s
  | .resume => Sys2Proof.Machine.execResume s
  | .clearLockout => Sys2Proof.Machine.execClearLockout s
  | .setMask => Sys2Proof.Machine.execSetMask s
  | .ackEvents => Sys2Proof.Machine.execAckEvents s
  | .saveSettings => Sys2Proof.Machine.execSaveSettings s
  | .restart => Sys2Proof.Machine.execRestart s
  | .unknownCommand => Sys2Proof.Machine.execUnknownCommand s

end Sys2Proof.Machine
end

