-- ==== Sys2Proof/Safety.lean ====
section
/-! DEFINITION. What a safe run is, in the terms that claims use: the laws of the manual's collections and settings, which every
step keeps, and the words in which a statement says that nothing is due or that a frame is served. -/

namespace Sys2Proof.Machine

/-! ### Settings (R23, R97, R175, R183, R201) -/

/-- The law of the regulation settings: the relations of R97, and every setting within its absolute range. -/
abbrev RegLaw (r : RegSettings) : Prop :=
  (0 ≤ r.imin ∧ r.imin ≤ r.iset ∧ r.iset ≤ r.ilim ∧ r.ilim ≤ 10000)
    ∧ (0 ≤ r.vset ∧ r.vset ≤ r.vlim ∧ r.vlim ≤ 6000)
    ∧ (r.ilim ≤ r.trip ∧ r.trip ≤ 11000)
    ∧ (-2500 ≤ r.target ∧ r.target ≤ 0) ∧ (0 ≤ r.outerGain ∧ r.outerGain ≤ 2048) ∧ (0 ≤ r.deadband ∧ r.deadband ≤ 200)
    ∧ (1 ≤ r.stepLimit ∧ r.stepLimit ≤ 1000) ∧ (1 ≤ r.innerGain ∧ r.innerGain ≤ 4096)
    ∧ (1 ≤ r.rampRate ∧ r.rampRate ≤ 100) ∧ (-2500 ≤ r.overLimit ∧ r.overLimit ≤ -800)
    ∧ (-1500 ≤ r.underLimit ∧ r.underLimit ≤ 0)

/-- A duration in its range, a multiple of 5 ms. -/
abbrev durationOk (lo hi d : Nat) : Prop := lo ≤ d ∧ d ≤ hi ∧ d % 5 = 0

/-- The law of one profile (R23). -/
abbrev ProfileLaw (p : Profile) : Prop :=
  durationOk 200 60000 p.on ∧ durationOk 100 20000 p.off ∧ durationOk 5 2000 p.delay ∧ durationOk 10 1000 p.window
    ∧ durationOk 0 2000 p.onOffset ∧ 1 ≤ p.noise ∧ p.noise ≤ 500

/-- The law of one channel's limits (R175, R181). -/
abbrev LimitsLaw (i : Fin 8) (l : Limits) : Prop :=
  (channelRanges.get i).has l.low = true ∧ (channelRanges.get i).has l.high = true ∧ l.low ≤ l.high

/-- The law of one calibration entry (R183). -/
abbrev CalLaw (i : Fin 11) (c : Cal) : Prop := calOffsetRange.has c.coff = true ∧ (calGainRange i).has c.cgain = true

/-- The law of a set of saved settings (R201). -/
abbrev ImageLaw (img : Image) : Prop :=
  RegLaw img.reg ∧ (∀ i, ProfileLaw (img.profiles.get i)) ∧ (∀ i, CalLaw i (img.cal.get i))
    ∧ (∀ i, LimitsLaw i (img.limits.get i)) ∧ 10 ≤ img.holdoverLimit ∧ img.holdoverLimit ≤ 86400

/-- The settings in force, those staged in the queue and those in the store obey their laws. -/
abbrev SettingsLaw (s : State) : Prop :=
  ImageLaw (s.snapshot s.ratesInForce)
    ∧ (∀ e ∈ s.cq.queue, e.setting.acceptsExact e.value = true)
    ∧ (s.ns.imageGood = true → ImageLaw s.ns.image)
    ∧ (∀ w ∈ s.ns.write, ImageLaw w.snapshot)

/-! ### Timebase (R1, R7, R10, R11, R15) -/

/-- The ranges of TB's state; a wrap is due only at tick count 2399. -/
abbrev TimeLaw (s : State) : Prop :=
  s.tb.tick < 2400 ∧ s.tb.seconds < 4294967296 ∧ s.tb.edgeAge ≤ 2402 ∧ s.tb.holdoverSec < 4294967296
    ∧ (s.tb.rejectStreak.length ≤ 2 ∧ ∀ c ∈ s.tb.rejectStreak, c < 2400)
    ∧ (∀ st ∈ s.tb.staged, 1 ≤ st.value ∧ st.value < 4294967296)
    ∧ (s.moment.wrap.isSome = true → s.tb.tick = 2399)

/-! ### The survey window list (R29 to R31) -/

/-- One record before another in the list: the nominal intervals are disjoint and in order, and the IDs differ. -/
abbrev WindowRec.before (a b : WindowRec) : Prop := a.stop ≤ b.start ∧ a.id ≠ b.id

/-- ACTIVE (R29). -/
def Life.isActive : Life → Bool
  | .active _ => true
  | .scheduled => false
  | .ending _ _ => false

/-- An ACTIVE entry's end is ahead, or the examination that ends it is still due. -/
abbrev State.endAhead (s : State) (w : WindowRec) : Prop :=
  w.life.isActive = true → s.tb.seconds < w.stop ∨ s.moment.exam = true

/-- The law of the window list (R29), with the next ID, and what a due wrap leaves outstanding for SL: nothing. -/
abbrev WindowLaw (s : State) : Prop :=
  s.sl.windows.length ≤ 16
    ∧ s.sl.windows.Pairwise WindowRec.before
    ∧ (∀ w ∈ s.sl.windows, 1 ≤ w.start ∧ w.start < w.stop ∧ 1 ≤ w.id ∧ w.id ≤ 65535)
    ∧ (∀ w ∈ s.sl.windows.tail, w.life = .scheduled)
    ∧ (∀ w ∈ s.sl.windows.head?, s.endAhead w)
    ∧ (1 ≤ s.sl.nextId ∧ s.sl.nextId ≤ 65535)
    ∧ (s.moment.wrap.isSome = true → s.tb.tick = 2399 ∧ s.moment.exam = false ∧ s.moment.positions = [])

/-- The law of the notice list (R31). -/
abbrev NoticeLaw (s : State) : Prop :=
  s.sl.notices.length ≤ 8 ∧ (1 ≤ s.sl.noticeNo ∧ s.sl.noticeNo ≤ 65535)
    ∧ List.IsChain (fun a b => b = next16 a) (s.sl.notices.map Notice.number ++ [s.sl.noticeNo])

/-! ### The capture in progress and the capture log (R57, R79, R91, R92) -/

/-- A capture is OPEN only with a window ACTIVE or ENDING and the stack empty, and CL has an assembly exactly then. -/
abbrev CaptureLaw (s : State) : Prop :=
  (s.sl.capture.isSome = s.cl.assembly.isSome)
    ∧ (s.sl.capture.isSome = true → s.sk.stack = [] ∧ s.active.isSome = true)

/-- The law of the capture log (R91, R92). -/
abbrev LogLaw (s : State) : Prop :=
  s.cl.log.length ≤ 32 ∧ s.cl.nextSeq < 4294967296
    ∧ List.IsChain (fun a b => b = next32 a) (s.cl.log.map CRecord.seq ++ [s.cl.nextSeq])

/-! ### Outputs (R52, R116, R126, R133, R134) -/

/-- The law of the drive output (R133) with the duty value and the ramp limit (R115, R116). -/
abbrev DriveLaw (s : State) : Prop :=
  s.oc.drive = (if s.oc.output.drives = true ∧ s.oc.switch = .closed then s.rg.duty else 0)
    ∧ (s.oc.output.drives = false → s.rg.duty = 0)
    ∧ (0 ≤ s.rg.duty ∧ (s.oc.output.drives = true → s.rg.duty ≤ s.oc.rampLimit))
    ∧ (0 ≤ s.oc.rampLimit ∧ s.oc.rampLimit ≤ 1000)

/-- No change of phase is outstanding that moves the switch: neither a cycle boundary nor an off edge is still to be taken. -/
abbrev State.phaseSettled (s : State) : Prop :=
  Position.boundary ∉ s.moment.positions ∧ Position.offEdge ∉ s.moment.positions

/-- The law of the switch output (R52, R134): OPEN exactly with the demand OPEN in RUN; the demand OPEN only while a window
is ACTIVE or ENDING with the stack empty, and then by the phase in progress, but for an off edge or a boundary still to be
taken. The phase lies within the cycle, but for a pair that is to be taken outright. -/
abbrev SwitchLaw (s : State) : Prop :=
  (s.oc.switch = .opened ↔ s.sl.demand = .opened ∧ s.oc.output = .run)
    ∧ (s.sl.demand = .opened → s.sk.stack = [] ∧ s.active.isSome = true)
    ∧ (s.phaseSettled → (s.sl.demand = .opened ↔ s.wantsOpen = true))
    ∧ (∀ wc ∈ s.active, s.sl.outright = true ∨ wc.2.phase < (s.profileOf wc.1).period)

/-! ### The change queue and the suspension stack (R138, R148, R155 to R158) -/

/-- No two entries name the same setting. -/
abbrev distinctSettings (q : List QEntry) : Prop := q.Pairwise fun a b => a.setting ≠ b.setting

/-- The law of the change queue (R138, R148), with what the frames hold of it (R157): every frame above the lowest holds
no pending element. -/
abbrev QueueLaw (s : State) : Prop :=
  s.cq.queue.length ≤ 4 ∧ distinctSettings s.cq.queue
    ∧ (s.sk.stack ≠ [] → s.cq.queue = [])
    ∧ (∀ f ∈ s.sk.stack, f.pendingList.length ≤ 4 ∧ distinctSettings (f.pendingList.map PElement.entry))
    ∧ (∀ f ∈ s.sk.stack.dropLast, f.pendingList = [])

/-- The law of the stack (R155, R156) and of the lockout record (R158). -/
abbrev StackLaw (s : State) : Prop :=
  s.sk.stack.length ≤ 2 ∧ (1 ≤ s.sk.nextFrame ∧ s.sk.nextFrame ≤ 65535)
    ∧ ((∃ f ∈ s.sk.stack, f.kind.holds = true) → s.oc.output = .held ∨ s.oc.output = .lockout)
    ∧ (s.sk.lockout.isSome = true ↔ s.oc.output = .lockout)

/-! ### Links (R186, R187, R189, R198) -/

/-- The law of the receiver and its partial frame (R186). -/
abbrev ReceiverLaw (k : Link) : Prop :=
  (k.rx = .hunt → k.partialBytes = [] ∧ k.gap = 0)
    ∧ (k.rx = .length → k.partialBytes = [])
    ∧ (k.rx = .payload →
      1 ≤ declaredLength k.partialBytes ∧ declaredLength k.partialBytes ≤ 240
        ∧ k.partialBytes.length ≤ declaredLength k.partialBytes)
    ∧ (k.rx = .check →
      1 ≤ declaredLength k.partialBytes ∧ declaredLength k.partialBytes ≤ 240
        ∧ k.partialBytes.length = declaredLength k.partialBytes + 1)

/-- The law of one link: its receiver, its gap count (R187), its FIFO (R189), and its attention output (R198). -/
abbrev LinkLaw (k : Link) : Prop :=
  ReceiverLaw k ∧ k.gap ≤ 49 ∧ k.fifo.length ≤ 2 ∧ (∀ p ∈ k.fifo, 1 ≤ p.length ∧ p.length ≤ 240)
    ∧ (k.attention = true ↔ k.flags &&& k.mask ≠ 0)

/-- The law of the three links. -/
abbrev LinksLaw (s : State) : Prop := LinkLaw s.lc.links.sup ∧ LinkLaw s.lc.links.tel ∧ LinkLaw s.lc.links.svc

/-! ### The scan (R174, R175, R177, R179) -/

/-- The law of one channel: a value in the channel's range, and counts below 3. -/
abbrev ChannelLaw (i : Fin 8) (c : Channel) : Prop :=
  (∀ v ∈ c.value, (channelRanges.get i).has v = true) ∧ c.low < 3 ∧ c.high < 3 ∧ c.inside < 3

/-- The law of the result table, of the scan progress and of the mains count. -/
abbrev ScanLaw (s : State) : Prop :=
  (∀ i, ChannelLaw i (s.hs.channels.get i)) ∧ s.hs.mainsCount < 3 ∧ ∀ n ∈ s.hs.scan, n ≤ 1000

/-! ### Words of the statements -/

/-- Nothing is due at the present moment: no wrap, no entry to LOST or HOLDOVER, no position, no examination, no regulation
tick, no scan end, no expired gap, no end of a write or of a response, no bit rate to take and no frame to serve. -/
abbrev State.quiet (s : State) : Prop :=
  s.moment.wrap = none ∧ s.moment.lost = false ∧ s.moment.regTick = false ∧ s.moment.exam = false
    ∧ s.moment.positions = [] ∧ ¬ (s.tb.state = .locked ∧ s.tb.edgeAge ≥ 2402)
    ∧ s.scanDue = false ∧ s.saveDue = false
    ∧ (∀ l, (s.link l).gapDue = false ∧ (s.link l).sentDue = false ∧ (s.link l).pendingRate = none
        ∧ (s.link l).eligible = false)

/-- The timeline has no work outstanding: the steps of TB and SL that earlier notices of the moment gave are done. -/
abbrev State.timelineDone (s : State) : Prop := s.moment.positions = [] ∧ s.moment.exam = false

/-- The processor's next frame comes from link l, with a command code and the bytes after it, on a link that waits for no
bit rate. -/
abbrev State.serves (s : State) (l : LinkId) (code : Byte) (args : Bytes) : Prop :=
  s.nextFrame = some (l, code :: args) ∧ (s.link l).pendingRate = none

/-- The state of a link whose oldest frame has been taken and answered: the frame has left the FIFO, the response is in the
buffer, and the error flags have been reported (R189, R190, R192). -/
def Link.answered (code : Byte) (r : Reply) (k : Link) : Link :=
  { k with
    fifo := k.fifo.tail
    buffer := some (frameOf (responsePayload code.toNat k.errors r))
    txBits := 0
    errors := ⟨false, false, false⟩ }

/-- A state after a command whose effect, on the state that the processor finds after taking the frame, is `t`: link l is
answered and is the last served. -/
def State.answer (t : State) (l : LinkId) (code : Byte) (r : Reply) : State :=
  { t with lc := { links := t.lc.links.set l ((t.lc.links.get l).answered code r), lastServed := l } }

/-- What a re-phase to tick 0 of second `sec` does with the window `w` running, whose cycle part is `c`, from `s` to `t` (R65 to
R67, R88). The pair of that time is taken outright and the demand follows it. Where the cycle number stays, an OPEN capture goes
on with REALIGNED set: an OPEN measurement window is MISSED, and a PENDING one is MISSED where its start is passed and OPEN where
its start is the phase landed at (the latter by log 17). Where the cycle number changes, the capture's record is completed with
REALIGNED and the number of the cycle that was in progress, and a capture marked REALIGNED opens at the phase landed at. -/
abbrev State.rephases (s t : State) (w : WindowRec) (c : CyclePart) (sec : Nat) : Prop :=
  let p := s.profileOf w
  let e : Int := Int.bmod ((sec : Int) - c.anchorSec) 4294967296 * 2400 - c.anchorTick
  let n := c.anchorCycle + e / p.period
  let φ := (e % p.period).toNat
  t.sl.windows = { w with life := w.life.withPart { c with cycle := n, phase := φ } } :: s.sl.windows.tail
    ∧ (t.sl.demand = .opened ↔ s.sk.stack = [] ∧ p.onT ≤ φ)
    ∧ (s.sl.capture = none → t.sl.capture = none ∧ t.cl.log = s.cl.log)
    ∧ (∀ k, s.sl.capture = some k → n = c.cycle →
        let after : MWindow → WStatus := fun m =>
          match k.status m with
          | .opened => .missed
          | .pending => if p.opensAt m < φ then .missed else if p.opensAt m = φ then .opened else .pending
          | .short => .short | .done => .done | .missed => .missed
        t.sl.capture = some { entryPhase := k.entryPhase, realigned := true, onStatus := after .on, offStatus := after .off }
          ∧ t.cl.log = s.cl.log)
    ∧ (∀ k a, s.sl.capture = some k → s.cl.assembly = some a → n ≠ c.cycle → s.sk.stack = [] →
        ∃ r, t.cl.log = s.cl.log.drop (s.cl.log.length - 31) ++ [r] ∧ r.seq = s.cl.nextSeq
          ∧ (r.windowId, r.cycle, r.flags.realigned) = (a.windowId, a.cycle, true)
          ∧ r.onPot = (if k.onStatus = .done then s.mu.onResult else none)
          ∧ r.offPot = (if k.offStatus = .done then s.mu.offResult.map OffResult.potential else none)
          ∧ t.cl.nextSeq = (s.cl.nextSeq + 1) % 4294967296
          ∧ t.sl.capture.map (fun x => (x.entryPhase, x.realigned)) = some (φ, true)
          ∧ t.cl.assembly.map (fun x => (x.windowId, x.cycle)) = some (w.id, n)
          ∧ ∀ l, (t.link l).flags &&& EventClass.capture.bit = EventClass.capture.bit)

/-- What a notice of second `sec`, tick `tick` does with the window `w` running, whose cycle part is `c`, from `s` to `t` (R48 to R51,
R54 to R56, R58, R70, R71). The pair of that time is taken where it is later, with every position between the two pairs, in cycle
order, each at its phase; otherwise the pair stays and no position is due. `code` is the potential code that MU takes at the notice,
where it takes one: it is accumulated into a measurement window that is OPEN and holds the phase after the notice, and into no other;
the off window keeps its least and its greatest code too. -/
abbrev State.noticed (s t : State) (w : WindowRec) (c : CyclePart) (sec tick : Nat) (code : Option Int) : Prop :=
  let p := s.profileOf w
  let ms : Nat → Nat := fun d => d * 12 / 5
  let rej : Nat := match p.rejection with | .none => 1 | .hz50 => 48 | .hz60 => 40
  let nw := max rej (ms p.window / rej * rej)
  let P := ms p.on + ms p.off
  let onEnd := ms p.on - ms p.onOffset
  let offStart := ms p.on + ms p.delay
  let hasOn := ms p.onOffset + nw ≤ ms p.on
  let hasOff := offStart + nw ≤ P
  let e : Int := Int.bmod ((sec : Int) - c.anchorSec) 4294967296 * 2400 + tick - c.anchorTick
  let n := c.anchorCycle + e / P
  let φ := (e % P).toNat
  let k := (n - c.cycle).toNat
  let marks : List (Bool × Nat × Position) :=
    [(true, 0, .boundary), (decide hasOn, onEnd - nw, .opens .on), (decide hasOn, onEnd, .closes .on),
      (true, ms p.on, .offEdge), (decide hasOff, offStart, .opens .off), (decide hasOff, offStart + nw, .closes .off)]
  ∃ w' c', t.active = some (w', c')
    ∧ (w'.id, w'.start, w'.stop, w'.profile, w'.origin) = (w.id, w.start, w.stop, w.profile, w.origin)
    ∧ (c'.anchorSec, c'.anchorTick, c'.anchorCycle) = (c.anchorSec, c.anchorTick, c.anchorCycle)
    ∧ (if c.cycle < n ∨ (n = c.cycle ∧ c.phase < φ) then
        c'.cycle = n ∧ c'.phase = φ
          ∧ t.moment.positions = (List.range (k + 1)).flatMap fun j => marks.filterMap fun m =>
              if m.1 = true ∧ c.phase < j * P + m.2.1 ∧ j * P + m.2.1 ≤ k * P + φ then some m.2.2 else none
      else c' = c ∧ t.moment.positions = [])
    ∧ (let inOn := hasOn ∧ onEnd - nw ≤ c'.phase ∧ c'.phase < onEnd
      let inOff := hasOff ∧ offStart ≤ c'.phase ∧ c'.phase < offStart + nw
      match code with
      | none => (t.mu.onAcc, t.mu.offAcc, t.mu.offMin, t.mu.offMax) = (s.mu.onAcc, s.mu.offAcc, s.mu.offMin, s.mu.offMax)
      | some x =>
        t.mu.onAcc =
            (if s.windowStatus .on = some .opened ∧ inOn then ⟨s.mu.onAcc.sum + x, s.mu.onAcc.count + 1⟩ else s.mu.onAcc)
          ∧ (t.mu.offAcc, t.mu.offMin, t.mu.offMax) =
            (if s.windowStatus .off = some .opened ∧ inOff then
              (⟨s.mu.offAcc.sum + x, s.mu.offAcc.count + 1⟩,
                some (match s.mu.offMin with | none => x | some y => min y x),
                some (match s.mu.offMax with | none => x | some y => max y x))
            else (s.mu.offAcc, s.mu.offMin, s.mu.offMax)))
    ∧ (t.mu.onResult, t.mu.offResult) = (s.mu.onResult, s.mu.offResult)

/-- What SK does with TIME_STEP, raised by a staged time T that is applied more than 1 s away with the window `w` running, whose
cycle part is `c`, from `s` to `t` (R19, R63, R68, R148, R152 to R159): a frame of the time T below two frames held, LOCKOUT with two,
and in LOCKOUT the lockout record. -/
abbrev State.stepFaults (s t : State) (w : WindowRec) (c : CyclePart) (T : Nat) : Prop :=
  (s.sk.stack.length < 2 → s.oc.output ≠ .lockout →
    t.sk = { s.sk with
      stack :=
        { seq := s.sk.nextFrame, kind := .timeStep, sec := T, tick := 0, output := s.oc.output.kind,
          mode := s.rg.set.mode, iset := s.rg.set.iset, duty := s.rg.duty, timeline := some ⟨w.id, c.cycle, c.phase⟩,
          capture := none, pendingList := s.cq.queue.map fun e => ⟨true, e⟩, continuation := .cycle } :: s.sk.stack
      nextFrame := next16 s.sk.nextFrame }
      ∧ t.cq.queue = [] ∧ t.oc.output = s.oc.output ∧ t.rg = s.rg
      ∧ (CaptureLaw s → s.sk.stack = [] → t.sl.capture = none ∧ t.cl.assembly = none ∧ t.oc.switch = .closed))
    ∧ (2 ≤ s.sk.stack.length → s.oc.output ≠ .lockout →
      t.sk = { s.sk with lockout := some ⟨.timeStep, T, 0⟩ } ∧ t.oc.output = .lockout ∧ t.oc.switch = .closed
        ∧ t.oc.drive = 0 ∧ t.rg.duty = 0 ∧ ∀ l, (t.link l).flags &&& EventClass.output.bit = EventClass.output.bit)
    ∧ (s.oc.output = .lockout → t.sk = { s.sk with lockout := some ⟨.timeStep, T, 0⟩ } ∧ t.oc.output = .lockout)
    ∧ (∀ l, (t.link l).flags &&& EventClass.fault.bit = EventClass.fault.bit)
    ∧ (s.sk.stack.length < 2 ∧ s.oc.output ≠ .lockout ∨ s.cq.queue = [] →
      let P := (s.profileOf w).period
      let e : Int := Int.bmod ((T : Int) - c.anchorSec) 4294967296 * 2400 - c.anchorTick
      t.active.map (fun a => (a.1.id, a.2.cycle, a.2.phase)) = some (w.id, c.anchorCycle + e / P, (e % P).toNat))

/-- The fields of a RESUME agree with the top frame, and its Iset with the limits in force (R164). -/
abbrev ResumeFields.agreesWith (f : ResumeFields) (top : Frame) (r : RegSettings) : Prop :=
  f.format = top.kind.format.code ∧ f.kind = top.kind.code ∧ f.elements.length = top.pendingList.length
    ∧ (∀ p ∈ f.elements.zip top.pendingList,
        p.1.target = p.2.entry.setting.code ∧ (∀ i ∈ p.2.entry.setting.index, p.1.index = i)
          ∧ (p.1.valid = true → p.2.valid = true ∧ p.2.entry.setting.acceptsExact p.1.value = true))
    ∧ (f.ramp = true → f.cycle = false ∧ top.kind.format ≠ .timeline)
    ∧ (f.cycle = true → top.kind.format = .timeline ∧ top.continuation = .cycle)
    ∧ r.imin ≤ f.iset ∧ f.iset ≤ r.ilim

/-- The station is in a state in which a RESUME that agrees is refused with NOT_READY (R165). -/
abbrev State.refusesResume (s : State) (f : ResumeFields) (top : Frame) : Prop :=
  (f.cycle = true ∧ (s.tb.state = .lost ∨ s.tb.state = .unset)) ∨ (top.kind = .stageFault ∧ s.pins.stgflt = true)

end Sys2Proof.Machine
end

