-- ==== Sys2Proof/Certificates/Slice0/Obligations.lean ====
section
/-! DEFINITION. The statements for the provers. Each says what a command, a rule or the whole machine does; every statement about
a command gives the next state that it answers with, under hypotheses on the state and the operands alone. -/

open Sys2Proof Sys2Proof.Machine

/-! ### The step -/

/-- A step takes the command at the front of the queue and carries it out on the rest. -/
def Obligations.StepRunsFrontCommand : Prop :=
  ∀ (c : Instr) (s : State), step { s with pending := c :: s.pending } = exec c s

/-- A row whose cause is not present changes nothing, and a step with no command waiting is idle: the model's choices (logs 1
and 9). -/
def Obligations.NotDueChangesNothing : Prop :=
  ∀ s : State,
    (s.pending = [] → step s = .next s)
      ∧ (s.moment.wrap = none → (s.moment.exam = false ∨ Position.boundary ∈ s.moment.positions) → exec .secondBoundary s = .next s)
      ∧ (s.moment.wrap = none → s.moment.regTick = false → ∀ rise, exec (.regulationTick rise) s = .next s)
      ∧ (s.tb.state ≠ .locked ∨ s.tb.edgeAge < 2402 → exec .holdoverEntry s = .next s)
      ∧ (s.moment.lost = false ∨ s.tb.state ≠ .holdover → exec .enterLost s = .next s)
      ∧ (Position.boundary ∉ s.moment.positions → exec .cycleBoundary s = .next s)
      ∧ (Position.offEdge ∉ s.moment.positions → exec .offEdge s = .next s)
      ∧ (∀ w, Position.opens w ∉ s.moment.positions → exec (.measurementWindowOpen w) s = .next s)
      ∧ (∀ w, Position.closes w ∉ s.moment.positions → exec (.measurementWindowClose w) s = .next s)
      ∧ ((∀ n ∈ s.hs.scan, n < 1000) → exec .scanEnd s = .next s)
      ∧ (s.ns.write = none → exec .saveComplete s = .next s)
      ∧ (∀ l, (s.link l).rx = .hunt ∨ (s.link l).gap ≤ 48 → exec (.gapExpiry l) s = .next s)
      ∧ (∀ l, (s.link l).buffer = none → exec (.responseSent l) s = .next s)
      ∧ (∀ l, (s.link l).pendingRate = none ∨ (s.link l).buffer ≠ none ∨ (s.link l).rx ≠ .hunt →
          exec (.bitRateSwitch l) s = .next s)

/-! ### Reset -/

/-- Power-on reset. With STGFLT deasserted every block is at its reset value, with the settings of an image that verifies and
the defaults otherwise; an image that does not verify raises STORE. With STGFLT asserted the reset ends with a STAGE_FAULT frame,
which records STOPPED, and the output HELD. The model's own choices in it: whether the image verifies is a mark (log 5); the scan
sums are 0 (log 6); the moment, the interval's marks and `outright` (logs 2, 23); the pins and the waiting commands are the world's
and stay (log 28). -/
def Obligations.PowerOnReset : Prop :=
  (∀ s : State, s.pins.stgflt = false →
     let good := s.ns.imageGood && s.ns.write.isNone
     let img := if good then s.ns.image else defaultImage
     let link : Rate → Link := fun r =>
       { rate := r, pendingRate := none, rx := .hunt, partialBytes := [], gap := 0, fifo := [], buffer := none, txBits := 0,
         errors := ⟨false, false, false⟩, flags := if good then 0 else EventClass.store.bit, mask := 0, attention := false }
     exec .powerOnReset s = .next
       { tb := { tick := 0, seconds := 0, state := .unset, lastEdge := none, rejectStreak := [], edgeAge := 0,
                 holdoverSec := 0, holdoverLimit := img.holdoverLimit, lossAction := img.lossAction, staged := none }
         sl := { profiles := img.profiles, windows := [], nextId := 1, notices := [], noticeNo := 1, demand := .closed,
                 capture := none, outright := false }
         mu := { onAcc := ⟨0, 0⟩, offAcc := ⟨0, 0⟩, offMin := none, offMax := none, onResult := none, offResult := none,
                 iAcc := ⟨0, 0⟩, vAcc := ⟨0, 0⟩, cal := img.cal, switchOpenInside := false, mainsBadInside := true }
         cl := { log := [], nextSeq := 1, assembly := none }
         rg := { set := img.reg, duty := 0, current := none, voltage := none, limited := none, tripStreak := 0,
                 overStreak := 0 }
         oc := { output := .stopped .reset, restartPending := img.autoRestart, autoRestart := img.autoRestart,
                 rampLimit := 0, switch := .closed, drive := 0 }
         cq := { queue := [] }
         sk := { stack := [], nextFrame := 1, lockout := none }
         hs := { scan := none, sums := Vector.replicate 8 0, lastScan := none
                 channels := Vector.ofFn fun i =>
                   { value := none, fresh := ⟨false, false, false⟩, limits := img.limits.get i, alarm := .none, low := 0,
                     high := 0, inside := 0 }
                 mains := .unknown, mainsCount := 0, mainsMark := true }
         lc := { links := ⟨link img.rates.sup, link img.rates.tel, link img.rates.svc⟩, lastServed := .service }
         ns := { image := s.ns.image, imageGood := good, imageState := if good then .valid else .invalid, write := none }
         pins := s.pins
         moment := { wrap := none, lost := false, regTick := false, regMoment := true, mainsBad := true, exam := false,
                     positions := [], tickCode := none, requeued := [] }
         pending := s.pending })
  ∧ (∀ s : State, s.pins.stgflt = true →
    let good := s.ns.imageGood && s.ns.write.isNone
    let img := if good then s.ns.image else defaultImage
    ∃ t, exec .powerOnReset s = .next t
      ∧ t.sk = { stack := [{ seq := 1, kind := .stageFault, sec := 0, tick := 0, output := .stopped, mode := img.reg.mode,
                             iset := img.reg.iset, duty := 0, timeline := none, capture := none, pendingList := [],
                             continuation := .ramp }]
                 nextFrame := 2, lockout := none }
      ∧ t.oc = { output := .held, restartPending := img.autoRestart, autoRestart := img.autoRestart, rampLimit := 0,
                 switch := .closed, drive := 0 }
      ∧ (∀ l, (t.link l).flags =
          EventClass.fault.bit ||| EventClass.output.bit ||| (if good then 0 else EventClass.store.bit))
      ∧ t.tb.state = .unset ∧ t.sl.windows = [] ∧ t.cl.log = [] ∧ t.cq.queue = [] ∧ t.hs.mains = .unknown)

/-! ### Time -/

/-- A moment at which nothing is due ends as it stands; a tick at count 2399 ends the moment and makes the wrap due, with the mark
that the switch stood OPEN inside the regulation interval, and nothing else changes; entries that a RESUME has put back in the queue
wait no longer (R150). -/
def Obligations.TickEndsMoment : Prop :=
  (∀ s : State, s.quiet → settle s = s)
  ∧ (∀ (x : Samples) (s : State), 2400 ≤ (settle s).tb.tick + 1 →
      exec (.tick x) s = .next
        { settle s with
          mu := { (settle s).mu with
            switchOpenInside := (settle s).mu.switchOpenInside || decide ((settle s).oc.switch = .opened) }
          moment := { (settle s).moment with wrap := some x, requeued := [] } })

/-- A tick below count 2399: the tick count and the edge age advance, one code goes into each average of the output
converter, a regulation tick is due at the counts of R2, a running scan counts the notice and may take a round of codes, a
write, the gap counts and the responses on the lines move on; the potential code is accumulated into each measurement window that is
OPEN and holds the phase after the notice, and into no other; and everything else but SL's pair in progress (`TickTakesPair`) stays
as the ended moment left it. -/
def Obligations.TickCounts : Prop :=
  ∀ (x : Samples) (s : State), (settle s).tb.tick + 1 < 2400 →
    let e := settle s
    let code : Int := min 32767 (max (-32768) x.pot)
    ∃ t, exec (.tick x) s = .next t
      ∧ t.mu.onAcc =
          (if e.windowStatus .on = some .opened ∧ t.phaseIn .on = true then ⟨e.mu.onAcc.sum + code, e.mu.onAcc.count + 1⟩
          else e.mu.onAcc)
      ∧ (t.mu.offAcc, t.mu.offMin, t.mu.offMax) =
          (if e.windowStatus .off = some .opened ∧ t.phaseIn .off = true then
            (⟨e.mu.offAcc.sum + code, e.mu.offAcc.count + 1⟩,
              some (match e.mu.offMin with | none => code | some y => min y code),
              some (match e.mu.offMax with | none => code | some y => max y code))
          else (e.mu.offAcc, e.mu.offMin, e.mu.offMax))
      ∧ (t.mu.onResult, t.mu.offResult) = (e.mu.onResult, e.mu.offResult) ∧ t.moment.requeued = []
      ∧ t.tb = { e.tb with tick := e.tb.tick + 1, edgeAge := min (e.tb.edgeAge + 1) 2402 }
      ∧ t.moment.regTick = decide ((e.tb.tick + 1) % 240 = 0)
      ∧ t.mu.iAcc = ⟨e.mu.iAcc.sum + min 32767 (max (-32768) x.iout), e.mu.iAcc.count + 1⟩
      ∧ t.mu.vAcc = ⟨e.mu.vAcc.sum + min 32767 (max (-32768) x.vout), e.mu.vAcc.count + 1⟩
      ∧ (∀ n, e.hs.scan = some n → n < 1000 →
          t.hs = { e.hs with scan := some (n + 1), sums := t.hs.sums }
            ∧ (t.hs.sums = e.hs.sums
              ∨ t.hs.sums = Vector.ofFn fun i => e.hs.sums.get i + min 32767 (max (-32768) (x.scan.get i))))
      ∧ (e.hs.scan = none → t.hs = e.hs)
      ∧ t.ns = { e.ns with write := e.ns.write.map fun w => { w with age := w.age + 1 } }
      ∧ (∀ l, t.link l = { e.link l with
          gap := if (e.link l).rx = .hunt then (e.link l).gap else min ((e.link l).gap + 1) 49
          txBits := if (e.link l).buffer.isSome then (e.link l).txBits + (e.link l).rate.bitsPerTick else (e.link l).txBits })
      ∧ t.lc.lastServed = e.lc.lastServed
      ∧ t.oc.output = e.oc.output ∧ t.oc.rampLimit = e.oc.rampLimit ∧ t.oc.restartPending = e.oc.restartPending
      ∧ t.oc.autoRestart = e.oc.autoRestart
      ∧ t.sl.profiles = e.sl.profiles ∧ t.sl.nextId = e.sl.nextId ∧ t.sl.notices = e.sl.notices
      ∧ t.sl.noticeNo = e.sl.noticeNo ∧ t.sl.capture = e.sl.capture
      ∧ t.cl.log = e.cl.log ∧ t.cl.nextSeq = e.cl.nextSeq ∧ t.mu.cal = e.mu.cal
      ∧ t.rg = e.rg ∧ t.cq = e.cq ∧ t.sk = e.sk ∧ t.pins = e.pins ∧ t.pending = e.pending

/-- SL and the measurement windows at a notice, with a window ACTIVE or ENDING: at a tick below count 2399, at the wrap, and at the
correction of an edge accepted at 2398 or 2399, which gives MU no sample (log 15). The pair derived from the elapsed ticks is taken if
it is later than the pair in progress, and the positions between the two, all six kinds of them, in this cycle and the next ones, are
then to be taken; otherwise the pair stays and no position is due. A window's start, its end and its length are those that the
profile in force gives. -/
def Obligations.TickTakesPair : Prop :=
  (∀ (x : Samples) (s : State) (w : WindowRec) (c : CyclePart),
    s.quiet → s.tb.tick + 1 < 2400 → s.active = some (w, c) → s.sl.outright = false →
      ∃ t, exec (.tick x) s = .next t ∧ t.sl.windows.tail = s.sl.windows.tail
        ∧ s.noticed t w c s.tb.seconds (s.tb.tick + 1) (some (min 32767 (max (-32768) x.pot))))
  ∧ (∀ (x : Samples) (s : State) (w : WindowRec) (c : CyclePart),
    s.moment.wrap = some x → s.moment.positions = [] → s.tb.state = .locked ∨ s.tb.staged = none →
    s.active = some (w, c) → s.sl.outright = false → s.sk.stack = [] ∨ s.cq.queue = [] →
      ∃ t, exec .secondBoundary s = .next t
        ∧ s.noticed t w c ((s.tb.seconds + 1) % 4294967296) 0 (some (min 32767 (max (-32768) x.pot))))
  ∧ (∀ (s : State) (w : WindowRec) (c : CyclePart),
    s.tb.tick = 2398 ∨ s.tb.tick = 2399 → s.tb.staged = none → s.timelineDone → s.moment.lost = false →
    s.moment.regTick = false → s.scanDue = false → s.active = some (w, c) → s.sl.outright = false →
      ∃ t, exec .pulseEdge s = .next t ∧ s.noticed t w c ((s.tb.seconds + 1) % 4294967296) 0 none)

/-- SECOND_BOUNDARY with no staged time whose point it is: the counts of the new second, the holdover seconds, the scan
that begins, the regulation tick that is due, and an entry to LOST that is due. -/
def Obligations.SecondBoundaryCounts : Prop :=
  ∀ (x : Samples) (s : State), s.moment.wrap = some x → s.tb.state = .locked ∨ s.tb.staged = none →
    let held := if s.tb.state = .holdover ∨ s.tb.state = .lost then min (s.tb.holdoverSec + 1) 4294967295 else s.tb.holdoverSec
    ∃ t, exec .secondBoundary s = .next t
      ∧ t.tb = { s.tb with tick := 0, seconds := (s.tb.seconds + 1) % 4294967296,
                           edgeAge := min (s.tb.edgeAge + 1) 2402, holdoverSec := held }
      ∧ t.moment.wrap = none ∧ t.moment.regTick = true ∧ t.hs.scan = some 0
      ∧ (t.moment.lost = true ↔ s.moment.lost = true ∨ s.tb.state = .holdover ∧ s.tb.holdoverLimit ≤ held)
      ∧ t.mu.iAcc = ⟨s.mu.iAcc.sum + min 32767 (max (-32768) x.iout), s.mu.iAcc.count + 1⟩
      ∧ t.oc.output = s.oc.output ∧ t.sk = s.sk ∧ t.pins = s.pins ∧ t.pending = s.pending
      ∧ t.hs.channels = s.hs.channels ∧ t.hs.mains = s.hs.mains ∧ t.rg.duty = s.rg.duty ∧ t.mu.cal = s.mu.cal
      ∧ t.cl.log = s.cl.log ∧ t.ns.image = s.ns.image

/-- A staged time at its application point. At the wrap, in UNSET, HOLDOVER and LOST: the seconds count becomes T, the tick count
0, the staged time is gone, every link's TIME_SET flag is set, and UNSET becomes HOLDOVER with holdover seconds 0 and TIMING. At an
accepted edge, in LOCKED at every count of the band and in the other states at 2398 and 2399: the same, and TB is LOCKED, with
TIMING where it was not; at 2398 and 2399 the examination and the regulation tick are due and the scan begins, and at the other
counts SL's examination is made. -/
def Obligations.StagedTimeApplied : Prop :=
  (∀ (x : Samples) (s : State) (st : StagedTime),
    s.moment.wrap = some x → s.tb.state ≠ .locked → s.tb.staged = some st →
      ∃ t, exec .secondBoundary s = .next t
        ∧ t.tb = { s.tb with
            tick := 0, seconds := st.value, staged := none, edgeAge := min (s.tb.edgeAge + 1) 2402
            state := if s.tb.state = .unset then .holdover else s.tb.state
            holdoverSec := if s.tb.state = .unset then 0 else min (s.tb.holdoverSec + 1) 4294967295 }
        ∧ (∀ l, (t.link l).flags &&& EventClass.timeSet.bit = EventClass.timeSet.bit)
        ∧ (s.tb.state = .unset → ∀ l, (t.link l).flags &&& EventClass.timing.bit = EventClass.timing.bit)
        ∧ t.hs.channels = s.hs.channels ∧ t.mu.cal = s.mu.cal ∧ t.ns.image = s.ns.image ∧ t.pins = s.pins
        ∧ t.pending = s.pending)
  ∧ (∀ (s : State) (st : StagedTime),
    s.tb.staged = some st → s.moment.lost = false →
    (s.tb.tick = 2398 ∨ s.tb.tick = 2399 ∨ (s.tb.tick ≤ 2 ∧ s.tb.state = .locked)) →
      ∃ t, exec .pulseEdge s = .next t
        ∧ t.tb = { s.tb with
            tick := 0, seconds := st.value, staged := none, state := .locked
            lastEdge := some ⟨s.tb.tick, s.tb.seconds, .accepted⟩
            rejectStreak := [], edgeAge := 0, holdoverSec := 0 }
        ∧ (∀ l, (t.link l).flags &&& EventClass.timeSet.bit = EventClass.timeSet.bit)
        ∧ (s.tb.state ≠ .locked → ∀ l, (t.link l).flags &&& EventClass.timing.bit = EventClass.timing.bit)
        ∧ (if 2398 ≤ s.tb.tick then t.moment.exam = true ∧ t.moment.regTick = true ∧ t.hs.scan = some 0
          else t.moment.exam = false ∧ t.moment.positions = [])
        ∧ t.mu.cal = s.mu.cal ∧ t.ns = s.ns ∧ t.pins = s.pins ∧ t.pending = s.pending)

/-- An accepted pulse edge that applies no staged time, because none is staged or because it waits (an edge at 0, 1 or 2 in a state
other than LOCKED): the count is corrected, TB is or becomes LOCKED but for UNSET, with TIMING where it leaves HOLDOVER or LOST, and
nothing of the timebase but this changes. At a second boundary the examination and the regulation tick are due, and the scan
begins. -/
def Obligations.PulseAccepted : Prop :=
  ∀ s : State, s.tb.tick = 2398 ∨ s.tb.tick = 2399 ∨ s.tb.tick ≤ 2 →
    s.tb.staged = none ∨ (s.tb.tick ≤ 2 ∧ s.tb.state ≠ .locked) →
    ∃ t, exec .pulseEdge s = .next t
      ∧ t.tb = { s.tb with
          tick := 0
          seconds := if 2398 ≤ s.tb.tick then (s.tb.seconds + 1) % 4294967296 else s.tb.seconds
          state := if s.tb.state = .unset then .unset else .locked
          lastEdge := some ⟨s.tb.tick, s.tb.seconds, .accepted⟩
          rejectStreak := [], edgeAge := 0, holdoverSec := 0 }
      ∧ t.moment.wrap = none
      ∧ (if 2398 ≤ s.tb.tick then t.moment.exam = true ∧ t.moment.regTick = true ∧ t.hs.scan = some 0
        else t.moment.exam = false ∧ t.moment.positions = [])
      ∧ (s.tb.state = .holdover ∨ s.tb.state = .lost →
          ∀ l, (t.link l).flags &&& EventClass.timing.bit = EventClass.timing.bit)
      ∧ t.ns = s.ns ∧ t.pins = s.pins ∧ t.pending = s.pending

/-- A rejected pulse edge that does not make three agreeing counts changes the last edge and the reject streak, and nothing
else. Two counts agree when they differ by at most 2 around the second. -/
def Obligations.PulseRejected : Prop :=
  ∀ s : State, 2 < s.tb.tick → s.tb.tick < 2398 → s.timelineDone → s.moment.lost = false →
    let apart : Nat → Nat → Nat := fun a b => min (max a b - min a b) (2400 - (max a b - min a b))
    let edge : Option LastEdge := some ⟨s.tb.tick, s.tb.seconds, .rejected⟩
    (s.tb.rejectStreak.length ≤ 1 →
      exec .pulseEdge s = .next
        { s with tb := { s.tb with lastEdge := edge, rejectStreak := s.tb.rejectStreak ++ [s.tb.tick] } })
    ∧ (∀ a b, s.tb.rejectStreak = [a, b] → (2 < apart a b ∨ 2 < apart a s.tb.tick ∨ 2 < apart b s.tb.tick) →
      exec .pulseEdge s = .next
        { s with tb := { s.tb with lastEdge := edge, rejectStreak := [b, s.tb.tick] } })

/-- The third agreeing rejected edge re-aligns TB to itself: to the next second from count 1200 on, back to the second's
beginning below it. A TIMING event is raised; the state and the edge age stay. From 1200 on, in a state other than LOCKED, a staged
time is applied, with its TIME_SET event, after the re-phase, and UNSET becomes HOLDOVER; a step of more than 1 s with a window running
raises TIME_STEP. Below 1200, and in LOCKED, a staged time waits. Where the holdover seconds reach the limit the entry to LOST is then
due (that it comes after the staged time and the re-phase is the model's choice, log 36). -/
def Obligations.PulseRealigns : Prop :=
  ∀ (s : State) (a b : Nat), 2 < s.tb.tick → s.tb.tick < 2398 → s.moment.lost = false → s.tb.rejectStreak = [a, b] →
    let apart : Nat → Nat → Nat := fun a b => min (max a b - min a b) (2400 - (max a b - min a b))
    apart a b ≤ 2 → apart a s.tb.tick ≤ 2 → apart b s.tb.tick ≤ 2 →
      let forward := 1200 ≤ s.tb.tick
      let held := if forward ∧ (s.tb.state = .holdover ∨ s.tb.state = .lost)
        then min (s.tb.holdoverSec + 1) 4294967295 else s.tb.holdoverSec
      let next := if forward then (s.tb.seconds + 1) % 4294967296 else s.tb.seconds
      let taken : Option StagedTime := if forward ∧ s.tb.state ≠ .locked then s.tb.staged else none
      ∃ t, exec .pulseEdge s = .next t
        ∧ t.tb = { s.tb with
            tick := 0
            seconds := match taken with | none => next | some st => st.value
            staged := if taken = none then s.tb.staged else none
            state := if taken ≠ none ∧ s.tb.state = .unset then .holdover else s.tb.state
            lastEdge := some ⟨s.tb.tick, s.tb.seconds, .rejected⟩
            rejectStreak := []
            holdoverSec := if taken ≠ none ∧ s.tb.state = .unset then 0 else held }
        ∧ (t.moment.lost = true ↔ forward ∧ s.tb.state = .holdover ∧ s.tb.holdoverLimit ≤ held)
        ∧ (forward → t.moment.exam = true ∧ t.moment.regTick = true ∧ t.hs.scan = some 0)
        ∧ (taken ≠ none → ∀ l, (t.link l).flags &&& EventClass.timeSet.bit = EventClass.timeSet.bit)
        ∧ (∀ st w c, taken = some st → s.active = some (w, c) → (st.value + 1 < next ∨ next + 1 < st.value) →
            s.timelineDone → s.moment.regTick = false → s.scanDue = false →
            s.sk.stack.length < 2 → s.oc.output ≠ .lockout →
            ∃ f, t.sk.stack = f :: s.sk.stack ∧ f.kind = .timeStep ∧ f.seq = s.sk.nextFrame ∧ (f.sec, f.tick) = (st.value, 0)
              ∧ f.timeline.map TimelinePart.windowId = some w.id ∧ f.continuation = .cycle
              ∧ f.pendingList = s.cq.queue.map (fun e => ⟨true, e⟩) ∧ t.cq.queue = [] ∧ t.oc.output = s.oc.output
              ∧ ∀ l, (t.link l).flags &&& EventClass.fault.bit = EventClass.fault.bit)
        ∧ t.ns = s.ns ∧ t.pins = s.pins ∧ t.pending = s.pending
        ∧ ∀ l, (t.link l).flags &&& EventClass.timing.bit = EventClass.timing.bit

/-- HOLDOVER is entered from LOCKED when the edge age has reached 2402, with holdover seconds 0 and a TIMING event on each
link. -/
def Obligations.HoldoverEntered : Prop :=
  ∀ s : State, s.tb.state = .locked → 2402 ≤ s.tb.edgeAge →
    exec .holdoverEntry s = .next
      { s with
        tb := { s.tb with state := .holdover, holdoverSec := 0 }
        lc := { s.lc with links := s.lc.links.map (Link.raise .timing) } }

/-- The two faults of the timeline. LOST is entered from HOLDOVER when the limit has been reached, with a TIMING event on each link.
With CONTINUE or no window ACTIVE or ENDING nothing more happens. With SUSPEND and such a window a TIMING_LOST frame is pushed, with a
FAULT event on each link; with two frames held the output enters LOCKOUT instead, and in LOCKOUT the lockout record is replaced. And a
step of more than 1 s with a window ACTIVE or ENDING, applied at the wrap in HOLDOVER or LOST or at an accepted edge, raises
TIME_STEP: below two frames a frame that names the window, takes the queue into it, and discards the capture, while the output goes
on; with two frames LOCKOUT; in LOCKOUT the lockout record; and the pair of the new time is taken outright. -/
def Obligations.TimelineFaultsTaken : Prop :=
  (∀ s : State, s.tb.state = .holdover → s.moment.lost = true →
    (s.tb.lossAction = .cont ∨ s.active = none →
      exec .enterLost s = .next
        { s with
          tb := { s.tb with state := .lost }
          lc := { s.lc with links := s.lc.links.map (Link.raise .timing) }
          moment := { s.moment with lost := false } })
    ∧ (∀ w c, s.tb.lossAction = .suspend → s.active = some (w, c) →
      let entry : LockoutRec := ⟨.timingLost, s.tb.seconds, s.tb.tick⟩
      (s.sk.stack.length < 2 → s.oc.output ≠ .lockout →
        ∃ t, exec .enterLost s = .next t
          ∧ t.tb = { s.tb with state := .lost }
          ∧ t.sk = { s.sk with
              stack :=
                { seq := s.sk.nextFrame, kind := .timingLost, sec := s.tb.seconds, tick := s.tb.tick
                  output := s.oc.output.kind, mode := s.rg.set.mode, iset := s.rg.set.iset, duty := s.rg.duty
                  timeline := some ⟨w.id, c.cycle, c.phase⟩, capture := none
                  pendingList := s.cq.queue.map fun e => ⟨true, e⟩, continuation := .cycle } :: s.sk.stack
              nextFrame := next16 s.sk.nextFrame }
          ∧ t.cq.queue = [] ∧ t.oc.output = s.oc.output ∧ t.rg = s.rg ∧ t.hs = s.hs
          ∧ t.sl.windows = s.sl.windows ∧ t.cl.log = s.cl.log
          ∧ (∀ l, (t.link l).flags = (s.link l).flags ||| EventClass.timing.bit ||| EventClass.fault.bit)
          ∧ (CaptureLaw s → s.sk.stack = [] →
              t.sl.capture = none ∧ t.cl.assembly = none ∧ t.sl.demand = .closed ∧ t.oc.switch = .closed))
      ∧ (2 ≤ s.sk.stack.length → s.oc.output ≠ .lockout →
        ∃ t, exec .enterLost s = .next t
          ∧ t.tb = { s.tb with state := .lost } ∧ t.sk = { s.sk with lockout := some entry }
          ∧ t.oc = { s.oc with output := .lockout, switch := .closed, drive := 0 } ∧ t.rg = { s.rg with duty := 0 }
          ∧ t.cq = s.cq ∧ t.hs = s.hs ∧ t.sl.windows = s.sl.windows ∧ t.sl.capture = s.sl.capture ∧ t.cl.log = s.cl.log
          ∧ ∀ l, (t.link l).flags
              = (s.link l).flags ||| EventClass.timing.bit ||| EventClass.output.bit ||| EventClass.fault.bit)
      ∧ (s.oc.output = .lockout →
        exec .enterLost s = .next
          { s with
            tb := { s.tb with state := .lost }
            sk := { s.sk with lockout := some entry }
            lc := { s.lc with links := s.lc.links.map fun k => (k.raise .timing).raise .fault }
            moment := { s.moment with lost := false } })))
  ∧ (∀ (x : Samples) (s : State) (st : StagedTime) (w : WindowRec) (c : CyclePart),
    s.moment.wrap = some x → s.tb.state = .holdover ∨ s.tb.state = .lost → s.tb.staged = some st →
    s.active = some (w, c) →
    s.tb.seconds < 4294967295 → (st.value + 1 < s.tb.seconds + 1 ∨ s.tb.seconds + 2 < st.value) →
      ∃ t, exec .secondBoundary s = .next t ∧ s.stepFaults t w c st.value
        ∧ (t.tb.seconds, t.tb.tick, t.tb.staged) = (st.value, 0, none)
        ∧ t.cl.log = s.cl.log ∧ t.hs.channels = s.hs.channels ∧ t.mu.cal = s.mu.cal ∧ t.ns.image = s.ns.image
        ∧ t.pins = s.pins ∧ t.pending = s.pending)
  ∧ (∀ (s : State) (st : StagedTime) (w : WindowRec) (c : CyclePart),
    s.tb.staged = some st → s.active = some (w, c) → s.timelineDone → s.moment.lost = false → s.moment.regTick = false →
    s.scanDue = false →
    ((s.tb.tick = 2398 ∨ s.tb.tick = 2399) ∧ s.tb.seconds < 4294967295
        ∧ (st.value + 1 < s.tb.seconds + 1 ∨ s.tb.seconds + 2 < st.value)
      ∨ s.tb.tick ≤ 2 ∧ s.tb.state = .locked ∧ (st.value + 1 < s.tb.seconds ∨ s.tb.seconds + 1 < st.value)) →
      ∃ t, exec .pulseEdge s = .next t ∧ s.stepFaults t w c st.value
        ∧ (t.tb.seconds, t.tb.tick, t.tb.staged, t.tb.state) = (st.value, 0, none, .locked)
        ∧ t.cl.log = s.cl.log ∧ t.hs.channels = s.hs.channels ∧ t.mu.cal = s.mu.cal ∧ t.ns = s.ns
        ∧ t.pins = s.pins ∧ t.pending = s.pending)

/-- A re-phase with a window ACTIVE or ENDING: at a re-alignment back to the second's beginning, at one forward to the next second,
and where a staged time 1 s from the new second is applied at the wrap. The last is stated for an empty stack and for entries whose
ends are ahead, where the examination of the new second, which SECOND_BOUNDARY makes too, changes none of them. -/
def Obligations.RephaseTaken : Prop :=
  (∀ (s : State) (w : WindowRec) (c : CyclePart) (a b : Nat),
    2 < s.tb.tick → s.tb.tick < 2398 → s.timelineDone → s.moment.lost = false → s.tb.rejectStreak = [a, b] →
    s.active = some (w, c) →
    let apart : Nat → Nat → Nat := fun a b => min (max a b - min a b) (2400 - (max a b - min a b))
    apart a b ≤ 2 → apart a s.tb.tick ≤ 2 → apart b s.tb.tick ≤ 2 →
      (s.tb.tick < 1200 →
        ∃ t, exec .pulseEdge s = .next t ∧ (t.tb.seconds, t.tb.tick) = (s.tb.seconds, 0)
          ∧ s.rephases t w c s.tb.seconds ∧ t.rg = s.rg ∧ t.sk = s.sk ∧ t.cq = s.cq ∧ t.hs = s.hs
          ∧ t.oc.output = s.oc.output ∧ t.sl.notices = s.sl.notices)
      ∧ (1200 ≤ s.tb.tick → s.tb.staged = none → s.moment.regTick = false → s.scanDue = false →
        ∃ t, exec .pulseEdge s = .next t ∧ (t.tb.seconds, t.tb.tick) = ((s.tb.seconds + 1) % 4294967296, 0)
          ∧ s.rephases t w c ((s.tb.seconds + 1) % 4294967296) ∧ t.rg = s.rg ∧ t.sk = s.sk ∧ t.cq = s.cq
          ∧ t.oc.output = s.oc.output ∧ t.sl.notices = s.sl.notices))
  ∧ (∀ (x : Samples) (s : State) (st : StagedTime) (w : WindowRec) (c : CyclePart),
    s.moment.wrap = some x → s.moment.positions = [] → s.tb.state ≠ .locked → s.tb.staged = some st →
    s.tb.seconds < 4294967295 → (st.value = s.tb.seconds ∨ st.value = s.tb.seconds + 2) → s.active = some (w, c) →
    s.sk.stack = [] → (∀ v ∈ s.sl.windows, st.value < v.stop) →
      ∃ t, exec .secondBoundary s = .next t ∧ (t.tb.seconds, t.tb.tick) = (st.value, 0)
        ∧ s.rephases t w c st.value ∧ t.rg = s.rg ∧ t.sk = s.sk ∧ t.cq = s.cq ∧ t.oc.output = s.oc.output
        ∧ t.sl.notices = s.sl.notices)

/-! ### The survey timeline -/

/-- At a second boundary with TB LOCKED or well inside HOLDOVER, no apply point's work and the stack empty, a SCHEDULED first
entry whose interval holds the new second is activated: anchored at its own start, with the pair of the elapsed ticks, its
notice, and a capture that is marked REALIGNED unless the phase is 0. -/
def Obligations.WindowActivates : Prop :=
  ∀ (x : Samples) (s : State) (w : WindowRec) (ws : List WindowRec),
    s.moment.wrap = some x → s.tb.seconds < 4294967295 →
    (s.tb.state = .locked ∨ s.tb.state = .holdover ∧ s.tb.staged = none ∧ s.moment.lost = false
      ∧ s.tb.holdoverSec + 1 < s.tb.holdoverLimit) →
    s.sl.windows = w :: ws → w.life = .scheduled → w.start ≤ s.tb.seconds + 1 → s.tb.seconds + 1 < w.stop →
    (∀ v ∈ ws, v.life = .scheduled ∧ s.tb.seconds + 1 < v.stop) → s.sk.stack = [] → s.cq.queue = [] →
    s.moment.positions = [] →
      let p := s.profileOf w
      let e : Int := ((s.tb.seconds + 1 : Nat) - (w.start : Int)) * 2400
      ∃ t c, exec .secondBoundary s = .next t
        ∧ t.sl.windows = { w with life := .active c } :: ws
        ∧ (0 < p.period → e < 5153960755200 →
            c = { anchorSec := w.start, anchorTick := 0, anchorCycle := 0, cycle := e / p.period,
                  phase := (e % p.period).toNat })
        ∧ t.sl.notices =
            s.sl.notices.drop (s.sl.notices.length - 7) ++ [⟨s.sl.noticeNo, w.id, .activated, s.tb.seconds + 1⟩]
        ∧ t.sl.noticeNo = (if 65535 ≤ s.sl.noticeNo then 1 else s.sl.noticeNo + 1)
        ∧ t.sl.capture.map (fun k => (k.entryPhase, k.realigned)) = some (c.phase, decide (c.phase ≠ 0))
        ∧ (t.sl.demand = .opened ↔ p.onT ≤ c.phase)
        ∧ t.sl.nextId = s.sl.nextId ∧ t.cl.log = s.cl.log ∧ t.rg = s.rg ∧ t.oc.output = s.oc.output ∧ t.sk = s.sk
        ∧ t.hs.channels = s.hs.channels ∧ t.mu.cal = s.mu.cal ∧ t.ns.image = s.ns.image ∧ t.pins = s.pins
        ∧ t.pending = s.pending

/-- A list examination at a second boundary with no cycle boundary to be taken ends an ACTIVE first entry whose end has come,
with cause TIME and no notice, and removes every SCHEDULED entry whose end has passed, in list order, with one SKIPPED notice each.
The last clause is for any list, where the examination activates no entry and no change is queued. -/
def Obligations.ExaminationEndsAndSkips : Prop :=
  (∀ (s : State) (w : WindowRec),
    s.moment.wrap = none → s.moment.exam = true → Position.boundary ∉ s.moment.positions → s.sl.windows = [w] →
      (∀ c, w.life = .active c → w.stop ≤ s.tb.seconds →
        ∃ t, exec .secondBoundary s = .next t ∧ t.moment.exam = false
          ∧ t.sl.notices = s.sl.notices ∧ t.tb = s.tb ∧ t.oc.output = s.oc.output ∧ t.sk = s.sk ∧ t.hs = s.hs
          ∧ t.ns = s.ns ∧ t.cl.log = s.cl.log ∧ t.pins = s.pins ∧ t.pending = s.pending
          ∧ (s.cq.queue = [] → t.sl.windows = [{ w with life := .ending c .time }]))
      ∧ (w.life = .scheduled → w.stop ≤ s.tb.seconds →
        ∃ t, exec .secondBoundary s = .next t ∧ t.sl.windows = [] ∧ t.moment.exam = false
          ∧ t.sl.notices =
            s.sl.notices.drop (s.sl.notices.length - 7) ++ [⟨s.sl.noticeNo, w.id, .skipped, s.tb.seconds⟩]
          ∧ (∀ l, (t.link l).flags &&& EventClass.window.bit = EventClass.window.bit)
          ∧ t.tb = s.tb ∧ t.sk = s.sk ∧ t.sl.nextId = s.sl.nextId ∧ t.oc.output = s.oc.output ∧ t.hs = s.hs
          ∧ t.ns = s.ns ∧ t.cl.log = s.cl.log ∧ t.pins = s.pins ∧ t.pending = s.pending))
  ∧ (∀ (s : State) (w : WindowRec) (ws : List WindowRec),
    s.moment.wrap = none → s.moment.exam = true → Position.boundary ∉ s.moment.positions → s.sl.windows = w :: ws →
    s.cq.queue = [] → s.sl.notices.length ≤ 8 →
    let now := s.tb.seconds
    let gone : WindowRec → Bool := fun v => decide (v.life = .scheduled ∧ v.stop ≤ now)
    let first : WindowRec :=
      match w.life with
      | .active c => if w.stop ≤ now then { w with life := .ending c .time } else w
      | .scheduled => w
      | .ending _ _ => w
    let kept := (first :: ws).filter fun v => !gone v
    let skips := ((w :: ws).filter gone).zipIdx.map fun p =>
      (⟨Nat.repeat next16 p.2 s.sl.noticeNo, p.1.id, .skipped, now⟩ : Notice)
    ((∃ v ∈ kept, v.life ≠ .scheduled) ∨ ∀ v ∈ kept.head?, now < v.start) →
      exec .secondBoundary s = .next
        { s with
          sl := { s.sl with
            windows := kept
            notices := (s.sl.notices ++ skips).drop (s.sl.notices.length + skips.length - 8)
            noticeNo := Nat.repeat next16 skips.length s.sl.noticeNo }
          lc := if skips = [] then s.lc else { s.lc with links := s.lc.links.map (Link.raise .window) }
          moment := { s.moment with exam := false } })

/-- At a cycle boundary an ENDING entry is removed after its capture has been completed, with the notice of its cause, and
the over-protection streak is cleared. -/
def Obligations.EndingWindowRemoved : Prop :=
  ∀ (s : State) (w : WindowRec) (ws : List WindowRec) (c : CyclePart) (cause : EndCause),
    s.moment.positions = [.boundary] → s.moment.exam = false → s.sl.windows = w :: ws → w.life = .ending c cause →
    (∀ v ∈ ws, v.life = .scheduled) → s.cq.queue = [] →
      ∃ t, exec .cycleBoundary s = .next t
        ∧ t.sl.windows = ws ∧ t.rg.overStreak = 0 ∧ t.sl.capture = none ∧ t.cl.assembly = none
        ∧ t.sl.notices = s.sl.notices.drop (s.sl.notices.length - 7)
            ++ [⟨s.sl.noticeNo, w.id, match cause with | .time => .ended | .delete => .deleted, s.tb.seconds⟩]
        ∧ t.sl.demand = .closed ∧ t.oc.switch = .closed ∧ t.moment.positions = [] ∧ t.tb = s.tb ∧ t.hs = s.hs
        ∧ t.ns = s.ns ∧ t.pins = s.pins ∧ t.pending = s.pending ∧ t.sl.nextId = s.sl.nextId
        ∧ (∀ l, (t.link l).flags &&& EventClass.window.bit = EventClass.window.bit)

/-- At a cycle boundary with a capture OPEN, CL completes the record of the cycle that ends: the record's fields and flags, its
number, its place in the log, the CAPTURE event. -/
def Obligations.CycleBoundaryRecords : Prop :=
  ∀ (s : State) (cap : Capture) (a : Assembly),
    s.moment.positions = [.boundary] → s.sl.capture = some cap → s.cl.assembly = some a →
      let onPot := if cap.onStatus = .done then s.mu.onResult else none
      let off := if cap.offStatus = .done then s.mu.offResult else none
      let tb := match a.offEdge with | some o => o.tb | none => s.tb.state
      let out := match a.offEdge with | some o => o.output | none => s.oc.output.kind
      ∃ t r, exec .cycleBoundary s = .next t
        ∧ t.cl.log = s.cl.log.drop (s.cl.log.length - 31) ++ [r]
        ∧ t.cl.nextSeq = (s.cl.nextSeq + 1) % 4294967296
        ∧ r.seq = s.cl.nextSeq ∧ r.windowId = a.windowId ∧ r.cycle = a.cycle
        ∧ r.offTime = a.offEdge.map (fun o => (o.sec, o.tick))
        ∧ r.onPot = onPot ∧ r.offPot = off.map (fun o => o.potential) ∧ r.spread = off.map (fun o => o.spread)
        ∧ (∀ u v, onPot = some u → r.offPot = some v → r.irDrop = some (u - v))
        ∧ (onPot = none ∨ off = none → r.irDrop = none)
        ∧ r.current = a.current ∧ r.inducedAc = (s.hs.channels.get 1).value
        ∧ (r.flags.noisy = true ↔ ∃ o, off = some o ∧ o.noisy = true)
        ∧ (r.flags.shortOn = true ↔ cap.onStatus = .short) ∧ (r.flags.shortOff = true ↔ cap.offStatus = .short)
        ∧ (r.flags.unsynced = true ↔ tb ≠ .locked) ∧ (r.flags.ramp = true ↔ out = .ramp)
        ∧ r.flags.noOutput = a.noOutput ∧ r.flags.realigned = cap.realigned
        ∧ (r.flags.underLim = true ↔ ∃ v, r.offPot = some v ∧ s.rg.set.underLimit < v ∧ r.flags.noisy = false
            ∧ r.flags.shortOn = false ∧ r.flags.unsynced = false ∧ r.flags.ramp = false ∧ r.flags.noOutput = false
            ∧ r.flags.realigned = false)
        ∧ (r.flags.overLim = true ↔ ∃ v, r.offPot = some v ∧ v < s.rg.set.overLimit ∧ r.flags.noisy = false
            ∧ r.flags.shortOn = false ∧ r.flags.unsynced = false ∧ r.flags.ramp = false ∧ r.flags.noOutput = false
            ∧ r.flags.realigned = false)
        ∧ (∀ l, (t.link l).flags &&& EventClass.capture.bit = EventClass.capture.bit)
        ∧ t.tb = s.tb ∧ t.hs = s.hs ∧ t.ns = s.ns ∧ t.pins = s.pins ∧ t.pending = s.pending

/-- The outer loop: at the boundary that completes a valid capture in POTENTIAL_OFF, with no change queued, Iset moves by the
step of the off potential, within Imin and Ilim, and no other regulation setting changes. -/
def Obligations.OuterLoopStep : Prop :=
  ∀ (s : State) (cap : Capture) (a : Assembly) (r : OffResult),
    s.moment.positions = [.boundary] → s.cq.queue = [] → s.sl.capture = some cap → s.cl.assembly = some a →
    s.rg.set.mode = .potentialOff → cap.offStatus = .done → s.mu.offResult = some r → r.noisy = false →
    cap.onStatus ≠ .short → cap.realigned = false → a.noOutput = false →
    (match a.offEdge with | some o => o.tb | none => s.tb.state) = .locked →
    (match a.offEdge with | some o => o.output | none => s.oc.output.kind) ≠ .ramp →
      let e := r.potential - s.rg.set.target
      let delta :=
        if r.potential < s.rg.set.overLimit then -s.rg.set.stepLimit
        else if -s.rg.set.deadband ≤ e ∧ e ≤ s.rg.set.deadband then 0
        else min s.rg.set.stepLimit (max (-s.rg.set.stepLimit) (Int.tdiv (e * s.rg.set.outerGain) 256))
      ∃ t, exec .cycleBoundary s = .next t
        ∧ t.rg.set = { s.rg.set with iset := min s.rg.set.ilim (max s.rg.set.imin (s.rg.set.iset + delta)) }

/-- The third valid OVER capture in a row raises OVERPROTECTION: a frame that holds the record's number and its off potential,
and the output in HELD. -/
def Obligations.OverprotectionHolds : Prop :=
  ∀ (s : State) (cap : Capture) (a : Assembly) (o : OffEdge) (r : OffResult) (w : WindowRec) (c : CyclePart),
    s.moment.positions = [.boundary] → s.moment.exam = false → s.sl.capture = some cap → s.cl.assembly = some a →
    s.active = some (w, c) → cap.offStatus = .done → s.mu.offResult = some r → r.noisy = false → cap.onStatus ≠ .short →
    cap.realigned = false → a.noOutput = false → a.offEdge = some o → o.tb = .locked → o.output ≠ .ramp →
    r.potential < s.rg.set.overLimit → s.rg.overStreak = 2 → s.sk.stack = [] → s.oc.output = .run →
      ∃ t f, exec .cycleBoundary s = .next t
        ∧ t.sk.stack = [f] ∧ f.kind = .overprotection ∧ f.seq = s.sk.nextFrame ∧ f.sec = s.tb.seconds ∧ f.tick = s.tb.tick
        ∧ f.output = .run ∧ f.duty = s.rg.duty ∧ f.capture = some ⟨s.cl.nextSeq, r.potential⟩
        ∧ f.timeline = some ⟨w.id, c.cycle, c.phase⟩ ∧ f.continuation = .ramp
        ∧ f.pendingList = s.cq.queue.map (fun e => ⟨true, e⟩)
        ∧ t.oc.output = .held ∧ t.oc.restartPending = true ∧ t.oc.drive = 0 ∧ t.oc.switch = .closed ∧ t.rg.duty = 0
        ∧ t.cq.queue = [] ∧ t.sl.capture = none ∧ t.cl.assembly = none
        ∧ t.tb = s.tb ∧ t.hs = s.hs ∧ t.ns = s.ns ∧ t.pins = s.pins ∧ t.pending = s.pending

/-- An apply point: the entries queued, but those that a RESUME of the same moment has put back, which wait for the next one (R150),
are written in queue order, each against what those before it have left, with the relations of the limits restored; they leave the
queue and, where there is one, CHANGE is raised on every link. At a second boundary with no window running, and at one under
suspension; at a cycle boundary with the stack empty and no capture OPEN; at one with a capture OPEN, whose record is completed first
and judged against the settings from before (with an over-protection streak that stays below 3); and at one that removes the window. A
window that runs on a profile written to is re-anchored at the moment, at phase 0: one cycle number on at a second boundary under
suspension, and at the cycle that begins at a cycle boundary, whose capture opens with the profile as written. -/
def Obligations.ApplyPointTaken : Prop :=
  ∀ s : State,
    let due := s.cq.queue.filter fun e => decide (e.setting ∉ s.moment.requeued)
    let stay := s.cq.queue.filter fun e => decide (e.setting ∈ s.moment.requeued)
    let told : Link → Link := fun k => if due = [] then k else k.raise .change
    let write : RegSettings → RegTarget → Int → RegSettings := fun r x v =>
      match x with
      | .mode => { r with mode := if v = 0 then .current else if v = 1 then .voltage else .potentialOff }
      | .currentSet => { r with iset := min r.ilim (max r.imin v) }
      | .voltageSet => { r with vset := min v r.vlim }
      | .currentMin => { r with imin := min v r.ilim, iset := max r.iset (min v r.ilim) }
      | .currentLimit => { r with ilim := v, imin := min r.imin v, iset := min r.iset v, trip := max r.trip v }
      | .voltageLimit => { r with vlim := v, vset := min r.vset v }
      | .tripLevel => { r with trip := max v r.ilim }
      | .offTarget => { r with target := v }
      | .outerGain => { r with outerGain := v }
      | .deadband => { r with deadband := v }
      | .stepLimit => { r with stepLimit := v }
      | .innerGain => { r with innerGain := v }
      | .rampRate => { r with rampRate := v }
      | .overLimit => { r with overLimit := v }
      | .underLimit => { r with underLimit := v }
    let field : Profile → ProfileField → Int → Profile := fun p x v =>
      match x with
      | .on => { p with on := v.toNat }
      | .off => { p with off := v.toNat }
      | .delay => { p with delay := v.toNat }
      | .window => { p with window := v.toNat }
      | .onOffset => { p with onOffset := v.toNat }
      | .noise => { p with noise := v.toNat }
      | .rejection => { p with rejection := if v = 0 then .none else if v = 1 then .hz50 else .hz60 }
    let regs : RegSettings → RegSettings := fun r =>
      due.foldl (fun r e => match e.setting with | .reg x => write r x e.value | .profile _ _ => r) r
    let profs := due.foldl
      (fun ps e => match e.setting with | .reg _ => ps | .profile x i => ps.set i (field (ps.get i) x e.value)) s.sl.profiles
    let anchored : WindowRec → CyclePart → Int → CyclePart := fun w c n =>
      if due.any (fun e => match e.setting with | .reg _ => false | .profile _ i => decide (i = w.profile)) then
        { anchorSec := s.tb.seconds, anchorTick := s.tb.tick, anchorCycle := n, cycle := n, phase := 0 }
      else c
    (s.moment.wrap = none → s.moment.exam = true → Position.boundary ∉ s.moment.positions →
      (s.sl.windows = [] →
        exec .secondBoundary s = .next
          { s with
            rg := { s.rg with set := regs s.rg.set }, sl := { s.sl with profiles := profs }, cq := { queue := stay }
            lc := { s.lc with links := s.lc.links.map told }
            moment := { s.moment with exam := false } })
      ∧ (∀ w ws c, s.sl.windows = w :: ws → w.life = .active c → s.sk.stack ≠ [] →
        (∀ v ∈ w :: ws, s.tb.seconds < v.stop) →
        ∃ t, exec .secondBoundary s = .next t
          ∧ t.rg = { s.rg with set := regs s.rg.set } ∧ t.sl.profiles = profs ∧ t.cq.queue = stay
          ∧ t.sl.windows = { w with life := .active (anchored w c (c.cycle + 1)) } :: ws
          ∧ (∀ l, t.link l = told (s.link l))
          ∧ t.tb = s.tb ∧ t.sk = s.sk ∧ t.hs = s.hs ∧ t.ns = s.ns ∧ t.cl = s.cl ∧ t.oc.output = s.oc.output
          ∧ t.sl.notices = s.sl.notices ∧ t.pins = s.pins ∧ t.pending = s.pending))
    ∧ (∀ w ws c, s.moment.positions = [.boundary] →
        (s.moment.exam = false ∨ ∀ v ∈ w :: ws, s.tb.seconds < v.stop) → s.sl.windows = w :: ws →
        w.life = .active c → s.sk.stack = [] → s.sl.outright = false →
        let part := anchored w c c.cycle
        let begins : State → Prop := fun t =>
          t.sl.profiles = profs ∧ t.cq.queue = stay
            ∧ t.sl.windows = { w with life := .active part } :: ws
            ∧ (t.sl.demand = .opened ↔ (profs.get w.profile).onT ≤ part.phase)
            ∧ t.sl.capture.map (fun k => (k.entryPhase, k.realigned)) = some (0, false)
            ∧ t.cl.assembly.map (fun a => (a.windowId, a.cycle)) = some (w.id, part.cycle)
            ∧ (∀ m k, t.sl.capture = some k → (k.status m = .short ↔ (profs.get w.profile).fits m = false))
            ∧ t.tb = s.tb ∧ t.sk = s.sk ∧ t.hs = s.hs ∧ t.ns = s.ns ∧ t.oc.output = s.oc.output
            ∧ t.sl.notices = s.sl.notices ∧ t.pins = s.pins ∧ t.pending = s.pending
        (s.sl.capture = none →
          ∃ t, exec .cycleBoundary s = .next t ∧ begins t
            ∧ t.rg = { s.rg with set := regs s.rg.set } ∧ t.cl.log = s.cl.log ∧ ∀ l, t.link l = told (s.link l))
        ∧ (∀ k a, s.sl.capture = some k → s.cl.assembly = some a → s.rg.overStreak < 2 →
          ∃ t r, exec .cycleBoundary s = .next t ∧ begins t
            ∧ t.cl.log = s.cl.log.drop (s.cl.log.length - 31) ++ [r] ∧ t.cl.nextSeq = (s.cl.nextSeq + 1) % 4294967296
            ∧ (r.seq, r.windowId, r.cycle, r.flags.realigned) = (s.cl.nextSeq, a.windowId, a.cycle, k.realigned)
            ∧ r.offPot = (if k.offStatus = .done then s.mu.offResult.map OffResult.potential else none)
            ∧ (let valid := r.offPot ≠ none ∧ r.flags.noisy = false ∧ r.flags.shortOn = false ∧ r.flags.unsynced = false
                  ∧ r.flags.ramp = false ∧ r.flags.noOutput = false ∧ r.flags.realigned = false
              let pot := r.offPot.getD 0
              let e := pot - s.rg.set.target
              let delta :=
                if pot < s.rg.set.overLimit then -s.rg.set.stepLimit
                else if -s.rg.set.deadband ≤ e ∧ e ≤ s.rg.set.deadband then 0
                else min s.rg.set.stepLimit (max (-s.rg.set.stepLimit) (Int.tdiv (e * s.rg.set.outerGain) 256))
              let judged : RegSettings :=
                if valid ∧ s.rg.set.mode = .potentialOff then
                  { s.rg.set with iset := min s.rg.set.ilim (max s.rg.set.imin (s.rg.set.iset + delta)) }
                else s.rg.set
              (r.flags.overLim = true ↔ valid ∧ pot < s.rg.set.overLimit)
                ∧ t.rg = { s.rg with
                    set := regs judged
                    overStreak :=
                      if valid then (if pot < s.rg.set.overLimit then s.rg.overStreak + 1 else 0) else s.rg.overStreak })
            ∧ ∀ l, t.link l = told ((s.link l).raise .capture)))
    ∧ (∀ w ws c cause, s.moment.positions = [.boundary] → s.moment.exam = false → s.sl.windows = w :: ws →
        w.life = .ending c cause → (∀ v ∈ ws, v.life = .scheduled) → s.sk.stack = [] → s.sl.capture = none →
        ∃ t, exec .cycleBoundary s = .next t
          ∧ t.rg = { s.rg with set := regs s.rg.set, overStreak := 0 } ∧ t.sl.profiles = profs ∧ t.cq.queue = stay
          ∧ t.sl.windows = ws ∧ t.sl.capture = none ∧ t.sl.demand = .closed
          ∧ (∀ l, t.link l = told ((s.link l).raise .window))
          ∧ t.tb = s.tb ∧ t.sk = s.sk ∧ t.hs = s.hs ∧ t.ns = s.ns ∧ t.cl.log = s.cl.log ∧ t.oc.output = s.oc.output
          ∧ t.pins = s.pins ∧ t.pending = s.pending)

/-- The off edge: the switch demand opens while a window runs with the stack empty, the switch opens in RUN and the drive output
is then 0; an OPEN capture whose off-edge time is absent takes the moment, the timebase state and the output state. -/
def Obligations.OffEdgeTaken : Prop :=
  ∀ (s : State) (w : WindowRec) (c : CyclePart),
    s.moment.positions = [.offEdge] → s.active = some (w, c) → (s.profileOf w).onT ≤ c.phase → s.sk.stack = [] →
      let sw : SwitchPos := if s.oc.output = .run then .opened else .closed
      exec .offEdge s = .next
        { s with
          sl := { s.sl with demand := .opened }
          oc := { s.oc with switch := sw, drive := if s.oc.output = .ramp then s.rg.duty else 0 }
          mu := { s.mu with switchOpenInside :=
            s.mu.switchOpenInside
              || (decide (s.oc.output = .run) && !(s.moment.regMoment || s.moment.wrap.isSome)) }
          cl := { s.cl with assembly := if s.sl.capture = none then s.cl.assembly else s.cl.assembly.map fun a =>
            if a.offEdge.isSome then a
            else { a with offEdge := some ⟨s.tb.seconds, s.tb.tick, s.tb.state, s.oc.output.kind⟩, closed := true,
                          closedNow := true } }
          moment := { s.moment with positions := [] } }

/-- A PENDING measurement window opens: its status becomes OPEN, its accumulators are cleared, and the code of the moment's tick
notice is the first accumulated where the phase lies within the window. An OPEN one that holds samples closes: it is DONE, with
the potential of the mean code, and for the off window the spread and the noisy mark. -/
def Obligations.MeasurementWindowOpensAndCloses : Prop :=
  (∀ (s : State) (k : Capture) (r : WindowRec) (c : CyclePart),
      s.sl.capture = some k → s.active = some (r, c) →
      let p := s.profileOf r
      (s.moment.positions = [.opens .on] → k.onStatus = .pending →
        let first : Option Int := if p.inWindow .on c.phase then s.moment.tickCode else none
        exec (.measurementWindowOpen .on) s = .next
          { s with
            sl := { s.sl with capture := some { k with onStatus := .opened } }
            mu := { s.mu with onResult := none, onAcc := match first with | none => ⟨0, 0⟩ | some v => ⟨v, 1⟩ }
            moment := { s.moment with positions := [] } })
      ∧ (s.moment.positions = [.opens .off] → k.offStatus = .pending →
        let first : Option Int := if p.inWindow .off c.phase then s.moment.tickCode else none
        exec (.measurementWindowOpen .off) s = .next
          { s with
            sl := { s.sl with capture := some { k with offStatus := .opened } }
            mu := { s.mu with offResult := none, offMin := first, offMax := first,
                              offAcc := match first with | none => ⟨0, 0⟩ | some v => ⟨v, 1⟩ }
            moment := { s.moment with positions := [] } }))
  ∧ (∀ (s : State) (k : Capture) (r : WindowRec) (c : CyclePart),
      s.sl.capture = some k → s.active = some (r, c) →
      let away : Int → Nat → Int := fun n d => Int.sign n * ((n.natAbs + d / 2) / d : Nat)
      let gain := (s.mu.cal.get 0).cgain
      let potential : Acc → Int := fun a =>
        min 5000 (max (-5000) (away ((away a.sum a.count - (s.mu.cal.get 0).coff) * gain) 8192))
      (s.moment.positions = [.closes .on] → k.onStatus = .opened → 0 < s.mu.onAcc.count →
        exec (.measurementWindowClose .on) s = .next
          { s with
            sl := { s.sl with capture := some { k with onStatus := .done } }
            mu := { s.mu with onResult := some (potential s.mu.onAcc) }
            moment := { s.moment with positions := [] } })
      ∧ (∀ lo hi, s.moment.positions = [.closes .off] → k.offStatus = .opened → 0 < s.mu.offAcc.count →
        s.mu.offMin = some lo → s.mu.offMax = some hi →
        let spread := (hi - lo) * gain / 8192
        exec (.measurementWindowClose .off) s = .next
          { s with
            sl := { s.sl with capture := some { k with offStatus := .done } }
            mu := { s.mu with
              offResult := some ⟨potential s.mu.offAcc, spread, decide (((s.profileOf r).noise : Int) < spread)⟩ }
            moment := { s.moment with positions := [] } }))

/-! ### Regulation -/

/-- An unfrozen regulation tick in RUN with the measured current below the trip level, or the first one at or above it, which makes
the trip streak 1 and is otherwise the same: measured current and voltage from the interval's means, the gain step, the limit
override, the limited status, the duty value and the drive output; the current before off of an assembly whose collection is open, or
was closed at this very moment; the next interval's sums and marks; the demand as it stands; and nothing else. -/
def Obligations.RegulationTickInRun : Prop :=
  ∀ (s : State) (rise : Bool),
    s.moment.wrap = none → s.moment.regTick = true → s.oc.output = .run → s.oc.rampLimit = 1000 → s.hs.mains = .present →
    s.mu.switchOpenInside = false → s.mu.mainsBadInside = false → s.scanDue = false →
    0 < s.mu.iAcc.count → 0 < s.mu.vAcc.count →
    let away : Int → Nat → Int := fun n d => Int.sign n * ((n.natAbs + d / 2) / d : Nat)
    let value : Acc → Cal → Int → Int := fun a k top =>
      min top (max 0 (away ((away a.sum a.count - k.coff) * k.cgain) 8192))
    let i := value s.mu.iAcc (s.mu.cal.get 1) 11000
    let v := value s.mu.vAcc (s.mu.cal.get 2) 6500
    let r := s.rg.set
    i < r.trip ∨ s.rg.tripStreak = 0 →
      let err := if r.mode = .voltage then r.vset - v else r.iset - i
      let gain := min 50 (max (-50) (Int.tdiv (err * r.innerGain) 4096))
      let step := if i > r.ilim ∨ v > r.vlim then -10 else if i = r.ilim ∨ v = r.vlim then min gain 0 else gain
      let duty := min 1000 (max 0 (s.rg.duty + step))
      let lim : Option LimitKind :=
        if i ≥ r.ilim ∧ v ≥ r.vlim then some .both else if i ≥ r.ilim then some .current
        else if v ≥ r.vlim then some .voltage else none
      let sw : SwitchPos := if s.wantsOpen then .opened else .closed
      ∃ t, exec (.regulationTick rise) s = .next t
        ∧ t.rg = { s.rg with duty := duty, current := some i, voltage := some v, limited := lim,
                             tripStreak := if i < r.trip then 0 else 1 }
        ∧ t.oc = { s.oc with switch := sw, drive := if sw = .closed then duty else 0 }
        ∧ t.sl = { s.sl with demand := sw }
        ∧ t.cl = { s.cl with assembly := s.cl.assembly.map fun a =>
            if a.closed = false ∨ a.closedNow = true then { a with current := some i } else a }
        ∧ t.mu = { s.mu with
            iAcc := ⟨0, 0⟩, vAcc := ⟨0, 0⟩, mainsBadInside := s.moment.mainsBad
            switchOpenInside := decide (sw = .opened) && !s.moment.regMoment }
        ∧ t.moment = { s.moment with regTick := false }
        ∧ (s.rg.limited = none → lim ≠ none → ∀ l, t.link l = (s.link l).raise .limit)
        ∧ (s.rg.limited ≠ none ∨ lim = none → t.lc = s.lc)
        ∧ t.tb = s.tb ∧ t.cq = s.cq ∧ t.sk = s.sk ∧ t.hs = s.hs ∧ t.ns = s.ns ∧ t.pins = s.pins ∧ t.pending = s.pending

/-- The regulation ticks that update no duty value. A frozen one in RUN or RAMP records the measured values of an interval that holds a
tick notice and begins the next interval, and changes nothing else: not the duty value, the streaks, the limited status, the ramp
limit, the output, the current before off. One in STOPPED, HELD or LOCKOUT, frozen or not, records them too, clears the trip streak and
the limited status without an event, and, where it is not frozen, is the current before off of an assembly whose collection is open. -/
def Obligations.FrozenTickHolds : Prop :=
  (∀ (s : State) (rise : Bool),
    s.moment.wrap = none → s.moment.regTick = true → s.oc.output = .run ∨ s.oc.output = .ramp →
    s.mu.switchOpenInside = true ∨ s.mu.mainsBadInside = true ∨ s.hs.mains ≠ .present ∨ s.mu.iAcc.count = 0 →
    let away : Int → Nat → Int := fun n d => Int.sign n * ((n.natAbs + d / 2) / d : Nat)
    let value : Acc → Cal → Int → Int := fun a k top =>
      min top (max 0 (away ((away a.sum a.count - k.coff) * k.cgain) 8192))
      ∃ t, exec (.regulationTick rise) s = .next t
        ∧ t = { s with
            rg := { s.rg with current := t.rg.current, voltage := t.rg.voltage }
            mu := { s.mu with
              iAcc := ⟨0, 0⟩, vAcc := ⟨0, 0⟩, switchOpenInside := false
              mainsBadInside := s.moment.mainsBad || decide (s.hs.mains ≠ .present) }
            moment := { s.moment with regTick := false } }
        ∧ (s.mu.iAcc.count = 0 → t.rg = s.rg)
        ∧ (0 < s.mu.iAcc.count → t.rg.current = some (value s.mu.iAcc (s.mu.cal.get 1) 11000))
        ∧ (0 < s.mu.iAcc.count → 0 < s.mu.vAcc.count → t.rg.voltage = some (value s.mu.vAcc (s.mu.cal.get 2) 6500)))
  ∧ (∀ (s : State) (rise : Bool),
    s.moment.wrap = none → s.moment.regTick = true → s.oc.output ≠ .run → s.oc.output ≠ .ramp →
    let away : Int → Nat → Int := fun n d => Int.sign n * ((n.natAbs + d / 2) / d : Nat)
    let value : Acc → Cal → Int → Int := fun a k top =>
      min top (max 0 (away ((away a.sum a.count - k.coff) * k.cgain) 8192))
    let shut := s.mu.switchOpenInside = true ∨ s.mu.mainsBadInside = true ∨ s.hs.mains ≠ .present ∨ s.mu.iAcc.count = 0
      ∃ t, exec (.regulationTick rise) s = .next t
        ∧ t = { s with
            rg := { s.rg with current := t.rg.current, voltage := t.rg.voltage, limited := none, tripStreak := 0 }
            cl := { s.cl with assembly := t.cl.assembly }
            mu := { s.mu with
              iAcc := ⟨0, 0⟩, vAcc := ⟨0, 0⟩, switchOpenInside := false
              mainsBadInside := s.moment.mainsBad || decide (s.hs.mains ≠ .present) }
            moment := { s.moment with regTick := false } }
        ∧ (s.mu.iAcc.count = 0 → (t.rg.current, t.rg.voltage) = (s.rg.current, s.rg.voltage))
        ∧ (0 < s.mu.iAcc.count → t.rg.current = some (value s.mu.iAcc (s.mu.cal.get 1) 11000))
        ∧ (0 < s.mu.iAcc.count → 0 < s.mu.vAcc.count → t.rg.voltage = some (value s.mu.vAcc (s.mu.cal.get 2) 6500))
        ∧ (shut → t.cl = s.cl)
        ∧ (¬ shut → s.scanDue = false → t.cl.assembly = s.cl.assembly.map fun a =>
            if a.closed = false ∨ a.closedNow = true then { a with current := t.rg.current } else a))

/-- An unfrozen regulation tick in RAMP, with the measured current below the trip level or the first at or above it, raises the ramp
limit by the ramp rate, and at 1000 permille the output enters RUN with an OUTPUT event, in either order of the rise and the duty
update. It makes the duty update of RUN, with the duty value under the ramp limit of its order: the limited status with its LIMIT
event, the trip streak, the drive output, the current before off. -/
def Obligations.RampRises : Prop :=
  ∀ (s : State) (rise : Bool),
    s.moment.wrap = none → s.moment.regTick = true → s.oc.output = .ramp → s.hs.mains = .present →
    s.mu.switchOpenInside = false → s.mu.mainsBadInside = false → s.scanDue = false →
    0 < s.mu.iAcc.count → 0 < s.mu.vAcc.count →
    let i := s.measuredCurrent
    let v := s.measuredVoltage
    let r := s.rg.set
    i < r.trip ∨ s.rg.tripStreak = 0 → 0 ≤ s.oc.rampLimit → 1 ≤ r.rampRate →
      let ramp := min 1000 (s.oc.rampLimit + r.rampRate)
      let ends := 1000 ≤ s.oc.rampLimit + r.rampRate
      let err := if r.mode = .voltage then r.vset - v else r.iset - i
      let gain := min 50 (max (-50) (Int.tdiv (err * r.innerGain) 4096))
      let step := if i > r.ilim ∨ v > r.vlim then -10 else if i = r.ilim ∨ v = r.vlim then min gain 0 else gain
      let duty := min (if rise then ramp else s.oc.rampLimit) (max 0 (s.rg.duty + step))
      let lim : Option LimitKind :=
        if i ≥ r.ilim ∧ v ≥ r.vlim then some .both else if i ≥ r.ilim then some .current
        else if v ≥ r.vlim then some .voltage else none
      let sw : SwitchPos := if ends ∧ s.wantsOpen = true then .opened else .closed
      ∃ t, exec (.regulationTick rise) s = .next t
        ∧ t.rg = { s.rg with duty := duty, current := some i, voltage := some v, limited := lim,
                             tripStreak := if i < r.trip then 0 else 1 }
        ∧ t.oc = { s.oc with output := if ends then .run else .ramp, rampLimit := ramp, switch := sw
                             drive := if sw = .closed then duty else 0 }
        ∧ t.sl = { s.sl with demand := if s.wantsOpen then .opened else .closed }
        ∧ t.cl = { s.cl with assembly := s.cl.assembly.map fun a =>
            if a.closed = false ∨ a.closedNow = true then { a with current := some i } else a }
        ∧ t.mu = { s.mu with
            iAcc := ⟨0, 0⟩, vAcc := ⟨0, 0⟩, mainsBadInside := s.moment.mainsBad
            switchOpenInside := decide (sw = .opened) && !s.moment.regMoment }
        ∧ t.moment = { s.moment with regTick := false }
        ∧ (∀ l, (t.link l).flags = (s.link l).flags ||| (if ends then EventClass.output.bit else 0)
            ||| (if s.rg.limited = none ∧ lim ≠ none then EventClass.limit.bit else 0))
        ∧ t.sk = s.sk ∧ t.cq = s.cq ∧ t.hs = s.hs ∧ t.tb = s.tb ∧ t.ns = s.ns ∧ t.pins = s.pins ∧ t.pending = s.pending

/-- The second unfrozen tick in a row at or above the trip level, in RUN or RAMP, raises OVERCURRENT: the duty value is not updated,
the frame records it, the streak is 0 and the output is HELD with duty 0; with two frames held the output enters LOCKOUT instead. In
RAMP with the rise first, the ramp limit has risen, and at 1000 permille it is RUN that the frame records; with the rise after, the
output has left RAMP and there is no rise. -/
def Obligations.OvercurrentTrips : Prop :=
  ∀ (s : State) (rise : Bool),
    s.moment.wrap = none → s.moment.regTick = true → s.oc.output = .run ∨ s.oc.output = .ramp → s.hs.mains = .present →
    s.mu.switchOpenInside = false → s.mu.mainsBadInside = false → s.scanDue = false → 0 < s.mu.iAcc.count →
    s.rg.set.trip ≤ s.measuredCurrent → s.rg.tripStreak = 1 →
      let risen := s.oc.output = .ramp ∧ rise = true
      let out : OutKind :=
        if s.oc.output = .ramp ∧ ¬ (risen ∧ 1000 ≤ s.oc.rampLimit + s.rg.set.rampRate) then .ramp else .run
      ∃ t, exec (.regulationTick rise) s = .next t
        ∧ t.rg.tripStreak = 0 ∧ t.rg.duty = 0 ∧ t.oc.drive = 0 ∧ t.oc.switch = .closed ∧ t.rg.limited = s.rg.limited
        ∧ t.rg.current = some s.measuredCurrent
        ∧ t.oc.rampLimit = (if risen then min 1000 (s.oc.rampLimit + s.rg.set.rampRate) else s.oc.rampLimit)
        ∧ (∀ l, (t.link l).flags = (s.link l).flags ||| EventClass.output.bit ||| EventClass.fault.bit)
        ∧ t.rg.set = s.rg.set ∧ t.tb = s.tb ∧ t.hs = s.hs ∧ t.ns = s.ns ∧ t.cl.log = s.cl.log
        ∧ t.sl.windows = s.sl.windows ∧ t.pins = s.pins ∧ t.pending = s.pending
        ∧ (s.sk.stack.length < 2 →
            ∃ f, t.sk = { s.sk with stack := f :: s.sk.stack, nextFrame := next16 s.sk.nextFrame }
              ∧ f.kind = .overcurrent ∧ f.seq = s.sk.nextFrame ∧ f.sec = s.tb.seconds ∧ f.tick = s.tb.tick
              ∧ f.output = out ∧ f.duty = s.rg.duty ∧ f.iset = s.rg.set.iset ∧ f.mode = s.rg.set.mode
              ∧ f.timeline = s.active.map (fun a => ⟨a.1.id, a.2.cycle, a.2.phase⟩)
              ∧ f.continuation = .ramp ∧ f.pendingList = s.cq.queue.map (fun e => ⟨true, e⟩) ∧ f.capture = none
              ∧ t.cq.queue = [] ∧ t.oc.output = .held ∧ t.oc.restartPending = true
              ∧ (s.sk.stack = [] → s.sl.capture.isSome = true → t.sl.capture = none ∧ t.cl.assembly = none))
        ∧ (2 ≤ s.sk.stack.length →
            t.sk = { s.sk with lockout := some ⟨.overcurrent, s.tb.seconds, s.tb.tick⟩ }
              ∧ t.oc.output = .lockout ∧ t.oc.restartPending = s.oc.restartPending ∧ t.cq = s.cq)

/-! ### The scan, the store and the inputs -/

/-- The end of a scan: the eight calibrated and clamped means with their fresh flags on every link, the last scan time, and the
alarm states and the three counts of channels 1 to 7, with a CHANNEL event on each link exactly where an alarm changes. -/
def Obligations.ScanStores : Prop :=
  ∀ s : State, s.hs.scan = some 1000 →
    let away : Int → Nat → Int := fun n d => Int.sign n * ((n.natAbs + d / 2) / d : Nat)
    let lows : Vector Int 8 := #v[0, 0, -5000, -5000, -500, 0, -32768, -32768]
    let highs : Vector Int 8 := #v[500, 10000, 5000, 5000, 1500, 6500, 32767, 32767]
    let value : Fin 8 → Int := fun i =>
      let k := s.mu.cal.get (Fin.ofNat 11 (i.val + 3))
      min (highs.get i) (max (lows.get i) (away ((away (s.hs.sums.get i) 240 - k.coff) * k.cgain) 8192))
    ∃ t, exec .scanEnd s = .next t
      ∧ t.hs.scan = none ∧ t.hs.lastScan = some s.tb.seconds
      ∧ (∀ i, (t.hs.channels.get i).value = some (value i) ∧ (t.hs.channels.get i).fresh = ⟨true, true, true⟩
          ∧ (t.hs.channels.get i).limits = (s.hs.channels.get i).limits)
      ∧ (∀ i : Fin 8, i ≠ 0 →
          let c := s.hs.channels.get i
          let d := t.hs.channels.get i
          let below := value i < c.limits.low
          let above := ¬ below ∧ c.limits.high < value i
          let inside := ¬ below ∧ ¬ above
          let counts := (d.alarm, d.low, d.high, d.inside)
          (c.alarm = .none → below → counts = if 2 ≤ c.low then (.low, 0, 0, 0) else (.none, c.low + 1, 0, c.inside))
            ∧ (c.alarm = .none → above → counts = if 2 ≤ c.high then (.high, 0, 0, 0) else (.none, 0, c.high + 1, c.inside))
            ∧ (c.alarm = .none → inside → counts = (.none, 0, 0, c.inside))
            ∧ (c.alarm = .low → inside → counts = if 2 ≤ c.inside then (.none, 0, 0, 0) else (.low, c.low, 0, c.inside + 1))
            ∧ (c.alarm = .low → below → counts = (.low, c.low, 0, 0))
            ∧ (c.alarm = .low → above → counts = if 2 ≤ c.high then (.high, 0, 0, 0) else (.low, c.low, c.high + 1, 0))
            ∧ (c.alarm = .high → inside → counts = if 2 ≤ c.inside then (.none, 0, 0, 0) else (.high, 0, c.high, c.inside + 1))
            ∧ (c.alarm = .high → above → counts = (.high, 0, c.high, 0))
            ∧ (c.alarm = .high → below → counts = if 2 ≤ c.low then (.low, 0, 0, 0) else (.high, c.low + 1, c.high, 0)))
      ∧ (∀ l, (t.link l).flags.getLsbD EventClass.channel.code = true ↔
          (s.link l).flags.getLsbD EventClass.channel.code = true
            ∨ ∃ i : Fin 8, i ≠ 0 ∧ (t.hs.channels.get i).alarm ≠ (s.hs.channels.get i).alarm)
      ∧ t.tb = s.tb ∧ t.sk = s.sk ∧ t.cq = s.cq ∧ t.ns = s.ns ∧ t.rg.set = s.rg.set ∧ t.cl.log = s.cl.log
      ∧ t.sl.windows = s.sl.windows ∧ t.pins = s.pins ∧ t.pending = s.pending

/-- The mains state at the end of a scan, and the output under it: the third scan in a row below the low limit declares LOST and
stops the output; the third at or above the high limit declares PRESENT and starts a STOPPED output that waits; the third in UNKNOWN
declares PRESENT where all three were at or above it, which starts such an output too, and LOST otherwise, which leaves the output
as it was. Before the third scan only the count, and in UNKNOWN the mark, move. -/
def Obligations.MainsDeclared : Prop :=
  (∀ s : State, s.hs.scan = some 1000 → s.hs.mainsCount = 2 →
    let v := scanValue s 0
    let lim := (s.hs.channels.get 0).limits
    ∃ t, exec .scanEnd s = .next t
      ∧ (s.hs.mains = .present → v < lim.low →
          t.hs.mains = .lost ∧ t.hs.mainsCount = 0
            ∧ (s.oc.output = .run ∨ s.oc.output = .ramp →
                t.oc = { s.oc with output := .stopped .mains, drive := 0, switch := .closed,
                                   restartPending := s.oc.restartPending || s.oc.autoRestart } ∧ t.rg.duty = 0)
            ∧ (s.oc.output ≠ .run → s.oc.output ≠ .ramp → t.oc = s.oc)
            ∧ ∀ l, (t.link l).flags &&& EventClass.mains.bit = EventClass.mains.bit)
      ∧ (s.hs.mains = .lost → lim.high ≤ v →
          t.hs.mains = .present ∧ t.hs.mainsCount = 0
            ∧ (∀ cause, s.oc.output = .stopped cause → s.oc.restartPending = true →
                t.oc.output = .ramp ∧ t.oc.rampLimit = 0 ∧ t.oc.restartPending = false)
            ∧ (∀ cause, s.oc.output = .stopped cause → s.oc.restartPending = false → t.oc = s.oc)
            ∧ ∀ l, (t.link l).flags &&& EventClass.mains.bit = EventClass.mains.bit)
      ∧ (s.hs.mains = .unknown →
          t.hs.mains = (if s.hs.mainsMark = true ∧ lim.high ≤ v then .present else .lost) ∧ t.hs.mainsCount = 0
            ∧ (s.hs.mainsMark = true → lim.high ≤ v → ∀ cause, s.oc.output = .stopped cause → s.oc.restartPending = true →
                t.oc.output = .ramp ∧ t.oc.rampLimit = 0 ∧ t.oc.restartPending = false)
            ∧ (s.hs.mainsMark = true → lim.high ≤ v → (∀ cause, s.oc.output ≠ .stopped cause) ∨ s.oc.restartPending = false →
                t.oc = s.oc)
            ∧ (s.hs.mainsMark = false ∨ v < lim.high → t.oc = s.oc)
            ∧ ∀ l, (t.link l).flags &&& EventClass.mains.bit = EventClass.mains.bit)
      ∧ (s.hs.mains = .present → lim.low ≤ v → t.hs.mains = .present ∧ t.hs.mainsCount = 0 ∧ t.oc = s.oc)
      ∧ (s.hs.mains = .lost → v < lim.high → t.hs.mains = .lost ∧ t.hs.mainsCount = 0 ∧ t.oc = s.oc))
  ∧ (∀ s : State, s.hs.scan = some 1000 → s.hs.mainsCount < 2 →
    let v := scanValue s 0
    let lim := (s.hs.channels.get 0).limits
    ∃ t, exec .scanEnd s = .next t
      ∧ t.hs.mains = s.hs.mains ∧ t.oc = s.oc ∧ t.rg = s.rg
      ∧ (s.hs.mains = .present → t.hs.mainsCount = if v < lim.low then s.hs.mainsCount + 1 else 0)
      ∧ (s.hs.mains = .lost → t.hs.mainsCount = if lim.high ≤ v then s.hs.mainsCount + 1 else 0)
      ∧ (s.hs.mains = .unknown →
          t.hs.mainsCount = s.hs.mainsCount + 1 ∧ (t.hs.mainsMark = true ↔ s.hs.mainsMark = true ∧ lim.high ≤ v))
      ∧ ∀ l, (t.link l).flags.getLsbD EventClass.mains.code = (s.link l).flags.getLsbD EventClass.mains.code)

/-- STGFLT asserted: with no STAGE_FAULT frame held, fewer than two frames held and no lockout, a STAGE_FAULT frame records the
output and its duty and the output is HELD; with two frames held, none of them a STAGE_FAULT frame, the output enters LOCKOUT and the
lockout record names STAGE_FAULT; with a STAGE_FAULT frame held or in LOCKOUT only the input changes. The deassertion of STGFLT and a
change of LOCAL change the input's level and nothing else. -/
def Obligations.InputsTaken : Prop :=
  (∀ s : State,
      ((∃ f ∈ s.sk.stack, f.kind = .stageFault) ∨ s.oc.output = .lockout →
        exec .stgfltAsserted s = .next { s with pins := { s.pins with stgflt := true } })
      ∧ ((∀ f ∈ s.sk.stack, f.kind ≠ .stageFault) → s.oc.output ≠ .lockout → 2 ≤ s.sk.stack.length →
        ∃ t, exec .stgfltAsserted s = .next t
          ∧ t.sk = { s.sk with lockout := some ⟨.stageFault, s.tb.seconds, s.tb.tick⟩ }
          ∧ t.oc = { s.oc with output := .lockout, switch := .closed, drive := 0 } ∧ t.rg = { s.rg with duty := 0 }
          ∧ t.pins = ⟨true, s.pins.localIn⟩
          ∧ t.cl = { s.cl with assembly := s.cl.assembly.map fun a => { a with noOutput := true } }
          ∧ (∀ l, (t.link l).flags = (s.link l).flags ||| EventClass.output.bit ||| EventClass.fault.bit)
          ∧ t.cq = s.cq ∧ t.tb = s.tb ∧ t.hs = s.hs ∧ t.ns = s.ns ∧ t.mu = s.mu ∧ t.sl.windows = s.sl.windows
          ∧ t.sl.capture = s.sl.capture ∧ t.moment = s.moment ∧ t.pending = s.pending)
      ∧ ((∀ f ∈ s.sk.stack, f.kind ≠ .stageFault) → s.oc.output ≠ .lockout → s.sk.stack.length < 2 →
        ∃ t f, exec .stgfltAsserted s = .next t
          ∧ t.sk = { s.sk with stack := f :: s.sk.stack, nextFrame := next16 s.sk.nextFrame }
          ∧ f.kind = .stageFault ∧ f.seq = s.sk.nextFrame ∧ f.sec = s.tb.seconds ∧ f.tick = s.tb.tick
          ∧ f.output = s.oc.output.kind ∧ f.mode = s.rg.set.mode ∧ f.iset = s.rg.set.iset ∧ f.duty = s.rg.duty
          ∧ f.capture = none ∧ f.continuation = .ramp ∧ f.pendingList = s.cq.queue.map (fun e => ⟨true, e⟩)
          ∧ t.oc.output = .held ∧ t.cq.queue = [] ∧ t.pins = ⟨true, s.pins.localIn⟩
          ∧ (s.oc.output ≠ .held → t.rg.duty = 0 ∧ t.oc.drive = 0 ∧ t.oc.switch = .closed
              ∧ t.oc.restartPending = (s.oc.restartPending || decide (s.oc.output = .run ∨ s.oc.output = .ramp)))
          ∧ (s.sk.stack = [] → s.sl.capture.isSome → t.sl.capture = none ∧ t.cl.assembly = none)
          ∧ (∀ l, (t.link l).flags &&& EventClass.fault.bit = EventClass.fault.bit)
          ∧ t.tb = s.tb ∧ t.rg.set = s.rg.set ∧ t.hs = s.hs ∧ t.ns = s.ns ∧ t.sl.windows = s.sl.windows
          ∧ t.cl.log = s.cl.log))
  ∧ (∀ (s : State) (b : Bool),
      exec .stgfltDeasserted s = .next { s with pins := ⟨false, s.pins.localIn⟩ }
        ∧ exec (.localChange b) s = .next { s with pins := ⟨s.pins.stgflt, b⟩ })

/-! ### The links -/

/-- A byte taken by a receiver: R186's table, one link, nothing else. At the check byte a frame that agrees enters the FIFO
where it holds fewer than two and otherwise sets OVERRUN; one that does not agree sets CHECK. An error flag that is newly set
raises LINK on its own link alone (R197); one that was already set raises none, which is the model's reading (log 20, DEDUCED). -/
def Obligations.ByteTaken : Prop :=
  (∀ (s : State) (l : LinkId) (b : Byte) (good : Bool),
      let k := s.link l
      let framed : Link :=
        if k.errors.framing then { k with rx := .hunt, partialBytes := [], gap := 0 }
        else ({ k with rx := .hunt, partialBytes := [], gap := 0, errors := { k.errors with framing := true } }).raise .link
      (k.rx = .hunt →
        exec (.byteReceived l b good) s = .next (s.onLink l fun k =>
          if good = true ∧ b = 165 then { k with rx := .length, partialBytes := [], gap := 0 } else k))
      ∧ (k.rx = .length →
        exec (.byteReceived l b good) s = .next (s.onLink l fun k =>
          if good = true ∧ 1 ≤ b.toNat ∧ b.toNat ≤ 240 then { k with rx := .payload, partialBytes := [b], gap := 0 } else framed))
      ∧ (∀ len got, k.rx = .payload → good = true → k.partialBytes = len :: got →
        exec (.byteReceived l b good) s = .next (s.onLink l fun k =>
          { k with rx := if got.length + 1 = len.toNat then .check else .payload, partialBytes := len :: (got ++ [b]), gap := 0 }))
      ∧ (k.rx ≠ .hunt → good = false → exec (.byteReceived l b good) s = .next (s.onLink l fun _ => framed)))
  ∧ (∀ (s : State) (l : LinkId) (b len : Byte) (payload : Bytes),
      (s.link l).rx = .check → (s.link l).partialBytes = len :: payload →
      let k := s.link l
      let done : Link := { k with rx := .hunt, partialBytes := [], gap := 0 }
      let agrees := b = checkByte (len :: payload)
      (agrees → k.fifo.length < 2 →
        exec (.byteReceived l b true) s = .next (s.onLink l fun _ => { done with fifo := k.fifo ++ [payload] }))
      ∧ (agrees → 2 ≤ k.fifo.length →
        exec (.byteReceived l b true) s = .next (s.onLink l fun _ =>
          if k.errors.overrun then done else ({ done with errors := { k.errors with overrun := true } }).raise .link))
      ∧ (¬ agrees →
        exec (.byteReceived l b true) s = .next (s.onLink l fun _ =>
          if k.errors.check then done else ({ done with errors := { k.errors with check := true } }).raise .link)))

/-- FRAME ROUND TRIP: the bytes of the frame that R207 gives a payload of 1 to 240 bytes, received one after the other by a link
in HUNT whose FIFO has room, put exactly that payload in the FIFO and change nothing else. -/
def Obligations.FrameRoundTrip : Prop :=
  ∀ (s : State) (l : LinkId) (payload : Bytes),
    1 ≤ payload.length → payload.length ≤ 240 →
    (s.link l).rx = .hunt → (s.link l).partialBytes = [] → (s.link l).gap = 0 → (s.link l).fifo.length < 2 →
      (frameOf payload).foldl
          (fun o b => match o with | .next t => exec (.byteReceived l b true) t | .fault r => .fault r | .refused r => .refused r)
          (.next s : Host.Outcome State Fault Refusal)
        = .next (s.onLink l fun k => { k with fifo := k.fifo ++ [payload] })

/-- GAP_EXPIRY, RESPONSE_SENT and BIT_RATE_SWITCH where each is due, one link, nothing else. FRAMING raises LINK where it is newly
set (R197) and not where it was already set (log 20, DEDUCED); the bits of a response are counted by ticks (log 7). -/
def Obligations.LinkSteps : Prop :=
  ∀ (s : State) (l : LinkId),
    let k := s.link l
    (k.rx ≠ .hunt → 48 < k.gap →
      exec (.gapExpiry l) s = .next (s.onLink l fun k =>
        if k.errors.framing then { k with rx := .hunt, partialBytes := [], gap := 0 }
        else ({ k with rx := .hunt, partialBytes := [], gap := 0, errors := { k.errors with framing := true } }).raise .link))
    ∧ (∀ bytes, k.buffer = some bytes → 10 * bytes.length ≤ k.txBits →
      exec (.responseSent l) s = .next (s.onLink l fun k => { k with buffer := none, txBits := 0 }))
    ∧ (∀ rate, k.pendingRate = some rate → k.buffer = none → k.rx = .hunt →
      exec (.bitRateSwitch l) s = .next (s.onLink l fun k => { k with rate := rate, pendingRate := none }))

/-- An event raised on a link sets its flag and leaves the others, and attention is then asserted exactly while a flag is set
whose class is enabled. -/
def Obligations.EventRaised : Prop :=
  ∀ (k : Link) (c : EventClass),
    let r := k.raise c
    r.flags = k.flags ||| BitVec.ofNat 14 (2 ^ c.code) ∧ r.mask = k.mask
      ∧ (r.attention = true ↔ r.flags &&& r.mask ≠ 0)
      ∧ r.flags.getLsbD c.code = true ∧ (∀ d, d ≠ c → r.flags.getLsbD d.code = k.flags.getLsbD d.code)
      ∧ (r.rate, r.pendingRate, r.rx, r.partialBytes, r.gap, r.fifo, r.buffer, r.txBits, r.errors)
          = (k.rate, k.pendingRate, k.rx, k.partialBytes, k.gap, k.fifo, k.buffer, k.txBits, k.errors)

/-! ### Commands

Each is stated for a frame that the processor takes next (`State.serves`). `args` are the bytes after the command code, and
`State.answer` places the response and leaves the rest of the state as the command's effect has made it. -/

/-- SET TIME that passes its tests: limit and loss action at once, T staged with the requesting link as its origin, and a staged
time that it replaces raises SUPERSEDED on its own origin. Its three refusals, in order, change nothing but the answering link. -/
def Obligations.SetTimeTakes : Prop :=
  (∀ (s : State) (l : LinkId) (args : Bytes),
    s.serves l 1 args → s.barred l = false → args.length = 10 →
    let hasT := fieldBit args 0 0
    let hasLimit := fieldBit args 0 1
    let hasAction := fieldBit args 0 2
    let T := fieldU args 1 4
    let limit := fieldU args 5 4
    let action := fieldU args 9 1
    (hasT = true ∨ hasLimit = true ∨ hasAction = true) → (hasT = true → T ≠ 0) →
    (hasLimit = true → 10 ≤ limit ∧ limit ≤ 86400) → (hasAction = true → action ≤ 1) →
      let tb := { s.tb with
        holdoverLimit := if hasLimit then limit else s.tb.holdoverLimit
        lossAction := if hasAction then (if action = 0 then .cont else .suspend) else s.tb.lossAction
        staged := if hasT then some ⟨T, l⟩ else s.tb.staged }
      let set : State := { s with tb := tb }
      exec .setTime s = .next
        (State.answer
          (if hasT = false then set
            else match s.tb.staged with
              | none => set
              | some old => set.onLink old.origin (Link.raise .superseded))
          l 1 ⟨.ok, []⟩))
  ∧ (∀ (s : State) (l : LinkId) (args : Bytes), s.serves l 1 args →
    let none3 := fieldBit args 0 0 = false ∧ fieldBit args 0 1 = false ∧ fieldBit args 0 2 = false
    (s.barred l = true → exec .setTime s = .next (s.answer l 1 ⟨.localHeld, []⟩))
    ∧ (s.barred l = false → (args.length ≠ 10 ∨ none3) → exec .setTime s = .next (s.answer l 1 ⟨.badLength, []⟩))
    ∧ (s.barred l = false → args.length = 10 → ¬ none3 →
      ((fieldBit args 0 0 = true ∧ fieldU args 1 4 = 0)
        ∨ (fieldBit args 0 1 = true ∧ (fieldU args 5 4 < 10 ∨ 86400 < fieldU args 5 4))
        ∨ (fieldBit args 0 2 = true ∧ 1 < fieldU args 9 1)) →
      exec .setTime s = .next (s.answer l 1 ⟨.outOfRange, []⟩)))

/-- ADD WINDOW that passes its seven tests: a SCHEDULED record with the next free ID stands in the list in order of start, its
ADDED notice is made, the next ID follows the one assigned, and the response carries the ID. Its seven refusals, in order, change
nothing but the answering link. -/
def Obligations.AddWindowTakes : Prop :=
  (∀ (s : State) (l : LinkId) (args : Bytes),
    s.serves l 3 args → s.barred l = false → args.length = 9 →
    let a := fieldU args 0 4
    let b := fieldU args 4 4
    let p := fieldU args 8 1
    s.tb.state ≠ .unset → s.tb.seconds + 2 ≤ a → a < b → b ≤ a + 604800 → p ≤ 7 → s.sl.windows.length < 16 →
    (∀ w ∈ s.sl.windows, (b ≤ w.start ∨ w.stop ≤ a) ∧ (w.life ≠ .scheduled → w.start ≤ a)) →
    WindowLaw s →
      ∃ t w before after, exec .addWindow s = .next t
        ∧ w = { id := w.id, start := a, stop := b, profile := Fin.ofNat 8 p, origin := l, life := .scheduled }
        ∧ s.sl.windows = before ++ after ∧ t.sl.windows = before ++ w :: after
        ∧ (∀ v ∈ before, v.start < a) ∧ (∀ v ∈ after, a < v.start)
        ∧ (∀ v ∈ s.sl.windows, v.id ≠ w.id) ∧ 1 ≤ w.id ∧ w.id ≤ 65535
        ∧ ((∀ v ∈ s.sl.windows, v.id ≠ s.sl.nextId) → w.id = s.sl.nextId)
        ∧ t.sl.nextId = (if w.id = 65535 then 1 else w.id + 1)
        ∧ t.sl.notices = s.sl.notices.drop (s.sl.notices.length - 7) ++ [⟨s.sl.noticeNo, w.id, .added, s.tb.seconds⟩]
        ∧ t.sl.noticeNo = (if 65535 ≤ s.sl.noticeNo then 1 else s.sl.noticeNo + 1)
        ∧ t = State.answer { (s.onLinks (Link.raise .window)) with sl := t.sl } l 3 ⟨.ok, u16 w.id⟩
        ∧ (t.sl.profiles, t.sl.demand, t.sl.capture, t.sl.outright)
            = (s.sl.profiles, s.sl.demand, s.sl.capture, s.sl.outright))
  ∧ (∀ (s : State) (l : LinkId) (args : Bytes), s.serves l 3 args →
    let a := fieldU args 0 4
    let b := fieldU args 4 4
    let range := a < b ∧ b ≤ a + 604800 ∧ fieldU args 8 1 ≤ 7
    let clear := ∀ w ∈ s.sl.windows, (b ≤ w.start ∨ w.stop ≤ a) ∧ (w.life ≠ .scheduled → w.start ≤ a)
    (s.barred l = true → exec .addWindow s = .next (s.answer l 3 ⟨.localHeld, []⟩))
    ∧ (s.barred l = false → args.length ≠ 9 → exec .addWindow s = .next (s.answer l 3 ⟨.badLength, []⟩))
    ∧ (s.barred l = false → args.length = 9 →
      (s.tb.state = .unset → exec .addWindow s = .next (s.answer l 3 ⟨.notReady, []⟩))
      ∧ (s.tb.state ≠ .unset →
        (a < s.tb.seconds + 2 → exec .addWindow s = .next (s.answer l 3 ⟨.past, []⟩))
        ∧ (s.tb.seconds + 2 ≤ a → ¬ range → exec .addWindow s = .next (s.answer l 3 ⟨.outOfRange, []⟩))
        ∧ (s.tb.seconds + 2 ≤ a → range → ¬ clear → exec .addWindow s = .next (s.answer l 3 ⟨.overlap, []⟩))
        ∧ (s.tb.seconds + 2 ≤ a → range → clear → 16 ≤ s.sl.windows.length →
          exec .addWindow s = .next (s.answer l 3 ⟨.listFull, []⟩)))))

/-- DELETE WINDOW: a SCHEDULED entry leaves the list with its DELETED notice; an ACTIVE one is cut to now or S + 1 and is ENDING
with cause DELETE, or, where its end has come and its examination is still due, ENDING with cause TIME and its end kept, which is the
model's choice (log 40); an ENDING one stays;
an ID that no entry holds is refused with NO_SUCH, after LOCAL_HELD and BAD_LENGTH. -/
def Obligations.DeleteWindowTakes : Prop :=
  ∀ (s : State) (l : LinkId) (args : Bytes),
    s.serves l 4 args → WindowLaw s →
    let id := fieldU args 0 2
    (s.barred l = true → exec .deleteWindow s = .next (s.answer l 4 ⟨.localHeld, []⟩))
    ∧ (s.barred l = false → args.length ≠ 2 → exec .deleteWindow s = .next (s.answer l 4 ⟨.badLength, []⟩))
    ∧ (s.barred l = false → args.length = 2 → (∀ w ∈ s.sl.windows, w.id ≠ id) →
      exec .deleteWindow s = .next (s.answer l 4 ⟨.noSuch, []⟩))
    ∧ (∀ before w after, s.sl.windows = before ++ w :: after → s.barred l = false → args.length = 2 → w.id = id →
      (w.life = .scheduled →
        exec .deleteWindow s = .next
          (State.answer
            { s.onLinks (Link.raise .window) with
              sl := { s.sl with
                windows := before ++ after
                notices := s.sl.notices.drop (s.sl.notices.length - 7) ++ [⟨s.sl.noticeNo, id, .deleted, s.tb.seconds⟩]
                noticeNo := next16 s.sl.noticeNo } }
            l 4 ⟨.ok, []⟩))
      ∧ (∀ c, w.life = .active c →
        exec .deleteWindow s = .next
          (State.answer
            { s with
              sl := { s.sl with
                windows := before
                  ++ (if s.tb.seconds < w.stop then
                      { w with stop := max s.tb.seconds (w.start + 1), life := .ending c .delete }
                    else { w with life := .ending c .time }) :: after } }
            l 4 ⟨.ok, []⟩))
      ∧ (∀ c cause, w.life = .ending c cause → exec .deleteWindow s = .next (s.answer l 4 ⟨.ok, []⟩)))

/-- CHANGE with a value taken on arrival, no frame held and no lockout: in place of the entry for the same setting, whose origin
gets SUPERSEDED, or as the last; QUEUE_FULL where four others wait. The response carries the value taken, the position and
the replaced mark. An entry so placed waits for no later moment, also in place of one that a RESUME of the moment has put back, which
is the model's choice (log 38). The refusals before, in order: BAD_LENGTH, OUT_OF_RANGE, HELD, LOCAL_HELD. -/
def Obligations.ChangeTakes : Prop :=
  (∀ (s : State) (l : LinkId) (args : Bytes) (x : Setting) (v : Int),
    s.serves l 7 args → args.length = 6 → settingOf (fieldU args 0 1) (fieldU args 1 1) = some x →
    x.taken s.rg.set (fieldS args 2 4) = some v → s.sk.stack = [] → s.oc.output ≠ .lockout → s.barred l = false →
    let st : Status := if v = fieldS args 2 4 then .ok else .adjusted
    let entered : List QEntry → State := fun q =>
      { s with cq := { queue := q }, moment := { s.moment with requeued := s.moment.requeued.filter fun y => decide (y ≠ x) } }
    (∀ before e after, s.cq.queue = before ++ e :: after → e.setting = x → (∀ f ∈ before, f.setting ≠ x) →
      exec .change s = .next
        (State.answer
          (State.onLink (entered (before ++ ⟨x, v, l⟩ :: after)) e.origin (Link.raise .superseded))
          l 7 ⟨st, u32 v ++ u8 before.length ++ [1]⟩))
    ∧ ((∀ e ∈ s.cq.queue, e.setting ≠ x) → s.cq.queue.length < 4 →
      exec .change s = .next
        (State.answer (entered (s.cq.queue ++ [⟨x, v, l⟩]))
          l 7 ⟨st, u32 v ++ u8 s.cq.queue.length ++ [0]⟩))
    ∧ ((∀ e ∈ s.cq.queue, e.setting ≠ x) → 4 ≤ s.cq.queue.length →
      exec .change s = .next (s.answer l 7 ⟨.queueFull, []⟩)))
  ∧ (∀ (s : State) (l : LinkId) (args : Bytes), s.serves l 7 args →
    let held := s.sk.stack ≠ [] ∨ s.oc.output = .lockout
    (args.length ≠ 6 → exec .change s = .next (s.answer l 7 ⟨.badLength, []⟩))
    ∧ (args.length = 6 → settingOf (fieldU args 0 1) (fieldU args 1 1) = none →
      exec .change s = .next (s.answer l 7 ⟨.outOfRange, []⟩))
    ∧ (∀ x, settingOf (fieldU args 0 1) (fieldU args 1 1) = some x → args.length = 6 →
      (x.taken s.rg.set (fieldS args 2 4) = none → exec .change s = .next (s.answer l 7 ⟨.outOfRange, []⟩))
      ∧ (∀ v, x.taken s.rg.set (fieldS args 2 4) = some v →
        (held → exec .change s = .next (s.answer l 7 ⟨.held, []⟩))
        ∧ (¬ held → s.barred l = true → exec .change s = .next (s.answer l 7 ⟨.localHeld, []⟩)))))

/-- What CHANGE takes on arrival: a value outside the absolute range of its target is refused; CURRENT_SET is brought within
Imin and Ilim, VOLTAGE_SET to at most Vlim, CURRENT_MIN and CURRENT_LIMIT to at most 10 000, VOLTAGE_LIMIT to at most 6000,
TRIP_LEVEL to at least Ilim; a profile duration is rounded down to a multiple of 5 ms; every other value is taken as sent. -/
def Obligations.ValuesTaken : Prop :=
  ∀ (r : RegSettings) (v : Int) (i : Fin 8),
    ((Setting.reg .currentSet).taken r v = if 0 ≤ v ∧ v ≤ 11000 then some (min r.ilim (max r.imin v)) else none)
    ∧ ((Setting.reg .voltageSet).taken r v = if 0 ≤ v ∧ v ≤ 6500 then some (min v r.vlim) else none)
    ∧ ((Setting.reg .currentMin).taken r v = if 0 ≤ v ∧ v ≤ 11000 then some (min v 10000) else none)
    ∧ ((Setting.reg .currentLimit).taken r v = if 0 ≤ v ∧ v ≤ 11000 then some (min v 10000) else none)
    ∧ ((Setting.reg .voltageLimit).taken r v = if 0 ≤ v ∧ v ≤ 6500 then some (min v 6000) else none)
    ∧ ((Setting.reg .tripLevel).taken r v = if 0 ≤ v ∧ v ≤ 11000 then some (max v r.ilim) else none)
    ∧ ((Setting.reg .mode).taken r v = if 0 ≤ v ∧ v ≤ 2 then some v else none)
    ∧ ((Setting.reg .offTarget).taken r v = if -2500 ≤ v ∧ v ≤ 0 then some v else none)
    ∧ ((Setting.reg .rampRate).taken r v = if 1 ≤ v ∧ v ≤ 100 then some v else none)
    ∧ ((Setting.reg .outerGain).taken r v = if 0 ≤ v ∧ v ≤ 2048 then some v else none)
    ∧ ((Setting.reg .deadband).taken r v = if 0 ≤ v ∧ v ≤ 200 then some v else none)
    ∧ ((Setting.reg .stepLimit).taken r v = if 1 ≤ v ∧ v ≤ 1000 then some v else none)
    ∧ ((Setting.reg .innerGain).taken r v = if 1 ≤ v ∧ v ≤ 4096 then some v else none)
    ∧ ((Setting.reg .underLimit).taken r v = if -1500 ≤ v ∧ v ≤ 0 then some v else none)
    ∧ ((Setting.reg .overLimit).taken r v = if -2500 ≤ v ∧ v ≤ -800 then some v else none)
    ∧ ((Setting.profile .on i).taken r v = if 200 ≤ v ∧ v ≤ 60000 then some (v / 5 * 5) else none)
    ∧ ((Setting.profile .off i).taken r v = if 100 ≤ v ∧ v ≤ 20000 then some (v / 5 * 5) else none)
    ∧ ((Setting.profile .delay i).taken r v = if 5 ≤ v ∧ v ≤ 2000 then some (v / 5 * 5) else none)
    ∧ ((Setting.profile .window i).taken r v = if 10 ≤ v ∧ v ≤ 1000 then some (v / 5 * 5) else none)
    ∧ ((Setting.profile .onOffset i).taken r v = if 0 ≤ v ∧ v ≤ 2000 then some (v / 5 * 5) else none)
    ∧ ((Setting.profile .noise i).taken r v = if 1 ≤ v ∧ v ≤ 500 then some v else none)
    ∧ ((Setting.profile .rejection i).taken r v = if 0 ≤ v ∧ v ≤ 2 then some v else none)

/-- CANCEL CHANGE: the entry for the setting leaves the queue, its origin gets SUPERSEDED, the response carries its value; with
no entry for it NO_SUCH; and the refusals before. -/
def Obligations.CancelChangeTakes : Prop :=
  ∀ (s : State) (l : LinkId) (args : Bytes), s.serves l 8 args →
    (s.barred l = true → exec .cancelChange s = .next (s.answer l 8 ⟨.localHeld, []⟩))
    ∧ (s.barred l = false → args.length ≠ 2 → exec .cancelChange s = .next (s.answer l 8 ⟨.badLength, []⟩))
    ∧ (s.barred l = false → args.length = 2 → settingOf (fieldU args 0 1) (fieldU args 1 1) = none →
      exec .cancelChange s = .next (s.answer l 8 ⟨.outOfRange, []⟩))
    ∧ (∀ x, settingOf (fieldU args 0 1) (fieldU args 1 1) = some x → s.barred l = false → args.length = 2 →
      (∀ before e after, s.cq.queue = before ++ e :: after → e.setting = x → (∀ f ∈ before, f.setting ≠ x) →
        exec .cancelChange s = .next
          (State.answer (State.onLink { s with cq := { queue := before ++ after } } e.origin (Link.raise .superseded))
            l 8 ⟨.ok, u32 e.value⟩))
      ∧ ((∀ e ∈ s.cq.queue, e.setting ≠ x) → exec .cancelChange s = .next (s.answer l 8 ⟨.noSuch, []⟩)))

/-- START: auto-restart where carried; from STOPPED the output enters RAMP with the mains PRESENT and otherwise waits with
restart-pending; RAMP and RUN go on; HELD and LOCKOUT refuse with nothing changed, as do LOCAL and any other code. -/
def Obligations.StartTakes : Prop :=
  (∀ (s : State) (l : LinkId) (code : Byte), s.serves l 11 [code] →
    (s.barred l = true → exec .start s = .next (s.answer l 11 ⟨.localHeld, []⟩))
    ∧ (s.barred l = false → 1 < code.toNat → exec .start s = .next (s.answer l 11 ⟨.outOfRange, []⟩)))
  ∧ (∀ (s : State) (l : LinkId) (args : Bytes) (a : Option Bool),
    s.serves l 11 args →
    (args = [] ∧ a = none ∨ args = [0] ∧ a = some false ∨ args = [1] ∧ a = some true) →
    let auto := a.getD s.oc.autoRestart
    (s.barred l = true → exec .start s = .next (s.answer l 11 ⟨.localHeld, []⟩))
    ∧ (s.barred l = false → ∀ cause, s.oc.output = .stopped cause → s.hs.mains = .present → s.rg.duty = 0 →
      DriveLaw s → SwitchLaw s →
      ∃ t, exec .start s = .next t
        ∧ t.oc = { output := .ramp, restartPending := false, autoRestart := auto, rampLimit := 0, switch := .closed,
                   drive := 0 }
        ∧ t.rg = s.rg ∧ t.tb = s.tb ∧ t.sk = s.sk ∧ t.hs = s.hs ∧ t.cq = s.cq ∧ t.sl.windows = s.sl.windows
        ∧ t.sl.capture = s.sl.capture ∧ t.cl.log = s.cl.log ∧ t.ns = s.ns ∧ t.pins = s.pins
        ∧ (∀ k, (t.link k).flags = (s.link k).flags ||| EventClass.output.bit)
        ∧ (t.link l).buffer = some (frameOf ([11, BitVec.ofNat 8 (s.link l).errors.word])))
    ∧ (s.barred l = false → ∀ cause, s.oc.output = .stopped cause → s.hs.mains ≠ .present →
      exec .start s = .next
        (State.answer { s with oc := { s.oc with restartPending := true, autoRestart := auto } } l 11 ⟨.ok, []⟩))
    ∧ (s.barred l = false → s.oc.output = .ramp ∨ s.oc.output = .run →
      exec .start s = .next (State.answer { s with oc := { s.oc with autoRestart := auto } } l 11 ⟨.ok, []⟩))
    ∧ (s.barred l = false → s.oc.output = .held → exec .start s = .next (s.answer l 11 ⟨.held, []⟩))
    ∧ (s.barred l = false → s.oc.output = .lockout → exec .start s = .next (s.answer l 11 ⟨.lockedOut, []⟩)))

/-- STOP: auto-restart where carried, restart-pending cleared, and in STOPPED, RAMP and RUN the output is STOPPED with cause
COMMAND, duty and drive 0 and the switch CLOSED; in HELD and LOCKOUT the state is kept. LOCAL and any other code refuse. -/
def Obligations.StopTakes : Prop :=
  (∀ (s : State) (l : LinkId) (code : Byte), s.serves l 12 [code] →
    (s.barred l = true → exec .stop s = .next (s.answer l 12 ⟨.localHeld, []⟩))
    ∧ (s.barred l = false → 1 < code.toNat → exec .stop s = .next (s.answer l 12 ⟨.outOfRange, []⟩)))
  ∧ (∀ (s : State) (l : LinkId) (args : Bytes) (a : Option Bool),
    s.serves l 12 args →
    (args = [] ∧ a = none ∨ args = [0] ∧ a = some false ∨ args = [1] ∧ a = some true) →
    let auto := a.getD s.oc.autoRestart
    (s.barred l = true → exec .stop s = .next (s.answer l 12 ⟨.localHeld, []⟩))
    ∧ (s.barred l = false → s.oc.output = .held ∨ s.oc.output = .lockout ∨ s.oc.output = .stopped .command →
      exec .stop s = .next
        (State.answer { s with oc := { s.oc with restartPending := false, autoRestart := auto } } l 12 ⟨.ok, []⟩))
    ∧ (s.barred l = false → s.oc.output ≠ .held → s.oc.output ≠ .lockout → s.oc.output ≠ .stopped .command →
      ∃ t, exec .stop s = .next t
        ∧ t.oc = { s.oc with output := .stopped .command, restartPending := false, autoRestart := auto, switch := .closed,
                             drive := 0 }
        ∧ t.rg = { s.rg with duty := 0 } ∧ t.tb = s.tb ∧ t.sk = s.sk ∧ t.hs = s.hs ∧ t.cq = s.cq
        ∧ t.sl.windows = s.sl.windows ∧ t.sl.capture = s.sl.capture ∧ t.cl.log = s.cl.log ∧ t.ns = s.ns ∧ t.pins = s.pins
        ∧ t.cl.assembly = s.cl.assembly.map (fun m => { m with noOutput := true })
        ∧ (∀ k, (t.link k).flags = (s.link k).flags ||| EventClass.output.bit)
        ∧ (t.link l).buffer = some (frameOf ([12, BitVec.ofNat 8 (s.link l).errors.word]))))

/-- SET CHANNEL LIMITS and WRITE CALIBRATION that pass their tests replace the pair they name and change nothing else; the
others are refused, in the order of their tests, and change nothing but the answering link. -/
def Obligations.TablesWritten : Prop :=
  ∀ (s : State) (l : LinkId) (args : Bytes),
    let n := fieldU args 0 1
    let low := fieldS args 1 2
    let high := fieldS args 3 2
    let gain := fieldU args 3 2
    let lows : Vector Int 8 := #v[0, 0, -5000, -5000, -500, 0, -32768, -32768]
    let highs : Vector Int 8 := #v[500, 10000, 5000, 5000, 1500, 6500, 32767, 32767]
    let gains : Nat × Nat :=
      if n = 0 then (1000, 1500) else if n = 1 then (2000, 3000) else if n = 2 then (1200, 1800) else (1, 16383)
    let gainOk := gains.1 ≤ gain ∧ gain ≤ gains.2
    (s.serves l 19 args →
      (s.barred l = true → exec .setChannelLimits s = .next (s.answer l 19 ⟨.localHeld, []⟩))
      ∧ (s.barred l = false → args.length ≠ 5 → exec .setChannelLimits s = .next (s.answer l 19 ⟨.badLength, []⟩))
      ∧ (s.barred l = false → args.length = 5 →
        (7 < n → exec .setChannelLimits s = .next (s.answer l 19 ⟨.outOfRange, []⟩))
        ∧ ∀ i : Fin 8, n = i.val →
          if lows.get i ≤ low ∧ low ≤ high ∧ high ≤ highs.get i then
            exec .setChannelLimits s = .next
              (State.answer
                { s with
                  hs := { s.hs with channels := s.hs.channels.set i { s.hs.channels.get i with limits := ⟨low, high⟩ } } }
                l 19 ⟨.ok, []⟩)
          else exec .setChannelLimits s = .next (s.answer l 19 ⟨.outOfRange, []⟩)))
    ∧ (s.serves l 20 args →
      (s.barred l = true → exec .writeCalibration s = .next (s.answer l 20 ⟨.localHeld, []⟩))
      ∧ (s.barred l = false → args.length ≠ 5 → exec .writeCalibration s = .next (s.answer l 20 ⟨.badLength, []⟩))
      ∧ (s.barred l = false → args.length = 5 →
        (10 < n → exec .writeCalibration s = .next (s.answer l 20 ⟨.outOfRange, []⟩))
        ∧ ∀ i : Fin 11, n = i.val →
          if -512 ≤ low ∧ low ≤ 511 ∧ gainOk then
            exec .writeCalibration s = .next
              (State.answer { s with mu := { s.mu with cal := s.mu.cal.set i ⟨low, gain⟩ } } l 20 ⟨.ok, []⟩)
          else exec .writeCalibration s = .next (s.answer l 20 ⟨.outOfRange, []⟩)))

/-- SET MASK replaces the requesting link's mask, ACK EVENTS clears the flags it names, and attention follows; an enable or a
class beyond the 14 is refused; no other link and no other block changes. -/
def Obligations.MaskAndAcknowledge : Prop :=
  ∀ (s : State) (l : LinkId) (args : Bytes), args.length = 2 →
    let n := fieldU args 0 2
    let m : EventSet := BitVec.ofNat 14 n
    let k := s.link l
    (s.serves l 24 args → n < 16384 →
      exec .setMask s = .next
        (State.answer (s.onLink l fun k => { k with mask := m, attention := decide (k.flags &&& m ≠ 0) })
          l 24 ⟨.ok, u16 n ++ u16 k.flags.toNat⟩))
    ∧ (s.serves l 25 args → n < 16384 →
      exec .ackEvents s = .next
        (State.answer
          (s.onLink l fun k =>
            { k with flags := k.flags &&& ~~~m, attention := decide ((k.flags &&& ~~~m) &&& k.mask ≠ 0) })
          l 25 ⟨.ok, u16 (k.flags &&& ~~~m).toNat⟩))
    ∧ (s.serves l 24 args → 16384 ≤ n → exec .setMask s = .next (s.answer l 24 ⟨.outOfRange, []⟩))
    ∧ (s.serves l 25 args → 16384 ≤ n → exec .ackEvents s = .next (s.answer l 25 ⟨.outOfRange, []⟩))

/-- The reading commands that pass their tests answer OK with their report and change nothing but the answering link, and, for
READ CHANNELS, the requesting link's fresh flags. READ FRAME of a position that holds no frame answers the frame's 35 bytes as zeros,
which is the model's choice (log 16). -/
def Obligations.ReadsChangeNothing : Prop :=
  ∀ (s : State) (l : LinkId) (args : Bytes),
    (s.serves l 2 args → args = [] → exec .readTime s = .next (s.answer l 2 ⟨.ok, timeReport s.tb⟩))
    ∧ (s.serves l 5 args → args.length ≤ 1 → fieldU args 0 1 < 16 →
        exec .readWindows s = .next (s.answer l 5 ⟨.ok, windowsReport (fieldU args 0 1) s.sl⟩))
    ∧ (∀ i : Fin 8, s.serves l 6 args → args = [BitVec.ofNat 8 i.val] →
        exec .readProfile s = .next (s.answer l 6 ⟨.ok, u8 1 ++ profileBytes i.val (s.sl.profiles.get i)⟩))
    ∧ (s.serves l 6 args → args = [] →
        exec .readProfile s = .next (s.answer l 6
          ⟨.ok, u8 8 ++ ([0, 1, 2, 3, 4, 5, 6, 7] : List (Fin 8)).flatMap fun i =>
            profileBytes i.val (s.sl.profiles.get i)⟩))
    ∧ (s.serves l 9 args → args = [] → exec .readQueue s = .next (s.answer l 9 ⟨.ok, queueReport s⟩))
    ∧ (s.serves l 10 args → args = [] → exec .readSettings s = .next (s.answer l 10 ⟨.ok, settingsReport s⟩))
    ∧ (s.serves l 16 args → args = [] →
        exec .readStatus s = .next (s.answer l 16 ⟨.ok, statusReport l (s.onLink l fun k => { k with fifo := k.fifo.tail })⟩))
    ∧ (s.serves l 17 args → args.length = 5 → 1 ≤ fieldU args 4 1 → fieldU args 4 1 ≤ 8 →
        exec .readCaptures s = .next (s.answer l 17 ⟨.ok, capturesReport (fieldU args 0 4) (fieldU args 4 1) s.cl⟩))
    ∧ (s.serves l 18 args → args = [] →
        exec .readChannels s = .next
          (State.answer
            (if l = .telemetry ∧ s.pins.localIn = true then s
              else
                { s with
                  hs := { s.hs with
                    channels := Vector.ofFn fun i =>
                      { s.hs.channels.get i with fresh := (s.hs.channels.get i).fresh.set l false } } })
            l 18 ⟨.ok, channelsReport l s.hs⟩))
    ∧ (s.serves l 21 args → args.length ≤ 1 → fieldU args 0 1 ≤ 1 →
        exec .readFrame s = .next (s.answer l 21 ⟨.ok, frameReport (fieldU args 0 1) s.sk⟩))
    ∧ (∀ code, s.serves l code args → (code = 0 ∨ 13 ≤ code.toNat ∧ code.toNat ≤ 15 ∨ 28 ≤ code.toNat) →
        exec .unknownCommand s = .next (s.answer l code ⟨.unknownCommand, []⟩))

/-- RESUME. Its refusals in the order of R163 to R165, each of which changes nothing but the answering link. And one that succeeds: the
top frame is popped, Iset is the command's, the valid elements are queued in order with the command's values and the held origins, and
wait for an apply point of a later moment (R150); the over-protection streak is 0. A HELD output under no other frame that holds it is
released by the continuation and the mains. NONE on a TIMELINE frame ends the ACTIVE window that the frame names, as DELETE WINDOW does
(log 40). Where the stack becomes empty with a window running, its demand follows the phase and a capture marked REALIGNED opens at it,
unless a cycle boundary is still to be taken, which opens it. RESUMED is raised and the response tells the frames left, the continuation
and the entries queued. -/
def Obligations.ResumeTakes : Prop :=
  (∀ (s : State) (l : LinkId) (args : Bytes), s.serves l 22 args →
      (s.oc.output = .lockout → exec .resume s = .next (s.answer l 22 ⟨.lockedOut, []⟩))
      ∧ (s.oc.output ≠ .lockout → l = .telemetry → s.pins.localIn = true →
          exec .resume s = .next (s.answer l 22 ⟨.localHeld, []⟩))
      ∧ (s.oc.output ≠ .lockout → s.barred l = false → args.length < 8 →
          exec .resume s = .next (s.answer l 22 ⟨.badLength, []⟩))
      ∧ (∀ f, resumeFields args = some f → s.oc.output ≠ .lockout → s.barred l = false →
          (s.sk.stack = [] → exec .resume s = .next (s.answer l 22 ⟨.stale, [0, 0, 0]⟩))
          ∧ (∀ top, s.sk.stack = [top] → f.seq ≠ top.seq →
              exec .resume s = .next (s.answer l 22 ⟨.stale, [1] ++ u16 top.seq⟩))
          ∧ (∀ top low, s.sk.stack = [top, low] → f.seq ≠ top.seq →
              exec .resume s = .next
                (s.answer l 22 ⟨if f.seq = low.seq then .notTop else .stale, [1] ++ u16 top.seq⟩))
          ∧ (∀ top lower, s.sk.stack = top :: lower → f.seq = top.seq →
              (¬ f.agreesWith top s.rg.set → exec .resume s = .next (s.answer l 22 ⟨.format, []⟩))
              ∧ (f.agreesWith top s.rg.set → s.refusesResume f top →
                  exec .resume s = .next (s.answer l 22 ⟨.notReady, []⟩)))))
  ∧ (∀ (s : State) (l : LinkId) (args : Bytes) (f : ResumeFields) (top : Frame) (lower : List Frame),
      s.serves l 22 args → s.oc.output ≠ .lockout → s.barred l = false → resumeFields args = some f →
      s.sk.stack = top :: lower → f.seq = top.seq → f.agreesWith top s.rg.set → ¬ s.refusesResume f top →
      let gives := ((f.elements.zip top.pendingList).filter fun p => p.1.valid).map fun p =>
        { p.2.entry with value := p.1.value }
      let none2 := f.ramp = false ∧ f.cycle = false
      let released := s.oc.output = .held ∧ ∀ g ∈ lower, g.kind.format = .timeline
      let out : Output × Bool :=
        if released ∧ f.ramp = true then
          (if s.hs.mains = .present then (.ramp, false) else (.stopped .mains, s.oc.restartPending))
        else if released ∧ none2 then (.stopped .cleared, false)
        else (s.oc.output, s.oc.restartPending)
      ∃ t, exec .resume s = .next t
        ∧ t.sk = { s.sk with stack := lower }
        ∧ t.rg = { s.rg with
            set := { s.rg.set with iset := f.iset }, overStreak := 0
            duty := if out.1 = s.oc.output ∨ out.1.drives = true then s.rg.duty else 0 }
        ∧ t.cq.queue = s.cq.queue ++ gives
        ∧ t.moment = { s.moment with requeued := s.moment.requeued ++ gives.map QEntry.setting }
        ∧ (t.oc.output, t.oc.restartPending) = out ∧ t.oc.autoRestart = s.oc.autoRestart
        ∧ t.oc.rampLimit = (if out.1 = .ramp ∧ s.oc.output ≠ .ramp then 0 else s.oc.rampLimit)
        ∧ t.sl.windows = (s.sl.windows.map fun v =>
            match v.life with
            | .active c =>
              if none2 ∧ top.kind.format = .timeline ∧ top.timeline.map TimelinePart.windowId = some v.id then
                (if s.tb.seconds < v.stop then
                  { v with stop := max s.tb.seconds (v.start + 1), life := .ending c .delete }
                else { v with life := .ending c .time })
              else v
            | .scheduled => v
            | .ending _ _ => v)
        ∧ (∀ w c, lower = [] → s.active = some (w, c) →
            (t.sl.demand = .opened ↔ (s.profileOf w).onT ≤ c.phase)
            ∧ (Position.boundary ∉ s.moment.positions →
                t.sl.capture.map (fun k => (k.entryPhase, k.realigned)) = some (c.phase, true)
                  ∧ t.cl.assembly.map (fun a => (a.windowId, a.cycle)) = some (w.id, c.cycle))
            ∧ (Position.boundary ∈ s.moment.positions → t.sl.capture = s.sl.capture))
        ∧ (lower ≠ [] ∨ s.active = none → t.sl.capture = s.sl.capture)
        ∧ (∀ k, (t.link k).flags = (s.link k).flags ||| (if out.1 = s.oc.output then 0 else EventClass.output.bit)
            ||| EventClass.resumed.bit)
        ∧ t.tb = s.tb ∧ t.hs = s.hs ∧ t.ns = s.ns ∧ t.cl.log = s.cl.log ∧ t.cl.nextSeq = s.cl.nextSeq
        ∧ t.sl.notices = s.sl.notices ∧ t.pins = s.pins ∧ t.pending = s.pending
        ∧ (t.link l).buffer = some (frameOf ([22, BitVec.ofNat 8 (s.link l).errors.word] ++ u8 lower.length
            ++ u8 (if f.ramp then 1 else if f.cycle then 2 else 0) ++ u8 gives.length)))

/-- CLEAR LOCKOUT from the Supervisor link with LOCAL asserted: both frames and the lockout record are gone, the output is STOPPED with
cause CLEARED, RESUMED is raised, and a window that runs takes its demand from the phase and opens a capture marked REALIGNED there,
unless a cycle boundary of the moment is still to be taken, which opens it (log 14). With STGFLT asserted a new STAGE_FAULT frame
follows, which records STOPPED, and the output is HELD. Elsewhere LOCAL_HELD, and with no lockout nothing changes. -/
def Obligations.ClearLockoutTakes : Prop :=
  ∀ (s : State) (l : LinkId), s.serves l 23 [] →
    (l = .supervisor → s.pins = ⟨false, true⟩ → s.oc.output = .lockout →
      ∃ t, exec .clearLockout s = .next t
        ∧ t.sk = { s.sk with stack := [], lockout := none } ∧ t.rg = { s.rg with overStreak := 0, duty := 0 }
        ∧ t.oc = { s.oc with output := .stopped .cleared, restartPending := false, switch := .closed, drive := 0 }
        ∧ (∀ k, (t.link k).flags = (s.link k).flags ||| EventClass.output.bit ||| EventClass.resumed.bit)
        ∧ (s.active = none → t.sl.demand = .closed ∧ t.sl.capture = s.sl.capture)
        ∧ (∀ w c, s.active = some (w, c) →
            (t.sl.demand = .opened ↔ (s.profileOf w).onT ≤ c.phase)
            ∧ (Position.boundary ∉ s.moment.positions →
                t.sl.capture.map (fun k => (k.entryPhase, k.realigned)) = some (c.phase, true)
                  ∧ t.cl.assembly.map (fun a => (a.windowId, a.cycle)) = some (w.id, c.cycle))
            ∧ (Position.boundary ∈ s.moment.positions → t.sl.capture = s.sl.capture))
        ∧ t.cq = s.cq ∧ t.tb = s.tb ∧ t.sl.windows = s.sl.windows ∧ t.hs = s.hs ∧ t.ns = s.ns ∧ t.cl.log = s.cl.log
        ∧ t.moment = s.moment ∧ t.pins = s.pins ∧ t.pending = s.pending)
    ∧ (l = .supervisor → s.pins = ⟨true, true⟩ → s.oc.output = .lockout →
      ∃ t, exec .clearLockout s = .next t
        ∧ t.sk =
          { stack := [{ seq := s.sk.nextFrame, kind := .stageFault, sec := s.tb.seconds, tick := s.tb.tick, output := .stopped,
                        mode := s.rg.set.mode, iset := s.rg.set.iset, duty := 0
                        timeline := s.active.map fun a => ⟨a.1.id, a.2.cycle, a.2.phase⟩, capture := none
                        pendingList := s.cq.queue.map fun e => ⟨true, e⟩, continuation := .ramp }]
            nextFrame := next16 s.sk.nextFrame, lockout := none }
        ∧ t.rg = { s.rg with overStreak := 0, duty := 0 } ∧ t.cq.queue = []
        ∧ t.oc = { s.oc with output := .held, restartPending := false, switch := .closed, drive := 0 }
        ∧ (∀ k, (t.link k).flags =
            (s.link k).flags ||| EventClass.output.bit ||| EventClass.resumed.bit ||| EventClass.fault.bit)
        ∧ t.sl.demand = .closed ∧ (CaptureLaw s → s.sk.stack ≠ [] → t.sl.capture = none ∧ t.cl.assembly = none)
        ∧ t.tb = s.tb ∧ t.sl.windows = s.sl.windows ∧ t.hs = s.hs ∧ t.ns = s.ns ∧ t.cl.log = s.cl.log
        ∧ t.moment = s.moment ∧ t.pins = s.pins ∧ t.pending = s.pending)
    ∧ (l ≠ .supervisor ∨ s.pins.localIn = false → exec .clearLockout s = .next (s.answer l 23 ⟨.localHeld, []⟩))
    ∧ (l = .supervisor → s.pins.localIn = true → s.oc.output ≠ .lockout →
        exec .clearLockout s = .next (s.answer l 23 ⟨.ok, []⟩))

/-- SAVE SETTINGS: LOCAL_HELD, BUSY during a write and OUT_OF_RANGE for a rate code beyond 4; otherwise the snapshot of every
setting in force, with the bit rates carried in place of those in force, begins to be written, and nothing else changes. At the
end of the write the snapshot stands in the image, which is VALID, nothing is being written, and every link's STORE event is
raised. -/
def Obligations.SaveBeginsAndCompletes : Prop :=
  (∀ (s : State) (l : LinkId) (args : Bytes), s.serves l 26 args → args.length = 0 ∨ args.length = 3 →
    let code : Nat → Nat := fun k => fieldU args k 1
    let rate : Nat → Rate → Rate := fun k r =>
      if code k = 1 then .r9600 else if code k = 2 then .r19200 else if code k = 3 then .r38400
        else if code k = 4 then .r115200 else r
    let image : Image :=
      { reg := s.rg.set, profiles := s.sl.profiles, cal := s.mu.cal, limits := Vector.ofFn fun i => (s.hs.channels.get i).limits,
        holdoverLimit := s.tb.holdoverLimit, lossAction := s.tb.lossAction, autoRestart := s.oc.autoRestart
        rates := ⟨rate 0 s.lc.links.sup.rate, rate 1 s.lc.links.tel.rate, rate 2 s.lc.links.svc.rate⟩ }
    (s.barred l = true → exec .saveSettings s = .next (s.answer l 26 ⟨.localHeld, []⟩))
    ∧ (s.barred l = false → s.ns.write.isSome → exec .saveSettings s = .next (s.answer l 26 ⟨.busy, []⟩))
    ∧ (s.barred l = false → s.ns.write = none → (4 < code 0 ∨ 4 < code 1 ∨ 4 < code 2) →
      exec .saveSettings s = .next (s.answer l 26 ⟨.outOfRange, []⟩))
    ∧ (s.barred l = false → s.ns.write = none → code 0 ≤ 4 → code 1 ≤ 4 → code 2 ≤ 4 →
      exec .saveSettings s = .next
        (State.answer { s with ns := { s.ns with write := some ⟨image, 0⟩ } } l 26 ⟨.ok, []⟩)))
  ∧ (∀ (s : State) (w : Write), s.ns.write = some w →
      exec .saveComplete s = .next
        { s with
          ns := { image := w.snapshot, imageGood := true, imageState := .valid, write := none }
          lc := { s.lc with links := s.lc.links.map (Link.raise .store) } })

/-- RESTART: its three refusals in order; and, with STGFLT deasserted and no restart from the reloaded auto-restart, what each
block reloads from the image, or from the defaults where the image does not verify, what it discards and what it keeps. Two clauses are
the model's choice: what is due at the moment stays due (log 14), and MU drops both results and the sums of the regulation interval
(log 26). -/
def Obligations.RestartTakes : Prop :=
  ∀ (s : State) (l : LinkId), s.serves l 27 [] →
    (s.barred l = true → exec .restart s = .next (s.answer l 27 ⟨.localHeld, []⟩))
    ∧ (s.barred l = false → s.ns.write.isSome → exec .restart s = .next (s.answer l 27 ⟨.busy, []⟩))
    ∧ (s.barred l = false → s.ns.write = none → s.oc.output = .lockout → (l ≠ .supervisor ∨ s.pins.localIn = false) →
      exec .restart s = .next (s.answer l 27 ⟨.lockedOut, []⟩))
    ∧ (let img := if s.ns.imageGood then s.ns.image else defaultImage
      s.barred l = false → s.ns.write = none → (s.oc.output = .lockout → l = .supervisor ∧ s.pins.localIn = true) →
      s.pins.stgflt = false → (img.autoRestart = false ∨ s.hs.mains ≠ .present) →
      ∃ t, exec .restart s = .next t
        ∧ t.tb = { s.tb with staged := none, holdoverLimit := img.holdoverLimit, lossAction := img.lossAction }
        ∧ t.sl.profiles = img.profiles ∧ t.sl.windows = s.sl.windows ∧ t.sl.nextId = s.sl.nextId
        ∧ t.sl.notices = s.sl.notices ∧ t.sl.noticeNo = s.sl.noticeNo ∧ t.sl.capture = none
        ∧ t.mu.cal = img.cal ∧ t.mu.onAcc = ⟨0, 0⟩ ∧ t.mu.offAcc = ⟨0, 0⟩ ∧ t.mu.iAcc = ⟨0, 0⟩ ∧ t.mu.vAcc = ⟨0, 0⟩
        ∧ t.mu.onResult = none ∧ t.mu.offResult = none
        ∧ t.cl = { s.cl with assembly := none }
        ∧ t.rg = { s.rg with set := img.reg, duty := 0, limited := none, tripStreak := 0, overStreak := 0 }
        ∧ t.oc = { s.oc with output := .stopped .reset, autoRestart := img.autoRestart, restartPending := img.autoRestart,
                             switch := .closed, drive := 0 }
        ∧ t.cq.queue = [] ∧ t.sk = { s.sk with stack := [], lockout := none }
        ∧ (t.hs.scan, t.hs.lastScan, t.hs.mains, t.hs.mainsCount) = (s.hs.scan, s.hs.lastScan, s.hs.mains, 0)
        ∧ (∀ i, t.hs.channels.get i =
            { s.hs.channels.get i with limits := img.limits.get i, low := 0, high := 0, inside := 0 })
        ∧ (t.hs.mains = .unknown → t.hs.mainsMark = true)
        ∧ (∀ k, (t.link k).flags = (if s.ns.imageGood then 0 else EventClass.store.bit) ∧ (t.link k).mask = 0
            ∧ (t.link k).attention = false
            ∧ (t.link k).errors = ⟨false, false, false⟩ ∧ (t.link k).rate = (s.link k).rate
            ∧ (t.link k).rx = (s.link k).rx ∧ (t.link k).partialBytes = (s.link k).partialBytes
            ∧ (t.link k).gap = (s.link k).gap
            ∧ (t.link k).pendingRate =
                (let r : Rate := match k with
                  | .supervisor => img.rates.sup | .telemetry => img.rates.tel | .service => img.rates.svc
                 if r = (s.link k).rate then none else some r)
            ∧ (k ≠ l → (t.link k).fifo = (s.link k).fifo ∧ (t.link k).buffer = (s.link k).buffer))
        ∧ (t.link l).buffer = some (frameOf [27, 0]) ∧ (t.link l).fifo = (s.link l).fifo.tail
        ∧ t.ns = { s.ns with imageState := if s.ns.imageGood then .valid else .invalid } ∧ t.pins = s.pins
        ∧ t.moment = s.moment ∧ t.pending = s.pending)

/-- The law of LOCAL: while it is asserted, no command taken from the Telemetry link changes anything but that link's own
flags, mask, attention, error flags, FIFO and buffer, and the last served link. -/
def Obligations.TelemetryBarred : Prop :=
  ∀ (c : Instr) (s t : State) (code : Byte) (args : Bytes),
    s.pins.localIn = true → s.serves .telemetry code args →
    (∀ x, c ≠ .tick x) → c ∉ [.secondBoundary, .pulseEdge, .holdoverEntry, .enterLost, .cycleBoundary, .offEdge,
      .scanEnd, .saveComplete, .stgfltAsserted, .stgfltDeasserted, .powerOnReset] →
    (∀ b, c ≠ .regulationTick b ∧ c ≠ .localChange b) → (∀ w, c ≠ .measurementWindowOpen w ∧ c ≠ .measurementWindowClose w) →
    (∀ l b g, c ≠ .byteReceived l b g) → (∀ l, c ≠ .gapExpiry l ∧ c ≠ .responseSent l ∧ c ≠ .bitRateSwitch l) →
    exec c s = .next t →
      t = { s with lc := { links := { s.lc.links with tel := t.lc.links.tel }, lastServed := t.lc.lastServed } }
        ∧ t.lc.links.tel =
          { s.lc.links.tel with
            flags := t.lc.links.tel.flags, mask := t.lc.links.tel.mask, attention := t.lc.links.tel.attention
            errors := t.lc.links.tel.errors, fifo := t.lc.links.tel.fifo, buffer := t.lc.links.tel.buffer
            txBits := t.lc.links.tel.txBits }

/-! ### Invariants that every step keeps

Each law is named in Sys2Proof/Safety.lean. Each holds of every state it holds of before the step, whatever command is at the
front of the queue; `ResetObeysLaws` says that the laws hold after reset. -/

/-- Every law holds of the state after reset. -/
def Obligations.ResetObeysLaws : Prop :=
  TimeLaw State.reset ∧ SettingsLaw State.reset ∧ WindowLaw State.reset ∧ NoticeLaw State.reset ∧ LogLaw State.reset
    ∧ CaptureLaw State.reset ∧ DriveLaw State.reset ∧ SwitchLaw State.reset ∧ QueueLaw State.reset
    ∧ StackLaw State.reset ∧ LinksLaw State.reset ∧ ScanLaw State.reset

/-- Every step keeps TB's state in its ranges; and the result table in the channels' ranges, the counts below 3, and the scan
within its 1000 notices. -/
def Obligations.StepKeepsTimeAndScan : Prop :=
  (∀ s t : State, TimeLaw s → step s = .next t → TimeLaw t)
  ∧ (∀ s t : State, ScanLaw s → step s = .next t → ScanLaw t)

/-- Every step keeps the settings in force, staged and stored within their ranges and relations. -/
def Obligations.StepKeepsSettings : Prop := ∀ s t : State, SettingsLaw s → step s = .next t → SettingsLaw t

/-- Every step keeps the survey window list in order, disjoint and of distinct IDs, with only the first entry running; and, from a
list that obeys that law, while TB is LOST or UNSET no command but a pulse edge brings a window to ACTIVE. -/
def Obligations.StepKeepsWindows : Prop :=
  (∀ s t : State, TimeLaw s ∧ WindowLaw s → step s = .next t → WindowLaw t)
  ∧ (∀ (c : Instr) (s t : State),
    WindowLaw s → c ≠ .pulseEdge →
    s.tb.state = .lost ∨ s.tb.state = .unset ∧ s.tb.staged = none → s.active = none → exec c s = .next t → t.active = none)

/-- Every step keeps the numbers of the notices and of the capture records consecutive, and the two collections in size. -/
def Obligations.StepKeepsNumbers : Prop :=
  ∀ s t : State, NoticeLaw s ∧ LogLaw s → step s = .next t → NoticeLaw t ∧ LogLaw t

/-- Every step keeps a capture OPEN only while a window runs and the stack is empty. -/
def Obligations.StepKeepsCapture : Prop :=
  ∀ s t : State, WindowLaw s ∧ CaptureLaw s → step s = .next t → CaptureLaw t

/-- Every step keeps the drive output at the duty value in RAMP and RUN with the switch CLOSED and at 0 otherwise, the duty value
under the ramp limit, and the ramp limit at most 1000. -/
def Obligations.StepKeepsDrive : Prop :=
  ∀ s t : State, SettingsLaw s ∧ DriveLaw s → step s = .next t → DriveLaw t

/-- Every step keeps the switch CLOSED but in RUN with the demand OPEN, and the demand by the window, the stack and the phase. -/
def Obligations.StepKeepsSwitch : Prop :=
  ∀ s t : State, SettingsLaw s ∧ WindowLaw s ∧ SwitchLaw s → step s = .next t → SwitchLaw t

/-- Every step keeps the stack at 2 frames, the output HELD or in LOCKOUT under a frame that holds it, and the lockout record
present exactly in LOCKOUT; and the change queue at 4 entries of distinct settings, empty while frames are held. -/
def Obligations.StepKeepsStackAndQueue : Prop :=
  (∀ s t : State, StackLaw s → step s = .next t → StackLaw t)
  ∧ (∀ s t : State, QueueLaw s → step s = .next t → QueueLaw t)

/-- Every step keeps the receivers, the FIFOs and the attention outputs by their rules. -/
def Obligations.StepKeepsLinks : Prop := ∀ s t : State, LinksLaw s → step s = .next t → LinksLaw t
end

