-- ==== Sys2Proof/Laws/State.lean ====
section
/-! SUPPORT. What each shared operation leaves alone: one lemma for each field that an operation does not write, so that no
later proof unfolds a record update. -/

namespace Sys2Proof.Machine

/-- A fold of operations that each leave a value alone leaves it alone. -/
theorem foldl_keeps {α β γ : Type} (g : α → γ) (f : α → β → α) (h : ∀ a b, g (f a b) = g a) (l : List β) (a : α) :
    g (l.foldl f a) = g a := by
  induction l generalizing a with
  | nil => rfl
  | cons b l ih => rw [List.foldl_cons, ih, h]

/-! #### What the measurement windows leave alone in MU -/

@[simp] theorem Mu.drop_cal (m : Mu) (w : MWindow) : (m.drop w).cal = m.cal := by cases w <;> rfl
@[simp] theorem Mu.accumulate_cal (m : Mu) (w : MWindow) (c : Int) : (m.accumulate w c).cal = m.cal := by cases w <;> rfl
@[simp] theorem Mu.result_cal (m : Mu) (w : MWindow) (n : Nat) : (m.result w n).cal = m.cal := by cases w <;> rfl
@[simp] theorem Mu.drop_iAcc (m : Mu) (w : MWindow) : (m.drop w).iAcc = m.iAcc := by cases w <;> rfl
@[simp] theorem Mu.accumulate_iAcc (m : Mu) (w : MWindow) (c : Int) : (m.accumulate w c).iAcc = m.iAcc := by cases w <;> rfl
@[simp] theorem Mu.result_iAcc (m : Mu) (w : MWindow) (n : Nat) : (m.result w n).iAcc = m.iAcc := by cases w <;> rfl
@[simp] theorem Mu.drop_vAcc (m : Mu) (w : MWindow) : (m.drop w).vAcc = m.vAcc := by cases w <;> rfl
@[simp] theorem Mu.accumulate_vAcc (m : Mu) (w : MWindow) (c : Int) : (m.accumulate w c).vAcc = m.vAcc := by cases w <;> rfl
@[simp] theorem Mu.result_vAcc (m : Mu) (w : MWindow) (n : Nat) : (m.result w n).vAcc = m.vAcc := by cases w <;> rfl
@[simp] theorem Mu.notice_cal (m : Mu) (x : Samples) : (m.notice x).cal = m.cal := rfl
@[simp] theorem Mu.stands_cal (m : Mu) (sw : SwitchPos) : (m.stands sw).cal = m.cal := rfl

/-! #### State.onLink -/

@[simp] theorem State.onLink_tb (l : LinkId) (f : Link → Link) (s : State) : (s.onLink l f).tb = s.tb := rfl
@[simp] theorem State.onLink_sl (l : LinkId) (f : Link → Link) (s : State) : (s.onLink l f).sl = s.sl := rfl
@[simp] theorem State.onLink_mu (l : LinkId) (f : Link → Link) (s : State) : (s.onLink l f).mu = s.mu := rfl
@[simp] theorem State.onLink_cl (l : LinkId) (f : Link → Link) (s : State) : (s.onLink l f).cl = s.cl := rfl
@[simp] theorem State.onLink_rg (l : LinkId) (f : Link → Link) (s : State) : (s.onLink l f).rg = s.rg := rfl
@[simp] theorem State.onLink_oc (l : LinkId) (f : Link → Link) (s : State) : (s.onLink l f).oc = s.oc := rfl
@[simp] theorem State.onLink_cq (l : LinkId) (f : Link → Link) (s : State) : (s.onLink l f).cq = s.cq := rfl
@[simp] theorem State.onLink_sk (l : LinkId) (f : Link → Link) (s : State) : (s.onLink l f).sk = s.sk := rfl
@[simp] theorem State.onLink_hs (l : LinkId) (f : Link → Link) (s : State) : (s.onLink l f).hs = s.hs := rfl
@[simp] theorem State.onLink_ns (l : LinkId) (f : Link → Link) (s : State) : (s.onLink l f).ns = s.ns := rfl
@[simp] theorem State.onLink_pins (l : LinkId) (f : Link → Link) (s : State) : (s.onLink l f).pins = s.pins := rfl
@[simp] theorem State.onLink_moment (l : LinkId) (f : Link → Link) (s : State) : (s.onLink l f).moment = s.moment := rfl
@[simp] theorem State.onLink_pending (l : LinkId) (f : Link → Link) (s : State) : (s.onLink l f).pending = s.pending := rfl

/-! #### State.onLinks -/

@[simp] theorem State.onLinks_tb (f : Link → Link) (s : State) : (s.onLinks f).tb = s.tb := rfl
@[simp] theorem State.onLinks_sl (f : Link → Link) (s : State) : (s.onLinks f).sl = s.sl := rfl
@[simp] theorem State.onLinks_mu (f : Link → Link) (s : State) : (s.onLinks f).mu = s.mu := rfl
@[simp] theorem State.onLinks_cl (f : Link → Link) (s : State) : (s.onLinks f).cl = s.cl := rfl
@[simp] theorem State.onLinks_rg (f : Link → Link) (s : State) : (s.onLinks f).rg = s.rg := rfl
@[simp] theorem State.onLinks_oc (f : Link → Link) (s : State) : (s.onLinks f).oc = s.oc := rfl
@[simp] theorem State.onLinks_cq (f : Link → Link) (s : State) : (s.onLinks f).cq = s.cq := rfl
@[simp] theorem State.onLinks_sk (f : Link → Link) (s : State) : (s.onLinks f).sk = s.sk := rfl
@[simp] theorem State.onLinks_hs (f : Link → Link) (s : State) : (s.onLinks f).hs = s.hs := rfl
@[simp] theorem State.onLinks_ns (f : Link → Link) (s : State) : (s.onLinks f).ns = s.ns := rfl
@[simp] theorem State.onLinks_pins (f : Link → Link) (s : State) : (s.onLinks f).pins = s.pins := rfl
@[simp] theorem State.onLinks_moment (f : Link → Link) (s : State) : (s.onLinks f).moment = s.moment := rfl
@[simp] theorem State.onLinks_pending (f : Link → Link) (s : State) : (s.onLinks f).pending = s.pending := rfl

/-! #### raiseOn -/

@[simp] theorem raiseOn_tb (l : LinkId) (c : EventClass) (s : State) : (raiseOn l c s).tb = s.tb := rfl
@[simp] theorem raiseOn_sl (l : LinkId) (c : EventClass) (s : State) : (raiseOn l c s).sl = s.sl := rfl
@[simp] theorem raiseOn_mu (l : LinkId) (c : EventClass) (s : State) : (raiseOn l c s).mu = s.mu := rfl
@[simp] theorem raiseOn_cl (l : LinkId) (c : EventClass) (s : State) : (raiseOn l c s).cl = s.cl := rfl
@[simp] theorem raiseOn_rg (l : LinkId) (c : EventClass) (s : State) : (raiseOn l c s).rg = s.rg := rfl
@[simp] theorem raiseOn_oc (l : LinkId) (c : EventClass) (s : State) : (raiseOn l c s).oc = s.oc := rfl
@[simp] theorem raiseOn_cq (l : LinkId) (c : EventClass) (s : State) : (raiseOn l c s).cq = s.cq := rfl
@[simp] theorem raiseOn_sk (l : LinkId) (c : EventClass) (s : State) : (raiseOn l c s).sk = s.sk := rfl
@[simp] theorem raiseOn_hs (l : LinkId) (c : EventClass) (s : State) : (raiseOn l c s).hs = s.hs := rfl
@[simp] theorem raiseOn_ns (l : LinkId) (c : EventClass) (s : State) : (raiseOn l c s).ns = s.ns := rfl
@[simp] theorem raiseOn_pins (l : LinkId) (c : EventClass) (s : State) : (raiseOn l c s).pins = s.pins := rfl
@[simp] theorem raiseOn_moment (l : LinkId) (c : EventClass) (s : State) : (raiseOn l c s).moment = s.moment := rfl
@[simp] theorem raiseOn_pending (l : LinkId) (c : EventClass) (s : State) : (raiseOn l c s).pending = s.pending := rfl

/-! #### raiseAll -/

@[simp] theorem raiseAll_tb (c : EventClass) (s : State) : (raiseAll c s).tb = s.tb := rfl
@[simp] theorem raiseAll_sl (c : EventClass) (s : State) : (raiseAll c s).sl = s.sl := rfl
@[simp] theorem raiseAll_mu (c : EventClass) (s : State) : (raiseAll c s).mu = s.mu := rfl
@[simp] theorem raiseAll_cl (c : EventClass) (s : State) : (raiseAll c s).cl = s.cl := rfl
@[simp] theorem raiseAll_rg (c : EventClass) (s : State) : (raiseAll c s).rg = s.rg := rfl
@[simp] theorem raiseAll_oc (c : EventClass) (s : State) : (raiseAll c s).oc = s.oc := rfl
@[simp] theorem raiseAll_cq (c : EventClass) (s : State) : (raiseAll c s).cq = s.cq := rfl
@[simp] theorem raiseAll_sk (c : EventClass) (s : State) : (raiseAll c s).sk = s.sk := rfl
@[simp] theorem raiseAll_hs (c : EventClass) (s : State) : (raiseAll c s).hs = s.hs := rfl
@[simp] theorem raiseAll_ns (c : EventClass) (s : State) : (raiseAll c s).ns = s.ns := rfl
@[simp] theorem raiseAll_pins (c : EventClass) (s : State) : (raiseAll c s).pins = s.pins := rfl
@[simp] theorem raiseAll_moment (c : EventClass) (s : State) : (raiseAll c s).moment = s.moment := rfl
@[simp] theorem raiseAll_pending (c : EventClass) (s : State) : (raiseAll c s).pending = s.pending := rfl

/-! #### State.setPair -/

@[simp] theorem State.setPair_tb (n : Int) (φ : Nat) (s : State) : (s.setPair n φ).tb = s.tb := by
  unfold State.setPair; try dsimp only
  (repeat' split) <;> simp
@[simp] theorem State.setPair_sl_profiles (n : Int) (φ : Nat) (s : State) : (s.setPair n φ).sl.profiles = s.sl.profiles := by
  unfold State.setPair; try dsimp only
  (repeat' split) <;> simp
@[simp] theorem State.setPair_sl_nextId (n : Int) (φ : Nat) (s : State) : (s.setPair n φ).sl.nextId = s.sl.nextId := by
  unfold State.setPair; try dsimp only
  (repeat' split) <;> simp
@[simp] theorem State.setPair_sl_notices (n : Int) (φ : Nat) (s : State) : (s.setPair n φ).sl.notices = s.sl.notices := by
  unfold State.setPair; try dsimp only
  (repeat' split) <;> simp
@[simp] theorem State.setPair_sl_noticeNo (n : Int) (φ : Nat) (s : State) : (s.setPair n φ).sl.noticeNo = s.sl.noticeNo := by
  unfold State.setPair; try dsimp only
  (repeat' split) <;> simp
@[simp] theorem State.setPair_sl_capture (n : Int) (φ : Nat) (s : State) : (s.setPair n φ).sl.capture = s.sl.capture := by
  unfold State.setPair; try dsimp only
  (repeat' split) <;> simp
@[simp] theorem State.setPair_sl_outright (n : Int) (φ : Nat) (s : State) : (s.setPair n φ).sl.outright = s.sl.outright := by
  unfold State.setPair; try dsimp only
  (repeat' split) <;> simp
@[simp] theorem State.setPair_mu (n : Int) (φ : Nat) (s : State) : (s.setPair n φ).mu = s.mu := by
  unfold State.setPair; try dsimp only
  (repeat' split) <;> simp
@[simp] theorem State.setPair_cl (n : Int) (φ : Nat) (s : State) : (s.setPair n φ).cl = s.cl := by
  unfold State.setPair; try dsimp only
  (repeat' split) <;> simp
@[simp] theorem State.setPair_rg (n : Int) (φ : Nat) (s : State) : (s.setPair n φ).rg = s.rg := by
  unfold State.setPair; try dsimp only
  (repeat' split) <;> simp
@[simp] theorem State.setPair_oc (n : Int) (φ : Nat) (s : State) : (s.setPair n φ).oc = s.oc := by
  unfold State.setPair; try dsimp only
  (repeat' split) <;> simp
@[simp] theorem State.setPair_cq (n : Int) (φ : Nat) (s : State) : (s.setPair n φ).cq = s.cq := by
  unfold State.setPair; try dsimp only
  (repeat' split) <;> simp
@[simp] theorem State.setPair_sk (n : Int) (φ : Nat) (s : State) : (s.setPair n φ).sk = s.sk := by
  unfold State.setPair; try dsimp only
  (repeat' split) <;> simp
@[simp] theorem State.setPair_hs (n : Int) (φ : Nat) (s : State) : (s.setPair n φ).hs = s.hs := by
  unfold State.setPair; try dsimp only
  (repeat' split) <;> simp
@[simp] theorem State.setPair_lc (n : Int) (φ : Nat) (s : State) : (s.setPair n φ).lc = s.lc := by
  unfold State.setPair; try dsimp only
  (repeat' split) <;> simp
@[simp] theorem State.setPair_ns (n : Int) (φ : Nat) (s : State) : (s.setPair n φ).ns = s.ns := by
  unfold State.setPair; try dsimp only
  (repeat' split) <;> simp
@[simp] theorem State.setPair_pins (n : Int) (φ : Nat) (s : State) : (s.setPair n φ).pins = s.pins := by
  unfold State.setPair; try dsimp only
  (repeat' split) <;> simp
@[simp] theorem State.setPair_moment (n : Int) (φ : Nat) (s : State) : (s.setPair n φ).moment = s.moment := by
  unfold State.setPair; try dsimp only
  (repeat' split) <;> simp
@[simp] theorem State.setPair_pending (n : Int) (φ : Nat) (s : State) : (s.setPair n φ).pending = s.pending := by
  unfold State.setPair; try dsimp only
  (repeat' split) <;> simp

/-! #### sync -/

@[simp] theorem sync_tb (s : State) : (sync s).tb = s.tb := rfl
@[simp] theorem sync_sl_profiles (s : State) : (sync s).sl.profiles = s.sl.profiles := rfl
@[simp] theorem sync_sl_windows (s : State) : (sync s).sl.windows = s.sl.windows := rfl
@[simp] theorem sync_sl_nextId (s : State) : (sync s).sl.nextId = s.sl.nextId := rfl
@[simp] theorem sync_sl_notices (s : State) : (sync s).sl.notices = s.sl.notices := rfl
@[simp] theorem sync_sl_noticeNo (s : State) : (sync s).sl.noticeNo = s.sl.noticeNo := rfl
@[simp] theorem sync_sl_capture (s : State) : (sync s).sl.capture = s.sl.capture := rfl
@[simp] theorem sync_sl_outright (s : State) : (sync s).sl.outright = s.sl.outright := rfl
@[simp] theorem sync_mu_cal (s : State) : (sync s).mu.cal = s.mu.cal := rfl
@[simp] theorem sync_mu_iAcc (s : State) : (sync s).mu.iAcc = s.mu.iAcc := rfl
@[simp] theorem sync_mu_vAcc (s : State) : (sync s).mu.vAcc = s.mu.vAcc := rfl
@[simp] theorem sync_cl (s : State) : (sync s).cl = s.cl := rfl
@[simp] theorem sync_rg (s : State) : (sync s).rg = s.rg := rfl
@[simp] theorem sync_oc_output (s : State) : (sync s).oc.output = s.oc.output := rfl
@[simp] theorem sync_oc_restartPending (s : State) : (sync s).oc.restartPending = s.oc.restartPending := rfl
@[simp] theorem sync_oc_autoRestart (s : State) : (sync s).oc.autoRestart = s.oc.autoRestart := rfl
@[simp] theorem sync_oc_rampLimit (s : State) : (sync s).oc.rampLimit = s.oc.rampLimit := rfl
@[simp] theorem sync_cq (s : State) : (sync s).cq = s.cq := rfl
@[simp] theorem sync_sk (s : State) : (sync s).sk = s.sk := rfl
@[simp] theorem sync_hs (s : State) : (sync s).hs = s.hs := rfl
@[simp] theorem sync_lc (s : State) : (sync s).lc = s.lc := rfl
@[simp] theorem sync_ns (s : State) : (sync s).ns = s.ns := rfl
@[simp] theorem sync_pins (s : State) : (sync s).pins = s.pins := rfl
@[simp] theorem sync_moment (s : State) : (sync s).moment = s.moment := rfl
@[simp] theorem sync_pending (s : State) : (sync s).pending = s.pending := rfl

/-! #### markNoOutput -/

@[simp] theorem markNoOutput_tb (s : State) : (markNoOutput s).tb = s.tb := rfl
@[simp] theorem markNoOutput_sl (s : State) : (markNoOutput s).sl = s.sl := rfl
@[simp] theorem markNoOutput_mu (s : State) : (markNoOutput s).mu = s.mu := rfl
@[simp] theorem markNoOutput_cl_log (s : State) : (markNoOutput s).cl.log = s.cl.log := rfl
@[simp] theorem markNoOutput_cl_nextSeq (s : State) : (markNoOutput s).cl.nextSeq = s.cl.nextSeq := rfl
@[simp] theorem markNoOutput_rg (s : State) : (markNoOutput s).rg = s.rg := rfl
@[simp] theorem markNoOutput_oc (s : State) : (markNoOutput s).oc = s.oc := rfl
@[simp] theorem markNoOutput_cq (s : State) : (markNoOutput s).cq = s.cq := rfl
@[simp] theorem markNoOutput_sk (s : State) : (markNoOutput s).sk = s.sk := rfl
@[simp] theorem markNoOutput_hs (s : State) : (markNoOutput s).hs = s.hs := rfl
@[simp] theorem markNoOutput_lc (s : State) : (markNoOutput s).lc = s.lc := rfl
@[simp] theorem markNoOutput_ns (s : State) : (markNoOutput s).ns = s.ns := rfl
@[simp] theorem markNoOutput_pins (s : State) : (markNoOutput s).pins = s.pins := rfl
@[simp] theorem markNoOutput_moment (s : State) : (markNoOutput s).moment = s.moment := rfl
@[simp] theorem markNoOutput_pending (s : State) : (markNoOutput s).pending = s.pending := rfl

/-! #### changeOutput -/

@[simp] theorem changeOutput_tb (o : Output) (s : State) : (changeOutput o s).tb = s.tb := by
  unfold changeOutput; try dsimp only
  (repeat' split) <;> simp
@[simp] theorem changeOutput_sl_profiles (o : Output) (s : State) : (changeOutput o s).sl.profiles = s.sl.profiles := by
  unfold changeOutput; try dsimp only
  (repeat' split) <;> simp
@[simp] theorem changeOutput_sl_windows (o : Output) (s : State) : (changeOutput o s).sl.windows = s.sl.windows := by
  unfold changeOutput; try dsimp only
  (repeat' split) <;> simp
@[simp] theorem changeOutput_sl_nextId (o : Output) (s : State) : (changeOutput o s).sl.nextId = s.sl.nextId := by
  unfold changeOutput; try dsimp only
  (repeat' split) <;> simp
@[simp] theorem changeOutput_sl_notices (o : Output) (s : State) : (changeOutput o s).sl.notices = s.sl.notices := by
  unfold changeOutput; try dsimp only
  (repeat' split) <;> simp
@[simp] theorem changeOutput_sl_noticeNo (o : Output) (s : State) : (changeOutput o s).sl.noticeNo = s.sl.noticeNo := by
  unfold changeOutput; try dsimp only
  (repeat' split) <;> simp
@[simp] theorem changeOutput_sl_capture (o : Output) (s : State) : (changeOutput o s).sl.capture = s.sl.capture := by
  unfold changeOutput; try dsimp only
  (repeat' split) <;> simp
@[simp] theorem changeOutput_sl_outright (o : Output) (s : State) : (changeOutput o s).sl.outright = s.sl.outright := by
  unfold changeOutput; try dsimp only
  (repeat' split) <;> simp
@[simp] theorem changeOutput_mu_cal (o : Output) (s : State) : (changeOutput o s).mu.cal = s.mu.cal := by
  unfold changeOutput; try dsimp only
  (repeat' split) <;> simp
@[simp] theorem changeOutput_mu_iAcc (o : Output) (s : State) : (changeOutput o s).mu.iAcc = s.mu.iAcc := by
  unfold changeOutput; try dsimp only
  (repeat' split) <;> simp
@[simp] theorem changeOutput_mu_vAcc (o : Output) (s : State) : (changeOutput o s).mu.vAcc = s.mu.vAcc := by
  unfold changeOutput; try dsimp only
  (repeat' split) <;> simp
@[simp] theorem changeOutput_cl_log (o : Output) (s : State) : (changeOutput o s).cl.log = s.cl.log := by
  unfold changeOutput; try dsimp only
  (repeat' split) <;> simp
@[simp] theorem changeOutput_cl_nextSeq (o : Output) (s : State) : (changeOutput o s).cl.nextSeq = s.cl.nextSeq := by
  unfold changeOutput; try dsimp only
  (repeat' split) <;> simp
@[simp] theorem changeOutput_rg_set (o : Output) (s : State) : (changeOutput o s).rg.set = s.rg.set := by
  unfold changeOutput; try dsimp only
  (repeat' split) <;> simp
@[simp] theorem changeOutput_oc_restartPending (o : Output) (s : State) : (changeOutput o s).oc.restartPending = s.oc.restartPending := by
  unfold changeOutput; try dsimp only
  (repeat' split) <;> simp
@[simp] theorem changeOutput_oc_autoRestart (o : Output) (s : State) : (changeOutput o s).oc.autoRestart = s.oc.autoRestart := by
  unfold changeOutput; try dsimp only
  (repeat' split) <;> simp
@[simp] theorem changeOutput_oc_rampLimit (o : Output) (s : State) : (changeOutput o s).oc.rampLimit = s.oc.rampLimit := by
  unfold changeOutput; try dsimp only
  (repeat' split) <;> simp
@[simp] theorem changeOutput_cq (o : Output) (s : State) : (changeOutput o s).cq = s.cq := by
  unfold changeOutput; try dsimp only
  (repeat' split) <;> simp
@[simp] theorem changeOutput_sk (o : Output) (s : State) : (changeOutput o s).sk = s.sk := by
  unfold changeOutput; try dsimp only
  (repeat' split) <;> simp
@[simp] theorem changeOutput_hs (o : Output) (s : State) : (changeOutput o s).hs = s.hs := by
  unfold changeOutput; try dsimp only
  (repeat' split) <;> simp
@[simp] theorem changeOutput_ns (o : Output) (s : State) : (changeOutput o s).ns = s.ns := by
  unfold changeOutput; try dsimp only
  (repeat' split) <;> simp
@[simp] theorem changeOutput_pins (o : Output) (s : State) : (changeOutput o s).pins = s.pins := by
  unfold changeOutput; try dsimp only
  (repeat' split) <;> simp
@[simp] theorem changeOutput_moment (o : Output) (s : State) : (changeOutput o s).moment = s.moment := by
  unfold changeOutput; try dsimp only
  (repeat' split) <;> simp
@[simp] theorem changeOutput_pending (o : Output) (s : State) : (changeOutput o s).pending = s.pending := by
  unfold changeOutput; try dsimp only
  (repeat' split) <;> simp

/-! #### enterRamp -/

@[simp] theorem enterRamp_tb (s : State) : (enterRamp s).tb = s.tb := by simp [enterRamp]
@[simp] theorem enterRamp_sl_profiles (s : State) : (enterRamp s).sl.profiles = s.sl.profiles := by simp [enterRamp]
@[simp] theorem enterRamp_sl_windows (s : State) : (enterRamp s).sl.windows = s.sl.windows := by simp [enterRamp]
@[simp] theorem enterRamp_sl_nextId (s : State) : (enterRamp s).sl.nextId = s.sl.nextId := by simp [enterRamp]
@[simp] theorem enterRamp_sl_notices (s : State) : (enterRamp s).sl.notices = s.sl.notices := by simp [enterRamp]
@[simp] theorem enterRamp_sl_noticeNo (s : State) : (enterRamp s).sl.noticeNo = s.sl.noticeNo := by simp [enterRamp]
@[simp] theorem enterRamp_sl_capture (s : State) : (enterRamp s).sl.capture = s.sl.capture := by simp [enterRamp]
@[simp] theorem enterRamp_sl_outright (s : State) : (enterRamp s).sl.outright = s.sl.outright := by simp [enterRamp]
@[simp] theorem enterRamp_mu_cal (s : State) : (enterRamp s).mu.cal = s.mu.cal := by simp [enterRamp]
@[simp] theorem enterRamp_mu_iAcc (s : State) : (enterRamp s).mu.iAcc = s.mu.iAcc := by simp [enterRamp]
@[simp] theorem enterRamp_mu_vAcc (s : State) : (enterRamp s).mu.vAcc = s.mu.vAcc := by simp [enterRamp]
@[simp] theorem enterRamp_cl_log (s : State) : (enterRamp s).cl.log = s.cl.log := by simp [enterRamp]
@[simp] theorem enterRamp_cl_nextSeq (s : State) : (enterRamp s).cl.nextSeq = s.cl.nextSeq := by simp [enterRamp]
@[simp] theorem enterRamp_rg_set (s : State) : (enterRamp s).rg.set = s.rg.set := by simp [enterRamp]
@[simp] theorem enterRamp_oc_autoRestart (s : State) : (enterRamp s).oc.autoRestart = s.oc.autoRestart := by simp [enterRamp]
@[simp] theorem enterRamp_cq (s : State) : (enterRamp s).cq = s.cq := by simp [enterRamp]
@[simp] theorem enterRamp_sk (s : State) : (enterRamp s).sk = s.sk := by simp [enterRamp]
@[simp] theorem enterRamp_hs (s : State) : (enterRamp s).hs = s.hs := by simp [enterRamp]
@[simp] theorem enterRamp_ns (s : State) : (enterRamp s).ns = s.ns := by simp [enterRamp]
@[simp] theorem enterRamp_pins (s : State) : (enterRamp s).pins = s.pins := by simp [enterRamp]
@[simp] theorem enterRamp_moment (s : State) : (enterRamp s).moment = s.moment := by simp [enterRamp]
@[simp] theorem enterRamp_pending (s : State) : (enterRamp s).pending = s.pending := by simp [enterRamp]

/-! #### holdOutput -/

@[simp] theorem holdOutput_tb (s : State) : (holdOutput s).tb = s.tb := by
  unfold holdOutput; try dsimp only
  (repeat' split) <;> simp
@[simp] theorem holdOutput_sl_profiles (s : State) : (holdOutput s).sl.profiles = s.sl.profiles := by
  unfold holdOutput; try dsimp only
  (repeat' split) <;> simp
@[simp] theorem holdOutput_sl_windows (s : State) : (holdOutput s).sl.windows = s.sl.windows := by
  unfold holdOutput; try dsimp only
  (repeat' split) <;> simp
@[simp] theorem holdOutput_sl_nextId (s : State) : (holdOutput s).sl.nextId = s.sl.nextId := by
  unfold holdOutput; try dsimp only
  (repeat' split) <;> simp
@[simp] theorem holdOutput_sl_notices (s : State) : (holdOutput s).sl.notices = s.sl.notices := by
  unfold holdOutput; try dsimp only
  (repeat' split) <;> simp
@[simp] theorem holdOutput_sl_noticeNo (s : State) : (holdOutput s).sl.noticeNo = s.sl.noticeNo := by
  unfold holdOutput; try dsimp only
  (repeat' split) <;> simp
@[simp] theorem holdOutput_sl_capture (s : State) : (holdOutput s).sl.capture = s.sl.capture := by
  unfold holdOutput; try dsimp only
  (repeat' split) <;> simp
@[simp] theorem holdOutput_sl_outright (s : State) : (holdOutput s).sl.outright = s.sl.outright := by
  unfold holdOutput; try dsimp only
  (repeat' split) <;> simp
@[simp] theorem holdOutput_mu_cal (s : State) : (holdOutput s).mu.cal = s.mu.cal := by
  unfold holdOutput; try dsimp only
  (repeat' split) <;> simp
@[simp] theorem holdOutput_mu_iAcc (s : State) : (holdOutput s).mu.iAcc = s.mu.iAcc := by
  unfold holdOutput; try dsimp only
  (repeat' split) <;> simp
@[simp] theorem holdOutput_mu_vAcc (s : State) : (holdOutput s).mu.vAcc = s.mu.vAcc := by
  unfold holdOutput; try dsimp only
  (repeat' split) <;> simp
@[simp] theorem holdOutput_cl_log (s : State) : (holdOutput s).cl.log = s.cl.log := by
  unfold holdOutput; try dsimp only
  (repeat' split) <;> simp
@[simp] theorem holdOutput_cl_nextSeq (s : State) : (holdOutput s).cl.nextSeq = s.cl.nextSeq := by
  unfold holdOutput; try dsimp only
  (repeat' split) <;> simp
@[simp] theorem holdOutput_rg_set (s : State) : (holdOutput s).rg.set = s.rg.set := by
  unfold holdOutput; try dsimp only
  (repeat' split) <;> simp
@[simp] theorem holdOutput_oc_autoRestart (s : State) : (holdOutput s).oc.autoRestart = s.oc.autoRestart := by
  unfold holdOutput; try dsimp only
  (repeat' split) <;> simp
@[simp] theorem holdOutput_oc_rampLimit (s : State) : (holdOutput s).oc.rampLimit = s.oc.rampLimit := by
  unfold holdOutput; try dsimp only
  (repeat' split) <;> simp
@[simp] theorem holdOutput_cq (s : State) : (holdOutput s).cq = s.cq := by
  unfold holdOutput; try dsimp only
  (repeat' split) <;> simp
@[simp] theorem holdOutput_sk (s : State) : (holdOutput s).sk = s.sk := by
  unfold holdOutput; try dsimp only
  (repeat' split) <;> simp
@[simp] theorem holdOutput_hs (s : State) : (holdOutput s).hs = s.hs := by
  unfold holdOutput; try dsimp only
  (repeat' split) <;> simp
@[simp] theorem holdOutput_ns (s : State) : (holdOutput s).ns = s.ns := by
  unfold holdOutput; try dsimp only
  (repeat' split) <;> simp
@[simp] theorem holdOutput_pins (s : State) : (holdOutput s).pins = s.pins := by
  unfold holdOutput; try dsimp only
  (repeat' split) <;> simp
@[simp] theorem holdOutput_moment (s : State) : (holdOutput s).moment = s.moment := by
  unfold holdOutput; try dsimp only
  (repeat' split) <;> simp
@[simp] theorem holdOutput_pending (s : State) : (holdOutput s).pending = s.pending := by
  unfold holdOutput; try dsimp only
  (repeat' split) <;> simp

/-! #### discardCapture -/

@[simp] theorem discardCapture_tb (s : State) : (discardCapture s).tb = s.tb := rfl
@[simp] theorem discardCapture_sl_profiles (s : State) : (discardCapture s).sl.profiles = s.sl.profiles := rfl
@[simp] theorem discardCapture_sl_windows (s : State) : (discardCapture s).sl.windows = s.sl.windows := rfl
@[simp] theorem discardCapture_sl_nextId (s : State) : (discardCapture s).sl.nextId = s.sl.nextId := rfl
@[simp] theorem discardCapture_sl_notices (s : State) : (discardCapture s).sl.notices = s.sl.notices := rfl
@[simp] theorem discardCapture_sl_noticeNo (s : State) : (discardCapture s).sl.noticeNo = s.sl.noticeNo := rfl
@[simp] theorem discardCapture_sl_outright (s : State) : (discardCapture s).sl.outright = s.sl.outright := rfl
@[simp] theorem discardCapture_mu_cal (s : State) : (discardCapture s).mu.cal = s.mu.cal := rfl
@[simp] theorem discardCapture_mu_iAcc (s : State) : (discardCapture s).mu.iAcc = s.mu.iAcc := rfl
@[simp] theorem discardCapture_mu_vAcc (s : State) : (discardCapture s).mu.vAcc = s.mu.vAcc := rfl
@[simp] theorem discardCapture_cl_log (s : State) : (discardCapture s).cl.log = s.cl.log := rfl
@[simp] theorem discardCapture_cl_nextSeq (s : State) : (discardCapture s).cl.nextSeq = s.cl.nextSeq := rfl
@[simp] theorem discardCapture_rg (s : State) : (discardCapture s).rg = s.rg := rfl
@[simp] theorem discardCapture_oc (s : State) : (discardCapture s).oc = s.oc := rfl
@[simp] theorem discardCapture_cq (s : State) : (discardCapture s).cq = s.cq := rfl
@[simp] theorem discardCapture_sk (s : State) : (discardCapture s).sk = s.sk := rfl
@[simp] theorem discardCapture_hs (s : State) : (discardCapture s).hs = s.hs := rfl
@[simp] theorem discardCapture_lc (s : State) : (discardCapture s).lc = s.lc := rfl
@[simp] theorem discardCapture_ns (s : State) : (discardCapture s).ns = s.ns := rfl
@[simp] theorem discardCapture_pins (s : State) : (discardCapture s).pins = s.pins := rfl
@[simp] theorem discardCapture_moment (s : State) : (discardCapture s).moment = s.moment := rfl
@[simp] theorem discardCapture_pending (s : State) : (discardCapture s).pending = s.pending := rfl

/-! #### pushFrame -/

@[simp] theorem pushFrame_tb (k : FaultKind) (p : Option CapturePart) (s : State) : (pushFrame k p s).tb = s.tb := by
  unfold pushFrame; try dsimp only
  (repeat' split) <;> simp
@[simp] theorem pushFrame_sl_profiles (k : FaultKind) (p : Option CapturePart) (s : State) : (pushFrame k p s).sl.profiles = s.sl.profiles := by
  unfold pushFrame; try dsimp only
  (repeat' split) <;> simp
@[simp] theorem pushFrame_sl_windows (k : FaultKind) (p : Option CapturePart) (s : State) : (pushFrame k p s).sl.windows = s.sl.windows := by
  unfold pushFrame; try dsimp only
  (repeat' split) <;> simp
@[simp] theorem pushFrame_sl_nextId (k : FaultKind) (p : Option CapturePart) (s : State) : (pushFrame k p s).sl.nextId = s.sl.nextId := by
  unfold pushFrame; try dsimp only
  (repeat' split) <;> simp
@[simp] theorem pushFrame_sl_notices (k : FaultKind) (p : Option CapturePart) (s : State) : (pushFrame k p s).sl.notices = s.sl.notices := by
  unfold pushFrame; try dsimp only
  (repeat' split) <;> simp
@[simp] theorem pushFrame_sl_noticeNo (k : FaultKind) (p : Option CapturePart) (s : State) : (pushFrame k p s).sl.noticeNo = s.sl.noticeNo := by
  unfold pushFrame; try dsimp only
  (repeat' split) <;> simp
@[simp] theorem pushFrame_sl_outright (k : FaultKind) (p : Option CapturePart) (s : State) : (pushFrame k p s).sl.outright = s.sl.outright := by
  unfold pushFrame; try dsimp only
  (repeat' split) <;> simp
@[simp] theorem pushFrame_mu_cal (k : FaultKind) (p : Option CapturePart) (s : State) : (pushFrame k p s).mu.cal = s.mu.cal := by
  unfold pushFrame; try dsimp only
  (repeat' split) <;> simp
@[simp] theorem pushFrame_mu_iAcc (k : FaultKind) (p : Option CapturePart) (s : State) : (pushFrame k p s).mu.iAcc = s.mu.iAcc := by
  unfold pushFrame; try dsimp only
  (repeat' split) <;> simp
@[simp] theorem pushFrame_mu_vAcc (k : FaultKind) (p : Option CapturePart) (s : State) : (pushFrame k p s).mu.vAcc = s.mu.vAcc := by
  unfold pushFrame; try dsimp only
  (repeat' split) <;> simp
@[simp] theorem pushFrame_cl_log (k : FaultKind) (p : Option CapturePart) (s : State) : (pushFrame k p s).cl.log = s.cl.log := by
  unfold pushFrame; try dsimp only
  (repeat' split) <;> simp
@[simp] theorem pushFrame_cl_nextSeq (k : FaultKind) (p : Option CapturePart) (s : State) : (pushFrame k p s).cl.nextSeq = s.cl.nextSeq := by
  unfold pushFrame; try dsimp only
  (repeat' split) <;> simp
@[simp] theorem pushFrame_rg_set (k : FaultKind) (p : Option CapturePart) (s : State) : (pushFrame k p s).rg.set = s.rg.set := by
  unfold pushFrame; try dsimp only
  (repeat' split) <;> simp
@[simp] theorem pushFrame_oc_autoRestart (k : FaultKind) (p : Option CapturePart) (s : State) : (pushFrame k p s).oc.autoRestart = s.oc.autoRestart := by
  unfold pushFrame; try dsimp only
  (repeat' split) <;> simp
@[simp] theorem pushFrame_oc_rampLimit (k : FaultKind) (p : Option CapturePart) (s : State) : (pushFrame k p s).oc.rampLimit = s.oc.rampLimit := by
  unfold pushFrame; try dsimp only
  (repeat' split) <;> simp
@[simp] theorem pushFrame_hs (k : FaultKind) (p : Option CapturePart) (s : State) : (pushFrame k p s).hs = s.hs := by
  unfold pushFrame; try dsimp only
  (repeat' split) <;> simp
@[simp] theorem pushFrame_ns (k : FaultKind) (p : Option CapturePart) (s : State) : (pushFrame k p s).ns = s.ns := by
  unfold pushFrame; try dsimp only
  (repeat' split) <;> simp
@[simp] theorem pushFrame_pins (k : FaultKind) (p : Option CapturePart) (s : State) : (pushFrame k p s).pins = s.pins := by
  unfold pushFrame; try dsimp only
  (repeat' split) <;> simp
@[simp] theorem pushFrame_moment (k : FaultKind) (p : Option CapturePart) (s : State) : (pushFrame k p s).moment = s.moment := by
  unfold pushFrame; try dsimp only
  (repeat' split) <;> simp
@[simp] theorem pushFrame_pending (k : FaultKind) (p : Option CapturePart) (s : State) : (pushFrame k p s).pending = s.pending := by
  unfold pushFrame; try dsimp only
  (repeat' split) <;> simp

/-! #### takeFault -/

@[simp] theorem takeFault_tb (k : FaultKind) (p : Option CapturePart) (s : State) : (takeFault k p s).tb = s.tb := by
  unfold takeFault; try dsimp only
  (repeat' split) <;> simp
@[simp] theorem takeFault_sl_profiles (k : FaultKind) (p : Option CapturePart) (s : State) : (takeFault k p s).sl.profiles = s.sl.profiles := by
  unfold takeFault; try dsimp only
  (repeat' split) <;> simp
@[simp] theorem takeFault_sl_windows (k : FaultKind) (p : Option CapturePart) (s : State) : (takeFault k p s).sl.windows = s.sl.windows := by
  unfold takeFault; try dsimp only
  (repeat' split) <;> simp
@[simp] theorem takeFault_sl_nextId (k : FaultKind) (p : Option CapturePart) (s : State) : (takeFault k p s).sl.nextId = s.sl.nextId := by
  unfold takeFault; try dsimp only
  (repeat' split) <;> simp
@[simp] theorem takeFault_sl_notices (k : FaultKind) (p : Option CapturePart) (s : State) : (takeFault k p s).sl.notices = s.sl.notices := by
  unfold takeFault; try dsimp only
  (repeat' split) <;> simp
@[simp] theorem takeFault_sl_noticeNo (k : FaultKind) (p : Option CapturePart) (s : State) : (takeFault k p s).sl.noticeNo = s.sl.noticeNo := by
  unfold takeFault; try dsimp only
  (repeat' split) <;> simp
@[simp] theorem takeFault_sl_outright (k : FaultKind) (p : Option CapturePart) (s : State) : (takeFault k p s).sl.outright = s.sl.outright := by
  unfold takeFault; try dsimp only
  (repeat' split) <;> simp
@[simp] theorem takeFault_mu_cal (k : FaultKind) (p : Option CapturePart) (s : State) : (takeFault k p s).mu.cal = s.mu.cal := by
  unfold takeFault; try dsimp only
  (repeat' split) <;> simp
@[simp] theorem takeFault_mu_iAcc (k : FaultKind) (p : Option CapturePart) (s : State) : (takeFault k p s).mu.iAcc = s.mu.iAcc := by
  unfold takeFault; try dsimp only
  (repeat' split) <;> simp
@[simp] theorem takeFault_mu_vAcc (k : FaultKind) (p : Option CapturePart) (s : State) : (takeFault k p s).mu.vAcc = s.mu.vAcc := by
  unfold takeFault; try dsimp only
  (repeat' split) <;> simp
@[simp] theorem takeFault_cl_log (k : FaultKind) (p : Option CapturePart) (s : State) : (takeFault k p s).cl.log = s.cl.log := by
  unfold takeFault; try dsimp only
  (repeat' split) <;> simp
@[simp] theorem takeFault_cl_nextSeq (k : FaultKind) (p : Option CapturePart) (s : State) : (takeFault k p s).cl.nextSeq = s.cl.nextSeq := by
  unfold takeFault; try dsimp only
  (repeat' split) <;> simp
@[simp] theorem takeFault_rg_set (k : FaultKind) (p : Option CapturePart) (s : State) : (takeFault k p s).rg.set = s.rg.set := by
  unfold takeFault; try dsimp only
  (repeat' split) <;> simp
@[simp] theorem takeFault_oc_autoRestart (k : FaultKind) (p : Option CapturePart) (s : State) : (takeFault k p s).oc.autoRestart = s.oc.autoRestart := by
  unfold takeFault; try dsimp only
  (repeat' split) <;> simp
@[simp] theorem takeFault_oc_rampLimit (k : FaultKind) (p : Option CapturePart) (s : State) : (takeFault k p s).oc.rampLimit = s.oc.rampLimit := by
  unfold takeFault; try dsimp only
  (repeat' split) <;> simp
@[simp] theorem takeFault_hs (k : FaultKind) (p : Option CapturePart) (s : State) : (takeFault k p s).hs = s.hs := by
  unfold takeFault; try dsimp only
  (repeat' split) <;> simp
@[simp] theorem takeFault_ns (k : FaultKind) (p : Option CapturePart) (s : State) : (takeFault k p s).ns = s.ns := by
  unfold takeFault; try dsimp only
  (repeat' split) <;> simp
@[simp] theorem takeFault_pins (k : FaultKind) (p : Option CapturePart) (s : State) : (takeFault k p s).pins = s.pins := by
  unfold takeFault; try dsimp only
  (repeat' split) <;> simp
@[simp] theorem takeFault_moment (k : FaultKind) (p : Option CapturePart) (s : State) : (takeFault k p s).moment = s.moment := by
  unfold takeFault; try dsimp only
  (repeat' split) <;> simp
@[simp] theorem takeFault_pending (k : FaultKind) (p : Option CapturePart) (s : State) : (takeFault k p s).pending = s.pending := by
  unfold takeFault; try dsimp only
  (repeat' split) <;> simp

/-! #### stageCheck -/

@[simp] theorem stageCheck_tb (s : State) : (stageCheck s).tb = s.tb := by
  unfold stageCheck; try dsimp only
  (repeat' split) <;> simp
@[simp] theorem stageCheck_sl_profiles (s : State) : (stageCheck s).sl.profiles = s.sl.profiles := by
  unfold stageCheck; try dsimp only
  (repeat' split) <;> simp
@[simp] theorem stageCheck_sl_windows (s : State) : (stageCheck s).sl.windows = s.sl.windows := by
  unfold stageCheck; try dsimp only
  (repeat' split) <;> simp
@[simp] theorem stageCheck_sl_nextId (s : State) : (stageCheck s).sl.nextId = s.sl.nextId := by
  unfold stageCheck; try dsimp only
  (repeat' split) <;> simp
@[simp] theorem stageCheck_sl_notices (s : State) : (stageCheck s).sl.notices = s.sl.notices := by
  unfold stageCheck; try dsimp only
  (repeat' split) <;> simp
@[simp] theorem stageCheck_sl_noticeNo (s : State) : (stageCheck s).sl.noticeNo = s.sl.noticeNo := by
  unfold stageCheck; try dsimp only
  (repeat' split) <;> simp
@[simp] theorem stageCheck_sl_outright (s : State) : (stageCheck s).sl.outright = s.sl.outright := by
  unfold stageCheck; try dsimp only
  (repeat' split) <;> simp
@[simp] theorem stageCheck_mu_cal (s : State) : (stageCheck s).mu.cal = s.mu.cal := by
  unfold stageCheck; try dsimp only
  (repeat' split) <;> simp
@[simp] theorem stageCheck_mu_iAcc (s : State) : (stageCheck s).mu.iAcc = s.mu.iAcc := by
  unfold stageCheck; try dsimp only
  (repeat' split) <;> simp
@[simp] theorem stageCheck_mu_vAcc (s : State) : (stageCheck s).mu.vAcc = s.mu.vAcc := by
  unfold stageCheck; try dsimp only
  (repeat' split) <;> simp
@[simp] theorem stageCheck_cl_log (s : State) : (stageCheck s).cl.log = s.cl.log := by
  unfold stageCheck; try dsimp only
  (repeat' split) <;> simp
@[simp] theorem stageCheck_cl_nextSeq (s : State) : (stageCheck s).cl.nextSeq = s.cl.nextSeq := by
  unfold stageCheck; try dsimp only
  (repeat' split) <;> simp
@[simp] theorem stageCheck_rg_set (s : State) : (stageCheck s).rg.set = s.rg.set := by
  unfold stageCheck; try dsimp only
  (repeat' split) <;> simp
@[simp] theorem stageCheck_oc_autoRestart (s : State) : (stageCheck s).oc.autoRestart = s.oc.autoRestart := by
  unfold stageCheck; try dsimp only
  (repeat' split) <;> simp
@[simp] theorem stageCheck_oc_rampLimit (s : State) : (stageCheck s).oc.rampLimit = s.oc.rampLimit := by
  unfold stageCheck; try dsimp only
  (repeat' split) <;> simp
@[simp] theorem stageCheck_hs (s : State) : (stageCheck s).hs = s.hs := by
  unfold stageCheck; try dsimp only
  (repeat' split) <;> simp
@[simp] theorem stageCheck_ns (s : State) : (stageCheck s).ns = s.ns := by
  unfold stageCheck; try dsimp only
  (repeat' split) <;> simp
@[simp] theorem stageCheck_pins (s : State) : (stageCheck s).pins = s.pins := by
  unfold stageCheck; try dsimp only
  (repeat' split) <;> simp
@[simp] theorem stageCheck_moment (s : State) : (stageCheck s).moment = s.moment := by
  unfold stageCheck; try dsimp only
  (repeat' split) <;> simp
@[simp] theorem stageCheck_pending (s : State) : (stageCheck s).pending = s.pending := by
  unfold stageCheck; try dsimp only
  (repeat' split) <;> simp

/-! #### declareMains -/

@[simp] theorem declareMains_tb (m : Mains) (s : State) : (declareMains m s).tb = s.tb := by
  unfold declareMains; try dsimp only
  (repeat' split) <;> simp
@[simp] theorem declareMains_sl_profiles (m : Mains) (s : State) : (declareMains m s).sl.profiles = s.sl.profiles := by
  unfold declareMains; try dsimp only
  (repeat' split) <;> simp
@[simp] theorem declareMains_sl_windows (m : Mains) (s : State) : (declareMains m s).sl.windows = s.sl.windows := by
  unfold declareMains; try dsimp only
  (repeat' split) <;> simp
@[simp] theorem declareMains_sl_nextId (m : Mains) (s : State) : (declareMains m s).sl.nextId = s.sl.nextId := by
  unfold declareMains; try dsimp only
  (repeat' split) <;> simp
@[simp] theorem declareMains_sl_notices (m : Mains) (s : State) : (declareMains m s).sl.notices = s.sl.notices := by
  unfold declareMains; try dsimp only
  (repeat' split) <;> simp
@[simp] theorem declareMains_sl_noticeNo (m : Mains) (s : State) : (declareMains m s).sl.noticeNo = s.sl.noticeNo := by
  unfold declareMains; try dsimp only
  (repeat' split) <;> simp
@[simp] theorem declareMains_sl_capture (m : Mains) (s : State) : (declareMains m s).sl.capture = s.sl.capture := by
  unfold declareMains; try dsimp only
  (repeat' split) <;> simp
@[simp] theorem declareMains_sl_outright (m : Mains) (s : State) : (declareMains m s).sl.outright = s.sl.outright := by
  unfold declareMains; try dsimp only
  (repeat' split) <;> simp
@[simp] theorem declareMains_mu_cal (m : Mains) (s : State) : (declareMains m s).mu.cal = s.mu.cal := by
  unfold declareMains; try dsimp only
  (repeat' split) <;> simp
@[simp] theorem declareMains_mu_iAcc (m : Mains) (s : State) : (declareMains m s).mu.iAcc = s.mu.iAcc := by
  unfold declareMains; try dsimp only
  (repeat' split) <;> simp
@[simp] theorem declareMains_mu_vAcc (m : Mains) (s : State) : (declareMains m s).mu.vAcc = s.mu.vAcc := by
  unfold declareMains; try dsimp only
  (repeat' split) <;> simp
@[simp] theorem declareMains_cl_log (m : Mains) (s : State) : (declareMains m s).cl.log = s.cl.log := by
  unfold declareMains; try dsimp only
  (repeat' split) <;> simp
@[simp] theorem declareMains_cl_nextSeq (m : Mains) (s : State) : (declareMains m s).cl.nextSeq = s.cl.nextSeq := by
  unfold declareMains; try dsimp only
  (repeat' split) <;> simp
@[simp] theorem declareMains_rg_set (m : Mains) (s : State) : (declareMains m s).rg.set = s.rg.set := by
  unfold declareMains; try dsimp only
  (repeat' split) <;> simp
@[simp] theorem declareMains_oc_autoRestart (m : Mains) (s : State) : (declareMains m s).oc.autoRestart = s.oc.autoRestart := by
  unfold declareMains; try dsimp only
  (repeat' split) <;> simp
@[simp] theorem declareMains_cq (m : Mains) (s : State) : (declareMains m s).cq = s.cq := by
  unfold declareMains; try dsimp only
  (repeat' split) <;> simp
@[simp] theorem declareMains_sk (m : Mains) (s : State) : (declareMains m s).sk = s.sk := by
  unfold declareMains; try dsimp only
  (repeat' split) <;> simp
@[simp] theorem declareMains_ns (m : Mains) (s : State) : (declareMains m s).ns = s.ns := by
  unfold declareMains; try dsimp only
  (repeat' split) <;> simp
@[simp] theorem declareMains_pins (m : Mains) (s : State) : (declareMains m s).pins = s.pins := by
  unfold declareMains; try dsimp only
  (repeat' split) <;> simp
@[simp] theorem declareMains_moment (m : Mains) (s : State) : (declareMains m s).moment = s.moment := by
  unfold declareMains; try dsimp only
  (repeat' split) <;> simp
@[simp] theorem declareMains_pending (m : Mains) (s : State) : (declareMains m s).pending = s.pending := by
  unfold declareMains; try dsimp only
  (repeat' split) <;> simp

/-! #### addNotice -/

@[simp] theorem addNotice_tb (id : Nat) (o : NoticeOutcome) (s : State) : (addNotice id o s).tb = s.tb := rfl
@[simp] theorem addNotice_sl_profiles (id : Nat) (o : NoticeOutcome) (s : State) : (addNotice id o s).sl.profiles = s.sl.profiles := rfl
@[simp] theorem addNotice_sl_windows (id : Nat) (o : NoticeOutcome) (s : State) : (addNotice id o s).sl.windows = s.sl.windows := rfl
@[simp] theorem addNotice_sl_nextId (id : Nat) (o : NoticeOutcome) (s : State) : (addNotice id o s).sl.nextId = s.sl.nextId := rfl
@[simp] theorem addNotice_sl_capture (id : Nat) (o : NoticeOutcome) (s : State) : (addNotice id o s).sl.capture = s.sl.capture := rfl
@[simp] theorem addNotice_sl_outright (id : Nat) (o : NoticeOutcome) (s : State) : (addNotice id o s).sl.outright = s.sl.outright := rfl
@[simp] theorem addNotice_mu (id : Nat) (o : NoticeOutcome) (s : State) : (addNotice id o s).mu = s.mu := rfl
@[simp] theorem addNotice_cl (id : Nat) (o : NoticeOutcome) (s : State) : (addNotice id o s).cl = s.cl := rfl
@[simp] theorem addNotice_rg (id : Nat) (o : NoticeOutcome) (s : State) : (addNotice id o s).rg = s.rg := rfl
@[simp] theorem addNotice_oc (id : Nat) (o : NoticeOutcome) (s : State) : (addNotice id o s).oc = s.oc := rfl
@[simp] theorem addNotice_cq (id : Nat) (o : NoticeOutcome) (s : State) : (addNotice id o s).cq = s.cq := rfl
@[simp] theorem addNotice_sk (id : Nat) (o : NoticeOutcome) (s : State) : (addNotice id o s).sk = s.sk := rfl
@[simp] theorem addNotice_hs (id : Nat) (o : NoticeOutcome) (s : State) : (addNotice id o s).hs = s.hs := rfl
@[simp] theorem addNotice_ns (id : Nat) (o : NoticeOutcome) (s : State) : (addNotice id o s).ns = s.ns := rfl
@[simp] theorem addNotice_pins (id : Nat) (o : NoticeOutcome) (s : State) : (addNotice id o s).pins = s.pins := rfl
@[simp] theorem addNotice_moment (id : Nat) (o : NoticeOutcome) (s : State) : (addNotice id o s).moment = s.moment := rfl
@[simp] theorem addNotice_pending (id : Nat) (o : NoticeOutcome) (s : State) : (addNotice id o s).pending = s.pending := rfl

/-! #### State.setWindowStatus -/

@[simp] theorem State.setWindowStatus_tb (w : MWindow) (v : WStatus) (s : State) : (s.setWindowStatus w v).tb = s.tb := rfl
@[simp] theorem State.setWindowStatus_sl_profiles (w : MWindow) (v : WStatus) (s : State) : (s.setWindowStatus w v).sl.profiles = s.sl.profiles := rfl
@[simp] theorem State.setWindowStatus_sl_windows (w : MWindow) (v : WStatus) (s : State) : (s.setWindowStatus w v).sl.windows = s.sl.windows := rfl
@[simp] theorem State.setWindowStatus_sl_nextId (w : MWindow) (v : WStatus) (s : State) : (s.setWindowStatus w v).sl.nextId = s.sl.nextId := rfl
@[simp] theorem State.setWindowStatus_sl_notices (w : MWindow) (v : WStatus) (s : State) : (s.setWindowStatus w v).sl.notices = s.sl.notices := rfl
@[simp] theorem State.setWindowStatus_sl_noticeNo (w : MWindow) (v : WStatus) (s : State) : (s.setWindowStatus w v).sl.noticeNo = s.sl.noticeNo := rfl
@[simp] theorem State.setWindowStatus_sl_outright (w : MWindow) (v : WStatus) (s : State) : (s.setWindowStatus w v).sl.outright = s.sl.outright := rfl
@[simp] theorem State.setWindowStatus_mu (w : MWindow) (v : WStatus) (s : State) : (s.setWindowStatus w v).mu = s.mu := rfl
@[simp] theorem State.setWindowStatus_cl (w : MWindow) (v : WStatus) (s : State) : (s.setWindowStatus w v).cl = s.cl := rfl
@[simp] theorem State.setWindowStatus_rg (w : MWindow) (v : WStatus) (s : State) : (s.setWindowStatus w v).rg = s.rg := rfl
@[simp] theorem State.setWindowStatus_oc (w : MWindow) (v : WStatus) (s : State) : (s.setWindowStatus w v).oc = s.oc := rfl
@[simp] theorem State.setWindowStatus_cq (w : MWindow) (v : WStatus) (s : State) : (s.setWindowStatus w v).cq = s.cq := rfl
@[simp] theorem State.setWindowStatus_sk (w : MWindow) (v : WStatus) (s : State) : (s.setWindowStatus w v).sk = s.sk := rfl
@[simp] theorem State.setWindowStatus_hs (w : MWindow) (v : WStatus) (s : State) : (s.setWindowStatus w v).hs = s.hs := rfl
@[simp] theorem State.setWindowStatus_lc (w : MWindow) (v : WStatus) (s : State) : (s.setWindowStatus w v).lc = s.lc := rfl
@[simp] theorem State.setWindowStatus_ns (w : MWindow) (v : WStatus) (s : State) : (s.setWindowStatus w v).ns = s.ns := rfl
@[simp] theorem State.setWindowStatus_pins (w : MWindow) (v : WStatus) (s : State) : (s.setWindowStatus w v).pins = s.pins := rfl
@[simp] theorem State.setWindowStatus_moment (w : MWindow) (v : WStatus) (s : State) : (s.setWindowStatus w v).moment = s.moment := rfl
@[simp] theorem State.setWindowStatus_pending (w : MWindow) (v : WStatus) (s : State) : (s.setWindowStatus w v).pending = s.pending := rfl

/-! #### offerTo -/

@[simp] theorem offerTo_tb (w : MWindow) (code : Int) (s : State) : (offerTo w code s).tb = s.tb := by
  unfold offerTo; try dsimp only
  (repeat' split) <;> simp
@[simp] theorem offerTo_sl (w : MWindow) (code : Int) (s : State) : (offerTo w code s).sl = s.sl := by
  unfold offerTo; try dsimp only
  (repeat' split) <;> simp
@[simp] theorem offerTo_mu_cal (w : MWindow) (code : Int) (s : State) : (offerTo w code s).mu.cal = s.mu.cal := by
  unfold offerTo; try dsimp only
  (repeat' split) <;> simp
@[simp] theorem offerTo_mu_iAcc (w : MWindow) (code : Int) (s : State) : (offerTo w code s).mu.iAcc = s.mu.iAcc := by
  unfold offerTo; try dsimp only
  (repeat' split) <;> simp
@[simp] theorem offerTo_mu_vAcc (w : MWindow) (code : Int) (s : State) : (offerTo w code s).mu.vAcc = s.mu.vAcc := by
  unfold offerTo; try dsimp only
  (repeat' split) <;> simp
@[simp] theorem offerTo_cl (w : MWindow) (code : Int) (s : State) : (offerTo w code s).cl = s.cl := by
  unfold offerTo; try dsimp only
  (repeat' split) <;> simp
@[simp] theorem offerTo_rg (w : MWindow) (code : Int) (s : State) : (offerTo w code s).rg = s.rg := by
  unfold offerTo; try dsimp only
  (repeat' split) <;> simp
@[simp] theorem offerTo_oc (w : MWindow) (code : Int) (s : State) : (offerTo w code s).oc = s.oc := by
  unfold offerTo; try dsimp only
  (repeat' split) <;> simp
@[simp] theorem offerTo_cq (w : MWindow) (code : Int) (s : State) : (offerTo w code s).cq = s.cq := by
  unfold offerTo; try dsimp only
  (repeat' split) <;> simp
@[simp] theorem offerTo_sk (w : MWindow) (code : Int) (s : State) : (offerTo w code s).sk = s.sk := by
  unfold offerTo; try dsimp only
  (repeat' split) <;> simp
@[simp] theorem offerTo_hs (w : MWindow) (code : Int) (s : State) : (offerTo w code s).hs = s.hs := by
  unfold offerTo; try dsimp only
  (repeat' split) <;> simp
@[simp] theorem offerTo_lc (w : MWindow) (code : Int) (s : State) : (offerTo w code s).lc = s.lc := by
  unfold offerTo; try dsimp only
  (repeat' split) <;> simp
@[simp] theorem offerTo_ns (w : MWindow) (code : Int) (s : State) : (offerTo w code s).ns = s.ns := by
  unfold offerTo; try dsimp only
  (repeat' split) <;> simp
@[simp] theorem offerTo_pins (w : MWindow) (code : Int) (s : State) : (offerTo w code s).pins = s.pins := by
  unfold offerTo; try dsimp only
  (repeat' split) <;> simp
@[simp] theorem offerTo_moment (w : MWindow) (code : Int) (s : State) : (offerTo w code s).moment = s.moment := by
  unfold offerTo; try dsimp only
  (repeat' split) <;> simp
@[simp] theorem offerTo_pending (w : MWindow) (code : Int) (s : State) : (offerTo w code s).pending = s.pending := by
  unfold offerTo; try dsimp only
  (repeat' split) <;> simp

/-! #### offerCode -/

@[simp] theorem offerCode_tb (code : Int) (s : State) : (offerCode code s).tb = s.tb := by simp [offerCode]
@[simp] theorem offerCode_sl (code : Int) (s : State) : (offerCode code s).sl = s.sl := by simp [offerCode]
@[simp] theorem offerCode_mu_cal (code : Int) (s : State) : (offerCode code s).mu.cal = s.mu.cal := by simp [offerCode]
@[simp] theorem offerCode_mu_iAcc (code : Int) (s : State) : (offerCode code s).mu.iAcc = s.mu.iAcc := by simp [offerCode]
@[simp] theorem offerCode_mu_vAcc (code : Int) (s : State) : (offerCode code s).mu.vAcc = s.mu.vAcc := by simp [offerCode]
@[simp] theorem offerCode_cl (code : Int) (s : State) : (offerCode code s).cl = s.cl := by simp [offerCode]
@[simp] theorem offerCode_rg (code : Int) (s : State) : (offerCode code s).rg = s.rg := by simp [offerCode]
@[simp] theorem offerCode_oc (code : Int) (s : State) : (offerCode code s).oc = s.oc := by simp [offerCode]
@[simp] theorem offerCode_cq (code : Int) (s : State) : (offerCode code s).cq = s.cq := by simp [offerCode]
@[simp] theorem offerCode_sk (code : Int) (s : State) : (offerCode code s).sk = s.sk := by simp [offerCode]
@[simp] theorem offerCode_hs (code : Int) (s : State) : (offerCode code s).hs = s.hs := by simp [offerCode]
@[simp] theorem offerCode_lc (code : Int) (s : State) : (offerCode code s).lc = s.lc := by simp [offerCode]
@[simp] theorem offerCode_ns (code : Int) (s : State) : (offerCode code s).ns = s.ns := by simp [offerCode]
@[simp] theorem offerCode_pins (code : Int) (s : State) : (offerCode code s).pins = s.pins := by simp [offerCode]
@[simp] theorem offerCode_moment (code : Int) (s : State) : (offerCode code s).moment = s.moment := by simp [offerCode]
@[simp] theorem offerCode_pending (code : Int) (s : State) : (offerCode code s).pending = s.pending := by simp [offerCode]

/-! #### openWindow -/

@[simp] theorem openWindow_tb (w : MWindow) (s : State) : (openWindow w s).tb = s.tb := by
  unfold openWindow; try dsimp only
  (repeat' split) <;> simp
@[simp] theorem openWindow_sl_profiles (w : MWindow) (s : State) : (openWindow w s).sl.profiles = s.sl.profiles := by
  unfold openWindow; try dsimp only
  (repeat' split) <;> simp
@[simp] theorem openWindow_sl_windows (w : MWindow) (s : State) : (openWindow w s).sl.windows = s.sl.windows := by
  unfold openWindow; try dsimp only
  (repeat' split) <;> simp
@[simp] theorem openWindow_sl_nextId (w : MWindow) (s : State) : (openWindow w s).sl.nextId = s.sl.nextId := by
  unfold openWindow; try dsimp only
  (repeat' split) <;> simp
@[simp] theorem openWindow_sl_notices (w : MWindow) (s : State) : (openWindow w s).sl.notices = s.sl.notices := by
  unfold openWindow; try dsimp only
  (repeat' split) <;> simp
@[simp] theorem openWindow_sl_noticeNo (w : MWindow) (s : State) : (openWindow w s).sl.noticeNo = s.sl.noticeNo := by
  unfold openWindow; try dsimp only
  (repeat' split) <;> simp
@[simp] theorem openWindow_sl_outright (w : MWindow) (s : State) : (openWindow w s).sl.outright = s.sl.outright := by
  unfold openWindow; try dsimp only
  (repeat' split) <;> simp
@[simp] theorem openWindow_mu_cal (w : MWindow) (s : State) : (openWindow w s).mu.cal = s.mu.cal := by
  unfold openWindow; try dsimp only
  (repeat' split) <;> simp
@[simp] theorem openWindow_mu_iAcc (w : MWindow) (s : State) : (openWindow w s).mu.iAcc = s.mu.iAcc := by
  unfold openWindow; try dsimp only
  (repeat' split) <;> simp
@[simp] theorem openWindow_mu_vAcc (w : MWindow) (s : State) : (openWindow w s).mu.vAcc = s.mu.vAcc := by
  unfold openWindow; try dsimp only
  (repeat' split) <;> simp
@[simp] theorem openWindow_cl (w : MWindow) (s : State) : (openWindow w s).cl = s.cl := by
  unfold openWindow; try dsimp only
  (repeat' split) <;> simp
@[simp] theorem openWindow_rg (w : MWindow) (s : State) : (openWindow w s).rg = s.rg := by
  unfold openWindow; try dsimp only
  (repeat' split) <;> simp
@[simp] theorem openWindow_oc (w : MWindow) (s : State) : (openWindow w s).oc = s.oc := by
  unfold openWindow; try dsimp only
  (repeat' split) <;> simp
@[simp] theorem openWindow_cq (w : MWindow) (s : State) : (openWindow w s).cq = s.cq := by
  unfold openWindow; try dsimp only
  (repeat' split) <;> simp
@[simp] theorem openWindow_sk (w : MWindow) (s : State) : (openWindow w s).sk = s.sk := by
  unfold openWindow; try dsimp only
  (repeat' split) <;> simp
@[simp] theorem openWindow_hs (w : MWindow) (s : State) : (openWindow w s).hs = s.hs := by
  unfold openWindow; try dsimp only
  (repeat' split) <;> simp
@[simp] theorem openWindow_lc (w : MWindow) (s : State) : (openWindow w s).lc = s.lc := by
  unfold openWindow; try dsimp only
  (repeat' split) <;> simp
@[simp] theorem openWindow_ns (w : MWindow) (s : State) : (openWindow w s).ns = s.ns := by
  unfold openWindow; try dsimp only
  (repeat' split) <;> simp
@[simp] theorem openWindow_pins (w : MWindow) (s : State) : (openWindow w s).pins = s.pins := by
  unfold openWindow; try dsimp only
  (repeat' split) <;> simp
@[simp] theorem openWindow_moment (w : MWindow) (s : State) : (openWindow w s).moment = s.moment := by
  unfold openWindow; try dsimp only
  (repeat' split) <;> simp
@[simp] theorem openWindow_pending (w : MWindow) (s : State) : (openWindow w s).pending = s.pending := by
  unfold openWindow; try dsimp only
  (repeat' split) <;> simp

/-! #### closeWindow -/

@[simp] theorem closeWindow_tb (w : MWindow) (s : State) : (closeWindow w s).tb = s.tb := by
  unfold closeWindow; try dsimp only
  (repeat' split) <;> simp
@[simp] theorem closeWindow_sl_profiles (w : MWindow) (s : State) : (closeWindow w s).sl.profiles = s.sl.profiles := by
  unfold closeWindow; try dsimp only
  (repeat' split) <;> simp
@[simp] theorem closeWindow_sl_windows (w : MWindow) (s : State) : (closeWindow w s).sl.windows = s.sl.windows := by
  unfold closeWindow; try dsimp only
  (repeat' split) <;> simp
@[simp] theorem closeWindow_sl_nextId (w : MWindow) (s : State) : (closeWindow w s).sl.nextId = s.sl.nextId := by
  unfold closeWindow; try dsimp only
  (repeat' split) <;> simp
@[simp] theorem closeWindow_sl_notices (w : MWindow) (s : State) : (closeWindow w s).sl.notices = s.sl.notices := by
  unfold closeWindow; try dsimp only
  (repeat' split) <;> simp
@[simp] theorem closeWindow_sl_noticeNo (w : MWindow) (s : State) : (closeWindow w s).sl.noticeNo = s.sl.noticeNo := by
  unfold closeWindow; try dsimp only
  (repeat' split) <;> simp
@[simp] theorem closeWindow_sl_outright (w : MWindow) (s : State) : (closeWindow w s).sl.outright = s.sl.outright := by
  unfold closeWindow; try dsimp only
  (repeat' split) <;> simp
@[simp] theorem closeWindow_mu_cal (w : MWindow) (s : State) : (closeWindow w s).mu.cal = s.mu.cal := by
  unfold closeWindow; try dsimp only
  (repeat' split) <;> simp
@[simp] theorem closeWindow_mu_iAcc (w : MWindow) (s : State) : (closeWindow w s).mu.iAcc = s.mu.iAcc := by
  unfold closeWindow; try dsimp only
  (repeat' split) <;> simp
@[simp] theorem closeWindow_mu_vAcc (w : MWindow) (s : State) : (closeWindow w s).mu.vAcc = s.mu.vAcc := by
  unfold closeWindow; try dsimp only
  (repeat' split) <;> simp
@[simp] theorem closeWindow_cl (w : MWindow) (s : State) : (closeWindow w s).cl = s.cl := by
  unfold closeWindow; try dsimp only
  (repeat' split) <;> simp
@[simp] theorem closeWindow_rg (w : MWindow) (s : State) : (closeWindow w s).rg = s.rg := by
  unfold closeWindow; try dsimp only
  (repeat' split) <;> simp
@[simp] theorem closeWindow_oc (w : MWindow) (s : State) : (closeWindow w s).oc = s.oc := by
  unfold closeWindow; try dsimp only
  (repeat' split) <;> simp
@[simp] theorem closeWindow_cq (w : MWindow) (s : State) : (closeWindow w s).cq = s.cq := by
  unfold closeWindow; try dsimp only
  (repeat' split) <;> simp
@[simp] theorem closeWindow_sk (w : MWindow) (s : State) : (closeWindow w s).sk = s.sk := by
  unfold closeWindow; try dsimp only
  (repeat' split) <;> simp
@[simp] theorem closeWindow_hs (w : MWindow) (s : State) : (closeWindow w s).hs = s.hs := by
  unfold closeWindow; try dsimp only
  (repeat' split) <;> simp
@[simp] theorem closeWindow_lc (w : MWindow) (s : State) : (closeWindow w s).lc = s.lc := by
  unfold closeWindow; try dsimp only
  (repeat' split) <;> simp
@[simp] theorem closeWindow_ns (w : MWindow) (s : State) : (closeWindow w s).ns = s.ns := by
  unfold closeWindow; try dsimp only
  (repeat' split) <;> simp
@[simp] theorem closeWindow_pins (w : MWindow) (s : State) : (closeWindow w s).pins = s.pins := by
  unfold closeWindow; try dsimp only
  (repeat' split) <;> simp
@[simp] theorem closeWindow_moment (w : MWindow) (s : State) : (closeWindow w s).moment = s.moment := by
  unfold closeWindow; try dsimp only
  (repeat' split) <;> simp
@[simp] theorem closeWindow_pending (w : MWindow) (s : State) : (closeWindow w s).pending = s.pending := by
  unfold closeWindow; try dsimp only
  (repeat' split) <;> simp

/-! #### openCapture -/

@[simp] theorem openCapture_tb (e : Nat) (r : Bool) (s : State) : (openCapture e r s).tb = s.tb := by
  unfold openCapture; try dsimp only
  (repeat' split) <;> simp
@[simp] theorem openCapture_sl_profiles (e : Nat) (r : Bool) (s : State) : (openCapture e r s).sl.profiles = s.sl.profiles := by
  unfold openCapture; try dsimp only
  (repeat' split) <;> simp
@[simp] theorem openCapture_sl_windows (e : Nat) (r : Bool) (s : State) : (openCapture e r s).sl.windows = s.sl.windows := by
  unfold openCapture; try dsimp only
  (repeat' split) <;> simp
@[simp] theorem openCapture_sl_nextId (e : Nat) (r : Bool) (s : State) : (openCapture e r s).sl.nextId = s.sl.nextId := by
  unfold openCapture; try dsimp only
  (repeat' split) <;> simp
@[simp] theorem openCapture_sl_notices (e : Nat) (r : Bool) (s : State) : (openCapture e r s).sl.notices = s.sl.notices := by
  unfold openCapture; try dsimp only
  (repeat' split) <;> simp
@[simp] theorem openCapture_sl_noticeNo (e : Nat) (r : Bool) (s : State) : (openCapture e r s).sl.noticeNo = s.sl.noticeNo := by
  unfold openCapture; try dsimp only
  (repeat' split) <;> simp
@[simp] theorem openCapture_sl_outright (e : Nat) (r : Bool) (s : State) : (openCapture e r s).sl.outright = s.sl.outright := by
  unfold openCapture; try dsimp only
  (repeat' split) <;> simp
@[simp] theorem openCapture_mu_cal (e : Nat) (r : Bool) (s : State) : (openCapture e r s).mu.cal = s.mu.cal := by
  unfold openCapture; try dsimp only
  (repeat' split) <;> simp
@[simp] theorem openCapture_mu_iAcc (e : Nat) (r : Bool) (s : State) : (openCapture e r s).mu.iAcc = s.mu.iAcc := by
  unfold openCapture; try dsimp only
  (repeat' split) <;> simp
@[simp] theorem openCapture_mu_vAcc (e : Nat) (r : Bool) (s : State) : (openCapture e r s).mu.vAcc = s.mu.vAcc := by
  unfold openCapture; try dsimp only
  (repeat' split) <;> simp
@[simp] theorem openCapture_cl_log (e : Nat) (r : Bool) (s : State) : (openCapture e r s).cl.log = s.cl.log := by
  unfold openCapture; try dsimp only
  (repeat' split) <;> simp
@[simp] theorem openCapture_cl_nextSeq (e : Nat) (r : Bool) (s : State) : (openCapture e r s).cl.nextSeq = s.cl.nextSeq := by
  unfold openCapture; try dsimp only
  (repeat' split) <;> simp
@[simp] theorem openCapture_rg (e : Nat) (r : Bool) (s : State) : (openCapture e r s).rg = s.rg := by
  unfold openCapture; try dsimp only
  (repeat' split) <;> simp
@[simp] theorem openCapture_oc (e : Nat) (r : Bool) (s : State) : (openCapture e r s).oc = s.oc := by
  unfold openCapture; try dsimp only
  (repeat' split) <;> simp
@[simp] theorem openCapture_cq (e : Nat) (r : Bool) (s : State) : (openCapture e r s).cq = s.cq := by
  unfold openCapture; try dsimp only
  (repeat' split) <;> simp
@[simp] theorem openCapture_sk (e : Nat) (r : Bool) (s : State) : (openCapture e r s).sk = s.sk := by
  unfold openCapture; try dsimp only
  (repeat' split) <;> simp
@[simp] theorem openCapture_hs (e : Nat) (r : Bool) (s : State) : (openCapture e r s).hs = s.hs := by
  unfold openCapture; try dsimp only
  (repeat' split) <;> simp
@[simp] theorem openCapture_lc (e : Nat) (r : Bool) (s : State) : (openCapture e r s).lc = s.lc := by
  unfold openCapture; try dsimp only
  (repeat' split) <;> simp
@[simp] theorem openCapture_ns (e : Nat) (r : Bool) (s : State) : (openCapture e r s).ns = s.ns := by
  unfold openCapture; try dsimp only
  (repeat' split) <;> simp
@[simp] theorem openCapture_pins (e : Nat) (r : Bool) (s : State) : (openCapture e r s).pins = s.pins := by
  unfold openCapture; try dsimp only
  (repeat' split) <;> simp
@[simp] theorem openCapture_moment (e : Nat) (r : Bool) (s : State) : (openCapture e r s).moment = s.moment := by
  unfold openCapture; try dsimp only
  (repeat' split) <;> simp
@[simp] theorem openCapture_pending (e : Nat) (r : Bool) (s : State) : (openCapture e r s).pending = s.pending := by
  unfold openCapture; try dsimp only
  (repeat' split) <;> simp

/-! #### offEdgeNotice -/

@[simp] theorem offEdgeNotice_tb (s : State) : (offEdgeNotice s).tb = s.tb := rfl
@[simp] theorem offEdgeNotice_sl (s : State) : (offEdgeNotice s).sl = s.sl := rfl
@[simp] theorem offEdgeNotice_mu (s : State) : (offEdgeNotice s).mu = s.mu := rfl
@[simp] theorem offEdgeNotice_cl_log (s : State) : (offEdgeNotice s).cl.log = s.cl.log := rfl
@[simp] theorem offEdgeNotice_cl_nextSeq (s : State) : (offEdgeNotice s).cl.nextSeq = s.cl.nextSeq := rfl
@[simp] theorem offEdgeNotice_rg (s : State) : (offEdgeNotice s).rg = s.rg := rfl
@[simp] theorem offEdgeNotice_oc (s : State) : (offEdgeNotice s).oc = s.oc := rfl
@[simp] theorem offEdgeNotice_cq (s : State) : (offEdgeNotice s).cq = s.cq := rfl
@[simp] theorem offEdgeNotice_sk (s : State) : (offEdgeNotice s).sk = s.sk := rfl
@[simp] theorem offEdgeNotice_hs (s : State) : (offEdgeNotice s).hs = s.hs := rfl
@[simp] theorem offEdgeNotice_lc (s : State) : (offEdgeNotice s).lc = s.lc := rfl
@[simp] theorem offEdgeNotice_ns (s : State) : (offEdgeNotice s).ns = s.ns := rfl
@[simp] theorem offEdgeNotice_pins (s : State) : (offEdgeNotice s).pins = s.pins := rfl
@[simp] theorem offEdgeNotice_moment (s : State) : (offEdgeNotice s).moment = s.moment := rfl
@[simp] theorem offEdgeNotice_pending (s : State) : (offEdgeNotice s).pending = s.pending := rfl

/-! #### judgeRecord -/

@[simp] theorem judgeRecord_tb (r : CRecord) (s : State) : (judgeRecord r s).tb = s.tb := by
  unfold judgeRecord; try dsimp only
  (repeat' split) <;> simp
@[simp] theorem judgeRecord_sl_profiles (r : CRecord) (s : State) : (judgeRecord r s).sl.profiles = s.sl.profiles := by
  unfold judgeRecord; try dsimp only
  (repeat' split) <;> simp
@[simp] theorem judgeRecord_sl_windows (r : CRecord) (s : State) : (judgeRecord r s).sl.windows = s.sl.windows := by
  unfold judgeRecord; try dsimp only
  (repeat' split) <;> simp
@[simp] theorem judgeRecord_sl_nextId (r : CRecord) (s : State) : (judgeRecord r s).sl.nextId = s.sl.nextId := by
  unfold judgeRecord; try dsimp only
  (repeat' split) <;> simp
@[simp] theorem judgeRecord_sl_notices (r : CRecord) (s : State) : (judgeRecord r s).sl.notices = s.sl.notices := by
  unfold judgeRecord; try dsimp only
  (repeat' split) <;> simp
@[simp] theorem judgeRecord_sl_noticeNo (r : CRecord) (s : State) : (judgeRecord r s).sl.noticeNo = s.sl.noticeNo := by
  unfold judgeRecord; try dsimp only
  (repeat' split) <;> simp
@[simp] theorem judgeRecord_sl_outright (r : CRecord) (s : State) : (judgeRecord r s).sl.outright = s.sl.outright := by
  unfold judgeRecord; try dsimp only
  (repeat' split) <;> simp
@[simp] theorem judgeRecord_mu_cal (r : CRecord) (s : State) : (judgeRecord r s).mu.cal = s.mu.cal := by
  unfold judgeRecord; try dsimp only
  (repeat' split) <;> simp
@[simp] theorem judgeRecord_mu_iAcc (r : CRecord) (s : State) : (judgeRecord r s).mu.iAcc = s.mu.iAcc := by
  unfold judgeRecord; try dsimp only
  (repeat' split) <;> simp
@[simp] theorem judgeRecord_mu_vAcc (r : CRecord) (s : State) : (judgeRecord r s).mu.vAcc = s.mu.vAcc := by
  unfold judgeRecord; try dsimp only
  (repeat' split) <;> simp
@[simp] theorem judgeRecord_cl_log (r : CRecord) (s : State) : (judgeRecord r s).cl.log = s.cl.log := by
  unfold judgeRecord; try dsimp only
  (repeat' split) <;> simp
@[simp] theorem judgeRecord_cl_nextSeq (r : CRecord) (s : State) : (judgeRecord r s).cl.nextSeq = s.cl.nextSeq := by
  unfold judgeRecord; try dsimp only
  (repeat' split) <;> simp
@[simp] theorem judgeRecord_oc_autoRestart (r : CRecord) (s : State) : (judgeRecord r s).oc.autoRestart = s.oc.autoRestart := by
  unfold judgeRecord; try dsimp only
  (repeat' split) <;> simp
@[simp] theorem judgeRecord_oc_rampLimit (r : CRecord) (s : State) : (judgeRecord r s).oc.rampLimit = s.oc.rampLimit := by
  unfold judgeRecord; try dsimp only
  (repeat' split) <;> simp
@[simp] theorem judgeRecord_hs (r : CRecord) (s : State) : (judgeRecord r s).hs = s.hs := by
  unfold judgeRecord; try dsimp only
  (repeat' split) <;> simp
@[simp] theorem judgeRecord_ns (r : CRecord) (s : State) : (judgeRecord r s).ns = s.ns := by
  unfold judgeRecord; try dsimp only
  (repeat' split) <;> simp
@[simp] theorem judgeRecord_pins (r : CRecord) (s : State) : (judgeRecord r s).pins = s.pins := by
  unfold judgeRecord; try dsimp only
  (repeat' split) <;> simp
@[simp] theorem judgeRecord_moment (r : CRecord) (s : State) : (judgeRecord r s).moment = s.moment := by
  unfold judgeRecord; try dsimp only
  (repeat' split) <;> simp
@[simp] theorem judgeRecord_pending (r : CRecord) (s : State) : (judgeRecord r s).pending = s.pending := by
  unfold judgeRecord; try dsimp only
  (repeat' split) <;> simp

/-! #### completeCapture -/

@[simp] theorem completeCapture_tb (s : State) : (completeCapture s).tb = s.tb := by
  unfold completeCapture; try dsimp only
  (repeat' split) <;> simp
@[simp] theorem completeCapture_sl_profiles (s : State) : (completeCapture s).sl.profiles = s.sl.profiles := by
  unfold completeCapture; try dsimp only
  (repeat' split) <;> simp
@[simp] theorem completeCapture_sl_windows (s : State) : (completeCapture s).sl.windows = s.sl.windows := by
  unfold completeCapture; try dsimp only
  (repeat' split) <;> simp
@[simp] theorem completeCapture_sl_nextId (s : State) : (completeCapture s).sl.nextId = s.sl.nextId := by
  unfold completeCapture; try dsimp only
  (repeat' split) <;> simp
@[simp] theorem completeCapture_sl_notices (s : State) : (completeCapture s).sl.notices = s.sl.notices := by
  unfold completeCapture; try dsimp only
  (repeat' split) <;> simp
@[simp] theorem completeCapture_sl_noticeNo (s : State) : (completeCapture s).sl.noticeNo = s.sl.noticeNo := by
  unfold completeCapture; try dsimp only
  (repeat' split) <;> simp
@[simp] theorem completeCapture_sl_outright (s : State) : (completeCapture s).sl.outright = s.sl.outright := by
  unfold completeCapture; try dsimp only
  (repeat' split) <;> simp
@[simp] theorem completeCapture_mu_cal (s : State) : (completeCapture s).mu.cal = s.mu.cal := by
  unfold completeCapture; try dsimp only
  (repeat' split) <;> simp
@[simp] theorem completeCapture_mu_iAcc (s : State) : (completeCapture s).mu.iAcc = s.mu.iAcc := by
  unfold completeCapture; try dsimp only
  (repeat' split) <;> simp
@[simp] theorem completeCapture_mu_vAcc (s : State) : (completeCapture s).mu.vAcc = s.mu.vAcc := by
  unfold completeCapture; try dsimp only
  (repeat' split) <;> simp
@[simp] theorem completeCapture_oc_autoRestart (s : State) : (completeCapture s).oc.autoRestart = s.oc.autoRestart := by
  unfold completeCapture; try dsimp only
  (repeat' split) <;> simp
@[simp] theorem completeCapture_oc_rampLimit (s : State) : (completeCapture s).oc.rampLimit = s.oc.rampLimit := by
  unfold completeCapture; try dsimp only
  (repeat' split) <;> simp
@[simp] theorem completeCapture_hs (s : State) : (completeCapture s).hs = s.hs := by
  unfold completeCapture; try dsimp only
  (repeat' split) <;> simp
@[simp] theorem completeCapture_ns (s : State) : (completeCapture s).ns = s.ns := by
  unfold completeCapture; try dsimp only
  (repeat' split) <;> simp
@[simp] theorem completeCapture_pins (s : State) : (completeCapture s).pins = s.pins := by
  unfold completeCapture; try dsimp only
  (repeat' split) <;> simp
@[simp] theorem completeCapture_moment (s : State) : (completeCapture s).moment = s.moment := by
  unfold completeCapture; try dsimp only
  (repeat' split) <;> simp
@[simp] theorem completeCapture_pending (s : State) : (completeCapture s).pending = s.pending := by
  unfold completeCapture; try dsimp only
  (repeat' split) <;> simp

/-! #### cutShort -/

@[simp] theorem cutShort_tb (s : State) : (cutShort s).tb = s.tb := by
  unfold cutShort; try dsimp only
  (repeat' split) <;> simp
@[simp] theorem cutShort_sl_profiles (s : State) : (cutShort s).sl.profiles = s.sl.profiles := by
  unfold cutShort; try dsimp only
  (repeat' split) <;> simp
@[simp] theorem cutShort_sl_windows (s : State) : (cutShort s).sl.windows = s.sl.windows := by
  unfold cutShort; try dsimp only
  (repeat' split) <;> simp
@[simp] theorem cutShort_sl_nextId (s : State) : (cutShort s).sl.nextId = s.sl.nextId := by
  unfold cutShort; try dsimp only
  (repeat' split) <;> simp
@[simp] theorem cutShort_sl_notices (s : State) : (cutShort s).sl.notices = s.sl.notices := by
  unfold cutShort; try dsimp only
  (repeat' split) <;> simp
@[simp] theorem cutShort_sl_noticeNo (s : State) : (cutShort s).sl.noticeNo = s.sl.noticeNo := by
  unfold cutShort; try dsimp only
  (repeat' split) <;> simp
@[simp] theorem cutShort_sl_outright (s : State) : (cutShort s).sl.outright = s.sl.outright := by
  unfold cutShort; try dsimp only
  (repeat' split) <;> simp
@[simp] theorem cutShort_mu_cal (s : State) : (cutShort s).mu.cal = s.mu.cal := by
  unfold cutShort; try dsimp only
  (repeat' split) <;> simp
@[simp] theorem cutShort_mu_iAcc (s : State) : (cutShort s).mu.iAcc = s.mu.iAcc := by
  unfold cutShort; try dsimp only
  (repeat' split) <;> simp
@[simp] theorem cutShort_mu_vAcc (s : State) : (cutShort s).mu.vAcc = s.mu.vAcc := by
  unfold cutShort; try dsimp only
  (repeat' split) <;> simp
@[simp] theorem cutShort_oc_autoRestart (s : State) : (cutShort s).oc.autoRestart = s.oc.autoRestart := by
  unfold cutShort; try dsimp only
  (repeat' split) <;> simp
@[simp] theorem cutShort_oc_rampLimit (s : State) : (cutShort s).oc.rampLimit = s.oc.rampLimit := by
  unfold cutShort; try dsimp only
  (repeat' split) <;> simp
@[simp] theorem cutShort_hs (s : State) : (cutShort s).hs = s.hs := by
  unfold cutShort; try dsimp only
  (repeat' split) <;> simp
@[simp] theorem cutShort_ns (s : State) : (cutShort s).ns = s.ns := by
  unfold cutShort; try dsimp only
  (repeat' split) <;> simp
@[simp] theorem cutShort_pins (s : State) : (cutShort s).pins = s.pins := by
  unfold cutShort; try dsimp only
  (repeat' split) <;> simp
@[simp] theorem cutShort_moment (s : State) : (cutShort s).moment = s.moment := by
  unfold cutShort; try dsimp only
  (repeat' split) <;> simp
@[simp] theorem cutShort_pending (s : State) : (cutShort s).pending = s.pending := by
  unfold cutShort; try dsimp only
  (repeat' split) <;> simp

/-! #### startScan -/

@[simp] theorem startScan_tb (s : State) : (startScan s).tb = s.tb := rfl
@[simp] theorem startScan_sl (s : State) : (startScan s).sl = s.sl := rfl
@[simp] theorem startScan_mu (s : State) : (startScan s).mu = s.mu := rfl
@[simp] theorem startScan_cl (s : State) : (startScan s).cl = s.cl := rfl
@[simp] theorem startScan_rg (s : State) : (startScan s).rg = s.rg := rfl
@[simp] theorem startScan_oc (s : State) : (startScan s).oc = s.oc := rfl
@[simp] theorem startScan_cq (s : State) : (startScan s).cq = s.cq := rfl
@[simp] theorem startScan_sk (s : State) : (startScan s).sk = s.sk := rfl
@[simp] theorem startScan_lc (s : State) : (startScan s).lc = s.lc := rfl
@[simp] theorem startScan_ns (s : State) : (startScan s).ns = s.ns := rfl
@[simp] theorem startScan_pins (s : State) : (startScan s).pins = s.pins := rfl
@[simp] theorem startScan_moment (s : State) : (startScan s).moment = s.moment := rfl
@[simp] theorem startScan_pending (s : State) : (startScan s).pending = s.pending := rfl

/-! #### judgeChannel -/

@[simp] theorem judgeChannel_tb (i : Fin 8) (s : State) : (judgeChannel i s).tb = s.tb := by
  unfold judgeChannel; try dsimp only
  (repeat' split) <;> simp
@[simp] theorem judgeChannel_sl (i : Fin 8) (s : State) : (judgeChannel i s).sl = s.sl := by
  unfold judgeChannel; try dsimp only
  (repeat' split) <;> simp
@[simp] theorem judgeChannel_mu (i : Fin 8) (s : State) : (judgeChannel i s).mu = s.mu := by
  unfold judgeChannel; try dsimp only
  (repeat' split) <;> simp
@[simp] theorem judgeChannel_cl (i : Fin 8) (s : State) : (judgeChannel i s).cl = s.cl := by
  unfold judgeChannel; try dsimp only
  (repeat' split) <;> simp
@[simp] theorem judgeChannel_rg (i : Fin 8) (s : State) : (judgeChannel i s).rg = s.rg := by
  unfold judgeChannel; try dsimp only
  (repeat' split) <;> simp
@[simp] theorem judgeChannel_oc (i : Fin 8) (s : State) : (judgeChannel i s).oc = s.oc := by
  unfold judgeChannel; try dsimp only
  (repeat' split) <;> simp
@[simp] theorem judgeChannel_cq (i : Fin 8) (s : State) : (judgeChannel i s).cq = s.cq := by
  unfold judgeChannel; try dsimp only
  (repeat' split) <;> simp
@[simp] theorem judgeChannel_sk (i : Fin 8) (s : State) : (judgeChannel i s).sk = s.sk := by
  unfold judgeChannel; try dsimp only
  (repeat' split) <;> simp
@[simp] theorem judgeChannel_ns (i : Fin 8) (s : State) : (judgeChannel i s).ns = s.ns := by
  unfold judgeChannel; try dsimp only
  (repeat' split) <;> simp
@[simp] theorem judgeChannel_pins (i : Fin 8) (s : State) : (judgeChannel i s).pins = s.pins := by
  unfold judgeChannel; try dsimp only
  (repeat' split) <;> simp
@[simp] theorem judgeChannel_moment (i : Fin 8) (s : State) : (judgeChannel i s).moment = s.moment := by
  unfold judgeChannel; try dsimp only
  (repeat' split) <;> simp
@[simp] theorem judgeChannel_pending (i : Fin 8) (s : State) : (judgeChannel i s).pending = s.pending := by
  unfold judgeChannel; try dsimp only
  (repeat' split) <;> simp

/-! #### storeScan -/

@[simp] theorem storeScan_tb (s : State) : (storeScan s).tb = s.tb := rfl
@[simp] theorem storeScan_sl (s : State) : (storeScan s).sl = s.sl := rfl
@[simp] theorem storeScan_mu (s : State) : (storeScan s).mu = s.mu := rfl
@[simp] theorem storeScan_cl (s : State) : (storeScan s).cl = s.cl := rfl
@[simp] theorem storeScan_rg (s : State) : (storeScan s).rg = s.rg := rfl
@[simp] theorem storeScan_oc (s : State) : (storeScan s).oc = s.oc := rfl
@[simp] theorem storeScan_cq (s : State) : (storeScan s).cq = s.cq := rfl
@[simp] theorem storeScan_sk (s : State) : (storeScan s).sk = s.sk := rfl
@[simp] theorem storeScan_lc (s : State) : (storeScan s).lc = s.lc := rfl
@[simp] theorem storeScan_ns (s : State) : (storeScan s).ns = s.ns := rfl
@[simp] theorem storeScan_pins (s : State) : (storeScan s).pins = s.pins := rfl
@[simp] theorem storeScan_moment (s : State) : (storeScan s).moment = s.moment := rfl
@[simp] theorem storeScan_pending (s : State) : (storeScan s).pending = s.pending := rfl

/-! #### updateMains -/

@[simp] theorem updateMains_tb (v : Option Mains × Nat × Bool) (s : State) : (updateMains v s).tb = s.tb := by
  unfold updateMains; try dsimp only
  (repeat' split) <;> simp
@[simp] theorem updateMains_sl_profiles (v : Option Mains × Nat × Bool) (s : State) : (updateMains v s).sl.profiles = s.sl.profiles := by
  unfold updateMains; try dsimp only
  (repeat' split) <;> simp
@[simp] theorem updateMains_sl_windows (v : Option Mains × Nat × Bool) (s : State) : (updateMains v s).sl.windows = s.sl.windows := by
  unfold updateMains; try dsimp only
  (repeat' split) <;> simp
@[simp] theorem updateMains_sl_nextId (v : Option Mains × Nat × Bool) (s : State) : (updateMains v s).sl.nextId = s.sl.nextId := by
  unfold updateMains; try dsimp only
  (repeat' split) <;> simp
@[simp] theorem updateMains_sl_notices (v : Option Mains × Nat × Bool) (s : State) : (updateMains v s).sl.notices = s.sl.notices := by
  unfold updateMains; try dsimp only
  (repeat' split) <;> simp
@[simp] theorem updateMains_sl_noticeNo (v : Option Mains × Nat × Bool) (s : State) : (updateMains v s).sl.noticeNo = s.sl.noticeNo := by
  unfold updateMains; try dsimp only
  (repeat' split) <;> simp
@[simp] theorem updateMains_sl_capture (v : Option Mains × Nat × Bool) (s : State) : (updateMains v s).sl.capture = s.sl.capture := by
  unfold updateMains; try dsimp only
  (repeat' split) <;> simp
@[simp] theorem updateMains_sl_outright (v : Option Mains × Nat × Bool) (s : State) : (updateMains v s).sl.outright = s.sl.outright := by
  unfold updateMains; try dsimp only
  (repeat' split) <;> simp
@[simp] theorem updateMains_mu_cal (v : Option Mains × Nat × Bool) (s : State) : (updateMains v s).mu.cal = s.mu.cal := by
  unfold updateMains; try dsimp only
  (repeat' split) <;> simp
@[simp] theorem updateMains_mu_iAcc (v : Option Mains × Nat × Bool) (s : State) : (updateMains v s).mu.iAcc = s.mu.iAcc := by
  unfold updateMains; try dsimp only
  (repeat' split) <;> simp
@[simp] theorem updateMains_mu_vAcc (v : Option Mains × Nat × Bool) (s : State) : (updateMains v s).mu.vAcc = s.mu.vAcc := by
  unfold updateMains; try dsimp only
  (repeat' split) <;> simp
@[simp] theorem updateMains_cl_log (v : Option Mains × Nat × Bool) (s : State) : (updateMains v s).cl.log = s.cl.log := by
  unfold updateMains; try dsimp only
  (repeat' split) <;> simp
@[simp] theorem updateMains_cl_nextSeq (v : Option Mains × Nat × Bool) (s : State) : (updateMains v s).cl.nextSeq = s.cl.nextSeq := by
  unfold updateMains; try dsimp only
  (repeat' split) <;> simp
@[simp] theorem updateMains_rg_set (v : Option Mains × Nat × Bool) (s : State) : (updateMains v s).rg.set = s.rg.set := by
  unfold updateMains; try dsimp only
  (repeat' split) <;> simp
@[simp] theorem updateMains_oc_autoRestart (v : Option Mains × Nat × Bool) (s : State) : (updateMains v s).oc.autoRestart = s.oc.autoRestart := by
  unfold updateMains; try dsimp only
  (repeat' split) <;> simp
@[simp] theorem updateMains_cq (v : Option Mains × Nat × Bool) (s : State) : (updateMains v s).cq = s.cq := by
  unfold updateMains; try dsimp only
  (repeat' split) <;> simp
@[simp] theorem updateMains_sk (v : Option Mains × Nat × Bool) (s : State) : (updateMains v s).sk = s.sk := by
  unfold updateMains; try dsimp only
  (repeat' split) <;> simp
@[simp] theorem updateMains_ns (v : Option Mains × Nat × Bool) (s : State) : (updateMains v s).ns = s.ns := by
  unfold updateMains; try dsimp only
  (repeat' split) <;> simp
@[simp] theorem updateMains_pins (v : Option Mains × Nat × Bool) (s : State) : (updateMains v s).pins = s.pins := by
  unfold updateMains; try dsimp only
  (repeat' split) <;> simp
@[simp] theorem updateMains_moment (v : Option Mains × Nat × Bool) (s : State) : (updateMains v s).moment = s.moment := by
  unfold updateMains; try dsimp only
  (repeat' split) <;> simp
@[simp] theorem updateMains_pending (v : Option Mains × Nat × Bool) (s : State) : (updateMains v s).pending = s.pending := by
  unfold updateMains; try dsimp only
  (repeat' split) <;> simp

/-! #### endScan -/

@[simp] theorem endScan_tb (s : State) : (endScan s).tb = s.tb := by
  unfold endScan; dsimp only
  rw [foldl_keeps (fun t : State => t.tb) _ (fun t w => by simp)]; simp
@[simp] theorem endScan_sl_profiles (s : State) : (endScan s).sl.profiles = s.sl.profiles := by
  unfold endScan; dsimp only
  rw [foldl_keeps (fun t : State => t.sl.profiles) _ (fun t w => by simp)]; simp
@[simp] theorem endScan_sl_windows (s : State) : (endScan s).sl.windows = s.sl.windows := by
  unfold endScan; dsimp only
  rw [foldl_keeps (fun t : State => t.sl.windows) _ (fun t w => by simp)]; simp
@[simp] theorem endScan_sl_nextId (s : State) : (endScan s).sl.nextId = s.sl.nextId := by
  unfold endScan; dsimp only
  rw [foldl_keeps (fun t : State => t.sl.nextId) _ (fun t w => by simp)]; simp
@[simp] theorem endScan_sl_notices (s : State) : (endScan s).sl.notices = s.sl.notices := by
  unfold endScan; dsimp only
  rw [foldl_keeps (fun t : State => t.sl.notices) _ (fun t w => by simp)]; simp
@[simp] theorem endScan_sl_noticeNo (s : State) : (endScan s).sl.noticeNo = s.sl.noticeNo := by
  unfold endScan; dsimp only
  rw [foldl_keeps (fun t : State => t.sl.noticeNo) _ (fun t w => by simp)]; simp
@[simp] theorem endScan_sl_capture (s : State) : (endScan s).sl.capture = s.sl.capture := by
  unfold endScan; dsimp only
  rw [foldl_keeps (fun t : State => t.sl.capture) _ (fun t w => by simp)]; simp
@[simp] theorem endScan_sl_outright (s : State) : (endScan s).sl.outright = s.sl.outright := by
  unfold endScan; dsimp only
  rw [foldl_keeps (fun t : State => t.sl.outright) _ (fun t w => by simp)]; simp
@[simp] theorem endScan_mu_cal (s : State) : (endScan s).mu.cal = s.mu.cal := by
  unfold endScan; dsimp only
  rw [foldl_keeps (fun t : State => t.mu.cal) _ (fun t w => by simp)]; simp
@[simp] theorem endScan_mu_iAcc (s : State) : (endScan s).mu.iAcc = s.mu.iAcc := by
  unfold endScan; dsimp only
  rw [foldl_keeps (fun t : State => t.mu.iAcc) _ (fun t w => by simp)]; simp
@[simp] theorem endScan_mu_vAcc (s : State) : (endScan s).mu.vAcc = s.mu.vAcc := by
  unfold endScan; dsimp only
  rw [foldl_keeps (fun t : State => t.mu.vAcc) _ (fun t w => by simp)]; simp
@[simp] theorem endScan_cl_log (s : State) : (endScan s).cl.log = s.cl.log := by
  unfold endScan; dsimp only
  rw [foldl_keeps (fun t : State => t.cl.log) _ (fun t w => by simp)]; simp
@[simp] theorem endScan_cl_nextSeq (s : State) : (endScan s).cl.nextSeq = s.cl.nextSeq := by
  unfold endScan; dsimp only
  rw [foldl_keeps (fun t : State => t.cl.nextSeq) _ (fun t w => by simp)]; simp
@[simp] theorem endScan_rg_set (s : State) : (endScan s).rg.set = s.rg.set := by
  unfold endScan; dsimp only
  rw [foldl_keeps (fun t : State => t.rg.set) _ (fun t w => by simp)]; simp
@[simp] theorem endScan_oc_autoRestart (s : State) : (endScan s).oc.autoRestart = s.oc.autoRestart := by
  unfold endScan; dsimp only
  rw [foldl_keeps (fun t : State => t.oc.autoRestart) _ (fun t w => by simp)]; simp
@[simp] theorem endScan_cq (s : State) : (endScan s).cq = s.cq := by
  unfold endScan; dsimp only
  rw [foldl_keeps (fun t : State => t.cq) _ (fun t w => by simp)]; simp
@[simp] theorem endScan_sk (s : State) : (endScan s).sk = s.sk := by
  unfold endScan; dsimp only
  rw [foldl_keeps (fun t : State => t.sk) _ (fun t w => by simp)]; simp
@[simp] theorem endScan_ns (s : State) : (endScan s).ns = s.ns := by
  unfold endScan; dsimp only
  rw [foldl_keeps (fun t : State => t.ns) _ (fun t w => by simp)]; simp
@[simp] theorem endScan_pins (s : State) : (endScan s).pins = s.pins := by
  unfold endScan; dsimp only
  rw [foldl_keeps (fun t : State => t.pins) _ (fun t w => by simp)]; simp
@[simp] theorem endScan_moment (s : State) : (endScan s).moment = s.moment := by
  unfold endScan; dsimp only
  rw [foldl_keeps (fun t : State => t.moment) _ (fun t w => by simp)]; simp
@[simp] theorem endScan_pending (s : State) : (endScan s).pending = s.pending := by
  unfold endScan; dsimp only
  rw [foldl_keeps (fun t : State => t.pending) _ (fun t w => by simp)]; simp

/-! #### applyEntry -/

@[simp] theorem applyEntry_tb (e : QEntry) (s : State) : (applyEntry e s).tb = s.tb := by
  unfold applyEntry; try dsimp only
  (repeat' split) <;> simp
@[simp] theorem applyEntry_sl_windows (e : QEntry) (s : State) : (applyEntry e s).sl.windows = s.sl.windows := by
  unfold applyEntry; try dsimp only
  (repeat' split) <;> simp
@[simp] theorem applyEntry_sl_nextId (e : QEntry) (s : State) : (applyEntry e s).sl.nextId = s.sl.nextId := by
  unfold applyEntry; try dsimp only
  (repeat' split) <;> simp
@[simp] theorem applyEntry_sl_notices (e : QEntry) (s : State) : (applyEntry e s).sl.notices = s.sl.notices := by
  unfold applyEntry; try dsimp only
  (repeat' split) <;> simp
@[simp] theorem applyEntry_sl_noticeNo (e : QEntry) (s : State) : (applyEntry e s).sl.noticeNo = s.sl.noticeNo := by
  unfold applyEntry; try dsimp only
  (repeat' split) <;> simp
@[simp] theorem applyEntry_sl_capture (e : QEntry) (s : State) : (applyEntry e s).sl.capture = s.sl.capture := by
  unfold applyEntry; try dsimp only
  (repeat' split) <;> simp
@[simp] theorem applyEntry_sl_outright (e : QEntry) (s : State) : (applyEntry e s).sl.outright = s.sl.outright := by
  unfold applyEntry; try dsimp only
  (repeat' split) <;> simp
@[simp] theorem applyEntry_mu (e : QEntry) (s : State) : (applyEntry e s).mu = s.mu := by
  unfold applyEntry; try dsimp only
  (repeat' split) <;> simp
@[simp] theorem applyEntry_cl (e : QEntry) (s : State) : (applyEntry e s).cl = s.cl := by
  unfold applyEntry; try dsimp only
  (repeat' split) <;> simp
@[simp] theorem applyEntry_oc (e : QEntry) (s : State) : (applyEntry e s).oc = s.oc := by
  unfold applyEntry; try dsimp only
  (repeat' split) <;> simp
@[simp] theorem applyEntry_cq (e : QEntry) (s : State) : (applyEntry e s).cq = s.cq := by
  unfold applyEntry; try dsimp only
  (repeat' split) <;> simp
@[simp] theorem applyEntry_sk (e : QEntry) (s : State) : (applyEntry e s).sk = s.sk := by
  unfold applyEntry; try dsimp only
  (repeat' split) <;> simp
@[simp] theorem applyEntry_hs (e : QEntry) (s : State) : (applyEntry e s).hs = s.hs := by
  unfold applyEntry; try dsimp only
  (repeat' split) <;> simp
@[simp] theorem applyEntry_lc (e : QEntry) (s : State) : (applyEntry e s).lc = s.lc := by
  unfold applyEntry; try dsimp only
  (repeat' split) <;> simp
@[simp] theorem applyEntry_ns (e : QEntry) (s : State) : (applyEntry e s).ns = s.ns := by
  unfold applyEntry; try dsimp only
  (repeat' split) <;> simp
@[simp] theorem applyEntry_pins (e : QEntry) (s : State) : (applyEntry e s).pins = s.pins := by
  unfold applyEntry; try dsimp only
  (repeat' split) <;> simp
@[simp] theorem applyEntry_moment (e : QEntry) (s : State) : (applyEntry e s).moment = s.moment := by
  unfold applyEntry; try dsimp only
  (repeat' split) <;> simp
@[simp] theorem applyEntry_pending (e : QEntry) (s : State) : (applyEntry e s).pending = s.pending := by
  unfold applyEntry; try dsimp only
  (repeat' split) <;> simp

/-! #### takeAverages -/

@[simp] theorem takeAverages_tb (fz : Bool) (s : State) : (takeAverages fz s).tb = s.tb := by
  unfold takeAverages; try dsimp only
  (repeat' split) <;> simp
@[simp] theorem takeAverages_sl (fz : Bool) (s : State) : (takeAverages fz s).sl = s.sl := by
  unfold takeAverages; try dsimp only
  (repeat' split) <;> simp
@[simp] theorem takeAverages_rg_set (fz : Bool) (s : State) : (takeAverages fz s).rg.set = s.rg.set := by
  unfold takeAverages; try dsimp only
  (repeat' split) <;> simp
@[simp] theorem takeAverages_oc (fz : Bool) (s : State) : (takeAverages fz s).oc = s.oc := by
  unfold takeAverages; try dsimp only
  (repeat' split) <;> simp
@[simp] theorem takeAverages_cq (fz : Bool) (s : State) : (takeAverages fz s).cq = s.cq := by
  unfold takeAverages; try dsimp only
  (repeat' split) <;> simp
@[simp] theorem takeAverages_sk (fz : Bool) (s : State) : (takeAverages fz s).sk = s.sk := by
  unfold takeAverages; try dsimp only
  (repeat' split) <;> simp
@[simp] theorem takeAverages_hs (fz : Bool) (s : State) : (takeAverages fz s).hs = s.hs := by
  unfold takeAverages; try dsimp only
  (repeat' split) <;> simp
@[simp] theorem takeAverages_lc (fz : Bool) (s : State) : (takeAverages fz s).lc = s.lc := by
  unfold takeAverages; try dsimp only
  (repeat' split) <;> simp
@[simp] theorem takeAverages_ns (fz : Bool) (s : State) : (takeAverages fz s).ns = s.ns := by
  unfold takeAverages; try dsimp only
  (repeat' split) <;> simp
@[simp] theorem takeAverages_pins (fz : Bool) (s : State) : (takeAverages fz s).pins = s.pins := by
  unfold takeAverages; try dsimp only
  (repeat' split) <;> simp
@[simp] theorem takeAverages_pending (fz : Bool) (s : State) : (takeAverages fz s).pending = s.pending := by
  unfold takeAverages; try dsimp only
  (repeat' split) <;> simp

/-! #### rampRise -/

@[simp] theorem rampRise_tb (fz : Bool) (s : State) : (rampRise fz s).tb = s.tb := by
  unfold rampRise; try dsimp only
  (repeat' split) <;> simp
@[simp] theorem rampRise_sl_profiles (fz : Bool) (s : State) : (rampRise fz s).sl.profiles = s.sl.profiles := by
  unfold rampRise; try dsimp only
  (repeat' split) <;> simp
@[simp] theorem rampRise_sl_windows (fz : Bool) (s : State) : (rampRise fz s).sl.windows = s.sl.windows := by
  unfold rampRise; try dsimp only
  (repeat' split) <;> simp
@[simp] theorem rampRise_sl_nextId (fz : Bool) (s : State) : (rampRise fz s).sl.nextId = s.sl.nextId := by
  unfold rampRise; try dsimp only
  (repeat' split) <;> simp
@[simp] theorem rampRise_sl_notices (fz : Bool) (s : State) : (rampRise fz s).sl.notices = s.sl.notices := by
  unfold rampRise; try dsimp only
  (repeat' split) <;> simp
@[simp] theorem rampRise_sl_noticeNo (fz : Bool) (s : State) : (rampRise fz s).sl.noticeNo = s.sl.noticeNo := by
  unfold rampRise; try dsimp only
  (repeat' split) <;> simp
@[simp] theorem rampRise_sl_capture (fz : Bool) (s : State) : (rampRise fz s).sl.capture = s.sl.capture := by
  unfold rampRise; try dsimp only
  (repeat' split) <;> simp
@[simp] theorem rampRise_sl_outright (fz : Bool) (s : State) : (rampRise fz s).sl.outright = s.sl.outright := by
  unfold rampRise; try dsimp only
  (repeat' split) <;> simp
@[simp] theorem rampRise_mu_cal (fz : Bool) (s : State) : (rampRise fz s).mu.cal = s.mu.cal := by
  unfold rampRise; try dsimp only
  (repeat' split) <;> simp
@[simp] theorem rampRise_mu_iAcc (fz : Bool) (s : State) : (rampRise fz s).mu.iAcc = s.mu.iAcc := by
  unfold rampRise; try dsimp only
  (repeat' split) <;> simp
@[simp] theorem rampRise_mu_vAcc (fz : Bool) (s : State) : (rampRise fz s).mu.vAcc = s.mu.vAcc := by
  unfold rampRise; try dsimp only
  (repeat' split) <;> simp
@[simp] theorem rampRise_cl_log (fz : Bool) (s : State) : (rampRise fz s).cl.log = s.cl.log := by
  unfold rampRise; try dsimp only
  (repeat' split) <;> simp
@[simp] theorem rampRise_cl_nextSeq (fz : Bool) (s : State) : (rampRise fz s).cl.nextSeq = s.cl.nextSeq := by
  unfold rampRise; try dsimp only
  (repeat' split) <;> simp
@[simp] theorem rampRise_rg_set (fz : Bool) (s : State) : (rampRise fz s).rg.set = s.rg.set := by
  unfold rampRise; try dsimp only
  (repeat' split) <;> simp
@[simp] theorem rampRise_oc_restartPending (fz : Bool) (s : State) : (rampRise fz s).oc.restartPending = s.oc.restartPending := by
  unfold rampRise; try dsimp only
  (repeat' split) <;> simp
@[simp] theorem rampRise_oc_autoRestart (fz : Bool) (s : State) : (rampRise fz s).oc.autoRestart = s.oc.autoRestart := by
  unfold rampRise; try dsimp only
  (repeat' split) <;> simp
@[simp] theorem rampRise_cq (fz : Bool) (s : State) : (rampRise fz s).cq = s.cq := by
  unfold rampRise; try dsimp only
  (repeat' split) <;> simp
@[simp] theorem rampRise_sk (fz : Bool) (s : State) : (rampRise fz s).sk = s.sk := by
  unfold rampRise; try dsimp only
  (repeat' split) <;> simp
@[simp] theorem rampRise_hs (fz : Bool) (s : State) : (rampRise fz s).hs = s.hs := by
  unfold rampRise; try dsimp only
  (repeat' split) <;> simp
@[simp] theorem rampRise_ns (fz : Bool) (s : State) : (rampRise fz s).ns = s.ns := by
  unfold rampRise; try dsimp only
  (repeat' split) <;> simp
@[simp] theorem rampRise_pins (fz : Bool) (s : State) : (rampRise fz s).pins = s.pins := by
  unfold rampRise; try dsimp only
  (repeat' split) <;> simp
@[simp] theorem rampRise_moment (fz : Bool) (s : State) : (rampRise fz s).moment = s.moment := by
  unfold rampRise; try dsimp only
  (repeat' split) <;> simp
@[simp] theorem rampRise_pending (fz : Bool) (s : State) : (rampRise fz s).pending = s.pending := by
  unfold rampRise; try dsimp only
  (repeat' split) <;> simp

/-! #### updateDuty -/

@[simp] theorem updateDuty_tb (i v : Int) (s : State) : (updateDuty i v s).tb = s.tb := by
  unfold updateDuty; try dsimp only
  (repeat' split) <;> simp
@[simp] theorem updateDuty_sl_profiles (i v : Int) (s : State) : (updateDuty i v s).sl.profiles = s.sl.profiles := by
  unfold updateDuty; try dsimp only
  (repeat' split) <;> simp
@[simp] theorem updateDuty_sl_windows (i v : Int) (s : State) : (updateDuty i v s).sl.windows = s.sl.windows := by
  unfold updateDuty; try dsimp only
  (repeat' split) <;> simp
@[simp] theorem updateDuty_sl_nextId (i v : Int) (s : State) : (updateDuty i v s).sl.nextId = s.sl.nextId := by
  unfold updateDuty; try dsimp only
  (repeat' split) <;> simp
@[simp] theorem updateDuty_sl_notices (i v : Int) (s : State) : (updateDuty i v s).sl.notices = s.sl.notices := by
  unfold updateDuty; try dsimp only
  (repeat' split) <;> simp
@[simp] theorem updateDuty_sl_noticeNo (i v : Int) (s : State) : (updateDuty i v s).sl.noticeNo = s.sl.noticeNo := by
  unfold updateDuty; try dsimp only
  (repeat' split) <;> simp
@[simp] theorem updateDuty_sl_capture (i v : Int) (s : State) : (updateDuty i v s).sl.capture = s.sl.capture := by
  unfold updateDuty; try dsimp only
  (repeat' split) <;> simp
@[simp] theorem updateDuty_sl_outright (i v : Int) (s : State) : (updateDuty i v s).sl.outright = s.sl.outright := by
  unfold updateDuty; try dsimp only
  (repeat' split) <;> simp
@[simp] theorem updateDuty_mu_cal (i v : Int) (s : State) : (updateDuty i v s).mu.cal = s.mu.cal := by
  unfold updateDuty; try dsimp only
  (repeat' split) <;> simp
@[simp] theorem updateDuty_mu_iAcc (i v : Int) (s : State) : (updateDuty i v s).mu.iAcc = s.mu.iAcc := by
  unfold updateDuty; try dsimp only
  (repeat' split) <;> simp
@[simp] theorem updateDuty_mu_vAcc (i v : Int) (s : State) : (updateDuty i v s).mu.vAcc = s.mu.vAcc := by
  unfold updateDuty; try dsimp only
  (repeat' split) <;> simp
@[simp] theorem updateDuty_cl (i v : Int) (s : State) : (updateDuty i v s).cl = s.cl := by
  unfold updateDuty; try dsimp only
  (repeat' split) <;> simp
@[simp] theorem updateDuty_rg_set (i v : Int) (s : State) : (updateDuty i v s).rg.set = s.rg.set := by
  unfold updateDuty; try dsimp only
  (repeat' split) <;> simp
@[simp] theorem updateDuty_oc_output (i v : Int) (s : State) : (updateDuty i v s).oc.output = s.oc.output := by
  unfold updateDuty; try dsimp only
  (repeat' split) <;> simp
@[simp] theorem updateDuty_oc_restartPending (i v : Int) (s : State) : (updateDuty i v s).oc.restartPending = s.oc.restartPending := by
  unfold updateDuty; try dsimp only
  (repeat' split) <;> simp
@[simp] theorem updateDuty_oc_autoRestart (i v : Int) (s : State) : (updateDuty i v s).oc.autoRestart = s.oc.autoRestart := by
  unfold updateDuty; try dsimp only
  (repeat' split) <;> simp
@[simp] theorem updateDuty_oc_rampLimit (i v : Int) (s : State) : (updateDuty i v s).oc.rampLimit = s.oc.rampLimit := by
  unfold updateDuty; try dsimp only
  (repeat' split) <;> simp
@[simp] theorem updateDuty_cq (i v : Int) (s : State) : (updateDuty i v s).cq = s.cq := by
  unfold updateDuty; try dsimp only
  (repeat' split) <;> simp
@[simp] theorem updateDuty_sk (i v : Int) (s : State) : (updateDuty i v s).sk = s.sk := by
  unfold updateDuty; try dsimp only
  (repeat' split) <;> simp
@[simp] theorem updateDuty_hs (i v : Int) (s : State) : (updateDuty i v s).hs = s.hs := by
  unfold updateDuty; try dsimp only
  (repeat' split) <;> simp
@[simp] theorem updateDuty_ns (i v : Int) (s : State) : (updateDuty i v s).ns = s.ns := by
  unfold updateDuty; try dsimp only
  (repeat' split) <;> simp
@[simp] theorem updateDuty_pins (i v : Int) (s : State) : (updateDuty i v s).pins = s.pins := by
  unfold updateDuty; try dsimp only
  (repeat' split) <;> simp
@[simp] theorem updateDuty_moment (i v : Int) (s : State) : (updateDuty i v s).moment = s.moment := by
  unfold updateDuty; try dsimp only
  (repeat' split) <;> simp
@[simp] theorem updateDuty_pending (i v : Int) (s : State) : (updateDuty i v s).pending = s.pending := by
  unfold updateDuty; try dsimp only
  (repeat' split) <;> simp

/-! #### innerLoop -/

@[simp] theorem innerLoop_tb (fz : Bool) (s : State) : (innerLoop fz s).tb = s.tb := by
  unfold innerLoop; try dsimp only
  (repeat' split) <;> simp
@[simp] theorem innerLoop_sl_profiles (fz : Bool) (s : State) : (innerLoop fz s).sl.profiles = s.sl.profiles := by
  unfold innerLoop; try dsimp only
  (repeat' split) <;> simp
@[simp] theorem innerLoop_sl_windows (fz : Bool) (s : State) : (innerLoop fz s).sl.windows = s.sl.windows := by
  unfold innerLoop; try dsimp only
  (repeat' split) <;> simp
@[simp] theorem innerLoop_sl_nextId (fz : Bool) (s : State) : (innerLoop fz s).sl.nextId = s.sl.nextId := by
  unfold innerLoop; try dsimp only
  (repeat' split) <;> simp
@[simp] theorem innerLoop_sl_notices (fz : Bool) (s : State) : (innerLoop fz s).sl.notices = s.sl.notices := by
  unfold innerLoop; try dsimp only
  (repeat' split) <;> simp
@[simp] theorem innerLoop_sl_noticeNo (fz : Bool) (s : State) : (innerLoop fz s).sl.noticeNo = s.sl.noticeNo := by
  unfold innerLoop; try dsimp only
  (repeat' split) <;> simp
@[simp] theorem innerLoop_sl_outright (fz : Bool) (s : State) : (innerLoop fz s).sl.outright = s.sl.outright := by
  unfold innerLoop; try dsimp only
  (repeat' split) <;> simp
@[simp] theorem innerLoop_mu_cal (fz : Bool) (s : State) : (innerLoop fz s).mu.cal = s.mu.cal := by
  unfold innerLoop; try dsimp only
  (repeat' split) <;> simp
@[simp] theorem innerLoop_mu_iAcc (fz : Bool) (s : State) : (innerLoop fz s).mu.iAcc = s.mu.iAcc := by
  unfold innerLoop; try dsimp only
  (repeat' split) <;> simp
@[simp] theorem innerLoop_mu_vAcc (fz : Bool) (s : State) : (innerLoop fz s).mu.vAcc = s.mu.vAcc := by
  unfold innerLoop; try dsimp only
  (repeat' split) <;> simp
@[simp] theorem innerLoop_cl_log (fz : Bool) (s : State) : (innerLoop fz s).cl.log = s.cl.log := by
  unfold innerLoop; try dsimp only
  (repeat' split) <;> simp
@[simp] theorem innerLoop_cl_nextSeq (fz : Bool) (s : State) : (innerLoop fz s).cl.nextSeq = s.cl.nextSeq := by
  unfold innerLoop; try dsimp only
  (repeat' split) <;> simp
@[simp] theorem innerLoop_rg_set (fz : Bool) (s : State) : (innerLoop fz s).rg.set = s.rg.set := by
  unfold innerLoop; try dsimp only
  (repeat' split) <;> simp
@[simp] theorem innerLoop_oc_autoRestart (fz : Bool) (s : State) : (innerLoop fz s).oc.autoRestart = s.oc.autoRestart := by
  unfold innerLoop; try dsimp only
  (repeat' split) <;> simp
@[simp] theorem innerLoop_oc_rampLimit (fz : Bool) (s : State) : (innerLoop fz s).oc.rampLimit = s.oc.rampLimit := by
  unfold innerLoop; try dsimp only
  (repeat' split) <;> simp
@[simp] theorem innerLoop_hs (fz : Bool) (s : State) : (innerLoop fz s).hs = s.hs := by
  unfold innerLoop; try dsimp only
  (repeat' split) <;> simp
@[simp] theorem innerLoop_ns (fz : Bool) (s : State) : (innerLoop fz s).ns = s.ns := by
  unfold innerLoop; try dsimp only
  (repeat' split) <;> simp
@[simp] theorem innerLoop_pins (fz : Bool) (s : State) : (innerLoop fz s).pins = s.pins := by
  unfold innerLoop; try dsimp only
  (repeat' split) <;> simp
@[simp] theorem innerLoop_moment (fz : Bool) (s : State) : (innerLoop fz s).moment = s.moment := by
  unfold innerLoop; try dsimp only
  (repeat' split) <;> simp
@[simp] theorem innerLoop_pending (fz : Bool) (s : State) : (innerLoop fz s).pending = s.pending := by
  unfold innerLoop; try dsimp only
  (repeat' split) <;> simp

/-! #### regulate -/

@[simp] theorem regulate_tb (rf : Bool) (s : State) : (regulate rf s).tb = s.tb := by
  unfold regulate; try dsimp only
  (repeat' split) <;> simp
@[simp] theorem regulate_sl_profiles (rf : Bool) (s : State) : (regulate rf s).sl.profiles = s.sl.profiles := by
  unfold regulate; try dsimp only
  (repeat' split) <;> simp
@[simp] theorem regulate_sl_windows (rf : Bool) (s : State) : (regulate rf s).sl.windows = s.sl.windows := by
  unfold regulate; try dsimp only
  (repeat' split) <;> simp
@[simp] theorem regulate_sl_nextId (rf : Bool) (s : State) : (regulate rf s).sl.nextId = s.sl.nextId := by
  unfold regulate; try dsimp only
  (repeat' split) <;> simp
@[simp] theorem regulate_sl_notices (rf : Bool) (s : State) : (regulate rf s).sl.notices = s.sl.notices := by
  unfold regulate; try dsimp only
  (repeat' split) <;> simp
@[simp] theorem regulate_sl_noticeNo (rf : Bool) (s : State) : (regulate rf s).sl.noticeNo = s.sl.noticeNo := by
  unfold regulate; try dsimp only
  (repeat' split) <;> simp
@[simp] theorem regulate_sl_outright (rf : Bool) (s : State) : (regulate rf s).sl.outright = s.sl.outright := by
  unfold regulate; try dsimp only
  (repeat' split) <;> simp
@[simp] theorem regulate_rg_set (rf : Bool) (s : State) : (regulate rf s).rg.set = s.rg.set := by
  unfold regulate; try dsimp only
  (repeat' split) <;> simp
@[simp] theorem regulate_oc_autoRestart (rf : Bool) (s : State) : (regulate rf s).oc.autoRestart = s.oc.autoRestart := by
  unfold regulate; try dsimp only
  (repeat' split) <;> simp
@[simp] theorem regulate_hs (rf : Bool) (s : State) : (regulate rf s).hs = s.hs := by
  unfold regulate; try dsimp only
  (repeat' split) <;> simp
@[simp] theorem regulate_ns (rf : Bool) (s : State) : (regulate rf s).ns = s.ns := by
  unfold regulate; try dsimp only
  (repeat' split) <;> simp
@[simp] theorem regulate_pins (rf : Bool) (s : State) : (regulate rf s).pins = s.pins := by
  unfold regulate; try dsimp only
  (repeat' split) <;> simp
@[simp] theorem regulate_pending (rf : Bool) (s : State) : (regulate rf s).pending = s.pending := by
  unfold regulate; try dsimp only
  (repeat' split) <;> simp

/-! #### endByTime -/

@[simp] theorem endByTime_tb (s : State) : (endByTime s).tb = s.tb := by
  unfold endByTime; try dsimp only
  (repeat' split) <;> simp
@[simp] theorem endByTime_sl_profiles (s : State) : (endByTime s).sl.profiles = s.sl.profiles := by
  unfold endByTime; try dsimp only
  (repeat' split) <;> simp
@[simp] theorem endByTime_sl_nextId (s : State) : (endByTime s).sl.nextId = s.sl.nextId := by
  unfold endByTime; try dsimp only
  (repeat' split) <;> simp
@[simp] theorem endByTime_sl_notices (s : State) : (endByTime s).sl.notices = s.sl.notices := by
  unfold endByTime; try dsimp only
  (repeat' split) <;> simp
@[simp] theorem endByTime_sl_noticeNo (s : State) : (endByTime s).sl.noticeNo = s.sl.noticeNo := by
  unfold endByTime; try dsimp only
  (repeat' split) <;> simp
@[simp] theorem endByTime_sl_capture (s : State) : (endByTime s).sl.capture = s.sl.capture := by
  unfold endByTime; try dsimp only
  (repeat' split) <;> simp
@[simp] theorem endByTime_sl_outright (s : State) : (endByTime s).sl.outright = s.sl.outright := by
  unfold endByTime; try dsimp only
  (repeat' split) <;> simp
@[simp] theorem endByTime_mu (s : State) : (endByTime s).mu = s.mu := by
  unfold endByTime; try dsimp only
  (repeat' split) <;> simp
@[simp] theorem endByTime_cl (s : State) : (endByTime s).cl = s.cl := by
  unfold endByTime; try dsimp only
  (repeat' split) <;> simp
@[simp] theorem endByTime_rg (s : State) : (endByTime s).rg = s.rg := by
  unfold endByTime; try dsimp only
  (repeat' split) <;> simp
@[simp] theorem endByTime_oc (s : State) : (endByTime s).oc = s.oc := by
  unfold endByTime; try dsimp only
  (repeat' split) <;> simp
@[simp] theorem endByTime_cq (s : State) : (endByTime s).cq = s.cq := by
  unfold endByTime; try dsimp only
  (repeat' split) <;> simp
@[simp] theorem endByTime_sk (s : State) : (endByTime s).sk = s.sk := by
  unfold endByTime; try dsimp only
  (repeat' split) <;> simp
@[simp] theorem endByTime_hs (s : State) : (endByTime s).hs = s.hs := by
  unfold endByTime; try dsimp only
  (repeat' split) <;> simp
@[simp] theorem endByTime_lc (s : State) : (endByTime s).lc = s.lc := by
  unfold endByTime; try dsimp only
  (repeat' split) <;> simp
@[simp] theorem endByTime_ns (s : State) : (endByTime s).ns = s.ns := by
  unfold endByTime; try dsimp only
  (repeat' split) <;> simp
@[simp] theorem endByTime_pins (s : State) : (endByTime s).pins = s.pins := by
  unfold endByTime; try dsimp only
  (repeat' split) <;> simp
@[simp] theorem endByTime_moment (s : State) : (endByTime s).moment = s.moment := by
  unfold endByTime; try dsimp only
  (repeat' split) <;> simp
@[simp] theorem endByTime_pending (s : State) : (endByTime s).pending = s.pending := by
  unfold endByTime; try dsimp only
  (repeat' split) <;> simp

/-! #### removeEnding -/

@[simp] theorem removeEnding_tb (s : State) : (removeEnding s).tb = s.tb := by
  unfold removeEnding; try dsimp only
  (repeat' split) <;> simp
@[simp] theorem removeEnding_sl_profiles (s : State) : (removeEnding s).sl.profiles = s.sl.profiles := by
  unfold removeEnding; try dsimp only
  (repeat' split) <;> simp
@[simp] theorem removeEnding_sl_nextId (s : State) : (removeEnding s).sl.nextId = s.sl.nextId := by
  unfold removeEnding; try dsimp only
  (repeat' split) <;> simp
@[simp] theorem removeEnding_sl_capture (s : State) : (removeEnding s).sl.capture = s.sl.capture := by
  unfold removeEnding; try dsimp only
  (repeat' split) <;> simp
@[simp] theorem removeEnding_sl_outright (s : State) : (removeEnding s).sl.outright = s.sl.outright := by
  unfold removeEnding; try dsimp only
  (repeat' split) <;> simp
@[simp] theorem removeEnding_mu_cal (s : State) : (removeEnding s).mu.cal = s.mu.cal := by
  unfold removeEnding; try dsimp only
  (repeat' split) <;> simp
@[simp] theorem removeEnding_mu_iAcc (s : State) : (removeEnding s).mu.iAcc = s.mu.iAcc := by
  unfold removeEnding; try dsimp only
  (repeat' split) <;> simp
@[simp] theorem removeEnding_mu_vAcc (s : State) : (removeEnding s).mu.vAcc = s.mu.vAcc := by
  unfold removeEnding; try dsimp only
  (repeat' split) <;> simp
@[simp] theorem removeEnding_cl (s : State) : (removeEnding s).cl = s.cl := by
  unfold removeEnding; try dsimp only
  (repeat' split) <;> simp
@[simp] theorem removeEnding_rg_set (s : State) : (removeEnding s).rg.set = s.rg.set := by
  unfold removeEnding; try dsimp only
  (repeat' split) <;> simp
@[simp] theorem removeEnding_oc_output (s : State) : (removeEnding s).oc.output = s.oc.output := by
  unfold removeEnding; try dsimp only
  (repeat' split) <;> simp
@[simp] theorem removeEnding_oc_restartPending (s : State) : (removeEnding s).oc.restartPending = s.oc.restartPending := by
  unfold removeEnding; try dsimp only
  (repeat' split) <;> simp
@[simp] theorem removeEnding_oc_autoRestart (s : State) : (removeEnding s).oc.autoRestart = s.oc.autoRestart := by
  unfold removeEnding; try dsimp only
  (repeat' split) <;> simp
@[simp] theorem removeEnding_oc_rampLimit (s : State) : (removeEnding s).oc.rampLimit = s.oc.rampLimit := by
  unfold removeEnding; try dsimp only
  (repeat' split) <;> simp
@[simp] theorem removeEnding_cq (s : State) : (removeEnding s).cq = s.cq := by
  unfold removeEnding; try dsimp only
  (repeat' split) <;> simp
@[simp] theorem removeEnding_sk (s : State) : (removeEnding s).sk = s.sk := by
  unfold removeEnding; try dsimp only
  (repeat' split) <;> simp
@[simp] theorem removeEnding_hs (s : State) : (removeEnding s).hs = s.hs := by
  unfold removeEnding; try dsimp only
  (repeat' split) <;> simp
@[simp] theorem removeEnding_ns (s : State) : (removeEnding s).ns = s.ns := by
  unfold removeEnding; try dsimp only
  (repeat' split) <;> simp
@[simp] theorem removeEnding_pins (s : State) : (removeEnding s).pins = s.pins := by
  unfold removeEnding; try dsimp only
  (repeat' split) <;> simp
@[simp] theorem removeEnding_moment_wrap (s : State) : (removeEnding s).moment.wrap = s.moment.wrap := by
  unfold removeEnding; try dsimp only
  (repeat' split) <;> simp
@[simp] theorem removeEnding_moment_regTick (s : State) : (removeEnding s).moment.regTick = s.moment.regTick := by
  unfold removeEnding; try dsimp only
  (repeat' split) <;> simp
@[simp] theorem removeEnding_moment_lost (s : State) : (removeEnding s).moment.lost = s.moment.lost := by
  unfold removeEnding; try dsimp only
  (repeat' split) <;> simp
@[simp] theorem removeEnding_moment_requeued (s : State) : (removeEnding s).moment.requeued = s.moment.requeued := by
  unfold removeEnding; try dsimp only
  (repeat' split) <;> simp
@[simp] theorem removeEnding_pending (s : State) : (removeEnding s).pending = s.pending := by
  unfold removeEnding; try dsimp only
  (repeat' split) <;> simp

/-! #### skipWindows -/

@[simp] theorem skipWindows_tb (s : State) : (skipWindows s).tb = s.tb := by
  unfold skipWindows; dsimp only
  generalize s.sl.windows.filter _ = gone
  rw [foldl_keeps (fun t : State => t.tb) _ (fun t w => by simp)]
@[simp] theorem skipWindows_sl_profiles (s : State) : (skipWindows s).sl.profiles = s.sl.profiles := by
  unfold skipWindows; dsimp only
  generalize s.sl.windows.filter _ = gone
  rw [foldl_keeps (fun t : State => t.sl.profiles) _ (fun t w => by simp)]
@[simp] theorem skipWindows_sl_nextId (s : State) : (skipWindows s).sl.nextId = s.sl.nextId := by
  unfold skipWindows; dsimp only
  generalize s.sl.windows.filter _ = gone
  rw [foldl_keeps (fun t : State => t.sl.nextId) _ (fun t w => by simp)]
@[simp] theorem skipWindows_sl_capture (s : State) : (skipWindows s).sl.capture = s.sl.capture := by
  unfold skipWindows; dsimp only
  generalize s.sl.windows.filter _ = gone
  rw [foldl_keeps (fun t : State => t.sl.capture) _ (fun t w => by simp)]
@[simp] theorem skipWindows_sl_outright (s : State) : (skipWindows s).sl.outright = s.sl.outright := by
  unfold skipWindows; dsimp only
  generalize s.sl.windows.filter _ = gone
  rw [foldl_keeps (fun t : State => t.sl.outright) _ (fun t w => by simp)]
@[simp] theorem skipWindows_mu (s : State) : (skipWindows s).mu = s.mu := by
  unfold skipWindows; dsimp only
  generalize s.sl.windows.filter _ = gone
  rw [foldl_keeps (fun t : State => t.mu) _ (fun t w => by simp)]
@[simp] theorem skipWindows_cl (s : State) : (skipWindows s).cl = s.cl := by
  unfold skipWindows; dsimp only
  generalize s.sl.windows.filter _ = gone
  rw [foldl_keeps (fun t : State => t.cl) _ (fun t w => by simp)]
@[simp] theorem skipWindows_rg (s : State) : (skipWindows s).rg = s.rg := by
  unfold skipWindows; dsimp only
  generalize s.sl.windows.filter _ = gone
  rw [foldl_keeps (fun t : State => t.rg) _ (fun t w => by simp)]
@[simp] theorem skipWindows_oc (s : State) : (skipWindows s).oc = s.oc := by
  unfold skipWindows; dsimp only
  generalize s.sl.windows.filter _ = gone
  rw [foldl_keeps (fun t : State => t.oc) _ (fun t w => by simp)]
@[simp] theorem skipWindows_cq (s : State) : (skipWindows s).cq = s.cq := by
  unfold skipWindows; dsimp only
  generalize s.sl.windows.filter _ = gone
  rw [foldl_keeps (fun t : State => t.cq) _ (fun t w => by simp)]
@[simp] theorem skipWindows_sk (s : State) : (skipWindows s).sk = s.sk := by
  unfold skipWindows; dsimp only
  generalize s.sl.windows.filter _ = gone
  rw [foldl_keeps (fun t : State => t.sk) _ (fun t w => by simp)]
@[simp] theorem skipWindows_hs (s : State) : (skipWindows s).hs = s.hs := by
  unfold skipWindows; dsimp only
  generalize s.sl.windows.filter _ = gone
  rw [foldl_keeps (fun t : State => t.hs) _ (fun t w => by simp)]
@[simp] theorem skipWindows_ns (s : State) : (skipWindows s).ns = s.ns := by
  unfold skipWindows; dsimp only
  generalize s.sl.windows.filter _ = gone
  rw [foldl_keeps (fun t : State => t.ns) _ (fun t w => by simp)]
@[simp] theorem skipWindows_pins (s : State) : (skipWindows s).pins = s.pins := by
  unfold skipWindows; dsimp only
  generalize s.sl.windows.filter _ = gone
  rw [foldl_keeps (fun t : State => t.pins) _ (fun t w => by simp)]
@[simp] theorem skipWindows_moment (s : State) : (skipWindows s).moment = s.moment := by
  unfold skipWindows; dsimp only
  generalize s.sl.windows.filter _ = gone
  rw [foldl_keeps (fun t : State => t.moment) _ (fun t w => by simp)]
@[simp] theorem skipWindows_pending (s : State) : (skipWindows s).pending = s.pending := by
  unfold skipWindows; dsimp only
  generalize s.sl.windows.filter _ = gone
  rw [foldl_keeps (fun t : State => t.pending) _ (fun t w => by simp)]

/-! #### activateFirst -/

@[simp] theorem activateFirst_tb (s : State) : (activateFirst s).tb = s.tb := by
  unfold activateFirst; try dsimp only
  (repeat' split) <;> simp
@[simp] theorem activateFirst_sl_profiles (s : State) : (activateFirst s).sl.profiles = s.sl.profiles := by
  unfold activateFirst; try dsimp only
  (repeat' split) <;> simp
@[simp] theorem activateFirst_sl_nextId (s : State) : (activateFirst s).sl.nextId = s.sl.nextId := by
  unfold activateFirst; try dsimp only
  (repeat' split) <;> simp
@[simp] theorem activateFirst_sl_outright (s : State) : (activateFirst s).sl.outright = s.sl.outright := by
  unfold activateFirst; try dsimp only
  (repeat' split) <;> simp
@[simp] theorem activateFirst_mu_cal (s : State) : (activateFirst s).mu.cal = s.mu.cal := by
  unfold activateFirst; try dsimp only
  (repeat' split) <;> simp
@[simp] theorem activateFirst_mu_iAcc (s : State) : (activateFirst s).mu.iAcc = s.mu.iAcc := by
  unfold activateFirst; try dsimp only
  (repeat' split) <;> simp
@[simp] theorem activateFirst_mu_vAcc (s : State) : (activateFirst s).mu.vAcc = s.mu.vAcc := by
  unfold activateFirst; try dsimp only
  (repeat' split) <;> simp
@[simp] theorem activateFirst_cl_log (s : State) : (activateFirst s).cl.log = s.cl.log := by
  unfold activateFirst; try dsimp only
  (repeat' split) <;> simp
@[simp] theorem activateFirst_cl_nextSeq (s : State) : (activateFirst s).cl.nextSeq = s.cl.nextSeq := by
  unfold activateFirst; try dsimp only
  (repeat' split) <;> simp
@[simp] theorem activateFirst_rg (s : State) : (activateFirst s).rg = s.rg := by
  unfold activateFirst; try dsimp only
  (repeat' split) <;> simp
@[simp] theorem activateFirst_oc_output (s : State) : (activateFirst s).oc.output = s.oc.output := by
  unfold activateFirst; try dsimp only
  (repeat' split) <;> simp
@[simp] theorem activateFirst_oc_restartPending (s : State) : (activateFirst s).oc.restartPending = s.oc.restartPending := by
  unfold activateFirst; try dsimp only
  (repeat' split) <;> simp
@[simp] theorem activateFirst_oc_autoRestart (s : State) : (activateFirst s).oc.autoRestart = s.oc.autoRestart := by
  unfold activateFirst; try dsimp only
  (repeat' split) <;> simp
@[simp] theorem activateFirst_oc_rampLimit (s : State) : (activateFirst s).oc.rampLimit = s.oc.rampLimit := by
  unfold activateFirst; try dsimp only
  (repeat' split) <;> simp
@[simp] theorem activateFirst_cq (s : State) : (activateFirst s).cq = s.cq := by
  unfold activateFirst; try dsimp only
  (repeat' split) <;> simp
@[simp] theorem activateFirst_sk (s : State) : (activateFirst s).sk = s.sk := by
  unfold activateFirst; try dsimp only
  (repeat' split) <;> simp
@[simp] theorem activateFirst_hs (s : State) : (activateFirst s).hs = s.hs := by
  unfold activateFirst; try dsimp only
  (repeat' split) <;> simp
@[simp] theorem activateFirst_ns (s : State) : (activateFirst s).ns = s.ns := by
  unfold activateFirst; try dsimp only
  (repeat' split) <;> simp
@[simp] theorem activateFirst_pins (s : State) : (activateFirst s).pins = s.pins := by
  unfold activateFirst; try dsimp only
  (repeat' split) <;> simp
@[simp] theorem activateFirst_moment (s : State) : (activateFirst s).moment = s.moment := by
  unfold activateFirst; try dsimp only
  (repeat' split) <;> simp
@[simp] theorem activateFirst_pending (s : State) : (activateFirst s).pending = s.pending := by
  unfold activateFirst; try dsimp only
  (repeat' split) <;> simp

/-! #### reanchor -/

@[simp] theorem reanchor_tb (b : Bool) (s : State) : (reanchor b s).tb = s.tb := by
  unfold reanchor; try dsimp only
  (repeat' split) <;> simp
@[simp] theorem reanchor_sl_profiles (b : Bool) (s : State) : (reanchor b s).sl.profiles = s.sl.profiles := by
  unfold reanchor; try dsimp only
  (repeat' split) <;> simp
@[simp] theorem reanchor_sl_nextId (b : Bool) (s : State) : (reanchor b s).sl.nextId = s.sl.nextId := by
  unfold reanchor; try dsimp only
  (repeat' split) <;> simp
@[simp] theorem reanchor_sl_notices (b : Bool) (s : State) : (reanchor b s).sl.notices = s.sl.notices := by
  unfold reanchor; try dsimp only
  (repeat' split) <;> simp
@[simp] theorem reanchor_sl_noticeNo (b : Bool) (s : State) : (reanchor b s).sl.noticeNo = s.sl.noticeNo := by
  unfold reanchor; try dsimp only
  (repeat' split) <;> simp
@[simp] theorem reanchor_sl_capture (b : Bool) (s : State) : (reanchor b s).sl.capture = s.sl.capture := by
  unfold reanchor; try dsimp only
  (repeat' split) <;> simp
@[simp] theorem reanchor_sl_outright (b : Bool) (s : State) : (reanchor b s).sl.outright = s.sl.outright := by
  unfold reanchor; try dsimp only
  (repeat' split) <;> simp
@[simp] theorem reanchor_mu_cal (b : Bool) (s : State) : (reanchor b s).mu.cal = s.mu.cal := by
  unfold reanchor; try dsimp only
  (repeat' split) <;> simp
@[simp] theorem reanchor_mu_iAcc (b : Bool) (s : State) : (reanchor b s).mu.iAcc = s.mu.iAcc := by
  unfold reanchor; try dsimp only
  (repeat' split) <;> simp
@[simp] theorem reanchor_mu_vAcc (b : Bool) (s : State) : (reanchor b s).mu.vAcc = s.mu.vAcc := by
  unfold reanchor; try dsimp only
  (repeat' split) <;> simp
@[simp] theorem reanchor_cl (b : Bool) (s : State) : (reanchor b s).cl = s.cl := by
  unfold reanchor; try dsimp only
  (repeat' split) <;> simp
@[simp] theorem reanchor_rg (b : Bool) (s : State) : (reanchor b s).rg = s.rg := by
  unfold reanchor; try dsimp only
  (repeat' split) <;> simp
@[simp] theorem reanchor_oc_output (b : Bool) (s : State) : (reanchor b s).oc.output = s.oc.output := by
  unfold reanchor; try dsimp only
  (repeat' split) <;> simp
@[simp] theorem reanchor_oc_restartPending (b : Bool) (s : State) : (reanchor b s).oc.restartPending = s.oc.restartPending := by
  unfold reanchor; try dsimp only
  (repeat' split) <;> simp
@[simp] theorem reanchor_oc_autoRestart (b : Bool) (s : State) : (reanchor b s).oc.autoRestart = s.oc.autoRestart := by
  unfold reanchor; try dsimp only
  (repeat' split) <;> simp
@[simp] theorem reanchor_oc_rampLimit (b : Bool) (s : State) : (reanchor b s).oc.rampLimit = s.oc.rampLimit := by
  unfold reanchor; try dsimp only
  (repeat' split) <;> simp
@[simp] theorem reanchor_cq (b : Bool) (s : State) : (reanchor b s).cq = s.cq := by
  unfold reanchor; try dsimp only
  (repeat' split) <;> simp
@[simp] theorem reanchor_sk (b : Bool) (s : State) : (reanchor b s).sk = s.sk := by
  unfold reanchor; try dsimp only
  (repeat' split) <;> simp
@[simp] theorem reanchor_hs (b : Bool) (s : State) : (reanchor b s).hs = s.hs := by
  unfold reanchor; try dsimp only
  (repeat' split) <;> simp
@[simp] theorem reanchor_lc (b : Bool) (s : State) : (reanchor b s).lc = s.lc := by
  unfold reanchor; try dsimp only
  (repeat' split) <;> simp
@[simp] theorem reanchor_ns (b : Bool) (s : State) : (reanchor b s).ns = s.ns := by
  unfold reanchor; try dsimp only
  (repeat' split) <;> simp
@[simp] theorem reanchor_pins (b : Bool) (s : State) : (reanchor b s).pins = s.pins := by
  unfold reanchor; try dsimp only
  (repeat' split) <;> simp
@[simp] theorem reanchor_moment_wrap (b : Bool) (s : State) : (reanchor b s).moment.wrap = s.moment.wrap := by
  unfold reanchor; try dsimp only
  (repeat' split) <;> simp
@[simp] theorem reanchor_moment_regTick (b : Bool) (s : State) : (reanchor b s).moment.regTick = s.moment.regTick := by
  unfold reanchor; try dsimp only
  (repeat' split) <;> simp
@[simp] theorem reanchor_moment_lost (b : Bool) (s : State) : (reanchor b s).moment.lost = s.moment.lost := by
  unfold reanchor; try dsimp only
  (repeat' split) <;> simp
@[simp] theorem reanchor_moment_requeued (b : Bool) (s : State) : (reanchor b s).moment.requeued = s.moment.requeued := by
  unfold reanchor; try dsimp only
  (repeat' split) <;> simp
@[simp] theorem reanchor_pending (b : Bool) (s : State) : (reanchor b s).pending = s.pending := by
  unfold reanchor; try dsimp only
  (repeat' split) <;> simp

/-! #### applyPoint -/

@[simp] theorem applyPoint_tb (b : Bool) (s : State) : (applyPoint b s).tb = s.tb := by
  unfold applyPoint; dsimp only
  (repeat' split) <;> simp <;>
    rw [foldl_keeps (fun t : State => t.tb) _ (fun t w => by simp)]
@[simp] theorem applyPoint_sl_nextId (b : Bool) (s : State) : (applyPoint b s).sl.nextId = s.sl.nextId := by
  unfold applyPoint; dsimp only
  (repeat' split) <;> simp <;>
    rw [foldl_keeps (fun t : State => t.sl.nextId) _ (fun t w => by simp)]
@[simp] theorem applyPoint_sl_notices (b : Bool) (s : State) : (applyPoint b s).sl.notices = s.sl.notices := by
  unfold applyPoint; dsimp only
  (repeat' split) <;> simp <;>
    rw [foldl_keeps (fun t : State => t.sl.notices) _ (fun t w => by simp)]
@[simp] theorem applyPoint_sl_noticeNo (b : Bool) (s : State) : (applyPoint b s).sl.noticeNo = s.sl.noticeNo := by
  unfold applyPoint; dsimp only
  (repeat' split) <;> simp <;>
    rw [foldl_keeps (fun t : State => t.sl.noticeNo) _ (fun t w => by simp)]
@[simp] theorem applyPoint_sl_capture (b : Bool) (s : State) : (applyPoint b s).sl.capture = s.sl.capture := by
  unfold applyPoint; dsimp only
  (repeat' split) <;> simp <;>
    rw [foldl_keeps (fun t : State => t.sl.capture) _ (fun t w => by simp)]
@[simp] theorem applyPoint_sl_outright (b : Bool) (s : State) : (applyPoint b s).sl.outright = s.sl.outright := by
  unfold applyPoint; dsimp only
  (repeat' split) <;> simp <;>
    rw [foldl_keeps (fun t : State => t.sl.outright) _ (fun t w => by simp)]
@[simp] theorem applyPoint_mu_cal (b : Bool) (s : State) : (applyPoint b s).mu.cal = s.mu.cal := by
  unfold applyPoint; dsimp only
  (repeat' split) <;> simp <;>
    rw [foldl_keeps (fun t : State => t.mu.cal) _ (fun t w => by simp)]
@[simp] theorem applyPoint_mu_iAcc (b : Bool) (s : State) : (applyPoint b s).mu.iAcc = s.mu.iAcc := by
  unfold applyPoint; dsimp only
  (repeat' split) <;> simp <;>
    rw [foldl_keeps (fun t : State => t.mu.iAcc) _ (fun t w => by simp)]
@[simp] theorem applyPoint_mu_vAcc (b : Bool) (s : State) : (applyPoint b s).mu.vAcc = s.mu.vAcc := by
  unfold applyPoint; dsimp only
  (repeat' split) <;> simp <;>
    rw [foldl_keeps (fun t : State => t.mu.vAcc) _ (fun t w => by simp)]
@[simp] theorem applyPoint_cl (b : Bool) (s : State) : (applyPoint b s).cl = s.cl := by
  unfold applyPoint; dsimp only
  (repeat' split) <;> simp <;>
    rw [foldl_keeps (fun t : State => t.cl) _ (fun t w => by simp)]
@[simp] theorem applyPoint_oc_output (b : Bool) (s : State) : (applyPoint b s).oc.output = s.oc.output := by
  unfold applyPoint; dsimp only
  (repeat' split) <;> simp <;>
    rw [foldl_keeps (fun t : State => t.oc.output) _ (fun t w => by simp)]
@[simp] theorem applyPoint_oc_restartPending (b : Bool) (s : State) : (applyPoint b s).oc.restartPending = s.oc.restartPending := by
  unfold applyPoint; dsimp only
  (repeat' split) <;> simp <;>
    rw [foldl_keeps (fun t : State => t.oc.restartPending) _ (fun t w => by simp)]
@[simp] theorem applyPoint_oc_autoRestart (b : Bool) (s : State) : (applyPoint b s).oc.autoRestart = s.oc.autoRestart := by
  unfold applyPoint; dsimp only
  (repeat' split) <;> simp <;>
    rw [foldl_keeps (fun t : State => t.oc.autoRestart) _ (fun t w => by simp)]
@[simp] theorem applyPoint_oc_rampLimit (b : Bool) (s : State) : (applyPoint b s).oc.rampLimit = s.oc.rampLimit := by
  unfold applyPoint; dsimp only
  (repeat' split) <;> simp <;>
    rw [foldl_keeps (fun t : State => t.oc.rampLimit) _ (fun t w => by simp)]
@[simp] theorem applyPoint_sk (b : Bool) (s : State) : (applyPoint b s).sk = s.sk := by
  unfold applyPoint; dsimp only
  (repeat' split) <;> simp <;>
    rw [foldl_keeps (fun t : State => t.sk) _ (fun t w => by simp)]
@[simp] theorem applyPoint_hs (b : Bool) (s : State) : (applyPoint b s).hs = s.hs := by
  unfold applyPoint; dsimp only
  (repeat' split) <;> simp <;>
    rw [foldl_keeps (fun t : State => t.hs) _ (fun t w => by simp)]
@[simp] theorem applyPoint_ns (b : Bool) (s : State) : (applyPoint b s).ns = s.ns := by
  unfold applyPoint; dsimp only
  (repeat' split) <;> simp <;>
    rw [foldl_keeps (fun t : State => t.ns) _ (fun t w => by simp)]
@[simp] theorem applyPoint_pins (b : Bool) (s : State) : (applyPoint b s).pins = s.pins := by
  unfold applyPoint; dsimp only
  (repeat' split) <;> simp <;>
    rw [foldl_keeps (fun t : State => t.pins) _ (fun t w => by simp)]
@[simp] theorem applyPoint_moment_wrap (b : Bool) (s : State) : (applyPoint b s).moment.wrap = s.moment.wrap := by
  unfold applyPoint; dsimp only
  (repeat' split) <;> simp <;>
    rw [foldl_keeps (fun t : State => t.moment.wrap) _ (fun t w => by simp)]
@[simp] theorem applyPoint_moment_regTick (b : Bool) (s : State) : (applyPoint b s).moment.regTick = s.moment.regTick := by
  unfold applyPoint; dsimp only
  (repeat' split) <;> simp <;>
    rw [foldl_keeps (fun t : State => t.moment.regTick) _ (fun t w => by simp)]
@[simp] theorem applyPoint_moment_lost (b : Bool) (s : State) : (applyPoint b s).moment.lost = s.moment.lost := by
  unfold applyPoint; dsimp only
  (repeat' split) <;> simp <;>
    rw [foldl_keeps (fun t : State => t.moment.lost) _ (fun t w => by simp)]
@[simp] theorem applyPoint_moment_requeued (b : Bool) (s : State) : (applyPoint b s).moment.requeued = s.moment.requeued := by
  unfold applyPoint; dsimp only
  (repeat' split) <;> simp <;>
    rw [foldl_keeps (fun t : State => t.moment.requeued) _ (fun t w => by simp)]
@[simp] theorem applyPoint_pending (b : Bool) (s : State) : (applyPoint b s).pending = s.pending := by
  unfold applyPoint; dsimp only
  (repeat' split) <;> simp <;>
    rw [foldl_keeps (fun t : State => t.pending) _ (fun t w => by simp)]

/-! #### examineSecond -/

@[simp] theorem examineSecond_tb (s : State) : (examineSecond s).tb = s.tb := by
  unfold examineSecond; try dsimp only
  (repeat' split) <;> simp
@[simp] theorem examineSecond_sl_nextId (s : State) : (examineSecond s).sl.nextId = s.sl.nextId := by
  unfold examineSecond; try dsimp only
  (repeat' split) <;> simp
@[simp] theorem examineSecond_sl_outright (s : State) : (examineSecond s).sl.outright = s.sl.outright := by
  unfold examineSecond; try dsimp only
  (repeat' split) <;> simp
@[simp] theorem examineSecond_mu_cal (s : State) : (examineSecond s).mu.cal = s.mu.cal := by
  unfold examineSecond; try dsimp only
  (repeat' split) <;> simp
@[simp] theorem examineSecond_mu_iAcc (s : State) : (examineSecond s).mu.iAcc = s.mu.iAcc := by
  unfold examineSecond; try dsimp only
  (repeat' split) <;> simp
@[simp] theorem examineSecond_mu_vAcc (s : State) : (examineSecond s).mu.vAcc = s.mu.vAcc := by
  unfold examineSecond; try dsimp only
  (repeat' split) <;> simp
@[simp] theorem examineSecond_cl_log (s : State) : (examineSecond s).cl.log = s.cl.log := by
  unfold examineSecond; try dsimp only
  (repeat' split) <;> simp
@[simp] theorem examineSecond_cl_nextSeq (s : State) : (examineSecond s).cl.nextSeq = s.cl.nextSeq := by
  unfold examineSecond; try dsimp only
  (repeat' split) <;> simp
@[simp] theorem examineSecond_oc_output (s : State) : (examineSecond s).oc.output = s.oc.output := by
  unfold examineSecond; try dsimp only
  (repeat' split) <;> simp
@[simp] theorem examineSecond_oc_restartPending (s : State) : (examineSecond s).oc.restartPending = s.oc.restartPending := by
  unfold examineSecond; try dsimp only
  (repeat' split) <;> simp
@[simp] theorem examineSecond_oc_autoRestart (s : State) : (examineSecond s).oc.autoRestart = s.oc.autoRestart := by
  unfold examineSecond; try dsimp only
  (repeat' split) <;> simp
@[simp] theorem examineSecond_oc_rampLimit (s : State) : (examineSecond s).oc.rampLimit = s.oc.rampLimit := by
  unfold examineSecond; try dsimp only
  (repeat' split) <;> simp
@[simp] theorem examineSecond_sk (s : State) : (examineSecond s).sk = s.sk := by
  unfold examineSecond; try dsimp only
  (repeat' split) <;> simp
@[simp] theorem examineSecond_hs (s : State) : (examineSecond s).hs = s.hs := by
  unfold examineSecond; try dsimp only
  (repeat' split) <;> simp
@[simp] theorem examineSecond_ns (s : State) : (examineSecond s).ns = s.ns := by
  unfold examineSecond; try dsimp only
  (repeat' split) <;> simp
@[simp] theorem examineSecond_pins (s : State) : (examineSecond s).pins = s.pins := by
  unfold examineSecond; try dsimp only
  (repeat' split) <;> simp
@[simp] theorem examineSecond_moment_wrap (s : State) : (examineSecond s).moment.wrap = s.moment.wrap := by
  unfold examineSecond; try dsimp only
  (repeat' split) <;> simp
@[simp] theorem examineSecond_moment_regTick (s : State) : (examineSecond s).moment.regTick = s.moment.regTick := by
  unfold examineSecond; try dsimp only
  (repeat' split) <;> simp
@[simp] theorem examineSecond_moment_lost (s : State) : (examineSecond s).moment.lost = s.moment.lost := by
  unfold examineSecond; try dsimp only
  (repeat' split) <;> simp
@[simp] theorem examineSecond_moment_requeued (s : State) : (examineSecond s).moment.requeued = s.moment.requeued := by
  unfold examineSecond; try dsimp only
  (repeat' split) <;> simp
@[simp] theorem examineSecond_pending (s : State) : (examineSecond s).pending = s.pending := by
  unfold examineSecond; try dsimp only
  (repeat' split) <;> simp

/-! #### examineStep -/

@[simp] theorem examineStep_tb (s : State) : (examineStep s).tb = s.tb := by simp [examineStep]
@[simp] theorem examineStep_sl_profiles (s : State) : (examineStep s).sl.profiles = s.sl.profiles := by simp [examineStep]
@[simp] theorem examineStep_sl_nextId (s : State) : (examineStep s).sl.nextId = s.sl.nextId := by simp [examineStep]
@[simp] theorem examineStep_sl_outright (s : State) : (examineStep s).sl.outright = s.sl.outright := by simp [examineStep]
@[simp] theorem examineStep_mu_cal (s : State) : (examineStep s).mu.cal = s.mu.cal := by simp [examineStep]
@[simp] theorem examineStep_mu_iAcc (s : State) : (examineStep s).mu.iAcc = s.mu.iAcc := by simp [examineStep]
@[simp] theorem examineStep_mu_vAcc (s : State) : (examineStep s).mu.vAcc = s.mu.vAcc := by simp [examineStep]
@[simp] theorem examineStep_cl_log (s : State) : (examineStep s).cl.log = s.cl.log := by simp [examineStep]
@[simp] theorem examineStep_cl_nextSeq (s : State) : (examineStep s).cl.nextSeq = s.cl.nextSeq := by simp [examineStep]
@[simp] theorem examineStep_rg (s : State) : (examineStep s).rg = s.rg := by simp [examineStep]
@[simp] theorem examineStep_oc_output (s : State) : (examineStep s).oc.output = s.oc.output := by simp [examineStep]
@[simp] theorem examineStep_oc_restartPending (s : State) : (examineStep s).oc.restartPending = s.oc.restartPending := by simp [examineStep]
@[simp] theorem examineStep_oc_autoRestart (s : State) : (examineStep s).oc.autoRestart = s.oc.autoRestart := by simp [examineStep]
@[simp] theorem examineStep_oc_rampLimit (s : State) : (examineStep s).oc.rampLimit = s.oc.rampLimit := by simp [examineStep]
@[simp] theorem examineStep_cq (s : State) : (examineStep s).cq = s.cq := by simp [examineStep]
@[simp] theorem examineStep_sk (s : State) : (examineStep s).sk = s.sk := by simp [examineStep]
@[simp] theorem examineStep_hs (s : State) : (examineStep s).hs = s.hs := by simp [examineStep]
@[simp] theorem examineStep_ns (s : State) : (examineStep s).ns = s.ns := by simp [examineStep]
@[simp] theorem examineStep_pins (s : State) : (examineStep s).pins = s.pins := by simp [examineStep]
@[simp] theorem examineStep_moment (s : State) : (examineStep s).moment = s.moment := by simp [examineStep]
@[simp] theorem examineStep_pending (s : State) : (examineStep s).pending = s.pending := by simp [examineStep]

/-! #### beginCycle -/

@[simp] theorem beginCycle_tb (s : State) : (beginCycle s).tb = s.tb := by
  unfold beginCycle; try dsimp only
  (repeat' split) <;> simp
@[simp] theorem beginCycle_sl_profiles (s : State) : (beginCycle s).sl.profiles = s.sl.profiles := by
  unfold beginCycle; try dsimp only
  (repeat' split) <;> simp
@[simp] theorem beginCycle_sl_windows (s : State) : (beginCycle s).sl.windows = s.sl.windows := by
  unfold beginCycle; try dsimp only
  (repeat' split) <;> simp
@[simp] theorem beginCycle_sl_nextId (s : State) : (beginCycle s).sl.nextId = s.sl.nextId := by
  unfold beginCycle; try dsimp only
  (repeat' split) <;> simp
@[simp] theorem beginCycle_sl_notices (s : State) : (beginCycle s).sl.notices = s.sl.notices := by
  unfold beginCycle; try dsimp only
  (repeat' split) <;> simp
@[simp] theorem beginCycle_sl_noticeNo (s : State) : (beginCycle s).sl.noticeNo = s.sl.noticeNo := by
  unfold beginCycle; try dsimp only
  (repeat' split) <;> simp
@[simp] theorem beginCycle_sl_outright (s : State) : (beginCycle s).sl.outright = s.sl.outright := by
  unfold beginCycle; try dsimp only
  (repeat' split) <;> simp
@[simp] theorem beginCycle_mu_cal (s : State) : (beginCycle s).mu.cal = s.mu.cal := by
  unfold beginCycle; try dsimp only
  (repeat' split) <;> simp
@[simp] theorem beginCycle_mu_iAcc (s : State) : (beginCycle s).mu.iAcc = s.mu.iAcc := by
  unfold beginCycle; try dsimp only
  (repeat' split) <;> simp
@[simp] theorem beginCycle_mu_vAcc (s : State) : (beginCycle s).mu.vAcc = s.mu.vAcc := by
  unfold beginCycle; try dsimp only
  (repeat' split) <;> simp
@[simp] theorem beginCycle_cl_log (s : State) : (beginCycle s).cl.log = s.cl.log := by
  unfold beginCycle; try dsimp only
  (repeat' split) <;> simp
@[simp] theorem beginCycle_cl_nextSeq (s : State) : (beginCycle s).cl.nextSeq = s.cl.nextSeq := by
  unfold beginCycle; try dsimp only
  (repeat' split) <;> simp
@[simp] theorem beginCycle_rg (s : State) : (beginCycle s).rg = s.rg := by
  unfold beginCycle; try dsimp only
  (repeat' split) <;> simp
@[simp] theorem beginCycle_oc_output (s : State) : (beginCycle s).oc.output = s.oc.output := by
  unfold beginCycle; try dsimp only
  (repeat' split) <;> simp
@[simp] theorem beginCycle_oc_restartPending (s : State) : (beginCycle s).oc.restartPending = s.oc.restartPending := by
  unfold beginCycle; try dsimp only
  (repeat' split) <;> simp
@[simp] theorem beginCycle_oc_autoRestart (s : State) : (beginCycle s).oc.autoRestart = s.oc.autoRestart := by
  unfold beginCycle; try dsimp only
  (repeat' split) <;> simp
@[simp] theorem beginCycle_oc_rampLimit (s : State) : (beginCycle s).oc.rampLimit = s.oc.rampLimit := by
  unfold beginCycle; try dsimp only
  (repeat' split) <;> simp
@[simp] theorem beginCycle_cq (s : State) : (beginCycle s).cq = s.cq := by
  unfold beginCycle; try dsimp only
  (repeat' split) <;> simp
@[simp] theorem beginCycle_sk (s : State) : (beginCycle s).sk = s.sk := by
  unfold beginCycle; try dsimp only
  (repeat' split) <;> simp
@[simp] theorem beginCycle_hs (s : State) : (beginCycle s).hs = s.hs := by
  unfold beginCycle; try dsimp only
  (repeat' split) <;> simp
@[simp] theorem beginCycle_lc (s : State) : (beginCycle s).lc = s.lc := by
  unfold beginCycle; try dsimp only
  (repeat' split) <;> simp
@[simp] theorem beginCycle_ns (s : State) : (beginCycle s).ns = s.ns := by
  unfold beginCycle; try dsimp only
  (repeat' split) <;> simp
@[simp] theorem beginCycle_pins (s : State) : (beginCycle s).pins = s.pins := by
  unfold beginCycle; try dsimp only
  (repeat' split) <;> simp
@[simp] theorem beginCycle_moment (s : State) : (beginCycle s).moment = s.moment := by
  unfold beginCycle; try dsimp only
  (repeat' split) <;> simp
@[simp] theorem beginCycle_pending (s : State) : (beginCycle s).pending = s.pending := by
  unfold beginCycle; try dsimp only
  (repeat' split) <;> simp

/-! #### cycleBoundary -/

@[simp] theorem cycleBoundary_tb (s : State) : (cycleBoundary s).tb = s.tb := by
  unfold cycleBoundary; try dsimp only
  (repeat' split) <;> simp
@[simp] theorem cycleBoundary_sl_nextId (s : State) : (cycleBoundary s).sl.nextId = s.sl.nextId := by
  unfold cycleBoundary; try dsimp only
  (repeat' split) <;> simp
@[simp] theorem cycleBoundary_sl_outright (s : State) : (cycleBoundary s).sl.outright = s.sl.outright := by
  unfold cycleBoundary; try dsimp only
  (repeat' split) <;> simp
@[simp] theorem cycleBoundary_mu_cal (s : State) : (cycleBoundary s).mu.cal = s.mu.cal := by
  unfold cycleBoundary; try dsimp only
  (repeat' split) <;> simp
@[simp] theorem cycleBoundary_mu_iAcc (s : State) : (cycleBoundary s).mu.iAcc = s.mu.iAcc := by
  unfold cycleBoundary; try dsimp only
  (repeat' split) <;> simp
@[simp] theorem cycleBoundary_mu_vAcc (s : State) : (cycleBoundary s).mu.vAcc = s.mu.vAcc := by
  unfold cycleBoundary; try dsimp only
  (repeat' split) <;> simp
@[simp] theorem cycleBoundary_oc_autoRestart (s : State) : (cycleBoundary s).oc.autoRestart = s.oc.autoRestart := by
  unfold cycleBoundary; try dsimp only
  (repeat' split) <;> simp
@[simp] theorem cycleBoundary_oc_rampLimit (s : State) : (cycleBoundary s).oc.rampLimit = s.oc.rampLimit := by
  unfold cycleBoundary; try dsimp only
  (repeat' split) <;> simp
@[simp] theorem cycleBoundary_hs (s : State) : (cycleBoundary s).hs = s.hs := by
  unfold cycleBoundary; try dsimp only
  (repeat' split) <;> simp
@[simp] theorem cycleBoundary_ns (s : State) : (cycleBoundary s).ns = s.ns := by
  unfold cycleBoundary; try dsimp only
  (repeat' split) <;> simp
@[simp] theorem cycleBoundary_pins (s : State) : (cycleBoundary s).pins = s.pins := by
  unfold cycleBoundary; try dsimp only
  (repeat' split) <;> simp
@[simp] theorem cycleBoundary_moment_wrap (s : State) : (cycleBoundary s).moment.wrap = s.moment.wrap := by
  unfold cycleBoundary; try dsimp only
  (repeat' split) <;> simp
@[simp] theorem cycleBoundary_moment_regTick (s : State) : (cycleBoundary s).moment.regTick = s.moment.regTick := by
  unfold cycleBoundary; try dsimp only
  (repeat' split) <;> simp
@[simp] theorem cycleBoundary_moment_lost (s : State) : (cycleBoundary s).moment.lost = s.moment.lost := by
  unfold cycleBoundary; try dsimp only
  (repeat' split) <;> simp
@[simp] theorem cycleBoundary_moment_requeued (s : State) : (cycleBoundary s).moment.requeued = s.moment.requeued := by
  unfold cycleBoundary; try dsimp only
  (repeat' split) <;> simp
@[simp] theorem cycleBoundary_pending (s : State) : (cycleBoundary s).pending = s.pending := by
  unfold cycleBoundary; try dsimp only
  (repeat' split) <;> simp

/-! #### offEdge -/

@[simp] theorem offEdge_tb (s : State) : (offEdge s).tb = s.tb := by
  unfold offEdge; try dsimp only
  (repeat' split) <;> simp
@[simp] theorem offEdge_sl_profiles (s : State) : (offEdge s).sl.profiles = s.sl.profiles := by
  unfold offEdge; try dsimp only
  (repeat' split) <;> simp
@[simp] theorem offEdge_sl_windows (s : State) : (offEdge s).sl.windows = s.sl.windows := by
  unfold offEdge; try dsimp only
  (repeat' split) <;> simp
@[simp] theorem offEdge_sl_nextId (s : State) : (offEdge s).sl.nextId = s.sl.nextId := by
  unfold offEdge; try dsimp only
  (repeat' split) <;> simp
@[simp] theorem offEdge_sl_notices (s : State) : (offEdge s).sl.notices = s.sl.notices := by
  unfold offEdge; try dsimp only
  (repeat' split) <;> simp
@[simp] theorem offEdge_sl_noticeNo (s : State) : (offEdge s).sl.noticeNo = s.sl.noticeNo := by
  unfold offEdge; try dsimp only
  (repeat' split) <;> simp
@[simp] theorem offEdge_sl_capture (s : State) : (offEdge s).sl.capture = s.sl.capture := by
  unfold offEdge; try dsimp only
  (repeat' split) <;> simp
@[simp] theorem offEdge_sl_outright (s : State) : (offEdge s).sl.outright = s.sl.outright := by
  unfold offEdge; try dsimp only
  (repeat' split) <;> simp
@[simp] theorem offEdge_mu_cal (s : State) : (offEdge s).mu.cal = s.mu.cal := by
  unfold offEdge; try dsimp only
  (repeat' split) <;> simp
@[simp] theorem offEdge_mu_iAcc (s : State) : (offEdge s).mu.iAcc = s.mu.iAcc := by
  unfold offEdge; try dsimp only
  (repeat' split) <;> simp
@[simp] theorem offEdge_mu_vAcc (s : State) : (offEdge s).mu.vAcc = s.mu.vAcc := by
  unfold offEdge; try dsimp only
  (repeat' split) <;> simp
@[simp] theorem offEdge_cl_log (s : State) : (offEdge s).cl.log = s.cl.log := by
  unfold offEdge; try dsimp only
  (repeat' split) <;> simp
@[simp] theorem offEdge_cl_nextSeq (s : State) : (offEdge s).cl.nextSeq = s.cl.nextSeq := by
  unfold offEdge; try dsimp only
  (repeat' split) <;> simp
@[simp] theorem offEdge_rg (s : State) : (offEdge s).rg = s.rg := by
  unfold offEdge; try dsimp only
  (repeat' split) <;> simp
@[simp] theorem offEdge_oc_output (s : State) : (offEdge s).oc.output = s.oc.output := by
  unfold offEdge; try dsimp only
  (repeat' split) <;> simp
@[simp] theorem offEdge_oc_restartPending (s : State) : (offEdge s).oc.restartPending = s.oc.restartPending := by
  unfold offEdge; try dsimp only
  (repeat' split) <;> simp
@[simp] theorem offEdge_oc_autoRestart (s : State) : (offEdge s).oc.autoRestart = s.oc.autoRestart := by
  unfold offEdge; try dsimp only
  (repeat' split) <;> simp
@[simp] theorem offEdge_oc_rampLimit (s : State) : (offEdge s).oc.rampLimit = s.oc.rampLimit := by
  unfold offEdge; try dsimp only
  (repeat' split) <;> simp
@[simp] theorem offEdge_cq (s : State) : (offEdge s).cq = s.cq := by
  unfold offEdge; try dsimp only
  (repeat' split) <;> simp
@[simp] theorem offEdge_sk (s : State) : (offEdge s).sk = s.sk := by
  unfold offEdge; try dsimp only
  (repeat' split) <;> simp
@[simp] theorem offEdge_hs (s : State) : (offEdge s).hs = s.hs := by
  unfold offEdge; try dsimp only
  (repeat' split) <;> simp
@[simp] theorem offEdge_lc (s : State) : (offEdge s).lc = s.lc := by
  unfold offEdge; try dsimp only
  (repeat' split) <;> simp
@[simp] theorem offEdge_ns (s : State) : (offEdge s).ns = s.ns := by
  unfold offEdge; try dsimp only
  (repeat' split) <;> simp
@[simp] theorem offEdge_pins (s : State) : (offEdge s).pins = s.pins := by
  unfold offEdge; try dsimp only
  (repeat' split) <;> simp
@[simp] theorem offEdge_moment (s : State) : (offEdge s).moment = s.moment := by
  unfold offEdge; try dsimp only
  (repeat' split) <;> simp
@[simp] theorem offEdge_pending (s : State) : (offEdge s).pending = s.pending := by
  unfold offEdge; try dsimp only
  (repeat' split) <;> simp

/-! #### takePosition -/

@[simp] theorem takePosition_tb (p : Position) (s : State) : (takePosition p s).tb = s.tb := by
  unfold takePosition; try dsimp only
  (repeat' split) <;> simp
@[simp] theorem takePosition_sl_nextId (p : Position) (s : State) : (takePosition p s).sl.nextId = s.sl.nextId := by
  unfold takePosition; try dsimp only
  (repeat' split) <;> simp
@[simp] theorem takePosition_sl_outright (p : Position) (s : State) : (takePosition p s).sl.outright = s.sl.outright := by
  unfold takePosition; try dsimp only
  (repeat' split) <;> simp
@[simp] theorem takePosition_mu_cal (p : Position) (s : State) : (takePosition p s).mu.cal = s.mu.cal := by
  unfold takePosition; try dsimp only
  (repeat' split) <;> simp
@[simp] theorem takePosition_mu_iAcc (p : Position) (s : State) : (takePosition p s).mu.iAcc = s.mu.iAcc := by
  unfold takePosition; try dsimp only
  (repeat' split) <;> simp
@[simp] theorem takePosition_mu_vAcc (p : Position) (s : State) : (takePosition p s).mu.vAcc = s.mu.vAcc := by
  unfold takePosition; try dsimp only
  (repeat' split) <;> simp
@[simp] theorem takePosition_oc_autoRestart (p : Position) (s : State) : (takePosition p s).oc.autoRestart = s.oc.autoRestart := by
  unfold takePosition; try dsimp only
  (repeat' split) <;> simp
@[simp] theorem takePosition_oc_rampLimit (p : Position) (s : State) : (takePosition p s).oc.rampLimit = s.oc.rampLimit := by
  unfold takePosition; try dsimp only
  (repeat' split) <;> simp
@[simp] theorem takePosition_hs (p : Position) (s : State) : (takePosition p s).hs = s.hs := by
  unfold takePosition; try dsimp only
  (repeat' split) <;> simp
@[simp] theorem takePosition_ns (p : Position) (s : State) : (takePosition p s).ns = s.ns := by
  unfold takePosition; try dsimp only
  (repeat' split) <;> simp
@[simp] theorem takePosition_pins (p : Position) (s : State) : (takePosition p s).pins = s.pins := by
  unfold takePosition; try dsimp only
  (repeat' split) <;> simp
@[simp] theorem takePosition_moment_wrap (p : Position) (s : State) : (takePosition p s).moment.wrap = s.moment.wrap := by
  unfold takePosition; try dsimp only
  (repeat' split) <;> simp
@[simp] theorem takePosition_moment_regTick (p : Position) (s : State) : (takePosition p s).moment.regTick = s.moment.regTick := by
  unfold takePosition; try dsimp only
  (repeat' split) <;> simp
@[simp] theorem takePosition_moment_lost (p : Position) (s : State) : (takePosition p s).moment.lost = s.moment.lost := by
  unfold takePosition; try dsimp only
  (repeat' split) <;> simp
@[simp] theorem takePosition_moment_requeued (p : Position) (s : State) : (takePosition p s).moment.requeued = s.moment.requeued := by
  unfold takePosition; try dsimp only
  (repeat' split) <;> simp
@[simp] theorem takePosition_pending (p : Position) (s : State) : (takePosition p s).pending = s.pending := by
  unfold takePosition; try dsimp only
  (repeat' split) <;> simp

/-! #### takeNext -/

@[simp] theorem takeNext_tb (s : State) : (takeNext s).tb = s.tb := by
  unfold takeNext; try dsimp only
  (repeat' split) <;> simp
@[simp] theorem takeNext_sl_nextId (s : State) : (takeNext s).sl.nextId = s.sl.nextId := by
  unfold takeNext; try dsimp only
  (repeat' split) <;> simp
@[simp] theorem takeNext_sl_outright (s : State) : (takeNext s).sl.outright = s.sl.outright := by
  unfold takeNext; try dsimp only
  (repeat' split) <;> simp
@[simp] theorem takeNext_mu_cal (s : State) : (takeNext s).mu.cal = s.mu.cal := by
  unfold takeNext; try dsimp only
  (repeat' split) <;> simp
@[simp] theorem takeNext_mu_iAcc (s : State) : (takeNext s).mu.iAcc = s.mu.iAcc := by
  unfold takeNext; try dsimp only
  (repeat' split) <;> simp
@[simp] theorem takeNext_mu_vAcc (s : State) : (takeNext s).mu.vAcc = s.mu.vAcc := by
  unfold takeNext; try dsimp only
  (repeat' split) <;> simp
@[simp] theorem takeNext_oc_autoRestart (s : State) : (takeNext s).oc.autoRestart = s.oc.autoRestart := by
  unfold takeNext; try dsimp only
  (repeat' split) <;> simp
@[simp] theorem takeNext_oc_rampLimit (s : State) : (takeNext s).oc.rampLimit = s.oc.rampLimit := by
  unfold takeNext; try dsimp only
  (repeat' split) <;> simp
@[simp] theorem takeNext_hs (s : State) : (takeNext s).hs = s.hs := by
  unfold takeNext; try dsimp only
  (repeat' split) <;> simp
@[simp] theorem takeNext_ns (s : State) : (takeNext s).ns = s.ns := by
  unfold takeNext; try dsimp only
  (repeat' split) <;> simp
@[simp] theorem takeNext_pins (s : State) : (takeNext s).pins = s.pins := by
  unfold takeNext; try dsimp only
  (repeat' split) <;> simp
@[simp] theorem takeNext_moment_wrap (s : State) : (takeNext s).moment.wrap = s.moment.wrap := by
  unfold takeNext; try dsimp only
  (repeat' split) <;> simp
@[simp] theorem takeNext_moment_regTick (s : State) : (takeNext s).moment.regTick = s.moment.regTick := by
  unfold takeNext; try dsimp only
  (repeat' split) <;> simp
@[simp] theorem takeNext_moment_lost (s : State) : (takeNext s).moment.lost = s.moment.lost := by
  unfold takeNext; try dsimp only
  (repeat' split) <;> simp
@[simp] theorem takeNext_moment_requeued (s : State) : (takeNext s).moment.requeued = s.moment.requeued := by
  unfold takeNext; try dsimp only
  (repeat' split) <;> simp
@[simp] theorem takeNext_pending (s : State) : (takeNext s).pending = s.pending := by
  unfold takeNext; try dsimp only
  (repeat' split) <;> simp

/-! #### takeSome -/

@[simp] theorem takeSome_tb (n : Nat) (s : State) : (takeSome n s).tb = s.tb := by
  induction n generalizing s with
  | zero => rfl
  | succ n ih => simp [takeSome, ih]
@[simp] theorem takeSome_sl_nextId (n : Nat) (s : State) : (takeSome n s).sl.nextId = s.sl.nextId := by
  induction n generalizing s with
  | zero => rfl
  | succ n ih => simp [takeSome, ih]
@[simp] theorem takeSome_sl_outright (n : Nat) (s : State) : (takeSome n s).sl.outright = s.sl.outright := by
  induction n generalizing s with
  | zero => rfl
  | succ n ih => simp [takeSome, ih]
@[simp] theorem takeSome_mu_cal (n : Nat) (s : State) : (takeSome n s).mu.cal = s.mu.cal := by
  induction n generalizing s with
  | zero => rfl
  | succ n ih => simp [takeSome, ih]
@[simp] theorem takeSome_mu_iAcc (n : Nat) (s : State) : (takeSome n s).mu.iAcc = s.mu.iAcc := by
  induction n generalizing s with
  | zero => rfl
  | succ n ih => simp [takeSome, ih]
@[simp] theorem takeSome_mu_vAcc (n : Nat) (s : State) : (takeSome n s).mu.vAcc = s.mu.vAcc := by
  induction n generalizing s with
  | zero => rfl
  | succ n ih => simp [takeSome, ih]
@[simp] theorem takeSome_oc_autoRestart (n : Nat) (s : State) : (takeSome n s).oc.autoRestart = s.oc.autoRestart := by
  induction n generalizing s with
  | zero => rfl
  | succ n ih => simp [takeSome, ih]
@[simp] theorem takeSome_oc_rampLimit (n : Nat) (s : State) : (takeSome n s).oc.rampLimit = s.oc.rampLimit := by
  induction n generalizing s with
  | zero => rfl
  | succ n ih => simp [takeSome, ih]
@[simp] theorem takeSome_hs (n : Nat) (s : State) : (takeSome n s).hs = s.hs := by
  induction n generalizing s with
  | zero => rfl
  | succ n ih => simp [takeSome, ih]
@[simp] theorem takeSome_ns (n : Nat) (s : State) : (takeSome n s).ns = s.ns := by
  induction n generalizing s with
  | zero => rfl
  | succ n ih => simp [takeSome, ih]
@[simp] theorem takeSome_pins (n : Nat) (s : State) : (takeSome n s).pins = s.pins := by
  induction n generalizing s with
  | zero => rfl
  | succ n ih => simp [takeSome, ih]
@[simp] theorem takeSome_moment_wrap (n : Nat) (s : State) : (takeSome n s).moment.wrap = s.moment.wrap := by
  induction n generalizing s with
  | zero => rfl
  | succ n ih => simp [takeSome, ih]
@[simp] theorem takeSome_moment_regTick (n : Nat) (s : State) : (takeSome n s).moment.regTick = s.moment.regTick := by
  induction n generalizing s with
  | zero => rfl
  | succ n ih => simp [takeSome, ih]
@[simp] theorem takeSome_moment_lost (n : Nat) (s : State) : (takeSome n s).moment.lost = s.moment.lost := by
  induction n generalizing s with
  | zero => rfl
  | succ n ih => simp [takeSome, ih]
@[simp] theorem takeSome_moment_requeued (n : Nat) (s : State) : (takeSome n s).moment.requeued = s.moment.requeued := by
  induction n generalizing s with
  | zero => rfl
  | succ n ih => simp [takeSome, ih]
@[simp] theorem takeSome_pending (n : Nat) (s : State) : (takeSome n s).pending = s.pending := by
  induction n generalizing s with
  | zero => rfl
  | succ n ih => simp [takeSome, ih]

/-! #### takeThrough -/

@[simp] theorem takeThrough_tb (p : Position) (s : State) : (takeThrough p s).tb = s.tb := by
  unfold takeThrough; try dsimp only
  (repeat' split) <;> simp
@[simp] theorem takeThrough_sl_nextId (p : Position) (s : State) : (takeThrough p s).sl.nextId = s.sl.nextId := by
  unfold takeThrough; try dsimp only
  (repeat' split) <;> simp
@[simp] theorem takeThrough_sl_outright (p : Position) (s : State) : (takeThrough p s).sl.outright = s.sl.outright := by
  unfold takeThrough; try dsimp only
  (repeat' split) <;> simp
@[simp] theorem takeThrough_mu_cal (p : Position) (s : State) : (takeThrough p s).mu.cal = s.mu.cal := by
  unfold takeThrough; try dsimp only
  (repeat' split) <;> simp
@[simp] theorem takeThrough_mu_iAcc (p : Position) (s : State) : (takeThrough p s).mu.iAcc = s.mu.iAcc := by
  unfold takeThrough; try dsimp only
  (repeat' split) <;> simp
@[simp] theorem takeThrough_mu_vAcc (p : Position) (s : State) : (takeThrough p s).mu.vAcc = s.mu.vAcc := by
  unfold takeThrough; try dsimp only
  (repeat' split) <;> simp
@[simp] theorem takeThrough_oc_autoRestart (p : Position) (s : State) : (takeThrough p s).oc.autoRestart = s.oc.autoRestart := by
  unfold takeThrough; try dsimp only
  (repeat' split) <;> simp
@[simp] theorem takeThrough_oc_rampLimit (p : Position) (s : State) : (takeThrough p s).oc.rampLimit = s.oc.rampLimit := by
  unfold takeThrough; try dsimp only
  (repeat' split) <;> simp
@[simp] theorem takeThrough_hs (p : Position) (s : State) : (takeThrough p s).hs = s.hs := by
  unfold takeThrough; try dsimp only
  (repeat' split) <;> simp
@[simp] theorem takeThrough_ns (p : Position) (s : State) : (takeThrough p s).ns = s.ns := by
  unfold takeThrough; try dsimp only
  (repeat' split) <;> simp
@[simp] theorem takeThrough_pins (p : Position) (s : State) : (takeThrough p s).pins = s.pins := by
  unfold takeThrough; try dsimp only
  (repeat' split) <;> simp
@[simp] theorem takeThrough_moment_wrap (p : Position) (s : State) : (takeThrough p s).moment.wrap = s.moment.wrap := by
  unfold takeThrough; try dsimp only
  (repeat' split) <;> simp
@[simp] theorem takeThrough_moment_regTick (p : Position) (s : State) : (takeThrough p s).moment.regTick = s.moment.regTick := by
  unfold takeThrough; try dsimp only
  (repeat' split) <;> simp
@[simp] theorem takeThrough_moment_lost (p : Position) (s : State) : (takeThrough p s).moment.lost = s.moment.lost := by
  unfold takeThrough; try dsimp only
  (repeat' split) <;> simp
@[simp] theorem takeThrough_moment_requeued (p : Position) (s : State) : (takeThrough p s).moment.requeued = s.moment.requeued := by
  unfold takeThrough; try dsimp only
  (repeat' split) <;> simp
@[simp] theorem takeThrough_pending (p : Position) (s : State) : (takeThrough p s).pending = s.pending := by
  unfold takeThrough; try dsimp only
  (repeat' split) <;> simp

/-! #### finishTimeline -/

@[simp] theorem finishTimeline_tb (s : State) : (finishTimeline s).tb = s.tb := by
  unfold finishTimeline; try dsimp only
  (repeat' split) <;> simp
@[simp] theorem finishTimeline_sl_nextId (s : State) : (finishTimeline s).sl.nextId = s.sl.nextId := by
  unfold finishTimeline; try dsimp only
  (repeat' split) <;> simp
@[simp] theorem finishTimeline_sl_outright (s : State) : (finishTimeline s).sl.outright = s.sl.outright := by
  unfold finishTimeline; try dsimp only
  (repeat' split) <;> simp
@[simp] theorem finishTimeline_mu_cal (s : State) : (finishTimeline s).mu.cal = s.mu.cal := by
  unfold finishTimeline; try dsimp only
  (repeat' split) <;> simp
@[simp] theorem finishTimeline_mu_iAcc (s : State) : (finishTimeline s).mu.iAcc = s.mu.iAcc := by
  unfold finishTimeline; try dsimp only
  (repeat' split) <;> simp
@[simp] theorem finishTimeline_mu_vAcc (s : State) : (finishTimeline s).mu.vAcc = s.mu.vAcc := by
  unfold finishTimeline; try dsimp only
  (repeat' split) <;> simp
@[simp] theorem finishTimeline_oc_autoRestart (s : State) : (finishTimeline s).oc.autoRestart = s.oc.autoRestart := by
  unfold finishTimeline; try dsimp only
  (repeat' split) <;> simp
@[simp] theorem finishTimeline_oc_rampLimit (s : State) : (finishTimeline s).oc.rampLimit = s.oc.rampLimit := by
  unfold finishTimeline; try dsimp only
  (repeat' split) <;> simp
@[simp] theorem finishTimeline_hs (s : State) : (finishTimeline s).hs = s.hs := by
  unfold finishTimeline; try dsimp only
  (repeat' split) <;> simp
@[simp] theorem finishTimeline_ns (s : State) : (finishTimeline s).ns = s.ns := by
  unfold finishTimeline; try dsimp only
  (repeat' split) <;> simp
@[simp] theorem finishTimeline_pins (s : State) : (finishTimeline s).pins = s.pins := by
  unfold finishTimeline; try dsimp only
  (repeat' split) <;> simp
@[simp] theorem finishTimeline_moment_wrap (s : State) : (finishTimeline s).moment.wrap = s.moment.wrap := by
  unfold finishTimeline; try dsimp only
  (repeat' split) <;> simp
@[simp] theorem finishTimeline_moment_regTick (s : State) : (finishTimeline s).moment.regTick = s.moment.regTick := by
  unfold finishTimeline; try dsimp only
  (repeat' split) <;> simp
@[simp] theorem finishTimeline_moment_lost (s : State) : (finishTimeline s).moment.lost = s.moment.lost := by
  unfold finishTimeline; try dsimp only
  (repeat' split) <;> simp
@[simp] theorem finishTimeline_moment_requeued (s : State) : (finishTimeline s).moment.requeued = s.moment.requeued := by
  unfold finishTimeline; try dsimp only
  (repeat' split) <;> simp
@[simp] theorem finishTimeline_pending (s : State) : (finishTimeline s).pending = s.pending := by
  unfold finishTimeline; try dsimp only
  (repeat' split) <;> simp

/-! #### tickNotice -/

@[simp] theorem tickNotice_tb (s : State) : (tickNotice s).tb = s.tb := by
  unfold tickNotice; try dsimp only
  (repeat' split) <;> simp
@[simp] theorem tickNotice_sl_profiles (s : State) : (tickNotice s).sl.profiles = s.sl.profiles := by
  unfold tickNotice; try dsimp only
  (repeat' split) <;> simp
@[simp] theorem tickNotice_sl_nextId (s : State) : (tickNotice s).sl.nextId = s.sl.nextId := by
  unfold tickNotice; try dsimp only
  (repeat' split) <;> simp
@[simp] theorem tickNotice_sl_notices (s : State) : (tickNotice s).sl.notices = s.sl.notices := by
  unfold tickNotice; try dsimp only
  (repeat' split) <;> simp
@[simp] theorem tickNotice_sl_noticeNo (s : State) : (tickNotice s).sl.noticeNo = s.sl.noticeNo := by
  unfold tickNotice; try dsimp only
  (repeat' split) <;> simp
@[simp] theorem tickNotice_sl_capture (s : State) : (tickNotice s).sl.capture = s.sl.capture := by
  unfold tickNotice; try dsimp only
  (repeat' split) <;> simp
@[simp] theorem tickNotice_mu_cal (s : State) : (tickNotice s).mu.cal = s.mu.cal := by
  unfold tickNotice; try dsimp only
  (repeat' split) <;> simp
@[simp] theorem tickNotice_mu_iAcc (s : State) : (tickNotice s).mu.iAcc = s.mu.iAcc := by
  unfold tickNotice; try dsimp only
  (repeat' split) <;> simp
@[simp] theorem tickNotice_mu_vAcc (s : State) : (tickNotice s).mu.vAcc = s.mu.vAcc := by
  unfold tickNotice; try dsimp only
  (repeat' split) <;> simp
@[simp] theorem tickNotice_cl (s : State) : (tickNotice s).cl = s.cl := by
  unfold tickNotice; try dsimp only
  (repeat' split) <;> simp
@[simp] theorem tickNotice_rg (s : State) : (tickNotice s).rg = s.rg := by
  unfold tickNotice; try dsimp only
  (repeat' split) <;> simp
@[simp] theorem tickNotice_oc_output (s : State) : (tickNotice s).oc.output = s.oc.output := by
  unfold tickNotice; try dsimp only
  (repeat' split) <;> simp
@[simp] theorem tickNotice_oc_restartPending (s : State) : (tickNotice s).oc.restartPending = s.oc.restartPending := by
  unfold tickNotice; try dsimp only
  (repeat' split) <;> simp
@[simp] theorem tickNotice_oc_autoRestart (s : State) : (tickNotice s).oc.autoRestart = s.oc.autoRestart := by
  unfold tickNotice; try dsimp only
  (repeat' split) <;> simp
@[simp] theorem tickNotice_oc_rampLimit (s : State) : (tickNotice s).oc.rampLimit = s.oc.rampLimit := by
  unfold tickNotice; try dsimp only
  (repeat' split) <;> simp
@[simp] theorem tickNotice_cq (s : State) : (tickNotice s).cq = s.cq := by
  unfold tickNotice; try dsimp only
  (repeat' split) <;> simp
@[simp] theorem tickNotice_sk (s : State) : (tickNotice s).sk = s.sk := by
  unfold tickNotice; try dsimp only
  (repeat' split) <;> simp
@[simp] theorem tickNotice_hs (s : State) : (tickNotice s).hs = s.hs := by
  unfold tickNotice; try dsimp only
  (repeat' split) <;> simp
@[simp] theorem tickNotice_lc (s : State) : (tickNotice s).lc = s.lc := by
  unfold tickNotice; try dsimp only
  (repeat' split) <;> simp
@[simp] theorem tickNotice_ns (s : State) : (tickNotice s).ns = s.ns := by
  unfold tickNotice; try dsimp only
  (repeat' split) <;> simp
@[simp] theorem tickNotice_pins (s : State) : (tickNotice s).pins = s.pins := by
  unfold tickNotice; try dsimp only
  (repeat' split) <;> simp
@[simp] theorem tickNotice_moment_wrap (s : State) : (tickNotice s).moment.wrap = s.moment.wrap := by
  unfold tickNotice; try dsimp only
  (repeat' split) <;> simp
@[simp] theorem tickNotice_moment_regTick (s : State) : (tickNotice s).moment.regTick = s.moment.regTick := by
  unfold tickNotice; try dsimp only
  (repeat' split) <;> simp
@[simp] theorem tickNotice_moment_lost (s : State) : (tickNotice s).moment.lost = s.moment.lost := by
  unfold tickNotice; try dsimp only
  (repeat' split) <;> simp
@[simp] theorem tickNotice_moment_requeued (s : State) : (tickNotice s).moment.requeued = s.moment.requeued := by
  unfold tickNotice; try dsimp only
  (repeat' split) <;> simp
@[simp] theorem tickNotice_pending (s : State) : (tickNotice s).pending = s.pending := by
  unfold tickNotice; try dsimp only
  (repeat' split) <;> simp

/-! #### rephaseWindow -/

@[simp] theorem rephaseWindow_tb (p : Profile) (φ : Nat) (w : MWindow) (s : State) : (rephaseWindow p φ w s).tb = s.tb := by
  unfold rephaseWindow; try dsimp only
  (repeat' split) <;> simp
@[simp] theorem rephaseWindow_sl_profiles (p : Profile) (φ : Nat) (w : MWindow) (s : State) : (rephaseWindow p φ w s).sl.profiles = s.sl.profiles := by
  unfold rephaseWindow; try dsimp only
  (repeat' split) <;> simp
@[simp] theorem rephaseWindow_sl_windows (p : Profile) (φ : Nat) (w : MWindow) (s : State) : (rephaseWindow p φ w s).sl.windows = s.sl.windows := by
  unfold rephaseWindow; try dsimp only
  (repeat' split) <;> simp
@[simp] theorem rephaseWindow_sl_nextId (p : Profile) (φ : Nat) (w : MWindow) (s : State) : (rephaseWindow p φ w s).sl.nextId = s.sl.nextId := by
  unfold rephaseWindow; try dsimp only
  (repeat' split) <;> simp
@[simp] theorem rephaseWindow_sl_notices (p : Profile) (φ : Nat) (w : MWindow) (s : State) : (rephaseWindow p φ w s).sl.notices = s.sl.notices := by
  unfold rephaseWindow; try dsimp only
  (repeat' split) <;> simp
@[simp] theorem rephaseWindow_sl_noticeNo (p : Profile) (φ : Nat) (w : MWindow) (s : State) : (rephaseWindow p φ w s).sl.noticeNo = s.sl.noticeNo := by
  unfold rephaseWindow; try dsimp only
  (repeat' split) <;> simp
@[simp] theorem rephaseWindow_sl_outright (p : Profile) (φ : Nat) (w : MWindow) (s : State) : (rephaseWindow p φ w s).sl.outright = s.sl.outright := by
  unfold rephaseWindow; try dsimp only
  (repeat' split) <;> simp
@[simp] theorem rephaseWindow_mu_cal (p : Profile) (φ : Nat) (w : MWindow) (s : State) : (rephaseWindow p φ w s).mu.cal = s.mu.cal := by
  unfold rephaseWindow; try dsimp only
  (repeat' split) <;> simp
@[simp] theorem rephaseWindow_mu_iAcc (p : Profile) (φ : Nat) (w : MWindow) (s : State) : (rephaseWindow p φ w s).mu.iAcc = s.mu.iAcc := by
  unfold rephaseWindow; try dsimp only
  (repeat' split) <;> simp
@[simp] theorem rephaseWindow_mu_vAcc (p : Profile) (φ : Nat) (w : MWindow) (s : State) : (rephaseWindow p φ w s).mu.vAcc = s.mu.vAcc := by
  unfold rephaseWindow; try dsimp only
  (repeat' split) <;> simp
@[simp] theorem rephaseWindow_cl (p : Profile) (φ : Nat) (w : MWindow) (s : State) : (rephaseWindow p φ w s).cl = s.cl := by
  unfold rephaseWindow; try dsimp only
  (repeat' split) <;> simp
@[simp] theorem rephaseWindow_rg (p : Profile) (φ : Nat) (w : MWindow) (s : State) : (rephaseWindow p φ w s).rg = s.rg := by
  unfold rephaseWindow; try dsimp only
  (repeat' split) <;> simp
@[simp] theorem rephaseWindow_oc (p : Profile) (φ : Nat) (w : MWindow) (s : State) : (rephaseWindow p φ w s).oc = s.oc := by
  unfold rephaseWindow; try dsimp only
  (repeat' split) <;> simp
@[simp] theorem rephaseWindow_cq (p : Profile) (φ : Nat) (w : MWindow) (s : State) : (rephaseWindow p φ w s).cq = s.cq := by
  unfold rephaseWindow; try dsimp only
  (repeat' split) <;> simp
@[simp] theorem rephaseWindow_sk (p : Profile) (φ : Nat) (w : MWindow) (s : State) : (rephaseWindow p φ w s).sk = s.sk := by
  unfold rephaseWindow; try dsimp only
  (repeat' split) <;> simp
@[simp] theorem rephaseWindow_hs (p : Profile) (φ : Nat) (w : MWindow) (s : State) : (rephaseWindow p φ w s).hs = s.hs := by
  unfold rephaseWindow; try dsimp only
  (repeat' split) <;> simp
@[simp] theorem rephaseWindow_lc (p : Profile) (φ : Nat) (w : MWindow) (s : State) : (rephaseWindow p φ w s).lc = s.lc := by
  unfold rephaseWindow; try dsimp only
  (repeat' split) <;> simp
@[simp] theorem rephaseWindow_ns (p : Profile) (φ : Nat) (w : MWindow) (s : State) : (rephaseWindow p φ w s).ns = s.ns := by
  unfold rephaseWindow; try dsimp only
  (repeat' split) <;> simp
@[simp] theorem rephaseWindow_pins (p : Profile) (φ : Nat) (w : MWindow) (s : State) : (rephaseWindow p φ w s).pins = s.pins := by
  unfold rephaseWindow; try dsimp only
  (repeat' split) <;> simp
@[simp] theorem rephaseWindow_moment (p : Profile) (φ : Nat) (w : MWindow) (s : State) : (rephaseWindow p φ w s).moment = s.moment := by
  unfold rephaseWindow; try dsimp only
  (repeat' split) <;> simp
@[simp] theorem rephaseWindow_pending (p : Profile) (φ : Nat) (w : MWindow) (s : State) : (rephaseWindow p φ w s).pending = s.pending := by
  unfold rephaseWindow; try dsimp only
  (repeat' split) <;> simp

/-! #### rephase -/

@[simp] theorem rephase_tb (s : State) : (rephase s).tb = s.tb := by
  unfold rephase; try dsimp only
  (repeat' split) <;> simp
@[simp] theorem rephase_sl_profiles (s : State) : (rephase s).sl.profiles = s.sl.profiles := by
  unfold rephase; try dsimp only
  (repeat' split) <;> simp
@[simp] theorem rephase_sl_nextId (s : State) : (rephase s).sl.nextId = s.sl.nextId := by
  unfold rephase; try dsimp only
  (repeat' split) <;> simp
@[simp] theorem rephase_sl_notices (s : State) : (rephase s).sl.notices = s.sl.notices := by
  unfold rephase; try dsimp only
  (repeat' split) <;> simp
@[simp] theorem rephase_sl_noticeNo (s : State) : (rephase s).sl.noticeNo = s.sl.noticeNo := by
  unfold rephase; try dsimp only
  (repeat' split) <;> simp
@[simp] theorem rephase_sl_outright (s : State) : (rephase s).sl.outright = s.sl.outright := by
  unfold rephase; try dsimp only
  (repeat' split) <;> simp
@[simp] theorem rephase_mu_cal (s : State) : (rephase s).mu.cal = s.mu.cal := by
  unfold rephase; try dsimp only
  (repeat' split) <;> simp
@[simp] theorem rephase_mu_iAcc (s : State) : (rephase s).mu.iAcc = s.mu.iAcc := by
  unfold rephase; try dsimp only
  (repeat' split) <;> simp
@[simp] theorem rephase_mu_vAcc (s : State) : (rephase s).mu.vAcc = s.mu.vAcc := by
  unfold rephase; try dsimp only
  (repeat' split) <;> simp
@[simp] theorem rephase_oc_autoRestart (s : State) : (rephase s).oc.autoRestart = s.oc.autoRestart := by
  unfold rephase; try dsimp only
  (repeat' split) <;> simp
@[simp] theorem rephase_oc_rampLimit (s : State) : (rephase s).oc.rampLimit = s.oc.rampLimit := by
  unfold rephase; try dsimp only
  (repeat' split) <;> simp
@[simp] theorem rephase_hs (s : State) : (rephase s).hs = s.hs := by
  unfold rephase; try dsimp only
  (repeat' split) <;> simp
@[simp] theorem rephase_ns (s : State) : (rephase s).ns = s.ns := by
  unfold rephase; try dsimp only
  (repeat' split) <;> simp
@[simp] theorem rephase_pins (s : State) : (rephase s).pins = s.pins := by
  unfold rephase; try dsimp only
  (repeat' split) <;> simp
@[simp] theorem rephase_moment (s : State) : (rephase s).moment = s.moment := by
  unfold rephase; try dsimp only
  (repeat' split) <;> simp
@[simp] theorem rephase_pending (s : State) : (rephase s).pending = s.pending := by
  unfold rephase; try dsimp only
  (repeat' split) <;> simp

/-! #### endSuspension -/

@[simp] theorem endSuspension_tb (s : State) : (endSuspension s).tb = s.tb := by
  unfold endSuspension; try dsimp only
  (repeat' split) <;> simp
@[simp] theorem endSuspension_sl_profiles (s : State) : (endSuspension s).sl.profiles = s.sl.profiles := by
  unfold endSuspension; try dsimp only
  (repeat' split) <;> simp
@[simp] theorem endSuspension_sl_windows (s : State) : (endSuspension s).sl.windows = s.sl.windows := by
  unfold endSuspension; try dsimp only
  (repeat' split) <;> simp
@[simp] theorem endSuspension_sl_nextId (s : State) : (endSuspension s).sl.nextId = s.sl.nextId := by
  unfold endSuspension; try dsimp only
  (repeat' split) <;> simp
@[simp] theorem endSuspension_sl_notices (s : State) : (endSuspension s).sl.notices = s.sl.notices := by
  unfold endSuspension; try dsimp only
  (repeat' split) <;> simp
@[simp] theorem endSuspension_sl_noticeNo (s : State) : (endSuspension s).sl.noticeNo = s.sl.noticeNo := by
  unfold endSuspension; try dsimp only
  (repeat' split) <;> simp
@[simp] theorem endSuspension_sl_outright (s : State) : (endSuspension s).sl.outright = s.sl.outright := by
  unfold endSuspension; try dsimp only
  (repeat' split) <;> simp
@[simp] theorem endSuspension_mu_cal (s : State) : (endSuspension s).mu.cal = s.mu.cal := by
  unfold endSuspension; try dsimp only
  (repeat' split) <;> simp
@[simp] theorem endSuspension_mu_iAcc (s : State) : (endSuspension s).mu.iAcc = s.mu.iAcc := by
  unfold endSuspension; try dsimp only
  (repeat' split) <;> simp
@[simp] theorem endSuspension_mu_vAcc (s : State) : (endSuspension s).mu.vAcc = s.mu.vAcc := by
  unfold endSuspension; try dsimp only
  (repeat' split) <;> simp
@[simp] theorem endSuspension_cl_log (s : State) : (endSuspension s).cl.log = s.cl.log := by
  unfold endSuspension; try dsimp only
  (repeat' split) <;> simp
@[simp] theorem endSuspension_cl_nextSeq (s : State) : (endSuspension s).cl.nextSeq = s.cl.nextSeq := by
  unfold endSuspension; try dsimp only
  (repeat' split) <;> simp
@[simp] theorem endSuspension_rg (s : State) : (endSuspension s).rg = s.rg := by
  unfold endSuspension; try dsimp only
  (repeat' split) <;> simp
@[simp] theorem endSuspension_oc_output (s : State) : (endSuspension s).oc.output = s.oc.output := by
  unfold endSuspension; try dsimp only
  (repeat' split) <;> simp
@[simp] theorem endSuspension_oc_restartPending (s : State) : (endSuspension s).oc.restartPending = s.oc.restartPending := by
  unfold endSuspension; try dsimp only
  (repeat' split) <;> simp
@[simp] theorem endSuspension_oc_autoRestart (s : State) : (endSuspension s).oc.autoRestart = s.oc.autoRestart := by
  unfold endSuspension; try dsimp only
  (repeat' split) <;> simp
@[simp] theorem endSuspension_oc_rampLimit (s : State) : (endSuspension s).oc.rampLimit = s.oc.rampLimit := by
  unfold endSuspension; try dsimp only
  (repeat' split) <;> simp
@[simp] theorem endSuspension_cq (s : State) : (endSuspension s).cq = s.cq := by
  unfold endSuspension; try dsimp only
  (repeat' split) <;> simp
@[simp] theorem endSuspension_sk (s : State) : (endSuspension s).sk = s.sk := by
  unfold endSuspension; try dsimp only
  (repeat' split) <;> simp
@[simp] theorem endSuspension_hs (s : State) : (endSuspension s).hs = s.hs := by
  unfold endSuspension; try dsimp only
  (repeat' split) <;> simp
@[simp] theorem endSuspension_lc (s : State) : (endSuspension s).lc = s.lc := by
  unfold endSuspension; try dsimp only
  (repeat' split) <;> simp
@[simp] theorem endSuspension_ns (s : State) : (endSuspension s).ns = s.ns := by
  unfold endSuspension; try dsimp only
  (repeat' split) <;> simp
@[simp] theorem endSuspension_pins (s : State) : (endSuspension s).pins = s.pins := by
  unfold endSuspension; try dsimp only
  (repeat' split) <;> simp
@[simp] theorem endSuspension_moment (s : State) : (endSuspension s).moment = s.moment := by
  unfold endSuspension; try dsimp only
  (repeat' split) <;> simp
@[simp] theorem endSuspension_pending (s : State) : (endSuspension s).pending = s.pending := by
  unfold endSuspension; try dsimp only
  (repeat' split) <;> simp

/-! #### beginMoment -/

@[simp] theorem beginMoment_sl (x : Samples) (r : Bool) (s : State) : (beginMoment x r s).sl = s.sl := rfl
@[simp] theorem beginMoment_mu_cal (x : Samples) (r : Bool) (s : State) : (beginMoment x r s).mu.cal = s.mu.cal := rfl
@[simp] theorem beginMoment_cl_log (x : Samples) (r : Bool) (s : State) : (beginMoment x r s).cl.log = s.cl.log := rfl
@[simp] theorem beginMoment_cl_nextSeq (x : Samples) (r : Bool) (s : State) : (beginMoment x r s).cl.nextSeq = s.cl.nextSeq := rfl
@[simp] theorem beginMoment_rg (x : Samples) (r : Bool) (s : State) : (beginMoment x r s).rg = s.rg := rfl
@[simp] theorem beginMoment_oc (x : Samples) (r : Bool) (s : State) : (beginMoment x r s).oc = s.oc := rfl
@[simp] theorem beginMoment_cq (x : Samples) (r : Bool) (s : State) : (beginMoment x r s).cq = s.cq := rfl
@[simp] theorem beginMoment_sk (x : Samples) (r : Bool) (s : State) : (beginMoment x r s).sk = s.sk := rfl
@[simp] theorem beginMoment_pins (x : Samples) (r : Bool) (s : State) : (beginMoment x r s).pins = s.pins := rfl
@[simp] theorem beginMoment_moment_lost (x : Samples) (r : Bool) (s : State) : (beginMoment x r s).moment.lost = s.moment.lost := rfl
@[simp] theorem beginMoment_moment_requeued (x : Samples) (r : Bool) (s : State) : (beginMoment x r s).moment.requeued = s.moment.requeued := rfl
@[simp] theorem beginMoment_pending (x : Samples) (r : Bool) (s : State) : (beginMoment x r s).pending = s.pending := rfl

/-! #### handNotice -/

@[simp] theorem handNotice_tb (x : Samples) (s : State) : (handNotice x s).tb = s.tb := by simp [handNotice]
@[simp] theorem handNotice_sl_profiles (x : Samples) (s : State) : (handNotice x s).sl.profiles = s.sl.profiles := by simp [handNotice]
@[simp] theorem handNotice_sl_nextId (x : Samples) (s : State) : (handNotice x s).sl.nextId = s.sl.nextId := by simp [handNotice]
@[simp] theorem handNotice_sl_notices (x : Samples) (s : State) : (handNotice x s).sl.notices = s.sl.notices := by simp [handNotice]
@[simp] theorem handNotice_sl_noticeNo (x : Samples) (s : State) : (handNotice x s).sl.noticeNo = s.sl.noticeNo := by simp [handNotice]
@[simp] theorem handNotice_sl_capture (x : Samples) (s : State) : (handNotice x s).sl.capture = s.sl.capture := by simp [handNotice]
@[simp] theorem handNotice_mu_cal (x : Samples) (s : State) : (handNotice x s).mu.cal = s.mu.cal := by simp [handNotice]
@[simp] theorem handNotice_mu_iAcc (x : Samples) (s : State) : (handNotice x s).mu.iAcc = s.mu.iAcc := by simp [handNotice]
@[simp] theorem handNotice_mu_vAcc (x : Samples) (s : State) : (handNotice x s).mu.vAcc = s.mu.vAcc := by simp [handNotice]
@[simp] theorem handNotice_cl (x : Samples) (s : State) : (handNotice x s).cl = s.cl := by simp [handNotice]
@[simp] theorem handNotice_rg (x : Samples) (s : State) : (handNotice x s).rg = s.rg := by simp [handNotice]
@[simp] theorem handNotice_oc_output (x : Samples) (s : State) : (handNotice x s).oc.output = s.oc.output := by simp [handNotice]
@[simp] theorem handNotice_oc_restartPending (x : Samples) (s : State) : (handNotice x s).oc.restartPending = s.oc.restartPending := by simp [handNotice]
@[simp] theorem handNotice_oc_autoRestart (x : Samples) (s : State) : (handNotice x s).oc.autoRestart = s.oc.autoRestart := by simp [handNotice]
@[simp] theorem handNotice_oc_rampLimit (x : Samples) (s : State) : (handNotice x s).oc.rampLimit = s.oc.rampLimit := by simp [handNotice]
@[simp] theorem handNotice_cq (x : Samples) (s : State) : (handNotice x s).cq = s.cq := by simp [handNotice]
@[simp] theorem handNotice_sk (x : Samples) (s : State) : (handNotice x s).sk = s.sk := by simp [handNotice]
@[simp] theorem handNotice_hs (x : Samples) (s : State) : (handNotice x s).hs = s.hs := by simp [handNotice]
@[simp] theorem handNotice_lc (x : Samples) (s : State) : (handNotice x s).lc = s.lc := by simp [handNotice]
@[simp] theorem handNotice_ns (x : Samples) (s : State) : (handNotice x s).ns = s.ns := by simp [handNotice]
@[simp] theorem handNotice_pins (x : Samples) (s : State) : (handNotice x s).pins = s.pins := by simp [handNotice]
@[simp] theorem handNotice_moment_wrap (x : Samples) (s : State) : (handNotice x s).moment.wrap = s.moment.wrap := by simp [handNotice]
@[simp] theorem handNotice_moment_regTick (x : Samples) (s : State) : (handNotice x s).moment.regTick = s.moment.regTick := by simp [handNotice]
@[simp] theorem handNotice_moment_lost (x : Samples) (s : State) : (handNotice x s).moment.lost = s.moment.lost := by simp [handNotice]
@[simp] theorem handNotice_moment_requeued (x : Samples) (s : State) : (handNotice x s).moment.requeued = s.moment.requeued := by simp [handNotice]
@[simp] theorem handNotice_pending (x : Samples) (s : State) : (handNotice x s).pending = s.pending := by simp [handNotice]

/-! #### countTick -/

@[simp] theorem countTick_sl_profiles (x : Samples) (s : State) : (countTick x s).sl.profiles = s.sl.profiles := by simp [countTick]
@[simp] theorem countTick_sl_nextId (x : Samples) (s : State) : (countTick x s).sl.nextId = s.sl.nextId := by simp [countTick]
@[simp] theorem countTick_sl_notices (x : Samples) (s : State) : (countTick x s).sl.notices = s.sl.notices := by simp [countTick]
@[simp] theorem countTick_sl_noticeNo (x : Samples) (s : State) : (countTick x s).sl.noticeNo = s.sl.noticeNo := by simp [countTick]
@[simp] theorem countTick_sl_capture (x : Samples) (s : State) : (countTick x s).sl.capture = s.sl.capture := by simp [countTick]
@[simp] theorem countTick_mu_cal (x : Samples) (s : State) : (countTick x s).mu.cal = s.mu.cal := by simp [countTick]
@[simp] theorem countTick_cl_log (x : Samples) (s : State) : (countTick x s).cl.log = s.cl.log := by simp [countTick]
@[simp] theorem countTick_cl_nextSeq (x : Samples) (s : State) : (countTick x s).cl.nextSeq = s.cl.nextSeq := by simp [countTick]
@[simp] theorem countTick_rg (x : Samples) (s : State) : (countTick x s).rg = s.rg := by simp [countTick]
@[simp] theorem countTick_oc_output (x : Samples) (s : State) : (countTick x s).oc.output = s.oc.output := by simp [countTick]
@[simp] theorem countTick_oc_restartPending (x : Samples) (s : State) : (countTick x s).oc.restartPending = s.oc.restartPending := by simp [countTick]
@[simp] theorem countTick_oc_autoRestart (x : Samples) (s : State) : (countTick x s).oc.autoRestart = s.oc.autoRestart := by simp [countTick]
@[simp] theorem countTick_oc_rampLimit (x : Samples) (s : State) : (countTick x s).oc.rampLimit = s.oc.rampLimit := by simp [countTick]
@[simp] theorem countTick_cq (x : Samples) (s : State) : (countTick x s).cq = s.cq := by simp [countTick]
@[simp] theorem countTick_sk (x : Samples) (s : State) : (countTick x s).sk = s.sk := by simp [countTick]
@[simp] theorem countTick_pins (x : Samples) (s : State) : (countTick x s).pins = s.pins := by simp [countTick]
@[simp] theorem countTick_moment_lost (x : Samples) (s : State) : (countTick x s).moment.lost = s.moment.lost := by simp [countTick]
@[simp] theorem countTick_moment_requeued (x : Samples) (s : State) : (countTick x s).moment.requeued = s.moment.requeued := by simp [countTick]
@[simp] theorem countTick_pending (x : Samples) (s : State) : (countTick x s).pending = s.pending := by simp [countTick]

/-! #### enterTb -/

@[simp] theorem enterTb_sl (st : TbState) (s : State) : (enterTb st s).sl = s.sl := rfl
@[simp] theorem enterTb_mu (st : TbState) (s : State) : (enterTb st s).mu = s.mu := rfl
@[simp] theorem enterTb_cl (st : TbState) (s : State) : (enterTb st s).cl = s.cl := rfl
@[simp] theorem enterTb_rg (st : TbState) (s : State) : (enterTb st s).rg = s.rg := rfl
@[simp] theorem enterTb_oc (st : TbState) (s : State) : (enterTb st s).oc = s.oc := rfl
@[simp] theorem enterTb_cq (st : TbState) (s : State) : (enterTb st s).cq = s.cq := rfl
@[simp] theorem enterTb_sk (st : TbState) (s : State) : (enterTb st s).sk = s.sk := rfl
@[simp] theorem enterTb_hs (st : TbState) (s : State) : (enterTb st s).hs = s.hs := rfl
@[simp] theorem enterTb_ns (st : TbState) (s : State) : (enterTb st s).ns = s.ns := rfl
@[simp] theorem enterTb_pins (st : TbState) (s : State) : (enterTb st s).pins = s.pins := rfl
@[simp] theorem enterTb_moment (st : TbState) (s : State) : (enterTb st s).moment = s.moment := rfl
@[simp] theorem enterTb_pending (st : TbState) (s : State) : (enterTb st s).pending = s.pending := rfl

/-! #### enterHoldover -/

@[simp] theorem enterHoldover_sl (s : State) : (enterHoldover s).sl = s.sl := by
  unfold enterHoldover; try dsimp only
  (repeat' split) <;> simp
@[simp] theorem enterHoldover_mu (s : State) : (enterHoldover s).mu = s.mu := by
  unfold enterHoldover; try dsimp only
  (repeat' split) <;> simp
@[simp] theorem enterHoldover_cl (s : State) : (enterHoldover s).cl = s.cl := by
  unfold enterHoldover; try dsimp only
  (repeat' split) <;> simp
@[simp] theorem enterHoldover_rg (s : State) : (enterHoldover s).rg = s.rg := by
  unfold enterHoldover; try dsimp only
  (repeat' split) <;> simp
@[simp] theorem enterHoldover_oc (s : State) : (enterHoldover s).oc = s.oc := by
  unfold enterHoldover; try dsimp only
  (repeat' split) <;> simp
@[simp] theorem enterHoldover_cq (s : State) : (enterHoldover s).cq = s.cq := by
  unfold enterHoldover; try dsimp only
  (repeat' split) <;> simp
@[simp] theorem enterHoldover_sk (s : State) : (enterHoldover s).sk = s.sk := by
  unfold enterHoldover; try dsimp only
  (repeat' split) <;> simp
@[simp] theorem enterHoldover_hs (s : State) : (enterHoldover s).hs = s.hs := by
  unfold enterHoldover; try dsimp only
  (repeat' split) <;> simp
@[simp] theorem enterHoldover_ns (s : State) : (enterHoldover s).ns = s.ns := by
  unfold enterHoldover; try dsimp only
  (repeat' split) <;> simp
@[simp] theorem enterHoldover_pins (s : State) : (enterHoldover s).pins = s.pins := by
  unfold enterHoldover; try dsimp only
  (repeat' split) <;> simp
@[simp] theorem enterHoldover_moment (s : State) : (enterHoldover s).moment = s.moment := by
  unfold enterHoldover; try dsimp only
  (repeat' split) <;> simp
@[simp] theorem enterHoldover_pending (s : State) : (enterHoldover s).pending = s.pending := by
  unfold enterHoldover; try dsimp only
  (repeat' split) <;> simp

/-! #### enterLostNow -/

@[simp] theorem enterLostNow_sl_profiles (s : State) : (enterLostNow s).sl.profiles = s.sl.profiles := by
  unfold enterLostNow; try dsimp only
  (repeat' split) <;> simp
@[simp] theorem enterLostNow_sl_windows (s : State) : (enterLostNow s).sl.windows = s.sl.windows := by
  unfold enterLostNow; try dsimp only
  (repeat' split) <;> simp
@[simp] theorem enterLostNow_sl_nextId (s : State) : (enterLostNow s).sl.nextId = s.sl.nextId := by
  unfold enterLostNow; try dsimp only
  (repeat' split) <;> simp
@[simp] theorem enterLostNow_sl_notices (s : State) : (enterLostNow s).sl.notices = s.sl.notices := by
  unfold enterLostNow; try dsimp only
  (repeat' split) <;> simp
@[simp] theorem enterLostNow_sl_noticeNo (s : State) : (enterLostNow s).sl.noticeNo = s.sl.noticeNo := by
  unfold enterLostNow; try dsimp only
  (repeat' split) <;> simp
@[simp] theorem enterLostNow_sl_outright (s : State) : (enterLostNow s).sl.outright = s.sl.outright := by
  unfold enterLostNow; try dsimp only
  (repeat' split) <;> simp
@[simp] theorem enterLostNow_mu_cal (s : State) : (enterLostNow s).mu.cal = s.mu.cal := by
  unfold enterLostNow; try dsimp only
  (repeat' split) <;> simp
@[simp] theorem enterLostNow_mu_iAcc (s : State) : (enterLostNow s).mu.iAcc = s.mu.iAcc := by
  unfold enterLostNow; try dsimp only
  (repeat' split) <;> simp
@[simp] theorem enterLostNow_mu_vAcc (s : State) : (enterLostNow s).mu.vAcc = s.mu.vAcc := by
  unfold enterLostNow; try dsimp only
  (repeat' split) <;> simp
@[simp] theorem enterLostNow_cl_log (s : State) : (enterLostNow s).cl.log = s.cl.log := by
  unfold enterLostNow; try dsimp only
  (repeat' split) <;> simp
@[simp] theorem enterLostNow_cl_nextSeq (s : State) : (enterLostNow s).cl.nextSeq = s.cl.nextSeq := by
  unfold enterLostNow; try dsimp only
  (repeat' split) <;> simp
@[simp] theorem enterLostNow_rg_set (s : State) : (enterLostNow s).rg.set = s.rg.set := by
  unfold enterLostNow; try dsimp only
  (repeat' split) <;> simp
@[simp] theorem enterLostNow_oc_autoRestart (s : State) : (enterLostNow s).oc.autoRestart = s.oc.autoRestart := by
  unfold enterLostNow; try dsimp only
  (repeat' split) <;> simp
@[simp] theorem enterLostNow_oc_rampLimit (s : State) : (enterLostNow s).oc.rampLimit = s.oc.rampLimit := by
  unfold enterLostNow; try dsimp only
  (repeat' split) <;> simp
@[simp] theorem enterLostNow_hs (s : State) : (enterLostNow s).hs = s.hs := by
  unfold enterLostNow; try dsimp only
  (repeat' split) <;> simp
@[simp] theorem enterLostNow_ns (s : State) : (enterLostNow s).ns = s.ns := by
  unfold enterLostNow; try dsimp only
  (repeat' split) <;> simp
@[simp] theorem enterLostNow_pins (s : State) : (enterLostNow s).pins = s.pins := by
  unfold enterLostNow; try dsimp only
  (repeat' split) <;> simp
@[simp] theorem enterLostNow_moment_wrap (s : State) : (enterLostNow s).moment.wrap = s.moment.wrap := by
  unfold enterLostNow; try dsimp only
  (repeat' split) <;> simp
@[simp] theorem enterLostNow_moment_requeued (s : State) : (enterLostNow s).moment.requeued = s.moment.requeued := by
  unfold enterLostNow; try dsimp only
  (repeat' split) <;> simp
@[simp] theorem enterLostNow_moment_regTick (s : State) : (enterLostNow s).moment.regTick = s.moment.regTick := by
  unfold enterLostNow; try dsimp only
  (repeat' split) <;> simp
@[simp] theorem enterLostNow_pending (s : State) : (enterLostNow s).pending = s.pending := by
  unfold enterLostNow; try dsimp only
  (repeat' split) <;> simp

/-! #### advanceHoldover -/

@[simp] theorem advanceHoldover_sl (s : State) : (advanceHoldover s).sl = s.sl := by
  unfold advanceHoldover; try dsimp only
  (repeat' split) <;> simp
@[simp] theorem advanceHoldover_mu (s : State) : (advanceHoldover s).mu = s.mu := by
  unfold advanceHoldover; try dsimp only
  (repeat' split) <;> simp
@[simp] theorem advanceHoldover_cl (s : State) : (advanceHoldover s).cl = s.cl := by
  unfold advanceHoldover; try dsimp only
  (repeat' split) <;> simp
@[simp] theorem advanceHoldover_rg (s : State) : (advanceHoldover s).rg = s.rg := by
  unfold advanceHoldover; try dsimp only
  (repeat' split) <;> simp
@[simp] theorem advanceHoldover_oc (s : State) : (advanceHoldover s).oc = s.oc := by
  unfold advanceHoldover; try dsimp only
  (repeat' split) <;> simp
@[simp] theorem advanceHoldover_cq (s : State) : (advanceHoldover s).cq = s.cq := by
  unfold advanceHoldover; try dsimp only
  (repeat' split) <;> simp
@[simp] theorem advanceHoldover_sk (s : State) : (advanceHoldover s).sk = s.sk := by
  unfold advanceHoldover; try dsimp only
  (repeat' split) <;> simp
@[simp] theorem advanceHoldover_hs (s : State) : (advanceHoldover s).hs = s.hs := by
  unfold advanceHoldover; try dsimp only
  (repeat' split) <;> simp
@[simp] theorem advanceHoldover_lc (s : State) : (advanceHoldover s).lc = s.lc := by
  unfold advanceHoldover; try dsimp only
  (repeat' split) <;> simp
@[simp] theorem advanceHoldover_ns (s : State) : (advanceHoldover s).ns = s.ns := by
  unfold advanceHoldover; try dsimp only
  (repeat' split) <;> simp
@[simp] theorem advanceHoldover_pins (s : State) : (advanceHoldover s).pins = s.pins := by
  unfold advanceHoldover; try dsimp only
  (repeat' split) <;> simp
@[simp] theorem advanceHoldover_moment_wrap (s : State) : (advanceHoldover s).moment.wrap = s.moment.wrap := by
  unfold advanceHoldover; try dsimp only
  (repeat' split) <;> simp
@[simp] theorem advanceHoldover_moment_requeued (s : State) : (advanceHoldover s).moment.requeued = s.moment.requeued := by
  unfold advanceHoldover; try dsimp only
  (repeat' split) <;> simp
@[simp] theorem advanceHoldover_moment_regTick (s : State) : (advanceHoldover s).moment.regTick = s.moment.regTick := by
  unfold advanceHoldover; try dsimp only
  (repeat' split) <;> simp
@[simp] theorem advanceHoldover_pending (s : State) : (advanceHoldover s).pending = s.pending := by
  unfold advanceHoldover; try dsimp only
  (repeat' split) <;> simp

/-! #### applyStaged -/

@[simp] theorem applyStaged_sl_profiles (e : Bool) (s : State) : (applyStaged e s).sl.profiles = s.sl.profiles := by
  unfold applyStaged; try dsimp only
  (repeat' split) <;> simp
@[simp] theorem applyStaged_sl_nextId (e : Bool) (s : State) : (applyStaged e s).sl.nextId = s.sl.nextId := by
  unfold applyStaged; try dsimp only
  (repeat' split) <;> simp
@[simp] theorem applyStaged_sl_notices (e : Bool) (s : State) : (applyStaged e s).sl.notices = s.sl.notices := by
  unfold applyStaged; try dsimp only
  (repeat' split) <;> simp
@[simp] theorem applyStaged_sl_noticeNo (e : Bool) (s : State) : (applyStaged e s).sl.noticeNo = s.sl.noticeNo := by
  unfold applyStaged; try dsimp only
  (repeat' split) <;> simp
@[simp] theorem applyStaged_mu_cal (e : Bool) (s : State) : (applyStaged e s).mu.cal = s.mu.cal := by
  unfold applyStaged; try dsimp only
  (repeat' split) <;> simp
@[simp] theorem applyStaged_mu_iAcc (e : Bool) (s : State) : (applyStaged e s).mu.iAcc = s.mu.iAcc := by
  unfold applyStaged; try dsimp only
  (repeat' split) <;> simp
@[simp] theorem applyStaged_mu_vAcc (e : Bool) (s : State) : (applyStaged e s).mu.vAcc = s.mu.vAcc := by
  unfold applyStaged; try dsimp only
  (repeat' split) <;> simp
@[simp] theorem applyStaged_oc_autoRestart (e : Bool) (s : State) : (applyStaged e s).oc.autoRestart = s.oc.autoRestart := by
  unfold applyStaged; try dsimp only
  (repeat' split) <;> simp
@[simp] theorem applyStaged_oc_rampLimit (e : Bool) (s : State) : (applyStaged e s).oc.rampLimit = s.oc.rampLimit := by
  unfold applyStaged; try dsimp only
  (repeat' split) <;> simp
@[simp] theorem applyStaged_hs (e : Bool) (s : State) : (applyStaged e s).hs = s.hs := by
  unfold applyStaged; try dsimp only
  (repeat' split) <;> simp
@[simp] theorem applyStaged_ns (e : Bool) (s : State) : (applyStaged e s).ns = s.ns := by
  unfold applyStaged; try dsimp only
  (repeat' split) <;> simp
@[simp] theorem applyStaged_pins (e : Bool) (s : State) : (applyStaged e s).pins = s.pins := by
  unfold applyStaged; try dsimp only
  (repeat' split) <;> simp
@[simp] theorem applyStaged_moment (e : Bool) (s : State) : (applyStaged e s).moment = s.moment := by
  unfold applyStaged; try dsimp only
  (repeat' split) <;> simp
@[simp] theorem applyStaged_pending (e : Bool) (s : State) : (applyStaged e s).pending = s.pending := by
  unfold applyStaged; try dsimp only
  (repeat' split) <;> simp

/-! #### markSecond -/

@[simp] theorem markSecond_tb (s : State) : (markSecond s).tb = s.tb := rfl
@[simp] theorem markSecond_sl (s : State) : (markSecond s).sl = s.sl := rfl
@[simp] theorem markSecond_mu (s : State) : (markSecond s).mu = s.mu := rfl
@[simp] theorem markSecond_cl (s : State) : (markSecond s).cl = s.cl := rfl
@[simp] theorem markSecond_rg (s : State) : (markSecond s).rg = s.rg := rfl
@[simp] theorem markSecond_oc (s : State) : (markSecond s).oc = s.oc := rfl
@[simp] theorem markSecond_cq (s : State) : (markSecond s).cq = s.cq := rfl
@[simp] theorem markSecond_sk (s : State) : (markSecond s).sk = s.sk := rfl
@[simp] theorem markSecond_lc (s : State) : (markSecond s).lc = s.lc := rfl
@[simp] theorem markSecond_ns (s : State) : (markSecond s).ns = s.ns := rfl
@[simp] theorem markSecond_pins (s : State) : (markSecond s).pins = s.pins := rfl
@[simp] theorem markSecond_moment_wrap (s : State) : (markSecond s).moment.wrap = s.moment.wrap := rfl
@[simp] theorem markSecond_moment_lost (s : State) : (markSecond s).moment.lost = s.moment.lost := rfl
@[simp] theorem markSecond_moment_requeued (s : State) : (markSecond s).moment.requeued = s.moment.requeued := rfl
@[simp] theorem markSecond_pending (s : State) : (markSecond s).pending = s.pending := rfl

/-! #### examineNow -/

@[simp] theorem examineNow_tb (s : State) : (examineNow s).tb = s.tb := by
  unfold examineNow; try dsimp only
  (repeat' split) <;> simp
@[simp] theorem examineNow_sl_nextId (s : State) : (examineNow s).sl.nextId = s.sl.nextId := by
  unfold examineNow; try dsimp only
  (repeat' split) <;> simp
@[simp] theorem examineNow_sl_outright (s : State) : (examineNow s).sl.outright = s.sl.outright := by
  unfold examineNow; try dsimp only
  (repeat' split) <;> simp
@[simp] theorem examineNow_mu_cal (s : State) : (examineNow s).mu.cal = s.mu.cal := by
  unfold examineNow; try dsimp only
  (repeat' split) <;> simp
@[simp] theorem examineNow_mu_iAcc (s : State) : (examineNow s).mu.iAcc = s.mu.iAcc := by
  unfold examineNow; try dsimp only
  (repeat' split) <;> simp
@[simp] theorem examineNow_mu_vAcc (s : State) : (examineNow s).mu.vAcc = s.mu.vAcc := by
  unfold examineNow; try dsimp only
  (repeat' split) <;> simp
@[simp] theorem examineNow_cl_log (s : State) : (examineNow s).cl.log = s.cl.log := by
  unfold examineNow; try dsimp only
  (repeat' split) <;> simp
@[simp] theorem examineNow_cl_nextSeq (s : State) : (examineNow s).cl.nextSeq = s.cl.nextSeq := by
  unfold examineNow; try dsimp only
  (repeat' split) <;> simp
@[simp] theorem examineNow_oc_output (s : State) : (examineNow s).oc.output = s.oc.output := by
  unfold examineNow; try dsimp only
  (repeat' split) <;> simp
@[simp] theorem examineNow_oc_restartPending (s : State) : (examineNow s).oc.restartPending = s.oc.restartPending := by
  unfold examineNow; try dsimp only
  (repeat' split) <;> simp
@[simp] theorem examineNow_oc_autoRestart (s : State) : (examineNow s).oc.autoRestart = s.oc.autoRestart := by
  unfold examineNow; try dsimp only
  (repeat' split) <;> simp
@[simp] theorem examineNow_oc_rampLimit (s : State) : (examineNow s).oc.rampLimit = s.oc.rampLimit := by
  unfold examineNow; try dsimp only
  (repeat' split) <;> simp
@[simp] theorem examineNow_sk (s : State) : (examineNow s).sk = s.sk := by
  unfold examineNow; try dsimp only
  (repeat' split) <;> simp
@[simp] theorem examineNow_hs (s : State) : (examineNow s).hs = s.hs := by
  unfold examineNow; try dsimp only
  (repeat' split) <;> simp
@[simp] theorem examineNow_ns (s : State) : (examineNow s).ns = s.ns := by
  unfold examineNow; try dsimp only
  (repeat' split) <;> simp
@[simp] theorem examineNow_pins (s : State) : (examineNow s).pins = s.pins := by
  unfold examineNow; try dsimp only
  (repeat' split) <;> simp
@[simp] theorem examineNow_moment_wrap (s : State) : (examineNow s).moment.wrap = s.moment.wrap := by
  unfold examineNow; try dsimp only
  (repeat' split) <;> simp
@[simp] theorem examineNow_moment_regTick (s : State) : (examineNow s).moment.regTick = s.moment.regTick := by
  unfold examineNow; try dsimp only
  (repeat' split) <;> simp
@[simp] theorem examineNow_moment_lost (s : State) : (examineNow s).moment.lost = s.moment.lost := by
  unfold examineNow; try dsimp only
  (repeat' split) <;> simp
@[simp] theorem examineNow_moment_requeued (s : State) : (examineNow s).moment.requeued = s.moment.requeued := by
  unfold examineNow; try dsimp only
  (repeat' split) <;> simp
@[simp] theorem examineNow_pending (s : State) : (examineNow s).pending = s.pending := by
  unfold examineNow; try dsimp only
  (repeat' split) <;> simp

/-! #### takeWrap -/

@[simp] theorem takeWrap_sl_nextId (s : State) : (takeWrap s).sl.nextId = s.sl.nextId := by
  unfold takeWrap; try dsimp only
  (repeat' split) <;> simp
@[simp] theorem takeWrap_mu_cal (s : State) : (takeWrap s).mu.cal = s.mu.cal := by
  unfold takeWrap; try dsimp only
  (repeat' split) <;> simp
@[simp] theorem takeWrap_oc_autoRestart (s : State) : (takeWrap s).oc.autoRestart = s.oc.autoRestart := by
  unfold takeWrap; try dsimp only
  (repeat' split) <;> simp
@[simp] theorem takeWrap_oc_rampLimit (s : State) : (takeWrap s).oc.rampLimit = s.oc.rampLimit := by
  unfold takeWrap; try dsimp only
  (repeat' split) <;> simp
@[simp] theorem takeWrap_pins (s : State) : (takeWrap s).pins = s.pins := by
  unfold takeWrap; try dsimp only
  (repeat' split) <;> simp
@[simp] theorem takeWrap_pending (s : State) : (takeWrap s).pending = s.pending := by
  unfold takeWrap; try dsimp only
  (repeat' split) <;> simp

/-! #### secondBoundaryStep -/

@[simp] theorem secondBoundaryStep_sl_nextId (s : State) : (secondBoundaryStep s).sl.nextId = s.sl.nextId := by simp [secondBoundaryStep]
@[simp] theorem secondBoundaryStep_mu_cal (s : State) : (secondBoundaryStep s).mu.cal = s.mu.cal := by simp [secondBoundaryStep]
@[simp] theorem secondBoundaryStep_oc_autoRestart (s : State) : (secondBoundaryStep s).oc.autoRestart = s.oc.autoRestart := by simp [secondBoundaryStep]
@[simp] theorem secondBoundaryStep_oc_rampLimit (s : State) : (secondBoundaryStep s).oc.rampLimit = s.oc.rampLimit := by simp [secondBoundaryStep]
@[simp] theorem secondBoundaryStep_pins (s : State) : (secondBoundaryStep s).pins = s.pins := by simp [secondBoundaryStep]
@[simp] theorem secondBoundaryStep_pending (s : State) : (secondBoundaryStep s).pending = s.pending := by simp [secondBoundaryStep]

/-! #### regulationStep -/

@[simp] theorem regulationStep_sl_nextId (rf : Bool) (s : State) : (regulationStep rf s).sl.nextId = s.sl.nextId := by
  unfold regulationStep; try dsimp only
  (repeat' split) <;> simp
@[simp] theorem regulationStep_oc_autoRestart (rf : Bool) (s : State) : (regulationStep rf s).oc.autoRestart = s.oc.autoRestart := by
  unfold regulationStep; try dsimp only
  (repeat' split) <;> simp
@[simp] theorem regulationStep_pins (rf : Bool) (s : State) : (regulationStep rf s).pins = s.pins := by
  unfold regulationStep; try dsimp only
  (repeat' split) <;> simp
@[simp] theorem regulationStep_pending (rf : Bool) (s : State) : (regulationStep rf s).pending = s.pending := by
  unfold regulationStep; try dsimp only
  (repeat' split) <;> simp

/-! #### recordEdge -/

@[simp] theorem recordEdge_sl (c : Nat) (o : EdgeOutcome) (s : State) : (recordEdge c o s).sl = s.sl := rfl
@[simp] theorem recordEdge_mu (c : Nat) (o : EdgeOutcome) (s : State) : (recordEdge c o s).mu = s.mu := rfl
@[simp] theorem recordEdge_cl (c : Nat) (o : EdgeOutcome) (s : State) : (recordEdge c o s).cl = s.cl := rfl
@[simp] theorem recordEdge_rg (c : Nat) (o : EdgeOutcome) (s : State) : (recordEdge c o s).rg = s.rg := rfl
@[simp] theorem recordEdge_oc (c : Nat) (o : EdgeOutcome) (s : State) : (recordEdge c o s).oc = s.oc := rfl
@[simp] theorem recordEdge_cq (c : Nat) (o : EdgeOutcome) (s : State) : (recordEdge c o s).cq = s.cq := rfl
@[simp] theorem recordEdge_sk (c : Nat) (o : EdgeOutcome) (s : State) : (recordEdge c o s).sk = s.sk := rfl
@[simp] theorem recordEdge_hs (c : Nat) (o : EdgeOutcome) (s : State) : (recordEdge c o s).hs = s.hs := rfl
@[simp] theorem recordEdge_lc (c : Nat) (o : EdgeOutcome) (s : State) : (recordEdge c o s).lc = s.lc := rfl
@[simp] theorem recordEdge_ns (c : Nat) (o : EdgeOutcome) (s : State) : (recordEdge c o s).ns = s.ns := rfl
@[simp] theorem recordEdge_pins (c : Nat) (o : EdgeOutcome) (s : State) : (recordEdge c o s).pins = s.pins := rfl
@[simp] theorem recordEdge_moment (c : Nat) (o : EdgeOutcome) (s : State) : (recordEdge c o s).moment = s.moment := rfl
@[simp] theorem recordEdge_pending (c : Nat) (o : EdgeOutcome) (s : State) : (recordEdge c o s).pending = s.pending := rfl

/-! #### boundaryAtEdge -/

@[simp] theorem boundaryAtEdge_sl_profiles (s : State) : (boundaryAtEdge s).sl.profiles = s.sl.profiles := by
  unfold boundaryAtEdge; try dsimp only
  (repeat' split) <;> simp
@[simp] theorem boundaryAtEdge_sl_windows (s : State) : (boundaryAtEdge s).sl.windows = s.sl.windows := by
  unfold boundaryAtEdge; try dsimp only
  (repeat' split) <;> simp
@[simp] theorem boundaryAtEdge_sl_nextId (s : State) : (boundaryAtEdge s).sl.nextId = s.sl.nextId := by
  unfold boundaryAtEdge; try dsimp only
  (repeat' split) <;> simp
@[simp] theorem boundaryAtEdge_sl_notices (s : State) : (boundaryAtEdge s).sl.notices = s.sl.notices := by
  unfold boundaryAtEdge; try dsimp only
  (repeat' split) <;> simp
@[simp] theorem boundaryAtEdge_sl_noticeNo (s : State) : (boundaryAtEdge s).sl.noticeNo = s.sl.noticeNo := by
  unfold boundaryAtEdge; try dsimp only
  (repeat' split) <;> simp
@[simp] theorem boundaryAtEdge_sl_outright (s : State) : (boundaryAtEdge s).sl.outright = s.sl.outright := by
  unfold boundaryAtEdge; try dsimp only
  (repeat' split) <;> simp
@[simp] theorem boundaryAtEdge_rg_set (s : State) : (boundaryAtEdge s).rg.set = s.rg.set := by
  unfold boundaryAtEdge; try dsimp only
  (repeat' split) <;> simp
@[simp] theorem boundaryAtEdge_oc_autoRestart (s : State) : (boundaryAtEdge s).oc.autoRestart = s.oc.autoRestart := by
  unfold boundaryAtEdge; try dsimp only
  (repeat' split) <;> simp
@[simp] theorem boundaryAtEdge_ns (s : State) : (boundaryAtEdge s).ns = s.ns := by
  unfold boundaryAtEdge; try dsimp only
  (repeat' split) <;> simp
@[simp] theorem boundaryAtEdge_pins (s : State) : (boundaryAtEdge s).pins = s.pins := by
  unfold boundaryAtEdge; try dsimp only
  (repeat' split) <;> simp
@[simp] theorem boundaryAtEdge_pending (s : State) : (boundaryAtEdge s).pending = s.pending := by
  unfold boundaryAtEdge; try dsimp only
  (repeat' split) <;> simp

/-! #### acceptEdge -/

@[simp] theorem acceptEdge_sl_nextId (c : Nat) (s : State) : (acceptEdge c s).sl.nextId = s.sl.nextId := by
  unfold acceptEdge; try dsimp only
  (repeat' split) <;> simp
@[simp] theorem acceptEdge_oc_autoRestart (c : Nat) (s : State) : (acceptEdge c s).oc.autoRestart = s.oc.autoRestart := by
  unfold acceptEdge; try dsimp only
  (repeat' split) <;> simp
@[simp] theorem acceptEdge_ns (c : Nat) (s : State) : (acceptEdge c s).ns = s.ns := by
  unfold acceptEdge; try dsimp only
  (repeat' split) <;> simp
@[simp] theorem acceptEdge_pins (c : Nat) (s : State) : (acceptEdge c s).pins = s.pins := by
  unfold acceptEdge; try dsimp only
  (repeat' split) <;> simp
@[simp] theorem acceptEdge_pending (c : Nat) (s : State) : (acceptEdge c s).pending = s.pending := by
  unfold acceptEdge; try dsimp only
  (repeat' split) <;> simp

/-! #### realign -/

@[simp] theorem realign_sl_nextId (c : Nat) (s : State) : (realign c s).sl.nextId = s.sl.nextId := by
  unfold realign; try dsimp only
  (repeat' split) <;> simp
@[simp] theorem realign_oc_autoRestart (c : Nat) (s : State) : (realign c s).oc.autoRestart = s.oc.autoRestart := by
  unfold realign; try dsimp only
  (repeat' split) <;> simp
@[simp] theorem realign_ns (c : Nat) (s : State) : (realign c s).ns = s.ns := by
  unfold realign; try dsimp only
  (repeat' split) <;> simp
@[simp] theorem realign_pins (c : Nat) (s : State) : (realign c s).pins = s.pins := by
  unfold realign; try dsimp only
  (repeat' split) <;> simp
@[simp] theorem realign_pending (c : Nat) (s : State) : (realign c s).pending = s.pending := by
  unfold realign; try dsimp only
  (repeat' split) <;> simp

/-! #### rejectEdge -/

@[simp] theorem rejectEdge_sl_nextId (c : Nat) (s : State) : (rejectEdge c s).sl.nextId = s.sl.nextId := by
  unfold rejectEdge; try dsimp only
  (repeat' split) <;> simp
@[simp] theorem rejectEdge_oc_autoRestart (c : Nat) (s : State) : (rejectEdge c s).oc.autoRestart = s.oc.autoRestart := by
  unfold rejectEdge; try dsimp only
  (repeat' split) <;> simp
@[simp] theorem rejectEdge_ns (c : Nat) (s : State) : (rejectEdge c s).ns = s.ns := by
  unfold rejectEdge; try dsimp only
  (repeat' split) <;> simp
@[simp] theorem rejectEdge_pins (c : Nat) (s : State) : (rejectEdge c s).pins = s.pins := by
  unfold rejectEdge; try dsimp only
  (repeat' split) <;> simp
@[simp] theorem rejectEdge_pending (c : Nat) (s : State) : (rejectEdge c s).pending = s.pending := by
  unfold rejectEdge; try dsimp only
  (repeat' split) <;> simp

/-! #### pulseEdgeStep -/

@[simp] theorem pulseEdgeStep_sl_nextId (s : State) : (pulseEdgeStep s).sl.nextId = s.sl.nextId := by
  unfold pulseEdgeStep; try dsimp only
  (repeat' split) <;> simp
@[simp] theorem pulseEdgeStep_oc_autoRestart (s : State) : (pulseEdgeStep s).oc.autoRestart = s.oc.autoRestart := by
  unfold pulseEdgeStep; try dsimp only
  (repeat' split) <;> simp
@[simp] theorem pulseEdgeStep_ns (s : State) : (pulseEdgeStep s).ns = s.ns := by
  unfold pulseEdgeStep; try dsimp only
  (repeat' split) <;> simp
@[simp] theorem pulseEdgeStep_pins (s : State) : (pulseEdgeStep s).pins = s.pins := by
  unfold pulseEdgeStep; try dsimp only
  (repeat' split) <;> simp
@[simp] theorem pulseEdgeStep_pending (s : State) : (pulseEdgeStep s).pending = s.pending := by
  unfold pulseEdgeStep; try dsimp only
  (repeat' split) <;> simp

/-! #### takeFrame -/

@[simp] theorem takeFrame_tb (l : LinkId) (s : State) : (takeFrame l s).tb = s.tb := rfl
@[simp] theorem takeFrame_sl (l : LinkId) (s : State) : (takeFrame l s).sl = s.sl := rfl
@[simp] theorem takeFrame_mu (l : LinkId) (s : State) : (takeFrame l s).mu = s.mu := rfl
@[simp] theorem takeFrame_cl (l : LinkId) (s : State) : (takeFrame l s).cl = s.cl := rfl
@[simp] theorem takeFrame_rg (l : LinkId) (s : State) : (takeFrame l s).rg = s.rg := rfl
@[simp] theorem takeFrame_oc (l : LinkId) (s : State) : (takeFrame l s).oc = s.oc := rfl
@[simp] theorem takeFrame_cq (l : LinkId) (s : State) : (takeFrame l s).cq = s.cq := rfl
@[simp] theorem takeFrame_sk (l : LinkId) (s : State) : (takeFrame l s).sk = s.sk := rfl
@[simp] theorem takeFrame_hs (l : LinkId) (s : State) : (takeFrame l s).hs = s.hs := rfl
@[simp] theorem takeFrame_ns (l : LinkId) (s : State) : (takeFrame l s).ns = s.ns := rfl
@[simp] theorem takeFrame_pins (l : LinkId) (s : State) : (takeFrame l s).pins = s.pins := rfl
@[simp] theorem takeFrame_moment (l : LinkId) (s : State) : (takeFrame l s).moment = s.moment := rfl
@[simp] theorem takeFrame_pending (l : LinkId) (s : State) : (takeFrame l s).pending = s.pending := rfl

/-! #### beginWrite -/

@[simp] theorem beginWrite_tb (r : PerLink Rate) (s : State) : (beginWrite r s).tb = s.tb := rfl
@[simp] theorem beginWrite_sl (r : PerLink Rate) (s : State) : (beginWrite r s).sl = s.sl := rfl
@[simp] theorem beginWrite_mu (r : PerLink Rate) (s : State) : (beginWrite r s).mu = s.mu := rfl
@[simp] theorem beginWrite_cl (r : PerLink Rate) (s : State) : (beginWrite r s).cl = s.cl := rfl
@[simp] theorem beginWrite_rg (r : PerLink Rate) (s : State) : (beginWrite r s).rg = s.rg := rfl
@[simp] theorem beginWrite_oc (r : PerLink Rate) (s : State) : (beginWrite r s).oc = s.oc := rfl
@[simp] theorem beginWrite_cq (r : PerLink Rate) (s : State) : (beginWrite r s).cq = s.cq := rfl
@[simp] theorem beginWrite_sk (r : PerLink Rate) (s : State) : (beginWrite r s).sk = s.sk := rfl
@[simp] theorem beginWrite_hs (r : PerLink Rate) (s : State) : (beginWrite r s).hs = s.hs := rfl
@[simp] theorem beginWrite_lc (r : PerLink Rate) (s : State) : (beginWrite r s).lc = s.lc := rfl
@[simp] theorem beginWrite_pins (r : PerLink Rate) (s : State) : (beginWrite r s).pins = s.pins := rfl
@[simp] theorem beginWrite_moment (r : PerLink Rate) (s : State) : (beginWrite r s).moment = s.moment := rfl
@[simp] theorem beginWrite_pending (r : PerLink Rate) (s : State) : (beginWrite r s).pending = s.pending := rfl

/-! #### saveDone -/

@[simp] theorem saveDone_tb (s : State) : (saveDone s).tb = s.tb := by
  unfold saveDone; try dsimp only
  (repeat' split) <;> simp
@[simp] theorem saveDone_sl (s : State) : (saveDone s).sl = s.sl := by
  unfold saveDone; try dsimp only
  (repeat' split) <;> simp
@[simp] theorem saveDone_mu (s : State) : (saveDone s).mu = s.mu := by
  unfold saveDone; try dsimp only
  (repeat' split) <;> simp
@[simp] theorem saveDone_cl (s : State) : (saveDone s).cl = s.cl := by
  unfold saveDone; try dsimp only
  (repeat' split) <;> simp
@[simp] theorem saveDone_rg (s : State) : (saveDone s).rg = s.rg := by
  unfold saveDone; try dsimp only
  (repeat' split) <;> simp
@[simp] theorem saveDone_oc (s : State) : (saveDone s).oc = s.oc := by
  unfold saveDone; try dsimp only
  (repeat' split) <;> simp
@[simp] theorem saveDone_cq (s : State) : (saveDone s).cq = s.cq := by
  unfold saveDone; try dsimp only
  (repeat' split) <;> simp
@[simp] theorem saveDone_sk (s : State) : (saveDone s).sk = s.sk := by
  unfold saveDone; try dsimp only
  (repeat' split) <;> simp
@[simp] theorem saveDone_hs (s : State) : (saveDone s).hs = s.hs := by
  unfold saveDone; try dsimp only
  (repeat' split) <;> simp
@[simp] theorem saveDone_pins (s : State) : (saveDone s).pins = s.pins := by
  unfold saveDone; try dsimp only
  (repeat' split) <;> simp
@[simp] theorem saveDone_moment (s : State) : (saveDone s).moment = s.moment := by
  unfold saveDone; try dsimp only
  (repeat' split) <;> simp
@[simp] theorem saveDone_pending (s : State) : (saveDone s).pending = s.pending := by
  unfold saveDone; try dsimp only
  (repeat' split) <;> simp

/-! #### reportImage -/

@[simp] theorem reportImage_tb (s : State) : (reportImage s).tb = s.tb := by
  unfold reportImage; try dsimp only
  (repeat' split) <;> simp
@[simp] theorem reportImage_sl (s : State) : (reportImage s).sl = s.sl := by
  unfold reportImage; try dsimp only
  (repeat' split) <;> simp
@[simp] theorem reportImage_mu (s : State) : (reportImage s).mu = s.mu := by
  unfold reportImage; try dsimp only
  (repeat' split) <;> simp
@[simp] theorem reportImage_cl (s : State) : (reportImage s).cl = s.cl := by
  unfold reportImage; try dsimp only
  (repeat' split) <;> simp
@[simp] theorem reportImage_rg (s : State) : (reportImage s).rg = s.rg := by
  unfold reportImage; try dsimp only
  (repeat' split) <;> simp
@[simp] theorem reportImage_oc (s : State) : (reportImage s).oc = s.oc := by
  unfold reportImage; try dsimp only
  (repeat' split) <;> simp
@[simp] theorem reportImage_cq (s : State) : (reportImage s).cq = s.cq := by
  unfold reportImage; try dsimp only
  (repeat' split) <;> simp
@[simp] theorem reportImage_sk (s : State) : (reportImage s).sk = s.sk := by
  unfold reportImage; try dsimp only
  (repeat' split) <;> simp
@[simp] theorem reportImage_hs (s : State) : (reportImage s).hs = s.hs := by
  unfold reportImage; try dsimp only
  (repeat' split) <;> simp
@[simp] theorem reportImage_ns (s : State) : (reportImage s).ns = s.ns := by
  unfold reportImage; try dsimp only
  (repeat' split) <;> simp
@[simp] theorem reportImage_pins (s : State) : (reportImage s).pins = s.pins := by
  unfold reportImage; try dsimp only
  (repeat' split) <;> simp
@[simp] theorem reportImage_moment (s : State) : (reportImage s).moment = s.moment := by
  unfold reportImage; try dsimp only
  (repeat' split) <;> simp
@[simp] theorem reportImage_pending (s : State) : (reportImage s).pending = s.pending := by
  unfold reportImage; try dsimp only
  (repeat' split) <;> simp

/-! #### reload -/

@[simp] theorem reload_sl_windows (s : State) : (reload s).sl.windows = s.sl.windows := by simp [reload]
@[simp] theorem reload_sl_nextId (s : State) : (reload s).sl.nextId = s.sl.nextId := by simp [reload]
@[simp] theorem reload_sl_notices (s : State) : (reload s).sl.notices = s.sl.notices := by simp [reload]
@[simp] theorem reload_sl_noticeNo (s : State) : (reload s).sl.noticeNo = s.sl.noticeNo := by simp [reload]
@[simp] theorem reload_cl_log (s : State) : (reload s).cl.log = s.cl.log := by simp [reload]
@[simp] theorem reload_cl_nextSeq (s : State) : (reload s).cl.nextSeq = s.cl.nextSeq := by simp [reload]
@[simp] theorem reload_oc_rampLimit (s : State) : (reload s).oc.rampLimit = s.oc.rampLimit := by simp [reload]
@[simp] theorem reload_pins (s : State) : (reload s).pins = s.pins := by simp [reload]
@[simp] theorem reload_moment (s : State) : (reload s).moment = s.moment := by simp [reload]
@[simp] theorem reload_pending (s : State) : (reload s).pending = s.pending := by simp [reload]

/-! #### releaseReset -/

@[simp] theorem releaseReset_tb (s : State) : (releaseReset s).tb = s.tb := by
  unfold releaseReset; try dsimp only
  (repeat' split) <;> simp
@[simp] theorem releaseReset_sl_profiles (s : State) : (releaseReset s).sl.profiles = s.sl.profiles := by
  unfold releaseReset; try dsimp only
  (repeat' split) <;> simp
@[simp] theorem releaseReset_sl_windows (s : State) : (releaseReset s).sl.windows = s.sl.windows := by
  unfold releaseReset; try dsimp only
  (repeat' split) <;> simp
@[simp] theorem releaseReset_sl_nextId (s : State) : (releaseReset s).sl.nextId = s.sl.nextId := by
  unfold releaseReset; try dsimp only
  (repeat' split) <;> simp
@[simp] theorem releaseReset_sl_notices (s : State) : (releaseReset s).sl.notices = s.sl.notices := by
  unfold releaseReset; try dsimp only
  (repeat' split) <;> simp
@[simp] theorem releaseReset_sl_noticeNo (s : State) : (releaseReset s).sl.noticeNo = s.sl.noticeNo := by
  unfold releaseReset; try dsimp only
  (repeat' split) <;> simp
@[simp] theorem releaseReset_sl_outright (s : State) : (releaseReset s).sl.outright = s.sl.outright := by
  unfold releaseReset; try dsimp only
  (repeat' split) <;> simp
@[simp] theorem releaseReset_mu_cal (s : State) : (releaseReset s).mu.cal = s.mu.cal := by
  unfold releaseReset; try dsimp only
  (repeat' split) <;> simp
@[simp] theorem releaseReset_mu_iAcc (s : State) : (releaseReset s).mu.iAcc = s.mu.iAcc := by
  unfold releaseReset; try dsimp only
  (repeat' split) <;> simp
@[simp] theorem releaseReset_mu_vAcc (s : State) : (releaseReset s).mu.vAcc = s.mu.vAcc := by
  unfold releaseReset; try dsimp only
  (repeat' split) <;> simp
@[simp] theorem releaseReset_cl_log (s : State) : (releaseReset s).cl.log = s.cl.log := by
  unfold releaseReset; try dsimp only
  (repeat' split) <;> simp
@[simp] theorem releaseReset_cl_nextSeq (s : State) : (releaseReset s).cl.nextSeq = s.cl.nextSeq := by
  unfold releaseReset; try dsimp only
  (repeat' split) <;> simp
@[simp] theorem releaseReset_rg_set (s : State) : (releaseReset s).rg.set = s.rg.set := by
  unfold releaseReset; try dsimp only
  (repeat' split) <;> simp
@[simp] theorem releaseReset_oc_autoRestart (s : State) : (releaseReset s).oc.autoRestart = s.oc.autoRestart := by
  unfold releaseReset; try dsimp only
  (repeat' split) <;> simp
@[simp] theorem releaseReset_hs (s : State) : (releaseReset s).hs = s.hs := by
  unfold releaseReset; try dsimp only
  (repeat' split) <;> simp
@[simp] theorem releaseReset_ns (s : State) : (releaseReset s).ns = s.ns := by
  unfold releaseReset; try dsimp only
  (repeat' split) <;> simp
@[simp] theorem releaseReset_pins (s : State) : (releaseReset s).pins = s.pins := by
  unfold releaseReset; try dsimp only
  (repeat' split) <;> simp
@[simp] theorem releaseReset_moment (s : State) : (releaseReset s).moment = s.moment := by
  unfold releaseReset; try dsimp only
  (repeat' split) <;> simp
@[simp] theorem releaseReset_pending (s : State) : (releaseReset s).pending = s.pending := by
  unfold releaseReset; try dsimp only
  (repeat' split) <;> simp

/-! #### restartStation -/

@[simp] theorem restartStation_sl_nextId (s : State) : (restartStation s).sl.nextId = s.sl.nextId := by simp [restartStation]
@[simp] theorem restartStation_pins (s : State) : (restartStation s).pins = s.pins := by simp [restartStation]
@[simp] theorem restartStation_sl_windows (s : State) : (restartStation s).sl.windows = s.sl.windows := by simp [restartStation]
@[simp] theorem restartStation_sl_notices (s : State) : (restartStation s).sl.notices = s.sl.notices := by simp [restartStation]
@[simp] theorem restartStation_sl_noticeNo (s : State) : (restartStation s).sl.noticeNo = s.sl.noticeNo := by simp [restartStation]
@[simp] theorem restartStation_cl_log (s : State) : (restartStation s).cl.log = s.cl.log := by simp [restartStation]
@[simp] theorem restartStation_cl_nextSeq (s : State) : (restartStation s).cl.nextSeq = s.cl.nextSeq := by simp [restartStation]
@[simp] theorem restartStation_moment (s : State) : (restartStation s).moment = s.moment := by simp [restartStation]
@[simp] theorem restartStation_pending (s : State) : (restartStation s).pending = s.pending := by simp [restartStation]

/-! #### stageTime -/

@[simp] theorem stageTime_sl (l : LinkId) (t : Nat) (s : State) : (stageTime l t s).sl = s.sl := by
  unfold stageTime; try dsimp only
  (repeat' split) <;> simp
@[simp] theorem stageTime_mu (l : LinkId) (t : Nat) (s : State) : (stageTime l t s).mu = s.mu := by
  unfold stageTime; try dsimp only
  (repeat' split) <;> simp
@[simp] theorem stageTime_cl (l : LinkId) (t : Nat) (s : State) : (stageTime l t s).cl = s.cl := by
  unfold stageTime; try dsimp only
  (repeat' split) <;> simp
@[simp] theorem stageTime_rg (l : LinkId) (t : Nat) (s : State) : (stageTime l t s).rg = s.rg := by
  unfold stageTime; try dsimp only
  (repeat' split) <;> simp
@[simp] theorem stageTime_oc (l : LinkId) (t : Nat) (s : State) : (stageTime l t s).oc = s.oc := by
  unfold stageTime; try dsimp only
  (repeat' split) <;> simp
@[simp] theorem stageTime_cq (l : LinkId) (t : Nat) (s : State) : (stageTime l t s).cq = s.cq := by
  unfold stageTime; try dsimp only
  (repeat' split) <;> simp
@[simp] theorem stageTime_sk (l : LinkId) (t : Nat) (s : State) : (stageTime l t s).sk = s.sk := by
  unfold stageTime; try dsimp only
  (repeat' split) <;> simp
@[simp] theorem stageTime_hs (l : LinkId) (t : Nat) (s : State) : (stageTime l t s).hs = s.hs := by
  unfold stageTime; try dsimp only
  (repeat' split) <;> simp
@[simp] theorem stageTime_ns (l : LinkId) (t : Nat) (s : State) : (stageTime l t s).ns = s.ns := by
  unfold stageTime; try dsimp only
  (repeat' split) <;> simp
@[simp] theorem stageTime_pins (l : LinkId) (t : Nat) (s : State) : (stageTime l t s).pins = s.pins := by
  unfold stageTime; try dsimp only
  (repeat' split) <;> simp
@[simp] theorem stageTime_moment (l : LinkId) (t : Nat) (s : State) : (stageTime l t s).moment = s.moment := by
  unfold stageTime; try dsimp only
  (repeat' split) <;> simp
@[simp] theorem stageTime_pending (l : LinkId) (t : Nat) (s : State) : (stageTime l t s).pending = s.pending := by
  unfold stageTime; try dsimp only
  (repeat' split) <;> simp

/-! #### placeWindow -/

@[simp] theorem placeWindow_tb (l : LinkId) (a b : Nat) (p : Fin 8) (s : State) : (placeWindow l a b p s).tb = s.tb := rfl
@[simp] theorem placeWindow_sl_profiles (l : LinkId) (a b : Nat) (p : Fin 8) (s : State) : (placeWindow l a b p s).sl.profiles = s.sl.profiles := rfl
@[simp] theorem placeWindow_sl_capture (l : LinkId) (a b : Nat) (p : Fin 8) (s : State) : (placeWindow l a b p s).sl.capture = s.sl.capture := rfl
@[simp] theorem placeWindow_sl_outright (l : LinkId) (a b : Nat) (p : Fin 8) (s : State) : (placeWindow l a b p s).sl.outright = s.sl.outright := rfl
@[simp] theorem placeWindow_mu (l : LinkId) (a b : Nat) (p : Fin 8) (s : State) : (placeWindow l a b p s).mu = s.mu := rfl
@[simp] theorem placeWindow_cl (l : LinkId) (a b : Nat) (p : Fin 8) (s : State) : (placeWindow l a b p s).cl = s.cl := rfl
@[simp] theorem placeWindow_rg (l : LinkId) (a b : Nat) (p : Fin 8) (s : State) : (placeWindow l a b p s).rg = s.rg := rfl
@[simp] theorem placeWindow_oc (l : LinkId) (a b : Nat) (p : Fin 8) (s : State) : (placeWindow l a b p s).oc = s.oc := rfl
@[simp] theorem placeWindow_cq (l : LinkId) (a b : Nat) (p : Fin 8) (s : State) : (placeWindow l a b p s).cq = s.cq := rfl
@[simp] theorem placeWindow_sk (l : LinkId) (a b : Nat) (p : Fin 8) (s : State) : (placeWindow l a b p s).sk = s.sk := rfl
@[simp] theorem placeWindow_hs (l : LinkId) (a b : Nat) (p : Fin 8) (s : State) : (placeWindow l a b p s).hs = s.hs := rfl
@[simp] theorem placeWindow_ns (l : LinkId) (a b : Nat) (p : Fin 8) (s : State) : (placeWindow l a b p s).ns = s.ns := rfl
@[simp] theorem placeWindow_pins (l : LinkId) (a b : Nat) (p : Fin 8) (s : State) : (placeWindow l a b p s).pins = s.pins := rfl
@[simp] theorem placeWindow_moment (l : LinkId) (a b : Nat) (p : Fin 8) (s : State) : (placeWindow l a b p s).moment = s.moment := rfl
@[simp] theorem placeWindow_pending (l : LinkId) (a b : Nat) (p : Fin 8) (s : State) : (placeWindow l a b p s).pending = s.pending := rfl

/-! #### endWindow -/

@[simp] theorem endWindow_tb (id : Nat) (s : State) : (endWindow id s).tb = s.tb := rfl
@[simp] theorem endWindow_sl_profiles (id : Nat) (s : State) : (endWindow id s).sl.profiles = s.sl.profiles := rfl
@[simp] theorem endWindow_sl_nextId (id : Nat) (s : State) : (endWindow id s).sl.nextId = s.sl.nextId := rfl
@[simp] theorem endWindow_sl_notices (id : Nat) (s : State) : (endWindow id s).sl.notices = s.sl.notices := rfl
@[simp] theorem endWindow_sl_noticeNo (id : Nat) (s : State) : (endWindow id s).sl.noticeNo = s.sl.noticeNo := rfl
@[simp] theorem endWindow_sl_capture (id : Nat) (s : State) : (endWindow id s).sl.capture = s.sl.capture := rfl
@[simp] theorem endWindow_sl_outright (id : Nat) (s : State) : (endWindow id s).sl.outright = s.sl.outright := rfl
@[simp] theorem endWindow_mu (id : Nat) (s : State) : (endWindow id s).mu = s.mu := rfl
@[simp] theorem endWindow_cl (id : Nat) (s : State) : (endWindow id s).cl = s.cl := rfl
@[simp] theorem endWindow_rg (id : Nat) (s : State) : (endWindow id s).rg = s.rg := rfl
@[simp] theorem endWindow_oc (id : Nat) (s : State) : (endWindow id s).oc = s.oc := rfl
@[simp] theorem endWindow_cq (id : Nat) (s : State) : (endWindow id s).cq = s.cq := rfl
@[simp] theorem endWindow_sk (id : Nat) (s : State) : (endWindow id s).sk = s.sk := rfl
@[simp] theorem endWindow_hs (id : Nat) (s : State) : (endWindow id s).hs = s.hs := rfl
@[simp] theorem endWindow_lc (id : Nat) (s : State) : (endWindow id s).lc = s.lc := rfl
@[simp] theorem endWindow_ns (id : Nat) (s : State) : (endWindow id s).ns = s.ns := rfl
@[simp] theorem endWindow_pins (id : Nat) (s : State) : (endWindow id s).pins = s.pins := rfl
@[simp] theorem endWindow_moment (id : Nat) (s : State) : (endWindow id s).moment = s.moment := rfl
@[simp] theorem endWindow_pending (id : Nat) (s : State) : (endWindow id s).pending = s.pending := rfl

/-! #### deleteWindow -/

@[simp] theorem deleteWindow_tb (w : WindowRec) (s : State) : (deleteWindow w s).tb = s.tb := by
  unfold deleteWindow; try dsimp only
  (repeat' split) <;> simp
@[simp] theorem deleteWindow_sl_profiles (w : WindowRec) (s : State) : (deleteWindow w s).sl.profiles = s.sl.profiles := by
  unfold deleteWindow; try dsimp only
  (repeat' split) <;> simp
@[simp] theorem deleteWindow_sl_nextId (w : WindowRec) (s : State) : (deleteWindow w s).sl.nextId = s.sl.nextId := by
  unfold deleteWindow; try dsimp only
  (repeat' split) <;> simp
@[simp] theorem deleteWindow_sl_capture (w : WindowRec) (s : State) : (deleteWindow w s).sl.capture = s.sl.capture := by
  unfold deleteWindow; try dsimp only
  (repeat' split) <;> simp
@[simp] theorem deleteWindow_sl_outright (w : WindowRec) (s : State) : (deleteWindow w s).sl.outright = s.sl.outright := by
  unfold deleteWindow; try dsimp only
  (repeat' split) <;> simp
@[simp] theorem deleteWindow_mu (w : WindowRec) (s : State) : (deleteWindow w s).mu = s.mu := by
  unfold deleteWindow; try dsimp only
  (repeat' split) <;> simp
@[simp] theorem deleteWindow_cl (w : WindowRec) (s : State) : (deleteWindow w s).cl = s.cl := by
  unfold deleteWindow; try dsimp only
  (repeat' split) <;> simp
@[simp] theorem deleteWindow_rg (w : WindowRec) (s : State) : (deleteWindow w s).rg = s.rg := by
  unfold deleteWindow; try dsimp only
  (repeat' split) <;> simp
@[simp] theorem deleteWindow_oc (w : WindowRec) (s : State) : (deleteWindow w s).oc = s.oc := by
  unfold deleteWindow; try dsimp only
  (repeat' split) <;> simp
@[simp] theorem deleteWindow_cq (w : WindowRec) (s : State) : (deleteWindow w s).cq = s.cq := by
  unfold deleteWindow; try dsimp only
  (repeat' split) <;> simp
@[simp] theorem deleteWindow_sk (w : WindowRec) (s : State) : (deleteWindow w s).sk = s.sk := by
  unfold deleteWindow; try dsimp only
  (repeat' split) <;> simp
@[simp] theorem deleteWindow_hs (w : WindowRec) (s : State) : (deleteWindow w s).hs = s.hs := by
  unfold deleteWindow; try dsimp only
  (repeat' split) <;> simp
@[simp] theorem deleteWindow_ns (w : WindowRec) (s : State) : (deleteWindow w s).ns = s.ns := by
  unfold deleteWindow; try dsimp only
  (repeat' split) <;> simp
@[simp] theorem deleteWindow_pins (w : WindowRec) (s : State) : (deleteWindow w s).pins = s.pins := by
  unfold deleteWindow; try dsimp only
  (repeat' split) <;> simp
@[simp] theorem deleteWindow_moment (w : WindowRec) (s : State) : (deleteWindow w s).moment = s.moment := by
  unfold deleteWindow; try dsimp only
  (repeat' split) <;> simp
@[simp] theorem deleteWindow_pending (w : WindowRec) (s : State) : (deleteWindow w s).pending = s.pending := by
  unfold deleteWindow; try dsimp only
  (repeat' split) <;> simp

/-! #### setAutoRestart -/

@[simp] theorem setAutoRestart_tb (a : Option Bool) (s : State) : (setAutoRestart a s).tb = s.tb := by
  unfold setAutoRestart; try dsimp only
  (repeat' split) <;> simp
@[simp] theorem setAutoRestart_sl (a : Option Bool) (s : State) : (setAutoRestart a s).sl = s.sl := by
  unfold setAutoRestart; try dsimp only
  (repeat' split) <;> simp
@[simp] theorem setAutoRestart_mu (a : Option Bool) (s : State) : (setAutoRestart a s).mu = s.mu := by
  unfold setAutoRestart; try dsimp only
  (repeat' split) <;> simp
@[simp] theorem setAutoRestart_cl (a : Option Bool) (s : State) : (setAutoRestart a s).cl = s.cl := by
  unfold setAutoRestart; try dsimp only
  (repeat' split) <;> simp
@[simp] theorem setAutoRestart_rg (a : Option Bool) (s : State) : (setAutoRestart a s).rg = s.rg := by
  unfold setAutoRestart; try dsimp only
  (repeat' split) <;> simp
@[simp] theorem setAutoRestart_oc_output (a : Option Bool) (s : State) : (setAutoRestart a s).oc.output = s.oc.output := by
  unfold setAutoRestart; try dsimp only
  (repeat' split) <;> simp
@[simp] theorem setAutoRestart_oc_restartPending (a : Option Bool) (s : State) : (setAutoRestart a s).oc.restartPending = s.oc.restartPending := by
  unfold setAutoRestart; try dsimp only
  (repeat' split) <;> simp
@[simp] theorem setAutoRestart_oc_rampLimit (a : Option Bool) (s : State) : (setAutoRestart a s).oc.rampLimit = s.oc.rampLimit := by
  unfold setAutoRestart; try dsimp only
  (repeat' split) <;> simp
@[simp] theorem setAutoRestart_cq (a : Option Bool) (s : State) : (setAutoRestart a s).cq = s.cq := by
  unfold setAutoRestart; try dsimp only
  (repeat' split) <;> simp
@[simp] theorem setAutoRestart_sk (a : Option Bool) (s : State) : (setAutoRestart a s).sk = s.sk := by
  unfold setAutoRestart; try dsimp only
  (repeat' split) <;> simp
@[simp] theorem setAutoRestart_hs (a : Option Bool) (s : State) : (setAutoRestart a s).hs = s.hs := by
  unfold setAutoRestart; try dsimp only
  (repeat' split) <;> simp
@[simp] theorem setAutoRestart_lc (a : Option Bool) (s : State) : (setAutoRestart a s).lc = s.lc := by
  unfold setAutoRestart; try dsimp only
  (repeat' split) <;> simp
@[simp] theorem setAutoRestart_ns (a : Option Bool) (s : State) : (setAutoRestart a s).ns = s.ns := by
  unfold setAutoRestart; try dsimp only
  (repeat' split) <;> simp
@[simp] theorem setAutoRestart_pins (a : Option Bool) (s : State) : (setAutoRestart a s).pins = s.pins := by
  unfold setAutoRestart; try dsimp only
  (repeat' split) <;> simp
@[simp] theorem setAutoRestart_moment (a : Option Bool) (s : State) : (setAutoRestart a s).moment = s.moment := by
  unfold setAutoRestart; try dsimp only
  (repeat' split) <;> simp
@[simp] theorem setAutoRestart_pending (a : Option Bool) (s : State) : (setAutoRestart a s).pending = s.pending := by
  unfold setAutoRestart; try dsimp only
  (repeat' split) <;> simp

/-! #### startOutput -/

@[simp] theorem startOutput_tb (s : State) : (startOutput s).tb = s.tb := by
  unfold startOutput; try dsimp only
  (repeat' split) <;> simp
@[simp] theorem startOutput_sl_profiles (s : State) : (startOutput s).sl.profiles = s.sl.profiles := by
  unfold startOutput; try dsimp only
  (repeat' split) <;> simp
@[simp] theorem startOutput_sl_windows (s : State) : (startOutput s).sl.windows = s.sl.windows := by
  unfold startOutput; try dsimp only
  (repeat' split) <;> simp
@[simp] theorem startOutput_sl_nextId (s : State) : (startOutput s).sl.nextId = s.sl.nextId := by
  unfold startOutput; try dsimp only
  (repeat' split) <;> simp
@[simp] theorem startOutput_sl_notices (s : State) : (startOutput s).sl.notices = s.sl.notices := by
  unfold startOutput; try dsimp only
  (repeat' split) <;> simp
@[simp] theorem startOutput_sl_noticeNo (s : State) : (startOutput s).sl.noticeNo = s.sl.noticeNo := by
  unfold startOutput; try dsimp only
  (repeat' split) <;> simp
@[simp] theorem startOutput_sl_capture (s : State) : (startOutput s).sl.capture = s.sl.capture := by
  unfold startOutput; try dsimp only
  (repeat' split) <;> simp
@[simp] theorem startOutput_sl_outright (s : State) : (startOutput s).sl.outright = s.sl.outright := by
  unfold startOutput; try dsimp only
  (repeat' split) <;> simp
@[simp] theorem startOutput_mu_cal (s : State) : (startOutput s).mu.cal = s.mu.cal := by
  unfold startOutput; try dsimp only
  (repeat' split) <;> simp
@[simp] theorem startOutput_mu_iAcc (s : State) : (startOutput s).mu.iAcc = s.mu.iAcc := by
  unfold startOutput; try dsimp only
  (repeat' split) <;> simp
@[simp] theorem startOutput_mu_vAcc (s : State) : (startOutput s).mu.vAcc = s.mu.vAcc := by
  unfold startOutput; try dsimp only
  (repeat' split) <;> simp
@[simp] theorem startOutput_cl_log (s : State) : (startOutput s).cl.log = s.cl.log := by
  unfold startOutput; try dsimp only
  (repeat' split) <;> simp
@[simp] theorem startOutput_cl_nextSeq (s : State) : (startOutput s).cl.nextSeq = s.cl.nextSeq := by
  unfold startOutput; try dsimp only
  (repeat' split) <;> simp
@[simp] theorem startOutput_rg_set (s : State) : (startOutput s).rg.set = s.rg.set := by
  unfold startOutput; try dsimp only
  (repeat' split) <;> simp
@[simp] theorem startOutput_oc_autoRestart (s : State) : (startOutput s).oc.autoRestart = s.oc.autoRestart := by
  unfold startOutput; try dsimp only
  (repeat' split) <;> simp
@[simp] theorem startOutput_cq (s : State) : (startOutput s).cq = s.cq := by
  unfold startOutput; try dsimp only
  (repeat' split) <;> simp
@[simp] theorem startOutput_sk (s : State) : (startOutput s).sk = s.sk := by
  unfold startOutput; try dsimp only
  (repeat' split) <;> simp
@[simp] theorem startOutput_hs (s : State) : (startOutput s).hs = s.hs := by
  unfold startOutput; try dsimp only
  (repeat' split) <;> simp
@[simp] theorem startOutput_ns (s : State) : (startOutput s).ns = s.ns := by
  unfold startOutput; try dsimp only
  (repeat' split) <;> simp
@[simp] theorem startOutput_pins (s : State) : (startOutput s).pins = s.pins := by
  unfold startOutput; try dsimp only
  (repeat' split) <;> simp
@[simp] theorem startOutput_moment (s : State) : (startOutput s).moment = s.moment := by
  unfold startOutput; try dsimp only
  (repeat' split) <;> simp
@[simp] theorem startOutput_pending (s : State) : (startOutput s).pending = s.pending := by
  unfold startOutput; try dsimp only
  (repeat' split) <;> simp

/-! #### stopOutput -/

@[simp] theorem stopOutput_tb (s : State) : (stopOutput s).tb = s.tb := by
  unfold stopOutput; try dsimp only
  (repeat' split) <;> simp
@[simp] theorem stopOutput_sl_profiles (s : State) : (stopOutput s).sl.profiles = s.sl.profiles := by
  unfold stopOutput; try dsimp only
  (repeat' split) <;> simp
@[simp] theorem stopOutput_sl_windows (s : State) : (stopOutput s).sl.windows = s.sl.windows := by
  unfold stopOutput; try dsimp only
  (repeat' split) <;> simp
@[simp] theorem stopOutput_sl_nextId (s : State) : (stopOutput s).sl.nextId = s.sl.nextId := by
  unfold stopOutput; try dsimp only
  (repeat' split) <;> simp
@[simp] theorem stopOutput_sl_notices (s : State) : (stopOutput s).sl.notices = s.sl.notices := by
  unfold stopOutput; try dsimp only
  (repeat' split) <;> simp
@[simp] theorem stopOutput_sl_noticeNo (s : State) : (stopOutput s).sl.noticeNo = s.sl.noticeNo := by
  unfold stopOutput; try dsimp only
  (repeat' split) <;> simp
@[simp] theorem stopOutput_sl_capture (s : State) : (stopOutput s).sl.capture = s.sl.capture := by
  unfold stopOutput; try dsimp only
  (repeat' split) <;> simp
@[simp] theorem stopOutput_sl_outright (s : State) : (stopOutput s).sl.outright = s.sl.outright := by
  unfold stopOutput; try dsimp only
  (repeat' split) <;> simp
@[simp] theorem stopOutput_mu_cal (s : State) : (stopOutput s).mu.cal = s.mu.cal := by
  unfold stopOutput; try dsimp only
  (repeat' split) <;> simp
@[simp] theorem stopOutput_mu_iAcc (s : State) : (stopOutput s).mu.iAcc = s.mu.iAcc := by
  unfold stopOutput; try dsimp only
  (repeat' split) <;> simp
@[simp] theorem stopOutput_mu_vAcc (s : State) : (stopOutput s).mu.vAcc = s.mu.vAcc := by
  unfold stopOutput; try dsimp only
  (repeat' split) <;> simp
@[simp] theorem stopOutput_cl_log (s : State) : (stopOutput s).cl.log = s.cl.log := by
  unfold stopOutput; try dsimp only
  (repeat' split) <;> simp
@[simp] theorem stopOutput_cl_nextSeq (s : State) : (stopOutput s).cl.nextSeq = s.cl.nextSeq := by
  unfold stopOutput; try dsimp only
  (repeat' split) <;> simp
@[simp] theorem stopOutput_rg_set (s : State) : (stopOutput s).rg.set = s.rg.set := by
  unfold stopOutput; try dsimp only
  (repeat' split) <;> simp
@[simp] theorem stopOutput_oc_autoRestart (s : State) : (stopOutput s).oc.autoRestart = s.oc.autoRestart := by
  unfold stopOutput; try dsimp only
  (repeat' split) <;> simp
@[simp] theorem stopOutput_oc_rampLimit (s : State) : (stopOutput s).oc.rampLimit = s.oc.rampLimit := by
  unfold stopOutput; try dsimp only
  (repeat' split) <;> simp
@[simp] theorem stopOutput_cq (s : State) : (stopOutput s).cq = s.cq := by
  unfold stopOutput; try dsimp only
  (repeat' split) <;> simp
@[simp] theorem stopOutput_sk (s : State) : (stopOutput s).sk = s.sk := by
  unfold stopOutput; try dsimp only
  (repeat' split) <;> simp
@[simp] theorem stopOutput_hs (s : State) : (stopOutput s).hs = s.hs := by
  unfold stopOutput; try dsimp only
  (repeat' split) <;> simp
@[simp] theorem stopOutput_ns (s : State) : (stopOutput s).ns = s.ns := by
  unfold stopOutput; try dsimp only
  (repeat' split) <;> simp
@[simp] theorem stopOutput_pins (s : State) : (stopOutput s).pins = s.pins := by
  unfold stopOutput; try dsimp only
  (repeat' split) <;> simp
@[simp] theorem stopOutput_moment (s : State) : (stopOutput s).moment = s.moment := by
  unfold stopOutput; try dsimp only
  (repeat' split) <;> simp
@[simp] theorem stopOutput_pending (s : State) : (stopOutput s).pending = s.pending := by
  unfold stopOutput; try dsimp only
  (repeat' split) <;> simp

/-! #### releaseHeld -/

@[simp] theorem releaseHeld_tb (c : Continuation) (s : State) : (releaseHeld c s).tb = s.tb := by
  unfold releaseHeld; try dsimp only
  (repeat' split) <;> simp
@[simp] theorem releaseHeld_sl_profiles (c : Continuation) (s : State) : (releaseHeld c s).sl.profiles = s.sl.profiles := by
  unfold releaseHeld; try dsimp only
  (repeat' split) <;> simp
@[simp] theorem releaseHeld_sl_windows (c : Continuation) (s : State) : (releaseHeld c s).sl.windows = s.sl.windows := by
  unfold releaseHeld; try dsimp only
  (repeat' split) <;> simp
@[simp] theorem releaseHeld_sl_nextId (c : Continuation) (s : State) : (releaseHeld c s).sl.nextId = s.sl.nextId := by
  unfold releaseHeld; try dsimp only
  (repeat' split) <;> simp
@[simp] theorem releaseHeld_sl_notices (c : Continuation) (s : State) : (releaseHeld c s).sl.notices = s.sl.notices := by
  unfold releaseHeld; try dsimp only
  (repeat' split) <;> simp
@[simp] theorem releaseHeld_sl_noticeNo (c : Continuation) (s : State) : (releaseHeld c s).sl.noticeNo = s.sl.noticeNo := by
  unfold releaseHeld; try dsimp only
  (repeat' split) <;> simp
@[simp] theorem releaseHeld_sl_capture (c : Continuation) (s : State) : (releaseHeld c s).sl.capture = s.sl.capture := by
  unfold releaseHeld; try dsimp only
  (repeat' split) <;> simp
@[simp] theorem releaseHeld_sl_outright (c : Continuation) (s : State) : (releaseHeld c s).sl.outright = s.sl.outright := by
  unfold releaseHeld; try dsimp only
  (repeat' split) <;> simp
@[simp] theorem releaseHeld_mu_cal (c : Continuation) (s : State) : (releaseHeld c s).mu.cal = s.mu.cal := by
  unfold releaseHeld; try dsimp only
  (repeat' split) <;> simp
@[simp] theorem releaseHeld_mu_iAcc (c : Continuation) (s : State) : (releaseHeld c s).mu.iAcc = s.mu.iAcc := by
  unfold releaseHeld; try dsimp only
  (repeat' split) <;> simp
@[simp] theorem releaseHeld_mu_vAcc (c : Continuation) (s : State) : (releaseHeld c s).mu.vAcc = s.mu.vAcc := by
  unfold releaseHeld; try dsimp only
  (repeat' split) <;> simp
@[simp] theorem releaseHeld_cl_log (c : Continuation) (s : State) : (releaseHeld c s).cl.log = s.cl.log := by
  unfold releaseHeld; try dsimp only
  (repeat' split) <;> simp
@[simp] theorem releaseHeld_cl_nextSeq (c : Continuation) (s : State) : (releaseHeld c s).cl.nextSeq = s.cl.nextSeq := by
  unfold releaseHeld; try dsimp only
  (repeat' split) <;> simp
@[simp] theorem releaseHeld_rg_set (c : Continuation) (s : State) : (releaseHeld c s).rg.set = s.rg.set := by
  unfold releaseHeld; try dsimp only
  (repeat' split) <;> simp
@[simp] theorem releaseHeld_oc_autoRestart (c : Continuation) (s : State) : (releaseHeld c s).oc.autoRestart = s.oc.autoRestart := by
  unfold releaseHeld; try dsimp only
  (repeat' split) <;> simp
@[simp] theorem releaseHeld_cq (c : Continuation) (s : State) : (releaseHeld c s).cq = s.cq := by
  unfold releaseHeld; try dsimp only
  (repeat' split) <;> simp
@[simp] theorem releaseHeld_sk (c : Continuation) (s : State) : (releaseHeld c s).sk = s.sk := by
  unfold releaseHeld; try dsimp only
  (repeat' split) <;> simp
@[simp] theorem releaseHeld_hs (c : Continuation) (s : State) : (releaseHeld c s).hs = s.hs := by
  unfold releaseHeld; try dsimp only
  (repeat' split) <;> simp
@[simp] theorem releaseHeld_ns (c : Continuation) (s : State) : (releaseHeld c s).ns = s.ns := by
  unfold releaseHeld; try dsimp only
  (repeat' split) <;> simp
@[simp] theorem releaseHeld_pins (c : Continuation) (s : State) : (releaseHeld c s).pins = s.pins := by
  unfold releaseHeld; try dsimp only
  (repeat' split) <;> simp
@[simp] theorem releaseHeld_moment (c : Continuation) (s : State) : (releaseHeld c s).moment = s.moment := by
  unfold releaseHeld; try dsimp only
  (repeat' split) <;> simp
@[simp] theorem releaseHeld_pending (c : Continuation) (s : State) : (releaseHeld c s).pending = s.pending := by
  unfold releaseHeld; try dsimp only
  (repeat' split) <;> simp

/-! #### resumeWindow -/

@[simp] theorem resumeWindow_tb (f : Frame) (c : Continuation) (s : State) : (resumeWindow f c s).tb = s.tb := by
  unfold resumeWindow; try dsimp only
  (repeat' split) <;> simp
@[simp] theorem resumeWindow_sl_profiles (f : Frame) (c : Continuation) (s : State) : (resumeWindow f c s).sl.profiles = s.sl.profiles := by
  unfold resumeWindow; try dsimp only
  (repeat' split) <;> simp
@[simp] theorem resumeWindow_sl_nextId (f : Frame) (c : Continuation) (s : State) : (resumeWindow f c s).sl.nextId = s.sl.nextId := by
  unfold resumeWindow; try dsimp only
  (repeat' split) <;> simp
@[simp] theorem resumeWindow_sl_notices (f : Frame) (c : Continuation) (s : State) : (resumeWindow f c s).sl.notices = s.sl.notices := by
  unfold resumeWindow; try dsimp only
  (repeat' split) <;> simp
@[simp] theorem resumeWindow_sl_noticeNo (f : Frame) (c : Continuation) (s : State) : (resumeWindow f c s).sl.noticeNo = s.sl.noticeNo := by
  unfold resumeWindow; try dsimp only
  (repeat' split) <;> simp
@[simp] theorem resumeWindow_sl_capture (f : Frame) (c : Continuation) (s : State) : (resumeWindow f c s).sl.capture = s.sl.capture := by
  unfold resumeWindow; try dsimp only
  (repeat' split) <;> simp
@[simp] theorem resumeWindow_sl_outright (f : Frame) (c : Continuation) (s : State) : (resumeWindow f c s).sl.outright = s.sl.outright := by
  unfold resumeWindow; try dsimp only
  (repeat' split) <;> simp
@[simp] theorem resumeWindow_mu (f : Frame) (c : Continuation) (s : State) : (resumeWindow f c s).mu = s.mu := by
  unfold resumeWindow; try dsimp only
  (repeat' split) <;> simp
@[simp] theorem resumeWindow_cl (f : Frame) (c : Continuation) (s : State) : (resumeWindow f c s).cl = s.cl := by
  unfold resumeWindow; try dsimp only
  (repeat' split) <;> simp
@[simp] theorem resumeWindow_rg (f : Frame) (c : Continuation) (s : State) : (resumeWindow f c s).rg = s.rg := by
  unfold resumeWindow; try dsimp only
  (repeat' split) <;> simp
@[simp] theorem resumeWindow_oc (f : Frame) (c : Continuation) (s : State) : (resumeWindow f c s).oc = s.oc := by
  unfold resumeWindow; try dsimp only
  (repeat' split) <;> simp
@[simp] theorem resumeWindow_cq (f : Frame) (c : Continuation) (s : State) : (resumeWindow f c s).cq = s.cq := by
  unfold resumeWindow; try dsimp only
  (repeat' split) <;> simp
@[simp] theorem resumeWindow_sk (f : Frame) (c : Continuation) (s : State) : (resumeWindow f c s).sk = s.sk := by
  unfold resumeWindow; try dsimp only
  (repeat' split) <;> simp
@[simp] theorem resumeWindow_hs (f : Frame) (c : Continuation) (s : State) : (resumeWindow f c s).hs = s.hs := by
  unfold resumeWindow; try dsimp only
  (repeat' split) <;> simp
@[simp] theorem resumeWindow_lc (f : Frame) (c : Continuation) (s : State) : (resumeWindow f c s).lc = s.lc := by
  unfold resumeWindow; try dsimp only
  (repeat' split) <;> simp
@[simp] theorem resumeWindow_ns (f : Frame) (c : Continuation) (s : State) : (resumeWindow f c s).ns = s.ns := by
  unfold resumeWindow; try dsimp only
  (repeat' split) <;> simp
@[simp] theorem resumeWindow_pins (f : Frame) (c : Continuation) (s : State) : (resumeWindow f c s).pins = s.pins := by
  unfold resumeWindow; try dsimp only
  (repeat' split) <;> simp
@[simp] theorem resumeWindow_moment (f : Frame) (c : Continuation) (s : State) : (resumeWindow f c s).moment = s.moment := by
  unfold resumeWindow; try dsimp only
  (repeat' split) <;> simp
@[simp] theorem resumeWindow_pending (f : Frame) (c : Continuation) (s : State) : (resumeWindow f c s).pending = s.pending := by
  unfold resumeWindow; try dsimp only
  (repeat' split) <;> simp

/-! #### resumeFrame -/

@[simp] theorem resumeFrame_tb (f : ResumeFields) (t : Frame) (c : Continuation) (s : State) : (resumeFrame f t c s).tb = s.tb := by
  unfold resumeFrame; try dsimp only
  (repeat' split) <;> simp
@[simp] theorem resumeFrame_sl_profiles (f : ResumeFields) (t : Frame) (c : Continuation) (s : State) : (resumeFrame f t c s).sl.profiles = s.sl.profiles := by
  unfold resumeFrame; try dsimp only
  (repeat' split) <;> simp
@[simp] theorem resumeFrame_sl_nextId (f : ResumeFields) (t : Frame) (c : Continuation) (s : State) : (resumeFrame f t c s).sl.nextId = s.sl.nextId := by
  unfold resumeFrame; try dsimp only
  (repeat' split) <;> simp
@[simp] theorem resumeFrame_sl_notices (f : ResumeFields) (t : Frame) (c : Continuation) (s : State) : (resumeFrame f t c s).sl.notices = s.sl.notices := by
  unfold resumeFrame; try dsimp only
  (repeat' split) <;> simp
@[simp] theorem resumeFrame_sl_noticeNo (f : ResumeFields) (t : Frame) (c : Continuation) (s : State) : (resumeFrame f t c s).sl.noticeNo = s.sl.noticeNo := by
  unfold resumeFrame; try dsimp only
  (repeat' split) <;> simp
@[simp] theorem resumeFrame_sl_outright (f : ResumeFields) (t : Frame) (c : Continuation) (s : State) : (resumeFrame f t c s).sl.outright = s.sl.outright := by
  unfold resumeFrame; try dsimp only
  (repeat' split) <;> simp
@[simp] theorem resumeFrame_mu_cal (f : ResumeFields) (t : Frame) (c : Continuation) (s : State) : (resumeFrame f t c s).mu.cal = s.mu.cal := by
  unfold resumeFrame; try dsimp only
  (repeat' split) <;> simp
@[simp] theorem resumeFrame_mu_iAcc (f : ResumeFields) (t : Frame) (c : Continuation) (s : State) : (resumeFrame f t c s).mu.iAcc = s.mu.iAcc := by
  unfold resumeFrame; try dsimp only
  (repeat' split) <;> simp
@[simp] theorem resumeFrame_mu_vAcc (f : ResumeFields) (t : Frame) (c : Continuation) (s : State) : (resumeFrame f t c s).mu.vAcc = s.mu.vAcc := by
  unfold resumeFrame; try dsimp only
  (repeat' split) <;> simp
@[simp] theorem resumeFrame_cl_log (f : ResumeFields) (t : Frame) (c : Continuation) (s : State) : (resumeFrame f t c s).cl.log = s.cl.log := by
  unfold resumeFrame; try dsimp only
  (repeat' split) <;> simp
@[simp] theorem resumeFrame_cl_nextSeq (f : ResumeFields) (t : Frame) (c : Continuation) (s : State) : (resumeFrame f t c s).cl.nextSeq = s.cl.nextSeq := by
  unfold resumeFrame; try dsimp only
  (repeat' split) <;> simp
@[simp] theorem resumeFrame_oc_autoRestart (f : ResumeFields) (t : Frame) (c : Continuation) (s : State) : (resumeFrame f t c s).oc.autoRestart = s.oc.autoRestart := by
  unfold resumeFrame; try dsimp only
  (repeat' split) <;> simp
@[simp] theorem resumeFrame_hs (f : ResumeFields) (t : Frame) (c : Continuation) (s : State) : (resumeFrame f t c s).hs = s.hs := by
  unfold resumeFrame; try dsimp only
  (repeat' split) <;> simp
@[simp] theorem resumeFrame_ns (f : ResumeFields) (t : Frame) (c : Continuation) (s : State) : (resumeFrame f t c s).ns = s.ns := by
  unfold resumeFrame; try dsimp only
  (repeat' split) <;> simp
@[simp] theorem resumeFrame_pins (f : ResumeFields) (t : Frame) (c : Continuation) (s : State) : (resumeFrame f t c s).pins = s.pins := by
  unfold resumeFrame; try dsimp only
  (repeat' split) <;> simp
@[simp] theorem resumeFrame_moment (f : ResumeFields) (t : Frame) (c : Continuation) (s : State) :
    (resumeFrame f t c s).moment =
      { s.moment with
        requeued := s.moment.requeued ++ (requeued f.elements t.pendingList).map QEntry.setting } := by
  unfold resumeFrame; try dsimp only
  (repeat' split) <;> simp
@[simp] theorem resumeFrame_pending (f : ResumeFields) (t : Frame) (c : Continuation) (s : State) : (resumeFrame f t c s).pending = s.pending := by
  unfold resumeFrame; try dsimp only
  (repeat' split) <;> simp

/-! #### clearLockout -/

@[simp] theorem clearLockout_tb (s : State) : (clearLockout s).tb = s.tb := by simp [clearLockout]
@[simp] theorem clearLockout_sl_profiles (s : State) : (clearLockout s).sl.profiles = s.sl.profiles := by simp [clearLockout]
@[simp] theorem clearLockout_sl_windows (s : State) : (clearLockout s).sl.windows = s.sl.windows := by simp [clearLockout]
@[simp] theorem clearLockout_sl_nextId (s : State) : (clearLockout s).sl.nextId = s.sl.nextId := by simp [clearLockout]
@[simp] theorem clearLockout_sl_notices (s : State) : (clearLockout s).sl.notices = s.sl.notices := by simp [clearLockout]
@[simp] theorem clearLockout_sl_noticeNo (s : State) : (clearLockout s).sl.noticeNo = s.sl.noticeNo := by simp [clearLockout]
@[simp] theorem clearLockout_sl_outright (s : State) : (clearLockout s).sl.outright = s.sl.outright := by simp [clearLockout]
@[simp] theorem clearLockout_mu_cal (s : State) : (clearLockout s).mu.cal = s.mu.cal := by simp [clearLockout]
@[simp] theorem clearLockout_mu_iAcc (s : State) : (clearLockout s).mu.iAcc = s.mu.iAcc := by simp [clearLockout]
@[simp] theorem clearLockout_mu_vAcc (s : State) : (clearLockout s).mu.vAcc = s.mu.vAcc := by simp [clearLockout]
@[simp] theorem clearLockout_cl_log (s : State) : (clearLockout s).cl.log = s.cl.log := by simp [clearLockout]
@[simp] theorem clearLockout_cl_nextSeq (s : State) : (clearLockout s).cl.nextSeq = s.cl.nextSeq := by simp [clearLockout]
@[simp] theorem clearLockout_rg_set (s : State) : (clearLockout s).rg.set = s.rg.set := by simp [clearLockout]
@[simp] theorem clearLockout_oc_autoRestart (s : State) : (clearLockout s).oc.autoRestart = s.oc.autoRestart := by simp [clearLockout]
@[simp] theorem clearLockout_oc_rampLimit (s : State) : (clearLockout s).oc.rampLimit = s.oc.rampLimit := by simp [clearLockout]
@[simp] theorem clearLockout_hs (s : State) : (clearLockout s).hs = s.hs := by simp [clearLockout]
@[simp] theorem clearLockout_ns (s : State) : (clearLockout s).ns = s.ns := by simp [clearLockout]
@[simp] theorem clearLockout_pins (s : State) : (clearLockout s).pins = s.pins := by simp [clearLockout]
@[simp] theorem clearLockout_moment (s : State) : (clearLockout s).moment = s.moment := by simp [clearLockout]
@[simp] theorem clearLockout_pending (s : State) : (clearLockout s).pending = s.pending := by simp [clearLockout]

end Sys2Proof.Machine
end

