-- ==== Sys2Proof/Laws/Ops.lean ====
section
/-! SUPPORT. What the shared operations do, said once: events on links, the switch and drive outputs, changes of output state,
taking a fault, window notices, the positions of a moment. The provers cite these in place of unfolding. -/

namespace Sys2Proof.Machine

/-! ### One value for each link -/

@[simp] theorem PerLink.get_map {α β : Type} (f : α → β) (p : PerLink α) (l : LinkId) : (p.map f).get l = f (p.get l) := by
  cases l <;> rfl

@[simp] theorem PerLink.get_set {α : Type} (p : PerLink α) (l m : LinkId) (v : α) :
    (p.set l v).get m = if m = l then v else p.get m := by
  cases l <;> cases m <;> rfl

/-- Two tables that agree on every link are equal. -/
theorem PerLink.ext_get {α : Type} {p q : PerLink α} (h : ∀ l, p.get l = q.get l) : p = q := by
  have h1 := h .supervisor; have h2 := h .telemetry; have h3 := h .service
  cases p; cases q; simp_all [PerLink.get]

@[simp] theorem PerLink.set_get {α : Type} (p : PerLink α) (l : LinkId) : p.set l (p.get l) = p := by
  cases l <;> rfl

@[simp] theorem PerLink.set_set {α : Type} (p : PerLink α) (l : LinkId) (u v : α) : (p.set l u).set l v = p.set l v := by
  cases l <;> rfl

@[simp] theorem State.onLink_link (s : State) (l m : LinkId) (f : Link → Link) :
    (s.onLink l f).link m = if m = l then f (s.link l) else s.link m := by
  simp [State.onLink, State.link]

@[simp] theorem State.onLinks_link (s : State) (l : LinkId) (f : Link → Link) : (s.onLinks f).link l = f (s.link l) := by
  simp [State.onLinks, State.link]

/-- A link operation that leaves the link as it is leaves the controller as it is. -/
theorem State.onLink_self {s : State} {l : LinkId} {f : Link → Link} (h : f (s.link l) = s.link l) : s.onLink l f = s := by
  have : s.lc.links.set l (f (s.lc.links.get l)) = s.lc.links := by
    rw [show f (s.lc.links.get l) = s.lc.links.get l from h, PerLink.set_get]
  simp only [State.onLink, this]

/-- An operation that leaves every link as it is leaves the controller as it is. -/
theorem State.onLinks_self {s : State} {f : Link → Link} (h : ∀ l, f (s.link l) = s.link l) : s.onLinks f = s := by
  have : s.lc.links.map f = s.lc.links := PerLink.ext_get fun l => by simpa [State.link] using h l
  simp only [State.onLinks, this]

/-! ### Events (R194, R198) -/

@[simp] theorem Link.raise_flags (c : EventClass) (k : Link) : (k.raise c).flags = k.flags ||| c.bit := rfl
@[simp] theorem Link.raise_mask (c : EventClass) (k : Link) : (k.raise c).mask = k.mask := rfl
@[simp] theorem Link.raise_fifo (c : EventClass) (k : Link) : (k.raise c).fifo = k.fifo := rfl
@[simp] theorem Link.raise_buffer (c : EventClass) (k : Link) : (k.raise c).buffer = k.buffer := rfl
@[simp] theorem Link.raise_txBits (c : EventClass) (k : Link) : (k.raise c).txBits = k.txBits := rfl
@[simp] theorem Link.raise_rate (c : EventClass) (k : Link) : (k.raise c).rate = k.rate := rfl
@[simp] theorem Link.raise_pendingRate (c : EventClass) (k : Link) : (k.raise c).pendingRate = k.pendingRate := rfl
@[simp] theorem Link.raise_rx (c : EventClass) (k : Link) : (k.raise c).rx = k.rx := rfl
@[simp] theorem Link.raise_partialBytes (c : EventClass) (k : Link) : (k.raise c).partialBytes = k.partialBytes := rfl
@[simp] theorem Link.raise_gap (c : EventClass) (k : Link) : (k.raise c).gap = k.gap := rfl
@[simp] theorem Link.raise_errors (c : EventClass) (k : Link) : (k.raise c).errors = k.errors := rfl
@[simp] theorem Link.raise_attention (c : EventClass) (k : Link) :
    (k.raise c).attention = decide ((k.flags ||| c.bit) &&& k.mask ≠ 0) := rfl

/-- A class that was raised is set. -/
theorem Link.raise_sets (c : EventClass) (k : Link) : (k.raise c).flags &&& c.bit = c.bit := by
  simp only [Link.raise_flags]
  apply BitVec.eq_of_getElem_eq
  intro i hi
  simp only [BitVec.getElem_and, BitVec.getElem_or]
  cases c.bit[i] <;> simp

/-- A class that is set stays set when another is raised. -/
theorem Link.raise_keeps (c d : EventClass) {k : Link} (h : k.flags &&& d.bit = d.bit) :
    (k.raise c).flags &&& d.bit = d.bit := by
  simp only [Link.raise_flags]
  apply BitVec.eq_of_getElem_eq
  intro i hi
  have hb := congrArg (fun v : EventSet => v[i]) h
  simp only [BitVec.getElem_and, BitVec.getElem_or] at hb ⊢
  revert hb
  cases k.flags[i] <;> cases c.bit[i] <;> cases d.bit[i] <;> simp

@[simp] theorem raiseAll_link (c : EventClass) (s : State) (l : LinkId) : (raiseAll c s).link l = (s.link l).raise c := by
  simp [raiseAll]

@[simp] theorem raiseOn_link (l m : LinkId) (c : EventClass) (s : State) :
    (raiseOn l c s).link m = if m = l then (s.link l).raise c else s.link m := by
  simp [raiseOn]

/-! ### The ACTIVE or ENDING window -/

/-- The window that runs depends on the list alone. -/
theorem State.active_congr {s t : State} (h : t.sl.windows = s.sl.windows) : t.active = s.active := by
  simp only [State.active, h]

/-- The window that runs is the first entry, with its own cycle part. -/
theorem State.active_eq_some {s : State} {w : WindowRec} {c : CyclePart} :
    s.active = some (w, c) ↔ ∃ ws, s.sl.windows = w :: ws ∧ w.life.part = some c := by
  simp only [State.active]
  cases h : s.sl.windows with
  | nil => simp [activeOf]
  | cons v vs =>
    simp only [activeOf, Option.map_eq_some_iff, Prod.mk.injEq, List.cons.injEq]
    constructor
    · rintro ⟨d, hd, rfl, rfl⟩
      exact ⟨vs, ⟨rfl, rfl⟩, hd⟩
    · rintro ⟨ws, ⟨rfl, _⟩, hd⟩
      exact ⟨c, hd, rfl, rfl⟩

/-- The switch demand of R52 depends on the window that runs, on the profiles and on the stack alone. -/
theorem State.wantsOpen_congr {s t : State} (hw : t.sl.windows = s.sl.windows) (hp : t.sl.profiles = s.sl.profiles)
    (hk : t.sk.stack = s.sk.stack) : t.wantsOpen = s.wantsOpen := by
  simp only [State.wantsOpen, State.active_congr hw, State.profileOf, hp, hk]
  rfl

/-- With a frame held the switch demand is CLOSED (R63). -/
theorem State.wantsOpen_held {s : State} (h : s.sk.stack ≠ []) : s.wantsOpen = false := by
  simp only [State.wantsOpen]
  split
  · rfl
  · cases hs : s.sk.stack with
    | nil => exact absurd hs h
    | cons _ _ => rfl

/-- With no window ACTIVE or ENDING the switch demand is CLOSED. -/
theorem State.wantsOpen_idle {s : State} (h : s.active = none) : s.wantsOpen = false := by
  simp only [State.wantsOpen, h]

/-! ### The outputs (R52, R133, R134) -/

@[simp] theorem sync_demand (s : State) : (sync s).sl.demand = if s.wantsOpen then .opened else .closed := rfl

/-- The switch is OPEN exactly where the demand is and the output is in RUN (R134). -/
theorem sync_switch (s : State) :
    (sync s).oc.switch = if s.wantsOpen = true ∧ s.oc.output = .run then .opened else .closed := by
  simp only [sync]
  cases s.wantsOpen <;> simp

/-- The drive output is the duty value in RAMP and RUN with the switch CLOSED, and 0 otherwise (R133). -/
theorem sync_drive (s : State) :
    (sync s).oc.drive = if s.oc.output.drives = true ∧ (sync s).oc.switch = .closed then s.rg.duty else 0 := rfl

/-- In a state that does not drive the stage, the switch is CLOSED and the drive output 0. -/
theorem sync_quiet {s : State} (h : s.oc.output.drives = false) : (sync s).oc.switch = .closed ∧ (sync s).oc.drive = 0 := by
  refine ⟨?_, by simp [sync_drive, h]⟩
  rw [sync_switch, if_neg]
  rintro ⟨_, hr⟩
  simp [hr, Output.drives] at h

/-! ### Changes of output state (R116, R121, R125, R129) -/

@[simp] theorem changeOutput_output (o : Output) (s : State) : (changeOutput o s).oc.output = o := by
  simp only [changeOutput]; split
  · assumption
  · rfl

/-- No change, no effect (R121). -/
theorem changeOutput_same {o : Output} {s : State} (h : s.oc.output = o) : changeOutput o s = s := by
  simp only [changeOutput, if_pos h]

/-- A change raises OUTPUT on every link (R121). -/
theorem changeOutput_link {o : Output} {s : State} (h : s.oc.output ≠ o) (l : LinkId) :
    (changeOutput o s).link l = (s.link l).raise .output := by
  simp only [changeOutput, if_neg h, raiseAll_link]
  rfl

/-- Out of RAMP and RUN the duty value is 0 (R116). -/
theorem changeOutput_duty {o : Output} {s : State} (h : s.oc.output ≠ o) :
    (changeOutput o s).rg.duty = if o.drives then s.rg.duty else 0 := by
  simp only [changeOutput, if_neg h]
  rfl

/-- Out of RAMP and RUN the switch is CLOSED and the drive output 0 (R133, R134). -/
theorem changeOutput_quiet {o : Output} {s : State} (h : s.oc.output ≠ o) (ho : o.drives = false) :
    (changeOutput o s).oc.switch = .closed ∧ (changeOutput o s).oc.drive = 0 := by
  simp only [changeOutput, if_neg h]
  exact sync_quiet (s := { s with oc := { s.oc with output := o }, rg := { s.rg with duty := _ } }) ho

/-- RAMP begins with ramp limit 0 and restart-pending clear (R125). -/
theorem enterRamp_oc {s : State} :
    (enterRamp s).oc.output = .ramp ∧ (enterRamp s).oc.rampLimit = 0 ∧ (enterRamp s).oc.restartPending = false := by
  simp [enterRamp]

@[simp] theorem holdOutput_output (s : State) : (holdOutput s).oc.output = .held := by
  simp only [holdOutput]; split
  · assumption
  · simp

/-- HELD sets restart-pending where the output was in RAMP or RUN (R129). -/
theorem holdOutput_restartPending {s : State} (h : s.oc.output ≠ .held) :
    (holdOutput s).oc.restartPending = (s.oc.restartPending || s.oc.output.drives) := by
  simp [holdOutput, h]

/-! ### Taking a fault (R156 to R159) -/

/-- A frame is pushed: it is built from the state as it stands, and takes the change queue as its pending list (R148,
R156). -/
theorem pushFrame_sk (kind : FaultKind) (cap : Option CapturePart) (s : State) :
    (pushFrame kind cap s).sk =
      { s.sk with stack := buildFrame kind cap s :: s.sk.stack, nextFrame := next16 s.sk.nextFrame } := by
  rw [pushFrame]
  cases kind.holds <;> cases s.sk.stack.isEmpty <;> cases s.sl.capture.isSome <;> simp

theorem pushFrame_queue (kind : FaultKind) (cap : Option CapturePart) (s : State) : (pushFrame kind cap s).cq.queue = [] := by
  rw [pushFrame]
  cases kind.holds <;> cases s.sk.stack.isEmpty <;> cases s.sl.capture.isSome <;> simp

/-- Only an OUTPUT or CAPTURE frame holds the output (R152, R156). -/
theorem pushFrame_output (kind : FaultKind) (cap : Option CapturePart) (s : State) :
    (pushFrame kind cap s).oc.output = if kind.holds then .held else s.oc.output := by
  rw [pushFrame]
  cases kind.holds <;> cases s.sk.stack.isEmpty <;> cases s.sl.capture.isSome <;> simp

/-- A push raises FAULT on every link (R160). -/
theorem pushFrame_fault (kind : FaultKind) (cap : Option CapturePart) (s : State) (l : LinkId) :
    ((pushFrame kind cap s).link l).flags &&& EventClass.fault.bit = EventClass.fault.bit := by
  simp only [pushFrame, raiseAll_link]
  exact Link.raise_sets _ _

/-- In LOCKOUT a fault replaces the lockout record and raises FAULT (R159). -/
theorem takeFault_lockout {s : State} (kind : FaultKind) (cap : Option CapturePart) (h : s.oc.output = .lockout) :
    takeFault kind cap s =
      raiseAll .fault { s with sk := { s.sk with lockout := some ⟨kind, s.tb.seconds, s.tb.tick⟩ } } := by
  simp only [takeFault, if_pos h]

/-- With two frames held a fault puts the output in LOCKOUT and leaves the frames (R158). -/
theorem takeFault_full {s : State} (kind : FaultKind) (cap : Option CapturePart) (h : s.oc.output ≠ .lockout)
    (hs : 2 ≤ s.sk.stack.length) :
    takeFault kind cap s =
      raiseAll .fault (changeOutput .lockout
        { s with sk := { s.sk with lockout := some ⟨kind, s.tb.seconds, s.tb.tick⟩ } }) := by
  simp only [takeFault, if_neg h, if_pos (show s.sk.stack.length ≥ Config.maxFrames from hs)]

/-- With fewer than two frames held a fault builds a frame (R156). -/
theorem takeFault_push {s : State} (kind : FaultKind) (cap : Option CapturePart) (h : s.oc.output ≠ .lockout)
    (hs : s.sk.stack.length < 2) : takeFault kind cap s = pushFrame kind cap s := by
  simp only [takeFault, if_neg h, if_neg (show ¬ s.sk.stack.length ≥ Config.maxFrames from Nat.not_le.mpr hs)]

/-- A fault never leaves more than two frames (R156, R158). -/
theorem takeFault_stack_length {s : State} (kind : FaultKind) (cap : Option CapturePart) (h : s.sk.stack.length ≤ 2) :
    (takeFault kind cap s).sk.stack.length ≤ 2 := by
  by_cases h1 : s.oc.output = .lockout
  · rw [takeFault_lockout kind cap h1]; simpa using h
  · by_cases h2 : 2 ≤ s.sk.stack.length
    · rw [takeFault_full kind cap h1 h2]; simpa using h
    · rw [takeFault_push kind cap h1 (by omega), pushFrame_sk]; simp; omega

/-- With STGFLT deasserted nothing is raised (R132). -/
theorem stageCheck_deasserted {s : State} (h : s.pins.stgflt = false) : stageCheck s = s := by
  simp [stageCheck, h]

/-- With a STAGE_FAULT frame held nothing is raised (R132). -/
theorem stageCheck_frameHeld {s : State} {f : Frame} (hf : f ∈ s.sk.stack) (hk : f.kind = .stageFault) : stageCheck s = s := by
  simp only [stageCheck]
  rw [if_neg]
  rintro ⟨_, h, _⟩
  simpa [hk] using List.all_eq_true.mp h f hf

/-- Otherwise STAGE_FAULT is raised (R132). -/
theorem stageCheck_raises {s : State} (h : s.pins.stgflt = true) (hk : ∀ f ∈ s.sk.stack, f.kind ≠ .stageFault)
    (ho : s.oc.output ≠ .lockout) : stageCheck s = takeFault .stageFault none s := by
  simp only [stageCheck]
  rw [if_pos]
  exact ⟨h, List.all_eq_true.mpr fun f hf => by simpa using hk f hf, ho⟩

/-! ### Window notices (R31) -/

theorem addNotice_notices (id : Nat) (o : NoticeOutcome) (s : State) :
    (addNotice id o s).sl.notices = s.sl.notices.drop (s.sl.notices.length - 7) ++ [⟨s.sl.noticeNo, id, o, s.tb.seconds⟩] := by
  have : s.sl.notices.length + 1 - Config.maxNotices = s.sl.notices.length - 7 := by simp only [Config.maxNotices]; omega
  simp only [addNotice, raiseAll_sl, this]

theorem addNotice_noticeNo (id : Nat) (o : NoticeOutcome) (s : State) :
    (addNotice id o s).sl.noticeNo = next16 s.sl.noticeNo := rfl

theorem addNotice_link (id : Nat) (o : NoticeOutcome) (s : State) (l : LinkId) :
    (addNotice id o s).link l = (s.link l).raise .window := by
  simp only [addNotice, raiseAll_link]
  rfl

/-! ### The positions of a moment (R51) -/

/-- A position that is not due is not taken. -/
theorem takeThrough_absent {p : Position} {s : State} (h : p ∉ s.moment.positions) : takeThrough p s = s := by
  simp only [takeThrough, if_neg h]

/-- The first position that is due is taken alone. -/
theorem takeThrough_head {p : Position} {ps : List Position} {s : State} (h : s.moment.positions = p :: ps) :
    takeThrough p s = takePosition p { s with moment := { s.moment with positions := ps } } := by
  simp [takeThrough, h, takeSome, takeNext]

/-- With nothing outstanding SL has nothing to finish. -/
theorem finishTimeline_done {s : State} (h : s.moment.positions = []) (he : s.moment.exam = false) : finishTimeline s = s := by
  simp [finishTimeline, h, takeSome, he]

/-- With no wrap due none is taken. -/
theorem takeWrap_none {s : State} (h : s.moment.wrap = none) : takeWrap s = s := by simp only [takeWrap, h]

/-! ### The rows of a second boundary (R1, R2, R37, R147) -/

/-- No examination is made where none is due, or where a cycle boundary is still to be taken, which makes it. -/
theorem examineNow_none {s : State} (h : s.moment.exam = false ∨ Position.boundary ∈ s.moment.positions) : examineNow s = s := by
  rcases h with h | h <;> simp [examineNow, h]

/-- An examination that is due with no cycle boundary to be taken is made. -/
theorem examineNow_due {s : State} (h : s.moment.exam = true) (hp : Position.boundary ∉ s.moment.positions) :
    examineNow s = examineSecond s := by
  simp [examineNow, h, hp]

/-- With no wrap due SECOND_BOUNDARY is the examination. -/
theorem secondBoundaryStep_noWrap {s : State} (h : s.moment.wrap = none) : secondBoundaryStep s = examineNow s := by
  rw [secondBoundaryStep, takeWrap_none h]

/-- With no wrap due REGULATION_TICK is the regulation tick where it is due, and nothing more. -/
theorem regulationStep_noWrap {s : State} (rise : Bool) (h : s.moment.wrap = none) :
    regulationStep rise s = if s.moment.regTick then regulate rise s else s := by
  simp only [regulationStep, takeWrap_none h]

/-- With no staged time there is none to apply. -/
theorem applyStaged_none {s : State} (b : Bool) (h : s.tb.staged = none) : applyStaged b s = s := by simp only [applyStaged, h]

/-- The moment's code is that of the notice handed last (R57, R58). -/
@[simp] theorem handNotice_tickCode (x : Samples) (s : State) : (handNotice x s).moment.tickCode = some (convert x.pot) := rfl

/-- A moment begins with no code handed: what opens before the notice is handed takes none (R70; log 17). -/
@[simp] theorem beginMoment_tickCode (x : Samples) (b : Bool) (s : State) : (beginMoment x b s).moment.tickCode = none := rfl

/-- A switch that is CLOSED marks nothing (R110). -/
@[simp] theorem Mu.stands_closed (m : Mu) : m.stands .closed = m := by simp [Mu.stands]

/-- A switch that stands OPEN from a moment to the next freezes the interval (R110). -/
@[simp] theorem Mu.stands_opened (m : Mu) : m.stands .opened = { m with switchOpenInside := true } := by simp [Mu.stands]

/-- The mark of R110 after the outputs are driven: it stands, or the switch is now OPEN at a moment strictly inside. -/
theorem sync_switchOpenInside (s : State) :
    (sync s).mu.switchOpenInside
      = (s.mu.switchOpenInside || (decide ((sync s).oc.switch = .opened) && !s.atRegTick)) := rfl

/-- With no window running SL takes nothing of a tick notice but the mark of a large step. -/
theorem tickNotice_idle {s : State} (h : s.active = none) : tickNotice s = { s with sl := { s.sl with outright := false } } := by
  simp only [tickNotice, h]

/-- With no window running a re-phase notice changes nothing (R65). -/
theorem rephase_idle {s : State} (h : s.active = none) : rephase s = s := by simp only [rephase, h]

/-- The holdover seconds stand outside HOLDOVER and LOST (R11). -/
theorem advanceHoldover_other {s : State} (h : s.tb.state ≠ .holdover) (h' : s.tb.state ≠ .lost) : advanceHoldover s = s := by
  simp [advanceHoldover, h, h']

/-- No entry to LOST is made where none is due (R11). -/
theorem enterLostNow_none {s : State} (h : s.moment.lost = false ∨ s.tb.state ≠ .holdover) : enterLostNow s = s := by
  rcases h with h | h <;> simp [enterLostNow, h]

/-! ### The end of a window by command (R29, R35, R169) -/

/-- Outside an ACTIVE entry nothing is cut. -/
theorem WindowRec.cut_other {now : Nat} {w : WindowRec} (h : ∀ c, w.life ≠ .active c) : w.cut now = w := by
  simp only [WindowRec.cut]
  split
  · exact absurd ‹_› (h _)
  · rfl
  · rfl

/-- An ACTIVE entry whose end is ahead is cut (R35). -/
theorem WindowRec.cut_ahead {now : Nat} {w : WindowRec} {c : CyclePart} (h : w.life = .active c) (hn : now < w.stop) :
    w.cut now = { w with stop := max now (w.start + 1), life := .ending c .delete } := by
  simp only [WindowRec.cut, h, if_neg (Nat.not_le.mpr hn)]

/-- An ACTIVE entry whose end has come ends by time (R39). -/
theorem WindowRec.cut_past {now : Nat} {w : WindowRec} {c : CyclePart} (h : w.life = .active c) (hn : w.stop ≤ now) :
    w.cut now = { w with life := .ending c .time } := by
  simp only [WindowRec.cut, h, if_pos hn, WindowRec.toEnding]

/-- A cut keeps everything of a record but its end and its life. -/
theorem WindowRec.cut_keeps (now : Nat) (w : WindowRec) :
    ((w.cut now).id, (w.cut now).start, (w.cut now).profile, (w.cut now).origin) = (w.id, w.start, w.profile, w.origin) := by
  cases h : w.life with
  | active c =>
    rcases Nat.lt_or_ge now w.stop with hn | hn
    · rw [WindowRec.cut_ahead h hn]
    · rw [WindowRec.cut_past h hn]
  | scheduled => rw [WindowRec.cut_other (by simp [h])]
  | ending c e => rw [WindowRec.cut_other (by simp [h])]

/-- A cut never lengthens an interval and leaves it at least one second (R29, R35). -/
theorem WindowRec.cut_stop {now : Nat} {w : WindowRec} (h : w.start < w.stop) :
    w.start < (w.cut now).stop ∧ (w.cut now).stop ≤ w.stop := by
  cases hl : w.life with
  | active c =>
    rcases Nat.lt_or_ge now w.stop with hn | hn
    · rw [WindowRec.cut_ahead hl hn]; dsimp only; omega
    · rw [WindowRec.cut_past hl hn]; exact ⟨h, Nat.le_refl _⟩
  | scheduled => rw [WindowRec.cut_other (by simp [hl])]; exact ⟨h, Nat.le_refl _⟩
  | ending c e => rw [WindowRec.cut_other (by simp [hl])]; exact ⟨h, Nat.le_refl _⟩

/-! ### The boundary after a RESTART of the same moment (R69, R205) -/

/-- With no pair to be taken outright the pair in progress stands. -/
theorem State.pairStands_of_not_outright {s : State} (h : s.sl.outright = false) : s.pairStands = true := by
  simp only [State.pairStands, h]
  split <;> rfl

/-! ### Resumption (R64, R163 to R167) -/

/-- With no window running the end of a suspension does nothing. -/
theorem endSuspension_idle {s : State} (h : s.active = none) : endSuspension s = s := by simp only [endSuspension, h]

/-- With a cycle boundary still to be taken the demand follows the phase and no capture opens (R64). -/
theorem endSuspension_boundary {s : State} (h : Position.boundary ∈ s.moment.positions) :
    endSuspension s = s ∨ endSuspension s = sync s := by
  simp only [endSuspension]
  split
  · exact .inl rfl
  · exact .inr (if_pos h)

/-- What a RESUME that passes its tests has shown (R163 to R165). -/
theorem resumeTest_ok {l : LinkId} {args : Bytes} {s : State} {f : ResumeFields} {top : Frame} {c : Continuation}
    (h : resumeTest l args s = .ok (f, top, c)) :
    s.oc.output ≠ .lockout ∧ s.barred l = false ∧ resumeFields args = some f ∧ s.sk.stack.head? = some top
      ∧ f.seq = top.seq ∧ f.fits top s.rg.set = true ∧ f.continuation = some c ∧ s.resumeNotReady top c = false := by
  simp only [resumeTest] at h
  repeat' (split at h <;> try (cases h))
  simp_all

/-! ### Apply points (R145, R150) -/

/-- After an apply point the queue holds exactly the entries that a RESUME of the moment has put back. -/
@[simp] theorem applyPoint_queue (b : Bool) (s : State) : (applyPoint b s).cq.queue = s.cq.queue.filter s.waits := by
  unfold applyPoint; dsimp only
  split
  · rename_i h
    rw [List.isEmpty_iff, List.filter_eq_nil_iff] at h
    exact (List.filter_eq_self.mpr fun e he => by simpa using h e he).symm
  · split
    · unfold reanchor; split <;> simp
    · simp

/-- At a moment of no RESUME every entry is due. -/
theorem due_all {s : State} (h : s.moment.requeued = []) : (s.cq.queue.filter fun e => !s.waits e) = s.cq.queue :=
  List.filter_eq_self.mpr fun e _ => by simp [State.waits, h]

/-- An apply point with no entry due changes nothing. -/
theorem applyPoint_none_due {b : Bool} {s : State} (h : ∀ e ∈ s.cq.queue, e.setting ∈ s.moment.requeued) : applyPoint b s = s := by
  have hd : (s.cq.queue.filter fun e => !s.waits e) = [] :=
    List.filter_eq_nil_iff.mpr fun e he => by simp [State.waits, h e he]
  simp [applyPoint, hd]

end Sys2Proof.Machine
end

