-- ==== Sys2Proof/Laws/Links.lean ====
section
/-! SUPPORT. What the receivers, the transmitters and the command processor do, said once: a byte in each state of a receiver, the
fields of bytes, and a frame that is served. -/

namespace Sys2Proof.Machine

/-! ### Fields of bytes (R206) -/

@[simp] theorem beBytes_length (n : Nat) (v : Int) : (beBytes n v).length = n := by simp [beBytes]
@[simp] theorem u8_length (v : Int) : (u8 v).length = 1 := beBytes_length 1 v
@[simp] theorem u16_length (v : Int) : (u16 v).length = 2 := beBytes_length 2 v
@[simp] theorem u32_length (v : Int) : (u32 v).length = 4 := beBytes_length 4 v
@[simp] theorem optBytes_length (n : Nat) (v : Option Int) : (optBytes n v).length = n := beBytes_length n _
@[simp] theorem zeros_length (n : Nat) : (zeros n).length = n := List.length_replicate

/-- A link frame is three bytes longer than its payload: start, length and check byte (R207). -/
@[simp] theorem frameOf_length (payload : Bytes) : (frameOf payload).length = payload.length + 3 := by
  simp [frameOf]

/-- The command code of a payload is its first byte (R192). -/
@[simp] theorem codeOf_cons (code : Byte) (args : Bytes) : codeOf (code :: args) = code.toNat := by
  simp [codeOf, fieldU]

/-! ### Receivers (R186 to R189) -/

/-- In HUNT a byte other than the start byte, or with a bad stop bit, is passed over. -/
theorem Link.receive_hunt_other {k : Link} {b : Byte} {g : Bool} (h : k.rx = .hunt) (hb : g = false ∨ b ≠ Config.startByte) :
    k.receive b g = k := by
  simp only [Link.receive, h]
  rw [if_neg]
  rintro ⟨hg, he⟩
  rcases hb with hb | hb
  · simp [hb] at hg
  · exact hb he

/-- In HUNT the start byte begins a frame. -/
theorem Link.receive_hunt_start {k : Link} (h : k.rx = .hunt) :
    k.receive Config.startByte true = { k with rx := .length, partialBytes := [], gap := 0 } := by
  simp [Link.receive, h]

/-- A byte error in a frame discards it (R186). -/
theorem Link.receive_badStop {k : Link} {b : Byte} (h : k.rx ≠ .hunt) : k.receive b false = k.framing := by
  cases hr : k.rx <;> simp_all [Link.receive]

/-- A length of 1 to 240 is kept. -/
theorem Link.receive_length_good {k : Link} {b : Byte} (h : k.rx = .length) (h1 : 1 ≤ b.toNat) (h2 : b.toNat ≤ 240) :
    k.receive b true = { k with rx := .payload, partialBytes := [b], gap := 0 } := by
  simp [Link.receive, h, h1, h2]

/-- Any other length discards the frame. -/
theorem Link.receive_length_bad {k : Link} {b : Byte} (h : k.rx = .length) (h1 : ¬ (1 ≤ b.toNat ∧ b.toNat ≤ 240)) :
    k.receive b true = k.framing := by
  simp only [Link.receive, h]
  rw [if_neg]
  rintro ⟨_, hb⟩
  exact h1 hb

/-- A check byte that agrees completes the frame (R188, R189). -/
theorem Link.receive_check_good {k : Link} (h : k.rx = .check) :
    k.receive (checkByte k.partialBytes) true =
      Link.offer k.partialBytes.tail { k with rx := .hunt, partialBytes := [], gap := 0 } := by
  simp [Link.receive, h, Link.check]

/-- A check byte that does not agree discards it and sets CHECK (R188). -/
theorem Link.receive_check_bad {k : Link} {b : Byte} (h : k.rx = .check) (hb : b ≠ checkByte k.partialBytes) :
    k.receive b true = Link.err .check { k with rx := .hunt, partialBytes := [], gap := 0 } := by
  simp [Link.receive, h, Link.check, hb]

/-- A frame offered to a FIFO that holds fewer than two is appended (R189). -/
theorem Link.offer_room {k : Link} (payload : Bytes) (h : k.fifo.length < 2) :
    k.offer payload = { k with fifo := k.fifo ++ [payload] } := by
  simp [Link.offer, Config.maxFifo, h]

/-- A frame offered to a full FIFO is lost, with OVERRUN (R189). -/
theorem Link.offer_full {k : Link} (payload : Bytes) (h : 2 ≤ k.fifo.length) : k.offer payload = k.err .overrun := by
  simp only [Link.offer, Config.maxFifo]
  rw [if_neg (by omega)]

/-- A partial frame that is discarded leaves the receiver in HUNT, with FRAMING set. -/
theorem Link.framing_rx (k : Link) : k.framing.rx = .hunt ∧ k.framing.partialBytes = [] ∧ k.framing.gap = 0 := by
  simp only [Link.framing, Link.err]
  split <;> exact ⟨rfl, rfl, rfl⟩

/-! ### Bit rates and responses (R190, R200) -/

/-- A link without a pending rate keeps its rate. -/
theorem Link.switchRate_none {k : Link} (h : k.pendingRate = none) : k.switchRate = k := by
  simp [Link.switchRate, h]

/-- A gap that has not passed 48 discards nothing (R187). -/
theorem Link.expireGap_none {k : Link} (h : k.gapDue = false) : k.expireGap = k := by
  simp [Link.expireGap, h]

/-- A response whose last stop bit cannot have been sent stays (R190). -/
theorem Link.finish_none {k : Link} (h : k.maySend = false) : k.finish = k := by
  simp [Link.finish, h]

/-! ### Serving a frame (R191, R192) -/

/-- The frame taken next stands at the head of its link's FIFO. -/
theorem State.nextFrame_head {s : State} {l : LinkId} {p : Bytes} (h : s.nextFrame = some (l, p)) :
    s.nextLink = some l ∧ (s.link l).fifo.head? = some p := by
  simp only [State.nextFrame] at h
  split at h
  · cases h
  · simp only [Option.map_eq_some_iff, Prod.mk.injEq] at h
    obtain ⟨q, hq, rfl, rfl⟩ := h
    exact ⟨by assumption, hq⟩

/-- The link that is served is eligible (R191). -/
theorem State.nextLink_eligible {s : State} {l : LinkId} (h : s.nextLink = some l) : (s.link l).eligible = true :=
  List.find?_some (p := fun m => (s.link m).eligible) h

/-- With no eligible link there is no frame to take. -/
theorem State.nextFrame_none {s : State} (h : ∀ l, (s.link l).eligible = false) : s.nextFrame = none := by
  have : s.nextLink = none := List.find?_eq_none.mpr fun l _ => by simp [h l]
  simp only [State.nextFrame, this]

/-- A row whose code the next frame does not carry changes nothing. -/
theorem serveCode_other {s : State} {n : Nat} {cmd : Command} {l : LinkId} {p : Bytes} (h : s.nextFrame = some (l, p))
    (hc : codeOf p ≠ n) : serveCode n cmd s = s := by
  simp only [serveCode, h, if_neg hc]

/-- With no frame to take a row changes nothing. -/
theorem serveCode_none {s : State} {n : Nat} {cmd : Command} (h : s.nextFrame = none) : serveCode n cmd s = s := by
  simp only [serveCode, h]

/-- A row whose code the next frame carries serves it. -/
theorem serveCode_serve {s : State} {cmd : Command} {l : LinkId} {code : Byte} {args : Bytes} (h : s.serves l code args) :
    serveCode code.toNat cmd s = serve cmd l (code :: args) s := by
  simp [serveCode, h.1]

/-- The state that a command finds on a link without a pending rate: the frame has left the FIFO, and the link is the last
served. -/
theorem takeFrame_noRate {s : State} {l : LinkId} (h : (s.link l).pendingRate = none) :
    takeFrame l s =
      { s with lc := { links := s.lc.links.set l { s.lc.links.get l with fifo := (s.lc.links.get l).fifo.tail },
                       lastServed := l } } := by
  have hk : (s.lc.links.get l).switchRate = s.lc.links.get l := Link.switchRate_none h
  simp only [takeFrame, State.onLink, hk]

/-- A command that leaves LC alone and answers alike before and after the frame is taken: the state after it is its effect,
with the link answered. -/
theorem serve_answer {s t : State} {cmd : Command} {l : LinkId} {code : Byte} {args : Bytes} {r : Reply}
    (h : s.serves l code args) (hc : cmd l args (takeFrame l s) = (r, { t with lc := (takeFrame l s).lc }))
    (ht : t.lc = s.lc) : serve cmd l (code :: args) s = t.answer l code r := by
  have hk : (s.lc.links.get l).switchRate = s.lc.links.get l := Link.switchRate_none h.2
  simp only [serve, List.tail_cons, hc, codeOf_cons, State.answer, State.onLink, ht]
  simp only [takeFrame, State.onLink, hk, PerLink.get_set, if_true, PerLink.set_set]
  rfl

end Sys2Proof.Machine
end

