-- ==== Sys2Proof/WellFormed.lean ====
section
/-! DEFINITION. Which commands the outside world can send: the operands' ranges. -/

namespace Sys2Proof

/-- A command is well formed when its operands can occur. Every operand can: an input of a converter may be any number, since
one beyond either end of the range gives the end code (R70, R109, R175), and the other operands are drawn from their types. -/
def Instr.wf : Instr → Bool
  | .tick _ => true
  | .secondBoundary => true
  | .regulationTick _ => true
  | .pulseEdge => true
  | .holdoverEntry => true
  | .enterLost => true
  | .cycleBoundary => true
  | .offEdge => true
  | .measurementWindowOpen _ => true
  | .measurementWindowClose _ => true
  | .scanEnd => true
  | .byteReceived _ _ _ => true
  | .gapExpiry _ => true
  | .responseSent _ => true
  | .bitRateSwitch _ => true
  | .saveComplete => true
  | .stgfltAsserted => true
  | .stgfltDeasserted => true
  | .localChange _ => true
  | .powerOnReset => true
  | .setTime => true
  | .readTime => true
  | .addWindow => true
  | .deleteWindow => true
  | .readWindows => true
  | .readProfile => true
  | .change => true
  | .cancelChange => true
  | .readQueue => true
  | .readSettings => true
  | .start => true
  | .stop => true
  | .readStatus => true
  | .readCaptures => true
  | .readChannels => true
  | .setChannelLimits => true
  | .writeCalibration => true
  | .readFrame => true
  | .resume => true
  | .clearLockout => true
  | .setMask => true
  | .ackEvents => true
  | .saveSettings => true
  | .restart => true
  | .unknownCommand => true

end Sys2Proof
end

