-- ==== Sys2Proof/Tests/Slice0.lean ====
section
/-! SUPPORT. Tests: the manual's worked figures, each against the table it comes from, and for every statement of the
certificates a concrete state and operands that meet its hypotheses together, clause by clause. -/

namespace Sys2Proof.Tests

open Sys2Proof.Machine

/-! ### Small states -/

/-- What the converters see at a test tick: in range, but for an output current and two scan inputs beyond the ends of their
converters. -/
def samples : Samples := ⟨-7045, 40000, 24000, #v[14730, 40000, -239, 0, 8000, 12000, 5, -40000]⟩

/-- Second 1000, LOCKED, the mains PRESENT. -/
def base : State :=
  { State.reset with
    tb := { State.reset.tb with seconds := 1000, state := .locked }
    hs := { State.reset.hs with mains := .present } }

/-- A window in cycle 0 of the default profile, entered at phase `φ`. -/
def window (φ : Nat) : WindowRec × CyclePart :=
  let c : CyclePart := { anchorSec := 996, anchorTick := 0, anchorCycle := 0, cycle := 0, phase := φ }
  ({ id := 7, start := 996, stop := 1500, profile := 0, origin := .telemetry, life := .active c }, c)

/-- A SCHEDULED record. -/
def scheduled (id start stop : Nat) : WindowRec :=
  { id := id, start := start, stop := stop, profile := 1, origin := .service, life := .scheduled }

/-- `s` with that window ACTIVE. -/
def running (φ : Nat) (s : State) : State :=
  { s with sl := { s.sl with windows := [(window φ).1, scheduled 9 1600 1700] } }

/-- `s` in an output state, with drive and switch as they follow. -/
def inOutput (o : Output) (s : State) : State := sync { s with oc := { s.oc with output := o, rampLimit := 1000 } }

/-- `s` with one frame waiting on a link and nothing else waiting. -/
def sent (l : LinkId) (payload : Bytes) (s : State) : State := s.onLink l fun k => { k with fifo := [payload] }

/-- `s` with positions still to be taken. -/
def taking (ps : List Position) (s : State) : State := { s with moment := { s.moment with positions := ps } }

/-- `s` with the wrap due. -/
def wrapDue (s : State) : State :=
  { s with tb := { s.tb with tick := 2399 }, moment := { s.moment with wrap := some samples } }

/-- `s` in a timebase state, with a staged time or none. -/
def timed (t : TbState) (staged : Option StagedTime) (s : State) : State :=
  { s with tb := { s.tb with state := t, staged := staged } }

/-- `s` with a capture OPEN that has both results: off potential `pot`, not noisy. -/
def captured (pot : Int) (s : State) : State :=
  { s with
    sl := { s.sl with capture := some { entryPhase := 0, realigned := false, onStatus := .done, offStatus := .done } }
    cl := { s.cl with assembly := some { Assembly.start 7 0 false with offEdge := some ⟨1000, 0, .locked, .run⟩ } }
    mu := { s.mu with onResult := some (-1200), offResult := some ⟨pot, 3, false⟩ } }

/-- `s` at a regulation tick whose interval holds one code of each output channel, unfrozen. -/
def regulating (code : Int) (s : State) : State :=
  { s with
    mu := { s.mu with iAcc := ⟨code, 1⟩, vAcc := ⟨1000, 1⟩, mainsBadInside := false }
    moment := { s.moment with regTick := true } }

/-- `s` with faults taken. -/
def faulted (ks : List FaultKind) (s : State) : State := ks.foldl (fun t k => takeFault k none t) s

/-! ### The manual's figures -/

/-- R188: a length byte of 1 and a payload of the one byte 16. -/
theorem test_check_byte : checkByte [1, 16] = 101 := by decide +kernel

/-- R74's table of mean codes. -/
theorem test_mean_codes :
    roundNearest (-1690800) 240 = -7045 ∧ roundNearest (-1690920) 240 = -7046 ∧ roundNearest (-1676829) 238 = -7046
      ∧ roundNearest 1690919 240 = 7045 ∧ roundNearest 0 240 = 0 := by decide

/-- R75's clamped reading: Coff −20, Cgain 1400, mean code 30 000. -/
theorem test_potential_clamped : clampTo (-5000) 5000 ((⟨-20, 1400⟩ : Cal).apply 30000) = 5000 := by decide

/-- R109's current: a sum of 1 846 080 over 240 samples with Coff 8 and Cgain 2500. -/
theorem test_measured_current : (⟨8, 2500⟩ : Cal).apply (roundNearest 1846080 240) = 2345 := by decide

/-- R54's table: WINDOW 10 ms and 250 ms with each REJECTION setting. -/
theorem test_window_lengths :
    ({ defaultProfile with window := 10, rejection := .none }).nw = 24
      ∧ ({ defaultProfile with window := 10, rejection := .hz50 }).nw = 48
      ∧ ({ defaultProfile with window := 10, rejection := .hz60 }).nw = 40
      ∧ ({ defaultProfile with window := 250, rejection := .hz50 }).nw = 576
      ∧ ({ defaultProfile with window := 250, rejection := .hz60 }).nw = 600 := by decide

/-- R50's table: the positions of the default profile. -/
theorem test_default_positions :
    defaultProfile.positions = [(0, .boundary), (28080, .opens .on), (28320, .closes .on), (28800, .offEdge),
      (29280, .opens .off), (29520, .closes .off)] ∧ defaultProfile.period = 36000 := by decide

/-- R55: OFF 300 ms with DELAY 200 ms fits and closes at P; with DELAY 250 ms it does not fit. -/
theorem test_off_window_fits :
    ({ defaultProfile with off := 300, delay := 200 }).fits .off = true
      ∧ ({ defaultProfile with off := 300, delay := 250 }).fits .off = false := by decide

/-- R56: ON 200 ms with ON_OFFSET 200 ms has no on window; with ON_OFFSET 0 it is [432, 480). -/
theorem test_on_window_fits :
    ({ defaultProfile with on := 200, onOffset := 200, window := 10 }).fits .on = false
      ∧ ({ defaultProfile with on := 200, onOffset := 0, window := 10 }).opensAt .on = 432 := by decide

/-- R49's examples: e = −1000 with P = 36 000, and 126 600 with P = 12 000. -/
theorem test_cycle_and_phase :
    derive defaultProfile ⟨1000, 1000, 5, 5, 0⟩ 1000 0 = (4, 35000)
      ∧ derive { defaultProfile with on := 4000, off := 1000 } ⟨1000, 0, 0, 0, 0⟩ 1052 1800 = (10, 6600) := by decide

/-- R102's table: gain, deadband, step clamp and floor with the defaults. -/
theorem test_outer_loop :
    (outerLoop { defaultReg with iset := 2350 } (-1077)).iset = 2335
      ∧ (outerLoop { defaultReg with iset := 2335 } (-958)).iset = 2335
      ∧ (outerLoop { defaultReg with iset := 2335 } (-400)).iset = 2385
      ∧ (outerLoop { defaultReg with iset := 2385, target := -1195 } (-1201)).iset = 2335
      ∧ (outerLoop { defaultReg with iset := 20 } (-1300)).iset = 0 := by decide

/-- R112's table of gain steps. -/
theorem test_gain_steps :
    gainStep { defaultReg with innerGain := 256, iset := 90 } 100 0 = 0
      ∧ gainStep { defaultReg with innerGain := 1024, iset := 90 } 100 0 = -2
      ∧ gainStep { defaultReg with innerGain := 256, iset := 500 } 100 0 = 25
      ∧ gainStep { defaultReg with innerGain := 4096, iset := 0 } 300 0 = -50 := by decide

/-- R7: 2399 and 1 differ by 2, 2399 and 2 by 3. -/
theorem test_agreeing_counts : agree [2399, 1, 0] = true ∧ agree [2399, 1, 2] = false := by decide

/-- R30 and R92: the counts go round. -/
theorem test_counts_go_round : next16 65535 = 1 ∧ next16 65534 = 65535 ∧ next32 4294967295 = 0 := by decide

/-- R211: a READ STATUS response has a payload of 36 bytes. -/
theorem test_status_length : 2 + (statusReport .supervisor base).length = 36 := by decide

/-- R208: a capture record takes 28 bytes; R210: a fault frame with no element 35. -/
theorem test_record_lengths :
    (recordBytes (buildRecord ⟨0, false, .missed, .missed⟩ (Assembly.start 7 0 false) base)).length = 28
      ∧ (faultFrameBytes (buildFrame .timeStep none base)).length = 35 := by decide

/-- R174: a scan takes 240 rounds in its 1000 ticks. R175: an input beyond the range gives the end code. -/
theorem test_scan_rounds : ((List.range 1000).filter scanRound).length = 240 := by decide +kernel
theorem test_scan_end_codes :
    addRound (Vector.replicate 8 0) samples.scan = #v[14730, 32767, -239, 0, 8000, 12000, 5, -32768] := by decide

/-! ### Well-formed commands and the table's words -/

/-- Every command is well formed: no operand is out of range, so that no term is there to be refused. -/
theorem test_tick_well_formed : (Instr.tick samples).wf = true ∧ Instr.pulseEdge.wf = true := by decide

/-- No row of the table gives bits. -/
theorem test_no_word_spells_a_command : decodeTableWord 8 16 = none := rfl

/-! ### The step, reset and time -/

theorem witness_step_runs : step { base with pending := [.localChange true] } = exec (.localChange true) base := rfl

theorem witness_not_due :
    base.pending = [] ∧ base.moment.wrap = none ∧ base.moment.exam = false ∧ base.moment.regTick = false
      ∧ base.tb.edgeAge < 2402 ∧ base.moment.lost = false ∧ base.moment.positions = [] ∧ base.hs.scan = none
      ∧ base.ns.write = none ∧ (∀ l ∈ allLinks, (base.link l).rx = .hunt ∧ (base.link l).buffer = none
        ∧ (base.link l).pendingRate = none) := by decide

theorem witness_power_on :
    base.pins.stgflt = false ∧ ({ base with pins := ⟨true, false⟩ } : State).pins.stgflt = true := by decide

theorem quiet_base : base.quiet := by
  refine ⟨rfl, rfl, rfl, rfl, rfl, by decide, rfl, rfl, fun l => ?_⟩
  cases l <;> decide

theorem settle_base : settle base = base := by decide

theorem witness_tick_ends_moment :
    base.quiet ∧ 2400 ≤ (settle { base with tb := { base.tb with tick := 2399 } }).tb.tick + 1 :=
  ⟨quiet_base, by decide⟩

theorem witness_tick_counts : (settle { base with tb := { base.tb with tick := 2398 } }).tb.tick + 1 < 2400 := by decide

/-- At a tick, at the wrap and at an edge, with both windows OPEN: at the tick a pair that is the one in progress, a later one, one
that crosses the off edge, and one that crosses a boundary. -/
theorem witness_tick_takes_pair :
    ∀ p ∈ [(996, 9600), (996, 9599), (988, 28799), (985, 35999)],
      let part : CyclePart := { (window p.2).2 with anchorSec := p.1, anchorTick := 1 }
      let w : WindowRec := { (window 0).1 with life := .active part }
      let s : State := { base with sl := { base.sl with windows := [w], capture := some ⟨0, false, .opened, .opened⟩ } }
      let e : State := { s with tb := { s.tb with tick := 2399 } }
      (s.quiet ∧ s.tb.tick + 1 < 2400 ∧ s.active = some (w, part) ∧ s.sl.outright = false)
        ∧ ((wrapDue s).moment.wrap = some samples ∧ (wrapDue s).moment.positions = [] ∧ (wrapDue s).tb.state = .locked
          ∧ (wrapDue s).active = some (w, part) ∧ (wrapDue s).sl.outright = false ∧ (wrapDue s).sk.stack = [])
        ∧ (e.tb.tick = 2399 ∧ e.tb.staged = none ∧ e.timelineDone ∧ e.moment.lost = false ∧ e.moment.regTick = false
          ∧ e.scanDue = false ∧ e.active = some (w, part) ∧ e.sl.outright = false) := by
  intro p _
  exact ⟨⟨quiet_base, (by decide : base.tb.tick + 1 < 2400), rfl, rfl⟩, ⟨rfl, rfl, rfl, rfl, rfl, rfl⟩,
    rfl, rfl, ⟨rfl, rfl⟩, rfl, rfl, rfl, rfl, rfl⟩

/-- R58, R70: with the default profile's on window [28 080, 28 320) OPEN, the notice at its last phase gives it a code, and the one at its
end none; an OPEN off window gets neither. -/
theorem test_open_window_samples :
    let at' (φ : Nat) : State :=
      let part : CyclePart := { (window (φ - 1)).2 with anchorSec := 1000 - (φ - 1) / 2400, anchorTick := 0 }
      let b : State := running 0 base
      { b with
        tb := { b.tb with tick := (φ - 1) % 2400 }
        sl := { b.sl with
          windows := [{ (window 0).1 with life := .active part }], capture := some ⟨0, false, .opened, .opened⟩ } }
    ((countTick samples (at' 28319)).mu.onAcc, (countTick samples (at' 28319)).mu.offAcc) = (⟨-7045, 1⟩, ⟨0, 0⟩)
      ∧ (countTick samples (at' 28320)).mu.onAcc = ⟨0, 0⟩
      ∧ (countTick samples (at' 28320)).moment.positions = [.closes .on] := by decide

theorem witness_second_boundary :
    (wrapDue base).moment.wrap = some samples ∧ (wrapDue base).tb.state = .locked
      ∧ (timed .holdover none (wrapDue base)).moment.wrap = some samples
      ∧ (timed .holdover none (wrapDue base)).tb.staged = none := by decide

/-- At the wrap in UNSET and LOST; at an edge in LOCKED at 0 and 2, and in each state at 2398 and 2399. -/
theorem witness_staged_time :
    ((wrapDue (timed .unset (some ⟨1, .service⟩) base)).moment.wrap = some samples
      ∧ (wrapDue (timed .unset (some ⟨1, .service⟩) base)).tb.state ≠ .locked
      ∧ (wrapDue (timed .lost (some ⟨4294967295, .service⟩) base)).tb.staged = some ⟨4294967295, .service⟩
      ∧ (wrapDue (timed .lost (some ⟨4294967295, .service⟩) base)).tb.state ≠ .locked)
    ∧ ∀ p ∈ [(TbState.locked, 0), (.locked, 2), (.locked, 2398), (.unset, 2399), (.holdover, 2398), (.lost, 2399)],
      let b := timed p.1 (some ⟨5, .service⟩) base
      let s : State := { b with tb := { b.tb with tick := p.2 } }
      s.tb.staged = some ⟨5, .service⟩ ∧ s.moment.lost = false
        ∧ (s.tb.tick = 2398 ∨ s.tb.tick = 2399 ∨ (s.tb.tick ≤ 2 ∧ s.tb.state = .locked)) := by decide

/-- R2, R70: a step of 1 s that lands at the start of a PENDING window gives it the code of the tick once. -/
theorem test_one_code_a_notice :
    let w := (window 28079).1
    let b := wrapDue (timed .holdover (some ⟨1007, .service⟩) (running 28079 base))
    let part : CyclePart := { (window 28079).2 with anchorSec := 995, anchorTick := 720 }
    let s : State := { b with sl := { b.sl with
      windows := [{ w with life := .active part }], capture := some ⟨0, false, .pending, .pending⟩ } }
    (takeWrap { s with tb := { s.tb with seconds := 1005 } }).mu.onAcc = ⟨-7045, 1⟩ := by decide

/-- The smallest large steps, 2 s back and 2 s forward, at the wrap and at each accepted edge; below two frames, with two, and in
LOCKOUT. -/
theorem witness_time_step :
    (∀ ks ∈ [[], [FaultKind.timingLost], [.overcurrent, .timingLost], [.overcurrent, .timingLost, .timeStep]], ∀ T ∈ [999, 1003],
      let s := wrapDue (timed .holdover (some ⟨T, .service⟩) (faulted ks (inOutput .run (running 100 base))))
      s.moment.wrap = some samples ∧ s.tb.state = .holdover ∧ s.tb.staged = some ⟨T, .service⟩ ∧ s.active = some (window 100)
        ∧ s.sk.stack.length = min 2 ks.length ∧ (s.oc.output = .lockout ↔ ks.length = 3) ∧ s.cq.queue = [] ∧ CaptureLaw s
        ∧ s.tb.seconds < 4294967295 ∧ (T + 1 < s.tb.seconds + 1 ∨ s.tb.seconds + 2 < T))
    ∧ (∀ p ∈ [(TbState.locked, 0, 998), (.locked, 2, 1002), (.holdover, 2398, 1003), (.lost, 2399, 999)],
      let b := timed p.1 (some ⟨p.2.2, .service⟩) (inOutput .run (running 100 base))
      let s : State := { b with tb := { b.tb with tick := p.2.1 } }
      s.tb.staged = some ⟨p.2.2, .service⟩ ∧ s.active = some (window 100) ∧ s.timelineDone ∧ s.moment.lost = false
        ∧ s.moment.regTick = false ∧ s.scanDue = false ∧ s.sk.stack = []
        ∧ ((s.tb.tick = 2398 ∨ s.tb.tick = 2399) ∧ s.tb.seconds < 4294967295
            ∧ (p.2.2 + 1 < s.tb.seconds + 1 ∨ s.tb.seconds + 2 < p.2.2)
          ∨ s.tb.tick ≤ 2 ∧ s.tb.state = .locked ∧ (p.2.2 + 1 < s.tb.seconds ∨ s.tb.seconds + 1 < p.2.2))) := by decide

/-- Every count of the band with no staged time, and a staged time that waits in HOLDOVER. -/
theorem witness_pulse_accepted :
    (∀ c ∈ [2398, 2399, 0, 1, 2], ({ base with tb := { base.tb with tick := c } } : State).tb.tick = c
      ∧ (c = 2398 ∨ c = 2399 ∨ c ≤ 2) ∧ base.tb.staged = none)
    ∧ (timed .holdover (some ⟨5, .service⟩) base).tb.tick ≤ 2 ∧ (timed .holdover (some ⟨5, .service⟩) base).tb.state ≠ .locked := by
  decide

/-- R110: with the switch OPENED at the moment of a regulation tick, and a re-alignment there, the interval is not frozen by it. -/
theorem test_opened_at_regulation_tick :
    let b := inOutput .run (running 100 base)
    let s : State := { b with
      tb := { b.tb with tick := 240, rejectStreak := [240, 240] }
      moment := { b.moment with regTick := true, regMoment := true } }
    let back := realign 240 s
    (sync (running 28800 back)).oc.switch = .opened ∧ (sync (running 28800 back)).mu.switchOpenInside = false := by decide

/-- R147: at a wrap that applies a staged time a REGULATION_TICK leaves the queue for the fault's frame, and a SECOND_BOUNDARY first
applies it. -/
theorem test_fault_before_apply_point :
    let b := regulating 32767 (inOutput .run (timed .holdover (some ⟨1001, .service⟩) base))
    let q : List QEntry := [⟨.reg .rampRate, 5, .service⟩]
    let s : State := wrapDue { b with
      rg := { b.rg with tripStreak := 1, set := { b.rg.set with trip := 10000 } }, cq := { queue := q } }
    ((regulationStep true s).sk.stack.map Frame.pendingList = [[⟨true, ⟨.reg .rampRate, 5, .service⟩⟩]])
      ∧ (regulationStep true (secondBoundaryStep s)).sk.stack.map Frame.pendingList = [[]] := by decide

/-- R147 at an edge that takes the second boundary: the two orders likewise. -/
theorem test_fault_before_apply_point_at_edge :
    let b := regulating 32767 (inOutput .run base)
    let q : List QEntry := [⟨.reg .rampRate, 5, .service⟩]
    let s : State := pulseEdgeStep { b with
      tb := { b.tb with tick := 2399 }, cq := { queue := q }
      rg := { b.rg with tripStreak := 1, set := { b.rg.set with trip := 10000 } }
      moment := { b.moment with regTick := false } }
    ((regulationStep true s).sk.stack.map Frame.pendingList = [[⟨true, ⟨.reg .rampRate, 5, .service⟩⟩]])
      ∧ (regulationStep true (secondBoundaryStep s)).sk.stack.map Frame.pendingList = [[]] := by decide

theorem witness_pulse_rejected :
    let s : State := { base with tb := { base.tb with tick := 3, rejectStreak := [2397] } }
    let r : State := { base with tb := { base.tb with tick := 2397, rejectStreak := [3, 2397] } }
    (2 < s.tb.tick ∧ s.tb.tick < 2398 ∧ s.timelineDone ∧ s.moment.lost = false ∧ s.tb.rejectStreak.length ≤ 1)
      ∧ (2 < r.tb.tick ∧ r.tb.tick < 2398 ∧ r.timelineDone ∧ r.moment.lost = false ∧ r.tb.rejectStreak = [3, 2397]
        ∧ 2 < min (2397 - 3) (2400 - (2397 - 3))) := by decide

/-- Re-alignments forward from 1200 and back from 1199: with no staged time, with one in LOCKED, HOLDOVER and UNSET, and with a window
running and a large step; the holdover seconds at the limit and one below it. -/
theorem witness_pulse_realigns :
    ∀ c ∈ [1200, 1199, 3, 2397],
      ∀ p ∈ [(TbState.locked, none), (.locked, some 5), (.holdover, some 5), (.holdover, none), (.unset, some 1001)],
      let b := timed p.1 (p.2.map fun v => ⟨v, .service⟩) (running 100 base)
      let s : State := { b with tb := { b.tb with tick := c, rejectStreak := [c + 1, c - 1], holdoverSec := 599 } }
      2 < s.tb.tick ∧ s.tb.tick < 2398 ∧ s.moment.lost = false ∧ s.tb.rejectStreak = [c + 1, c - 1]
        ∧ max (c + 1) (c - 1) - min (c + 1) (c - 1) ≤ 2 ∧ s.tb.holdoverLimit = 600 ∧ s.active = some (window 100)
        ∧ 5 + 1 < s.tb.seconds ∧ s.timelineDone ∧ s.moment.regTick = false ∧ s.scanDue = false ∧ s.sk.stack.length < 2
        ∧ s.oc.output ≠ .lockout := by decide

theorem witness_holdover :
    let s : State := { base with tb := { base.tb with edgeAge := 2402 } }
    s.tb.state = .locked ∧ 2402 ≤ s.tb.edgeAge := by decide

/-- CONTINUE's case with no window; SUSPEND with an empty stack, with two frames held, and in LOCKOUT. -/
theorem witness_lost :
    let due : State → State := fun b => { timed .holdover none b with moment := { b.moment with lost := true } }
    let s := due (running 0 base)
    let full := due (faulted [.overcurrent, .timeStep] (running 0 base))
    let locked := due (faulted [.overcurrent, .timeStep, .timeStep] (running 0 base))
    (s.tb.state = .holdover ∧ s.moment.lost = true ∧ s.tb.lossAction = .suspend ∧ s.active = some (window 0)
      ∧ s.sk.stack.length < 2 ∧ s.oc.output ≠ .lockout ∧ s.sk.stack = [] ∧ CaptureLaw s)
      ∧ (full.sk.stack.length = 2 ∧ full.oc.output = .held ∧ full.active = some (window 0) ∧ full.moment.lost = true)
      ∧ (locked.oc.output = .lockout ∧ locked.active = some (window 0) ∧ locked.tb.state = .holdover)
      ∧ (due base).tb.state = .holdover ∧ (due base).moment.lost = true ∧ (due base).active = none := by decide

/-- Re-alignments back from 1199 and forward from 1200, within a cycle and into another, with a capture OPEN; and the two steps of
1 s. -/
theorem witness_rephase :
    (∀ c ∈ [1199, 1200], ∀ φ ∈ [9600, 35999],
      let b := running φ base
      let s : State := { b with
        tb := { b.tb with tick := c, rejectStreak := [c, c + 1] }
        sl := { b.sl with capture := some ⟨0, false, .pending, .opened⟩ }
        cl := { b.cl with assembly := some (Assembly.start 7 0 false) } }
      s.timelineDone ∧ s.moment.lost = false ∧ s.tb.rejectStreak = [c, c + 1] ∧ s.active = some (window φ)
        ∧ s.tb.staged = none ∧ s.moment.regTick = false ∧ s.scanDue = false ∧ s.sk.stack = []
        ∧ (∀ v ∈ s.sl.windows, (s.tb.seconds + 1) % 4294967296 < v.stop))
    ∧ ∀ T ∈ [1000, 1002],
      let s := wrapDue (timed .lost (some ⟨T, .service⟩) (running 0 base))
      s.moment.wrap = some samples ∧ s.moment.positions = [] ∧ s.tb.state ≠ .locked ∧ s.tb.staged = some ⟨T, .service⟩
        ∧ s.tb.seconds < 4294967295 ∧ (T = s.tb.seconds ∨ T = s.tb.seconds + 2) ∧ s.active = some (window 0)
        ∧ s.sk.stack = [] ∧ ∀ v ∈ s.sl.windows, T < v.stop := by decide

/-! ### The survey timeline -/

/-- Activation at the start itself and one second before the end, in LOCKED and well inside HOLDOVER. -/
theorem witness_window_activates :
    ∀ w ∈ [scheduled 7 1001 1002, scheduled 7 1 1002], ∀ t ∈ [TbState.locked, .holdover],
      let s := wrapDue (timed t none { base with sl := { base.sl with windows := [w, scheduled 9 1002 1700] } })
      s.moment.wrap = some samples ∧ s.tb.seconds < 4294967295
        ∧ (s.tb.state = .locked ∨ s.tb.state = .holdover ∧ s.tb.staged = none ∧ s.moment.lost = false
          ∧ s.tb.holdoverSec + 1 < s.tb.holdoverLimit)
        ∧ s.sl.windows = [w, scheduled 9 1002 1700] ∧ w.life = .scheduled ∧ w.start ≤ s.tb.seconds + 1
        ∧ s.tb.seconds + 1 < w.stop ∧ (∀ v ∈ [scheduled 9 1002 1700], v.life = .scheduled ∧ s.tb.seconds + 1 < v.stop)
        ∧ s.sk.stack = [] ∧ s.cq.queue = [] ∧ s.moment.positions = []
        ∧ 0 < (s.profileOf w).period ∧ ((s.tb.seconds + 1 : Nat) - (w.start : Int)) * 2400 < 5153960755200 := by decide

/-- One entry, ACTIVE or SCHEDULED, whose end is now; and a list of which an ACTIVE first entry ends and two others are skipped. -/
theorem witness_examination :
    let ends := { (window 0).1 with stop := 1000 }
    let s : State := { base with sl := { base.sl with windows := [ends] }, moment := { base.moment with exam := true } }
    let gone := scheduled 9 1 1000
    let r : State := { s with sl := { s.sl with windows := [gone] } }
    let many : State := { s with sl := { s.sl with windows := [ends, scheduled 8 3 1000, gone, scheduled 10 1000 1001] } }
    (s.moment.wrap = none ∧ s.moment.exam = true ∧ Position.boundary ∉ s.moment.positions ∧ s.sl.windows = [ends]
      ∧ ends.life = .active (window 0).2 ∧ ends.stop ≤ s.tb.seconds ∧ s.cq.queue = [])
      ∧ (r.moment.exam = true ∧ r.sl.windows = [gone] ∧ gone.life = .scheduled ∧ gone.stop ≤ r.tb.seconds)
      ∧ many.sl.windows = ends :: [scheduled 8 3 1000, gone, scheduled 10 1000 1001] ∧ many.cq.queue = []
      ∧ many.sl.notices.length ≤ 8 ∧ many.moment.exam = true
      ∧ (scheduled 10 1000 1001 ∈ many.sl.windows ∧ many.tb.seconds < (scheduled 10 1000 1001).stop) := by decide

/-- With nothing in the list; under suspension; and at a cycle boundary, at a second boundary too or not, with no capture, with one
OPEN, and with an ENDING window; with a window that runs on a profile in the queue; the entries due, and one put back by a RESUME. -/
theorem witness_apply_point :
    ∀ back ∈ [[], [Setting.reg .currentLimit]], ∀ exam ∈ [true, false],
    let b : State := { base with
      cq := { queue := [⟨.reg .currentLimit, 100, .service⟩, ⟨.profile .off 0, 200, .telemetry⟩] }
      moment := { base.moment with requeued := back, exam := exam } }
    let due : State → State := fun s => { s with moment := { s.moment with exam := true } }
    let held : State := { running 0 b with sk := { b.sk with stack := [buildFrame .timeStep none b] } }
    let at' := taking [.boundary] (running 0 b)
    let open' := captured (-1201) at'
    let w := { (window 0).1 with life := .ending (window 0).2 .time }
    let ends : State := { at' with sl := { at'.sl with windows := [w, scheduled 9 1600 1700] } }
    ((due b).moment.wrap = none ∧ (due b).moment.exam = true ∧ (due b).sl.windows = []
      ∧ Position.boundary ∉ (due b).moment.positions)
      ∧ ((due held).sl.windows = [(window 0).1, scheduled 9 1600 1700] ∧ (window 0).1.life = .active (window 0).2
        ∧ (due held).sk.stack ≠ [] ∧ (due held).moment.exam = true
        ∧ ∀ v ∈ (due held).sl.windows, (due held).tb.seconds < v.stop)
      ∧ (at'.moment.positions = [.boundary] ∧ (∀ v ∈ at'.sl.windows, at'.tb.seconds < v.stop) ∧ at'.sl.capture = none
        ∧ at'.sk.stack = [] ∧ at'.sl.windows = [(window 0).1, scheduled 9 1600 1700] ∧ at'.sl.outright = false)
      ∧ (open'.moment.positions = [.boundary] ∧ open'.sl.windows = at'.sl.windows ∧ open'.sl.capture.isSome = true
        ∧ open'.cl.assembly.isSome = true ∧ open'.rg.overStreak < 2 ∧ open'.sk.stack = [] ∧ open'.sl.outright = false)
      ∧ (exam = false → ends.moment.positions = [.boundary] ∧ ends.moment.exam = false
        ∧ ends.sl.windows = [w, scheduled 9 1600 1700] ∧ (∀ v ∈ [scheduled 9 1600 1700], v.life = .scheduled)
        ∧ ends.sk.stack = [] ∧ ends.sl.capture = none) := by decide

/-- R150: a RESUME carried out before the cycle boundary of its moment leaves its entries to the next apply point, and a CHANGE of the
moment to one of their settings is applied at the boundary (R147); the tick after ends the wait. -/
theorem test_resume_entries_wait :
    let q : List QEntry := [⟨.reg .rampRate, 5, .service⟩, ⟨.reg .deadband, 7, .service⟩]
    let f := faulted [.timeStep] (running 0 { base with cq := { queue := q } })
    let e : Setting → Int → ResumeElement := fun x v => ⟨true, x.code, 0, v⟩
    let fields : ResumeFields := ⟨1, 2, 4, 0, false, true, [e (.reg .rampRate) 5, e (.reg .deadband) 7]⟩
    let s := (f.sk.stack.head?.map fun top => resumeFrame fields top .cycle (taking [.boundary] f)).getD f
    let r := cycleBoundary s
    let changed := cycleBoundary (enqueue .telemetry (.reg .deadband) 9 false s).2
    (s.cq.queue = q ∧ r.cq.queue = q ∧ r.rg.set = s.rg.set)
      ∧ (changed.cq.queue = [⟨.reg .rampRate, 5, .service⟩] ∧ changed.rg.set.deadband = 9 ∧ changed.rg.set.rampRate = 10)
      ∧ (cycleBoundary { r with moment := { r.moment with requeued := [] } }).rg.set.rampRate = 5 := by decide

theorem witness_window_removed :
    ∀ cause ∈ [EndCause.time, .delete],
      let w := { (window 0).1 with life := .ending (window 0).2 cause }
      let s := taking [.boundary] { base with sl := { base.sl with windows := [w, scheduled 9 1600 1700] } }
      s.moment.positions = [.boundary] ∧ s.moment.exam = false ∧ s.sl.windows = [w, scheduled 9 1600 1700]
        ∧ w.life = .ending (window 0).2 cause ∧ (∀ v ∈ [scheduled 9 1600 1700], v.life = .scheduled)
        ∧ s.cq.queue = [] := by decide

theorem witness_record :
    let s := taking [.boundary] (captured (-900) base)
    s.moment.positions = [.boundary] ∧ s.sl.capture = some ⟨0, false, .done, .done⟩
      ∧ s.cl.assembly = some { Assembly.start 7 0 false with offEdge := some ⟨1000, 0, .locked, .run⟩ }
      ∧ s.mu.onResult = some (-1200) ∧ s.mu.offResult = some ⟨-900, 3, false⟩ := by decide

/-- The off potentials at which R102's branches meet: the over limit, one below it, and the edge of the deadband. -/
theorem witness_outer_loop :
    ∀ pot ∈ [-1201, -1200, -960, -961],
      let s : State := taking [.boundary] (captured pot { base with rg := { base.rg with
        set := { base.rg.set with mode := .potentialOff } } })
      s.moment.positions = [.boundary] ∧ s.cq.queue = [] ∧ s.sl.capture = some ⟨0, false, .done, .done⟩
        ∧ s.cl.assembly = some { Assembly.start 7 0 false with offEdge := some ⟨1000, 0, .locked, .run⟩ }
        ∧ s.rg.set.mode = .potentialOff ∧ s.mu.offResult = some ⟨pot, 3, false⟩ ∧ s.rg.set.overLimit = -1200
        ∧ s.rg.set.target = -950 ∧ s.rg.set.deadband = 10 := by decide

theorem witness_overprotection :
    let s : State := taking [.boundary]
      (captured (-1201) (inOutput .run (running 0 { base with rg := { base.rg with overStreak := 2 } })))
    s.moment.positions = [.boundary] ∧ s.moment.exam = false ∧ s.active = some (window 0)
      ∧ s.sl.capture = some ⟨0, false, .done, .done⟩
      ∧ s.cl.assembly = some { Assembly.start 7 0 false with offEdge := some ⟨1000, 0, .locked, .run⟩ }
      ∧ s.mu.offResult = some ⟨-1201, 3, false⟩ ∧ (-1201 : Int) < s.rg.set.overLimit ∧ s.rg.overStreak = 2
      ∧ s.sk.stack = [] ∧ s.oc.output = .run := by decide

theorem witness_off_edge :
    let s := taking [.offEdge] (inOutput .run (running 28800 base))
    s.moment.positions = [.offEdge] ∧ s.active = some (window 28800)
      ∧ (s.profileOf (window 28800).1).onT = (window 28800).2.phase ∧ s.sk.stack = [] := by decide

/-- At the first phase of each window and one past its last. -/
theorem witness_measurement_window_opens :
    ∀ φ ∈ [28080, 28320, 29280, 29520], ∀ w ∈ [MWindow.on, .off],
      let s : State := taking [.opens w] { running φ base with
        sl := { (running φ base).sl with capture := some ⟨0, false, .pending, .pending⟩ } }
      s.sl.capture = some ⟨0, false, .pending, .pending⟩ ∧ s.active = some (window φ)
        ∧ s.moment.positions = [.opens w] := by decide

theorem witness_measurement_window_closes :
    ∀ w ∈ [MWindow.on, .off],
      let s : State := taking [.closes w] { running 0 base with
        sl := { (running 0 base).sl with capture := some ⟨0, false, .opened, .opened⟩ }
        mu := { base.mu with onAcc := ⟨-1690920, 240⟩, offAcc := ⟨-7045, 1⟩, offMin := some (-7045), offMax := some (-7045) } }
      s.sl.capture = some ⟨0, false, .opened, .opened⟩ ∧ s.active = some (window 0) ∧ s.moment.positions = [.closes w]
        ∧ 0 < s.mu.onAcc.count ∧ 0 < s.mu.offAcc.count ∧ s.mu.offMin = some (-7045) ∧ s.mu.offMax = some (-7045) := by decide

theorem witness_no_activation :
    let s := timed .lost none { base with sl := { base.sl with windows := [scheduled 9 1 2000] } }
    (∀ t ∈ [s, timed .unset none s],
        (t.tb.state = .lost ∨ t.tb.state = .unset ∧ t.tb.staged = none) ∧ t.active = none ∧ WindowLaw t)
      ∧ ∃ t, exec .secondBoundary s = .next t := ⟨by decide, _, rfl⟩

/-! ### Regulation -/

/-- Below the trip level, and the first tick at it. -/
theorem witness_regulation_tick :
    ∀ p ∈ [((1000 : Int), 0), (1000, 1), (32767, 0)],
      let b := regulating p.1 (inOutput .run base)
      let s : State := { b with rg := { b.rg with tripStreak := p.2, set := { b.rg.set with trip := 10000 } } }
      s.moment.wrap = none ∧ s.moment.regTick = true ∧ s.oc.output = .run ∧ s.oc.rampLimit = 1000 ∧ s.hs.mains = .present
        ∧ s.mu.switchOpenInside = false ∧ s.mu.mainsBadInside = false ∧ s.scanDue = false ∧ 0 < s.mu.iAcc.count
        ∧ 0 < s.mu.vAcc.count ∧ (s.measuredCurrent < s.rg.set.trip ∨ s.rg.tripStreak = 0) := by decide

/-- A tick of each state that the power stage is not driven in. -/
theorem witness_undriven_tick :
    ∀ o ∈ [Output.stopped .command, .held, .lockout],
      let s := regulating 1000 (inOutput o base)
      s.moment.wrap = none ∧ s.moment.regTick = true ∧ s.oc.output ≠ .run ∧ s.oc.output ≠ .ramp ∧ 0 < s.mu.iAcc.count
        ∧ 0 < s.mu.vAcc.count ∧ s.mu.switchOpenInside = false ∧ s.mu.mainsBadInside = false ∧ s.hs.mains = .present
        ∧ s.scanDue = false := by decide

theorem witness_frozen_tick :
    let s := regulating 1000 (inOutput .run base)
    ∀ r ∈ [{ s with mu := { s.mu with switchOpenInside := true } }, { s with mu := { s.mu with mainsBadInside := true } },
        { s with hs := { s.hs with mains := .lost } }, { s with mu := { s.mu with iAcc := ⟨0, 0⟩ } }],
      r.moment.wrap = none ∧ r.moment.regTick = true ∧ r.oc.output = .run
        ∧ (r.mu.switchOpenInside = true ∨ r.mu.mainsBadInside = true ∨ r.hs.mains ≠ .present ∨ r.mu.iAcc.count = 0) := by
  decide

/-- One tick before the ramp's end, and at it, below the trip level and the first at it. -/
theorem witness_ramp_rises :
    ∀ lim ∈ [0, 989, 990], ∀ p ∈ [((1000 : Int), 1), (32767, 0)],
      let b := regulating p.1 (inOutput .ramp base)
      let s : State := { b with
        oc := { b.oc with rampLimit := lim }, rg := { b.rg with tripStreak := p.2, set := { b.rg.set with trip := 10000 } } }
      s.moment.wrap = none ∧ s.moment.regTick = true ∧ s.oc.output = .ramp ∧ s.hs.mains = .present
        ∧ s.mu.switchOpenInside = false ∧ s.mu.mainsBadInside = false ∧ s.scanDue = false ∧ 0 < s.mu.iAcc.count
        ∧ 0 < s.mu.vAcc.count ∧ (s.measuredCurrent < s.rg.set.trip ∨ s.rg.tripStreak = 0) ∧ 0 ≤ s.oc.rampLimit
        ∧ 1 ≤ s.rg.set.rampRate := by decide

/-- Exactly at the trip level, in RUN and RAMP, with no frame held and with two. -/
theorem witness_overcurrent :
    ∀ o ∈ [Output.run, .ramp],
      let b := regulating 32767 (inOutput o base)
      let s : State := { b with rg := { b.rg with tripStreak := 1, set := { b.rg.set with trip := 10000 } } }
      let full : State := { s with sk := { s.sk with stack := [buildFrame .timeStep none s, buildFrame .timingLost none s] } }
      (s.moment.regTick = true ∧ s.oc.output = o ∧ s.hs.mains = .present ∧ s.mu.switchOpenInside = false
        ∧ s.mu.mainsBadInside = false ∧ s.scanDue = false ∧ 0 < s.mu.iAcc.count ∧ s.measuredCurrent = s.rg.set.trip
        ∧ s.rg.tripStreak = 1 ∧ s.moment.wrap = none ∧ s.sk.stack.length < 2)
        ∧ full.sk.stack.length = 2 ∧ full.oc.output = o := by decide

/-! ### The scan, the store and the inputs -/

/-- `base` at a scan end whose channel 0 is at `m0` codes a sample. -/
def scanned (mains : Mains) (m0 : Int) : State :=
  { base with hs := { base.hs with
      scan := some 1000, mains := mains, mainsCount := 2, sums := base.hs.sums.set 0 (m0 * 240) } }

theorem witness_scan : (scanned .present 0).hs.scan = some 1000 := by decide

/-- Channel 0 just below its low limit, at its low limit, and at its high limit: 159, 160 and 190 V; each mains count; a STOPPED
output that waits. -/
theorem witness_mains :
    (∀ m ∈ [Mains.present, .lost, .unknown], (scanned m 0).hs.scan = some 1000 ∧ (scanned m 0).hs.mainsCount = 2)
      ∧ (∀ m ∈ [Mains.present, .lost, .unknown], ∀ n ∈ [0, 1],
        let s : State := { scanned m 0 with hs := { (scanned m 0).hs with mainsCount := n } }
        s.hs.scan = some 1000 ∧ s.hs.mainsCount < 2 ∧ s.hs.mains = m)
      ∧ scanValue (scanned .present 10453) 0 = 160 ∧ scanValue (scanned .present 10420) 0 = 159
      ∧ scanValue (scanned .lost 12452) 0 = 190 ∧ ((scanned .present 0).hs.channels.get 0).limits = ⟨160, 190⟩
      ∧ (scanned .unknown 12452).hs.mainsMark = true ∧ (scanned .unknown 12452).oc.output = .stopped .reset := by decide

theorem witness_inputs :
    let s := inOutput .run base
    let held := faulted [.stageFault] s
    (s.oc.output ≠ .lockout ∧ s.sk.stack = []) ∧ (∃ f ∈ held.sk.stack, f.kind = .stageFault)
      ∧ (faulted [.overcurrent, .timeStep, .timingLost] s).oc.output = .lockout
      ∧ (∀ f ∈ (faulted [.overcurrent] s).sk.stack, f.kind ≠ .stageFault)
      ∧ (faulted [.overcurrent] s).sk.stack.length = 1 ∧ (faulted [.overcurrent] s).oc.output = .held
      ∧ (∀ f ∈ (faulted [.overcurrent, .timeStep] s).sk.stack, f.kind ≠ .stageFault)
      ∧ (faulted [.overcurrent, .timeStep] s).sk.stack.length = 2 ∧ (faulted [.overcurrent, .timeStep] s).oc.output = .held := by
  decide

/-! ### The links -/

/-- `base` with the Service link's receiver in a state, with a partial frame. -/
def receiving (rx : RxState) (got : Bytes) : State := base.onLink .service fun k => { k with rx := rx, partialBytes := got }

theorem witness_bytes :
    ((receiving .hunt []).link .service).rx = .hunt ∧ ((receiving .length []).link .service).rx = .length
      ∧ ((receiving .payload [2, 9]).link .service).rx = .payload
      ∧ ((receiving .payload [2, 9]).link .service).partialBytes = 2 :: [9]
      ∧ ((receiving .check [1, 16]).link .service).rx = .check
      ∧ ((receiving .check [1, 16]).link .service).partialBytes = 1 :: [16] ∧ (101 : Byte) = checkByte (1 :: [16])
      ∧ (100 : Byte) ≠ checkByte (1 :: [16]) := by decide +kernel

theorem witness_frame_round_trip :
    1 ≤ (List.replicate 240 (165 : Byte)).length ∧ (List.replicate 240 (165 : Byte)).length ≤ 240
      ∧ (base.link .service).rx = .hunt ∧ (base.link .service).partialBytes = [] ∧ (base.link .service).gap = 0
      ∧ (base.link .service).fifo.length < 2 := by decide +kernel

theorem witness_link_steps :
    let s := base.onLink .service fun k => { k with rx := .payload, partialBytes := [2], gap := 49 }
    let r := base.onLink .service fun k =>
      { k with buffer := some [165, 2, 9, 0, 0], txBits := 50, pendingRate := some .r9600 }
    let f := base.onLink .service fun k => { k with pendingRate := some .r9600 }
    ((s.link .service).rx ≠ .hunt ∧ 48 < (s.link .service).gap)
      ∧ ((r.link .service).buffer = some [165, 2, 9, 0, 0] ∧ 10 * [165, 2, 9, 0, 0].length ≤ (r.link .service).txBits)
      ∧ (f.link .service).pendingRate = some .r9600 ∧ (f.link .service).buffer = none ∧ (f.link .service).rx = .hunt := by
  decide

/-! ### Commands -/

theorem witness_set_time :
    ∀ args ∈ ([[7, 0, 0, 0, 1, 0, 0, 0, 10, 0], [7, 255, 255, 255, 255, 0, 1, 81, 128, 1]] : List Bytes),
      let s := sent .service (1 :: args) base
      s.serves .service 1 args ∧ s.barred .service = false ∧ args.length = 10 ∧ fieldBit args 0 0 = true
        ∧ fieldBit args 0 1 = true ∧ fieldBit args 0 2 = true ∧ fieldU args 1 4 ≠ 0
        ∧ (10 = fieldU args 5 4 ∨ fieldU args 5 4 = 86400) ∧ fieldU args 9 1 ≤ 1 := by decide

/-- SET TIME's refusals: a field short, no field, T of 0, a limit of 9 and of 86 401, an action code of 2. -/
theorem witness_set_time_refused :
    (∀ args ∈ ([[7], [0, 0, 0, 0, 1, 0, 0, 0, 10, 0], [1, 0, 0, 0, 0, 0, 0, 0, 10, 0], [2, 0, 0, 0, 0, 0, 0, 0, 9, 0],
        [2, 0, 0, 0, 0, 0, 1, 81, 129, 0], [4, 0, 0, 0, 0, 0, 0, 0, 10, 2]] : List Bytes),
      (sent .service (1 :: args) base).serves .service 1 args ∧ (sent .service (1 :: args) base).barred .service = false)
      ∧ (sent .telemetry [1] { base with pins := ⟨false, true⟩ }).barred .telemetry = true := by decide

/-- ADD WINDOW's refusals: BAD_LENGTH, PAST by one second, an empty interval, one second too long, profile 8, an interval that meets
a neighbour, a start before the running entry's, a full list, UNSET. -/
theorem witness_add_window_refused :
    let r := running 0 base
    let full : State := { base with sl := { base.sl with windows := List.replicate 16 (scheduled 9 1600 1700) } }
    (∀ args ∈ ([[], u32 1001 ++ u32 1003 ++ [0], u32 1002 ++ u32 1002 ++ [0], u32 1002 ++ u32 605803 ++ [0],
        u32 1002 ++ u32 1003 ++ [8]] : List Bytes), (sent .service (3 :: args) base).serves .service 3 args)
      ∧ (let args : Bytes := u32 1499 ++ u32 1501 ++ [0]
        (sent .service (3 :: args) r).serves .service 3 args ∧ ∃ w ∈ r.sl.windows, ¬ (fieldU args 4 4 ≤ w.start ∨ w.stop ≤ fieldU args 0 4))
      ∧ (let args : Bytes := u32 990 ++ u32 991 ++ [0]
        let back : State := { r with tb := { r.tb with seconds := 900 } }
        (sent .service (3 :: args) back).serves .service 3 args
          ∧ ∃ w ∈ back.sl.windows, ¬ (w.life ≠ .scheduled → w.start ≤ fieldU args 0 4))
      ∧ (let args : Bytes := u32 1002 ++ u32 1003 ++ [0]
        (sent .service (3 :: args) full).serves .service 3 args ∧ full.sl.windows.length = 16
          ∧ (sent .service (3 :: args) (timed .unset none base)).serves .service 3 args) := by
  decide

/-- The earliest start, the longest interval, an interval that touches its neighbour. -/
theorem witness_add_window :
    let args : Bytes := u32 1002 ++ u32 (1002 + 604800) ++ [7]
    let near : Bytes := u32 1500 ++ u32 1600 ++ [0]
    let s := sent .service (3 :: args) base
    let r := sent .service (3 :: near) (running 0 base)
    (s.serves .service 3 args ∧ s.barred .service = false ∧ args.length = 9 ∧ s.tb.state ≠ .unset
      ∧ s.tb.seconds + 2 = fieldU args 0 4 ∧ fieldU args 4 4 = fieldU args 0 4 + 604800 ∧ fieldU args 8 1 = 7
      ∧ s.sl.windows.length < 16 ∧ (∀ v ∈ s.sl.windows, v.id ≠ s.sl.nextId) ∧ WindowLaw s)
      ∧ r.serves .service 3 near ∧ WindowLaw r
      ∧ (∀ w ∈ r.sl.windows, (fieldU near 4 4 ≤ w.start ∨ w.stop ≤ fieldU near 0 4)
        ∧ (w.life ≠ .scheduled → w.start ≤ fieldU near 0 4)) :=
  ⟨⟨by decide, by decide, by decide, by decide, by decide, by decide, by decide, by decide, by decide, by decide⟩,
    by decide, by decide, by decide⟩

theorem witness_delete_window :
    let s := running 0 base
    let e : State := { s with sl := { s.sl with windows := [{ (window 0).1 with life := .ending (window 0).2 .time }] } }
    (∀ id ∈ [7, 9, 8], (sent .service [4, 0, id] s).serves .service 4 [0, id])
      ∧ (sent .service [4, 0, 7] s).serves .service 4 [0, 7] ∧ (sent .service [4, 0, 7] e).serves .service 4 [0, 7]
      ∧ (sent .service [4, 0, 9] s).barred .service = false ∧ WindowLaw s ∧ WindowLaw e
      ∧ fieldU [0, 7] 0 2 = (window 0).1.id ∧ fieldU [0, 9] 0 2 = 9 ∧ (∀ w ∈ s.sl.windows, w.id ≠ fieldU [0, 8] 0 2)
      ∧ (sent .telemetry [4] { s with pins := ⟨false, true⟩ }).barred .telemetry = true :=
  ⟨by decide, by decide, by decide, by decide, by decide, by decide, by decide, by decide, by decide, by decide⟩

/-- An ACTIVE entry past its end, with the examination of a large forward step at an edge still due: DELETE WINDOW leaves its end as
it was, clear of the entry behind it. -/
theorem test_delete_past_end :
    let s := pulseEdgeStep (timed .locked (some ⟨2000, .service⟩) { running 0 base with tb := { base.tb with tick := 2399 } })
    let t := endWindow 7 s
    s.moment.exam = true ∧ s.tb.seconds = 2000
      ∧ t.sl.windows.map (fun w => (w.id, w.stop)) = [(7, 1500), (9, 1700)]
      ∧ (t.sl.windows.head?.map WindowRec.life).any (fun x => match x with | .ending _ .time => true | _ => false) = true
      ∧ WindowLaw s ∧ WindowLaw t := by decide

/-- CURRENT_SET above Ilim, taken as Ilim: replaced, appended to three, and refused by a queue of four others. -/
theorem witness_change :
    let args : Bytes := [1, 0] ++ u32 11000
    let q : List QEntry :=
      [⟨.reg .rampRate, 5, .service⟩, ⟨.reg .mode, 1, .service⟩, ⟨.profile .on 7, 500, .telemetry⟩]
    let with' : List QEntry → State := fun x => sent .service (7 :: args) { base with cq := { queue := x } }
    (∀ x ∈ [q, ⟨.reg .currentSet, 3, .telemetry⟩ :: q, ⟨.reg .deadband, 3, .telemetry⟩ :: q],
        (with' x).serves .service 7 args ∧ (with' x).barred .service = false ∧ (with' x).sk.stack = []
          ∧ (with' x).oc.output ≠ .lockout)
      ∧ args.length = 6 ∧ settingOf (fieldU args 0 1) (fieldU args 1 1) = some (.reg .currentSet)
      ∧ (Setting.reg .currentSet).taken base.rg.set (fieldS args 2 4) = some 10000 := by decide

/-- CHANGE's refusals: BAD_LENGTH, no such target, no such profile, a value out of range, a frame held, LOCKOUT, LOCAL. -/
theorem witness_change_refused :
    (∀ args ∈ ([[1], [22, 0, 0, 0, 0, 0], [15, 8, 0, 0, 1, 0], [1, 0] ++ u32 11001] : List Bytes),
      (sent .service (7 :: args) base).serves .service 7 args)
      ∧ settingOf 22 0 = none ∧ settingOf 15 8 = none ∧ (Setting.reg .currentSet).taken base.rg.set 11001 = none
      ∧ (∀ ks ∈ [[FaultKind.timeStep], [.timeStep, .timeStep, .timeStep]],
        let s := sent .service ([7, 1, 0] ++ u32 5) (faulted ks base)
        s.serves .service 7 ([1, 0] ++ u32 5) ∧ (s.sk.stack ≠ [] ∨ s.oc.output = .lockout))
      ∧ (let s := sent .telemetry ([7, 1, 0] ++ u32 5) { base with pins := ⟨false, true⟩ }
        s.serves .telemetry 7 ([1, 0] ++ u32 5) ∧ s.barred .telemetry = true ∧ s.sk.stack = []) := by decide

theorem witness_cancel_change :
    let s := sent .service [8, 1, 200] { base with cq := { queue := [⟨.reg .currentSet, 3, .telemetry⟩] } }
    s.serves .service 8 [1, 200] ∧ s.barred .service = false
      ∧ settingOf (fieldU [1, 200] 0 1) (fieldU [1, 200] 1 1) = some (.reg .currentSet)
      ∧ settingOf (fieldU [15, 8] 0 1) (fieldU [15, 8] 1 1) = none
      ∧ settingOf (fieldU [15, 7] 0 1) (fieldU [15, 7] 1 1) = some (.profile .on 7)
      ∧ (sent .service [8, 15, 8] s).serves .service 8 [15, 8] ∧ (sent .service [8] s).serves .service 8 [] := by decide

theorem witness_start :
    let s := sent .supervisor [11, 1] base
    let lost : State := { s with hs := { s.hs with mains := .lost } }
    (s.serves .supervisor 11 [1] ∧ s.barred .supervisor = false ∧ s.oc.output = .stopped .reset ∧ s.hs.mains = .present
      ∧ s.rg.duty = 0 ∧ DriveLaw s ∧ SwitchLaw s)
      ∧ lost.serves .supervisor 11 [1] ∧ lost.oc.output = .stopped .reset ∧ lost.hs.mains ≠ .present
      ∧ (∀ o ∈ [Output.ramp, .run, .held, .lockout], (inOutput o s).serves .supervisor 11 [1] ∧ (inOutput o s).oc.output = o)
      ∧ (sent .supervisor [11, 2] base).serves .supervisor 11 [2]
      ∧ (sent .telemetry [11] { base with pins := ⟨false, true⟩ }).barred .telemetry = true := by decide

theorem witness_stop :
    (∀ o ∈ [Output.stopped .command, .stopped .reset, .ramp, .run, .held, .lockout],
      (inOutput o (sent .telemetry [12] base)).serves .telemetry 12 [] ∧ (inOutput o (sent .telemetry [12] base)).oc.output = o
        ∧ (inOutput o (sent .telemetry [12] base)).barred .telemetry = false)
      ∧ (sent .telemetry [12, 255] base).serves .telemetry 12 [255] := by decide

/-- Channel 6 at the ends of its range and channel 8; entry 0 at the ends of its gains and entry 11. -/
theorem witness_tables :
    (∀ args ∈ ([[6, 128, 0, 127, 255], [8, 0, 0, 0, 0]] : List Bytes),
      (sent .service (19 :: args) base).serves .service 19 args ∧ args.length = 5)
      ∧ (∀ args ∈ ([[0, 254, 0, 3, 232], [0, 1, 255, 5, 220], [0, 0, 0, 5, 221], [11, 0, 0, 0, 1]] : List Bytes),
        (sent .service (20 :: args) base).serves .service 20 args ∧ args.length = 5)
      ∧ fieldS [6, 128, 0, 127, 255] 1 2 = -32768 ∧ fieldU [0, 254, 0, 3, 232] 3 2 = 1000 := by decide

theorem witness_mask :
    (∀ code ∈ [(24 : Byte), 25], ∀ args ∈ ([[63, 255], [64, 0]] : List Bytes),
      (sent .telemetry (code :: args) base).serves .telemetry code args ∧ args.length = 2)
      ∧ fieldU [63, 255] 0 2 = 16383 ∧ fieldU [64, 0] 0 2 = 16384 := by decide

theorem witness_reads :
    ∀ p ∈ ([[2], [5], [5, 15], [6], [6, 7], [9], [10], [16], [17, 0, 0, 0, 1, 8], [18], [21], [21, 1], [0], [13], [28], [255]]
        : List Bytes), ∃ code args, p = code :: args ∧ (sent .telemetry p base).serves .telemetry code args := by
  intro p h
  simp only [List.mem_cons, List.not_mem_nil, or_false] at h
  obtain rfl | rfl | rfl | rfl | rfl | rfl | rfl | rfl | rfl | rfl | rfl | rfl | rfl | rfl | rfl | rfl := h <;>
    exact ⟨_, _, rfl, by decide⟩

/-- The payload of a RESUME of a frame with no pending element: continuation bits `c`, Iset `i`. -/
def resumeOf (f : Frame) (c : Byte) (i : Int) : Bytes :=
  u16 f.seq ++ u8 (f.kind.format.code : Nat) ++ u8 (f.kind.code : Nat) ++ u16 i ++ [c, 0]

/-- A RESUME with RAMP of the frame of an OVERCURRENT that took one queued change: the element agrees. -/
theorem witness_resume :
    let f := faulted [.overcurrent] (inOutput .run { base with cq := { queue := [⟨.reg .rampRate, 5, .service⟩] } })
    let args : Bytes := [0, 1, 0, 0, 0, 0, 1, 1, 1, 12, 0, 0, 0, 0, 7]
    let s := sent .service (22 :: args) f
    s.serves .service 22 args ∧ s.barred .service = false ∧ s.oc.output = .held ∧ s.sk.stack.length = 1
      ∧ (∀ g ∈ resumeFields args, ∀ top ∈ s.sk.stack,
          g.seq = top.seq ∧ g.agreesWith top s.rg.set ∧ ¬ s.refusesResume g top)
      ∧ (resumeFields args).isSome = true := by decide

/-- RESUMEs that succeed with a window running: CYCLE and NONE on a TIMELINE frame, with the boundary due and not, and NONE on the
upper of two frames. Each agrees with the top frame. -/
theorem witness_resume_running :
    let one := faulted [.timeStep] (inOutput .run (running 100 base))
    let two := faulted [.overcurrent, .timeStep] (inOutput .run (running 100 base))
    (∀ s ∈ [one, taking [.boundary] one, two], ∀ c ∈ [(0 : Byte), 2], ∀ top ∈ s.sk.stack.head?,
      let args := resumeOf top c 0
      (sent .service (22 :: args) s).serves .service 22 args ∧ s.oc.output ≠ .lockout ∧ s.active = some (window 100)
        ∧ (resumeFields args).any (fun g => g.seq = top.seq ∧ g.agreesWith top s.rg.set ∧ ¬ s.refusesResume g top) = true)
      ∧ one.sk.stack.length = 1 ∧ two.sk.stack.length = 2 := by decide

theorem witness_resume_refused :
    let s := inOutput .run base
    let args : Bytes := [0, 1, 0, 0, 0, 0, 0, 0]
    ((sent .service (22 :: args) (faulted [.overcurrent, .timeStep, .timingLost] s)).serves .service 22 args
      ∧ (faulted [.overcurrent, .timeStep, .timingLost] s).oc.output = .lockout)
      ∧ (sent .telemetry (22 :: args) { s with pins := ⟨false, true⟩ }).barred .telemetry = true
      ∧ (sent .service [22, 0, 1] s).serves .service 22 [0, 1]
      ∧ ((sent .service (22 :: args) s).sk.stack = [] ∧ (resumeFields args).isSome = true)
      ∧ ((faulted [.overcurrent, .timeStep] s).sk.stack.map Frame.seq = [2, 1]) := by decide

/-- FORMAT: both continuations at once, CYCLE on a frame built with NONE, and Iset above Ilim. NOT_READY: CYCLE while LOST, and a
STAGE_FAULT frame with STGFLT asserted. -/
theorem witness_resume_format_not_ready :
    let idle := faulted [.timeStep] base
    let cycling := faulted [.timeStep] (running 100 (timed .lost none base))
    let stage := faulted [.stageFault] { base with pins := ⟨true, false⟩ }
    (∀ p ∈ [((3 : Byte), (0 : Int)), (2, 0), (0, 10001)], ∀ top ∈ idle.sk.stack.head?,
      let args := resumeOf top p.1 p.2
      (sent .service (22 :: args) idle).serves .service 22 args
        ∧ (resumeFields args).any (fun g => g.seq = top.seq ∧ ¬ g.agreesWith top idle.rg.set) = true)
      ∧ (∀ p ∈ [((2 : Byte), cycling), (1, stage)], ∀ top ∈ p.2.sk.stack.head?,
        let args := resumeOf top p.1 0
        (sent .service (22 :: args) p.2).serves .service 22 args
          ∧ (resumeFields args).any
            (fun g => g.seq = top.seq ∧ g.agreesWith top p.2.rg.set ∧ p.2.refusesResume g top) = true)
      ∧ idle.sk.stack.length = 1 ∧ cycling.sk.stack.length = 1 ∧ stage.sk.stack.length = 1 := by decide

/-- With no window running, and with one, with the boundary due and not; STGFLT asserted and not; from another link; with no lockout. -/
theorem witness_clear_lockout :
    (∀ g ∈ [true, false], ∀ b ∈ [base, running 100 base, taking [.boundary] (running 100 base)],
      let s := sent .supervisor [23]
        (faulted [.overcurrent, .timeStep, .timingLost] (inOutput .run { b with pins := ⟨g, true⟩ }))
      (s.serves .supervisor 23 [] ∧ s.pins = ⟨g, true⟩ ∧ s.oc.output = .lockout ∧ s.active = b.active)
        ∧ s.sk.stack ≠ [] ∧ s.sl.capture = none ∧ s.cl.assembly = none)
      ∧ (sent .service [23] base).serves .service 23 [] := by
  decide

theorem witness_clear_no_lockout :
    (sent .supervisor [23] { base with pins := ⟨false, true⟩ }).serves .supervisor 23 [] ∧ base.oc.output ≠ .lockout := by decide

theorem witness_save :
    let s := sent .service [26, 4, 0, 1] base
    let w : Write := ⟨defaultImage, 0⟩
    (s.serves .service 26 [4, 0, 1] ∧ s.barred .service = false ∧ s.ns.write = none)
      ∧ (sent .service [26, 5, 0, 0] base).serves .service 26 [5, 0, 0]
      ∧ ({ s with ns := { s.ns with write := some w } } : State).ns.write = some w
      ∧ (sent .service [26] base).serves .service 26 [] := by decide

theorem witness_restart :
    let s := sent .service [27] { base with hs := { base.hs with mains := .lost } }
    let l := sent .supervisor [27] (faulted [.overcurrent, .timeStep, .timingLost]
      (inOutput .run { base with pins := ⟨false, true⟩, hs := { base.hs with mains := .lost } }))
    (s.serves .service 27 [] ∧ s.barred .service = false ∧ s.ns.write = none ∧ s.oc.output ≠ .lockout
      ∧ s.pins.stgflt = false ∧ s.hs.mains ≠ .present)
      ∧ (l.serves .supervisor 27 [] ∧ l.oc.output = .lockout ∧ l.pins.localIn = true)
      ∧ ((sent .service [27] l).oc.output = .lockout
        ∧ (sent .service [27] (l.onLink .supervisor fun k => { k with fifo := [] })).serves .service 27 []) := by decide

/-- R205: a cycle boundary of the moment taken after RESTART makes no record and opens the next capture, and taken before it makes the
record and leaves none OPEN. R69: with ON reloaded as 5000 ms, at which the phase in progress is no boundary, none opens. -/
theorem test_restart_and_boundary :
    let b : State := { captured (-900) (taking [.boundary] (running 0 base)) with
      tb := { base.tb with seconds := 1011 }
      sl := { (captured (-900) (running 0 base)).sl with
        windows := [{ (window 0).1 with life := .active { (window 0).2 with cycle := 1 } }] } }
    let other : State := { b with
      ns := { b.ns with image := { b.ns.image with profiles := b.ns.image.profiles.set 0 { defaultProfile with on := 5000 } } } }
    let after := cycleBoundary (restartStation b)
    let before := restartStation (cycleBoundary b)
    (after.cl.log = [] ∧ after.sl.capture.map Capture.entryPhase = some 0 ∧ after.cl.assembly.map Assembly.cycle = some 1)
      ∧ (before.cl.log.length = 1 ∧ before.sl.capture = none)
      ∧ (cycleBoundary (restartStation other)).sl.capture = none := by decide

theorem witness_telemetry_barred :
    let s := sent .telemetry [24, 0, 1] { base with pins := ⟨false, true⟩ }
    s.pins.localIn = true ∧ s.serves .telemetry 24 [0, 1] ∧ (∃ t, exec .setMask s = .next t) :=
  ⟨by decide, by decide, _, rfl⟩

/-! ### The laws hold of a state with a frame held, a window running, a queue and a partial frame -/

/-- Two captures short of a running station: a window ACTIVE, a STAGE_FAULT frame with two queued changes in it. -/
def busy : State :=
  { faulted [.stageFault] (inOutput .run (running 100 { base with
      cq := { queue := [⟨.reg .rampRate, 5, .service⟩, ⟨.profile .off 0, 200, .telemetry⟩] } })) with
    pending := [.localChange true]
    sl := { (running 100 base).sl with nextId := 10 } }

theorem witness_step_keeps :
    TimeLaw busy ∧ WindowLaw busy ∧ NoticeLaw busy ∧ LogLaw busy ∧ CaptureLaw busy ∧ DriveLaw busy ∧ SwitchLaw busy
      ∧ QueueLaw busy ∧ StackLaw busy ∧ LinksLaw busy ∧ ScanLaw busy ∧ ∃ t, step busy = .next t := by
  refine ⟨by decide, by decide, by decide, by decide, by decide, by decide, by decide, by decide, by decide, ?_, by decide,
    _, rfl⟩
  exact ⟨⟨by decide, by decide, by decide, by decide, by decide⟩, ⟨by decide, by decide, by decide, by decide, by decide⟩,
    ⟨by decide, by decide, by decide, by decide, by decide⟩⟩

theorem image_law_default : ImageLaw defaultImage := by
  refine ⟨by decide, by decide, by decide, by decide, by decide, by decide⟩

theorem witness_settings_law : SettingsLaw busy := by
  refine ⟨⟨by decide, by decide, by decide, by decide, by decide, by decide⟩, by decide, fun _ => image_law_default, ?_⟩
  intro w h; cases h

end Sys2Proof.Tests
end

