-- ==== Sys2Proof/Proofs/AddWindow.lean ====
section
/-! ADD WINDOW (R30, R32, R33): the free ID, the place in the list, the seven tests in order, and the command served. -/

namespace Sys2Proof.Machine

/-! ### A served command that raises an event on every link -/

/-- A command that changes fields other than LC and then raises an event on every link: the state after it is its effect, with
the link answered. The event leaves alone what the answer writes. -/
theorem serve_answer_raised {s u : State} {cmd : Command} {l : LinkId} {code : Byte} {args : Bytes} {r : Reply} {c : EventClass}
    (h : s.serves l code args) (hc : cmd l args (takeFrame l s) = (r, raiseAll c { u with lc := (takeFrame l s).lc }))
    (hu : u.lc = s.lc) : serve cmd l (code :: args) s = (raiseAll c u).answer l code r := by
  simp only [serve, List.tail_cons, hc, codeOf_cons]
  simp only [takeFrame_noRate h.2, State.answer, State.onLink, raiseAll, State.onLinks, hu]
  congr 2
  refine PerLink.ext_get fun m => ?_
  by_cases hm : m = l
  · simp only [hm, PerLink.get_set, PerLink.get_map, if_true]
    rfl
  · simp only [hm, PerLink.get_set, PerLink.get_map, if_false]

/-! ### The next ID (R30) -/

/-- The value reached from a 16-bit number by i advances, in closed form. -/
theorem iterate_next16 {n : Nat} (h1 : 1 ≤ n) (h2 : n ≤ 65535) (i : Nat) : next16^[i] n = (n - 1 + i) % 65535 + 1 := by
  induction i with
  | zero => simp only [Function.iterate_zero, id_eq]; omega
  | succ i ih =>
    rw [Function.iterate_succ_apply', ih]
    simp only [next16]
    split <;> omega

theorem next16_range {n : Nat} (h2 : n ≤ 65535) : 1 ≤ next16 n ∧ next16 n ≤ 65535 := by
  simp only [next16]
  split <;> omega

/-- The search ends on a number in its range. -/
theorem freeId_range {held : List Nat} {fuel n : Nat} (h1 : 1 ≤ n) (h2 : n ≤ 65535) :
    1 ≤ freeId fuel held n ∧ freeId fuel held n ≤ 65535 := by
  induction fuel generalizing n with
  | zero => exact ⟨h1, h2⟩
  | succ fuel ih =>
    simp only [freeId]
    split
    · exact ih (next16_range h2).1 (next16_range h2).2
    · exact ⟨h1, h2⟩

/-- A search that ends on a held number has passed over held numbers alone. -/
theorem iterate_next16_mem_of_freeId_mem {held : List Nat} {fuel n : Nat} (h : freeId fuel held n ∈ held) :
    ∀ i < fuel, next16^[i] n ∈ held := by
  induction fuel generalizing n with
  | zero => simp
  | succ fuel ih =>
    simp only [freeId] at h
    split at h
    case isTrue hn =>
      intro i hi
      cases i with
      | zero => exact hn
      | succ i => exact ih h i (by omega)
    case isFalse hn => exact absurd h hn

/-- With more tries than numbers held the search ends on a free one: the numbers passed over are distinct (R30). -/
theorem freeId_free {held : List Nat} {fuel n : Nat} (h1 : 1 ≤ n) (h2 : n ≤ 65535) (hf : fuel ≤ 65535)
    (hl : held.length < fuel) : freeId fuel held n ∉ held := by
  intro hm
  have hmaps : Set.MapsTo (fun i => next16^[i] n) (Finset.range fuel : Set Nat) (held.toFinset : Set Nat) := by
    intro i hi
    simpa using iterate_next16_mem_of_freeId_mem hm i (by simpa using hi)
  have hinj : Set.InjOn (fun i => next16^[i] n) (Finset.range fuel : Set Nat) := by
    intro i hi j hj hij
    simp only [Finset.coe_range, Set.mem_Iio] at hi hj
    simp only [iterate_next16 h1 h2] at hij
    omega
  have hcard : fuel ≤ held.length := calc
    fuel = (Finset.range fuel).card := (Finset.card_range fuel).symm
    _ ≤ held.toFinset.card := Finset.card_le_card_of_injOn _ hmaps hinj
    _ ≤ held.length := held.toFinset_card_le
  omega

/-- A next ID that no entry holds is the one assigned. -/
theorem Sl.assignId_of_free {sl : Sl} (h : ∀ v ∈ sl.windows, v.id ≠ sl.nextId) : sl.assignId = sl.nextId := by
  simp only [Sl.assignId, freeId]
  rw [if_neg (by simpa using h)]

/-- A lawful list always has a free ID to assign, and it is a lawful one. -/
theorem Sl.assignId_free {s : State} (h : WindowLaw s) :
    (∀ v ∈ s.sl.windows, v.id ≠ s.sl.assignId) ∧ 1 ≤ s.sl.assignId ∧ s.sl.assignId ≤ 65535 := by
  obtain ⟨hlen, -, -, -, -, ⟨h1, h2⟩, -⟩ := h
  have hfree : s.sl.assignId ∉ s.sl.windows.map WindowRec.id :=
    freeId_free h1 h2 (by omega) (by rw [List.length_map]; omega)
  exact ⟨fun v hv he => hfree (he ▸ List.mem_map_of_mem hv), freeId_range h1 h2⟩

/-! ### The place in the list (R33) -/

/-- What follows the earlier starts in a list in order of start starts no earlier. -/
theorem start_ge_of_mem_dropWhile {ws : List WindowRec} {a : Nat} (h : ws.Pairwise fun v w => v.start ≤ w.start) :
    ∀ v ∈ ws.dropWhile (fun x => decide (x.start < a)), a ≤ v.start := by
  induction ws with
  | nil => simp
  | cons x xs ih =>
    obtain ⟨hx, hxs⟩ := List.pairwise_cons.mp h
    by_cases hlt : x.start < a
    · simpa [hlt] using ih hxs
    · intro v hv
      rw [List.dropWhile_cons_of_neg (by simpa using hlt)] at hv
      rcases List.mem_cons.mp hv with rfl | hv
      · exact not_lt.mp hlt
      · exact (not_lt.mp hlt).trans (hx v hv)

/-- A lawful list is in order of start. -/
theorem WindowLaw.starts_sorted {s : State} (h : WindowLaw s) : s.sl.windows.Pairwise fun v w => v.start ≤ w.start := by
  obtain ⟨-, hpair, heach, -⟩ := h
  refine hpair.imp_of_mem fun {v w} hv _ hvw => ?_
  obtain ⟨-, hstop, -⟩ := heach v hv
  obtain ⟨hord, -⟩ := hvw
  omega

/-- A record whose interval meets no entry is inserted after every earlier and before every later start. -/
theorem insertWindow_split {s : State} {w : WindowRec} (h : WindowLaw s) (hw : w.start < w.stop)
    (hclear : ∀ v ∈ s.sl.windows, w.stop ≤ v.start ∨ v.stop ≤ w.start) :
    ∃ before after, s.sl.windows = before ++ after ∧ insertWindow w s.sl.windows = before ++ w :: after
      ∧ (∀ v ∈ before, v.start < w.start) ∧ ∀ v ∈ after, w.start < v.start := by
  refine ⟨_, _, List.takeWhile_append_dropWhile.symm, rfl, fun v hv => ?_, fun v hv => ?_⟩
  · simpa using List.mem_takeWhile_imp hv
  · have hge := start_ge_of_mem_dropWhile h.starts_sorted v hv
    have hmem := (List.dropWhile_sublist _).subset hv
    obtain ⟨-, -, heach, -⟩ := h
    obtain ⟨-, hstop, -⟩ := heach v hmem
    have hapart := hclear v hmem
    omega

/-! ### The tests (R32) -/

/-- Test 6 on one entry: it refuses unless the intervals are apart and a running entry stays first. -/
theorem WindowRec.meets_eq_false_iff (w : WindowRec) (a b : Nat) :
    w.meets a b = false ↔ (b ≤ w.start ∨ w.stop ≤ a) ∧ (w.life ≠ .scheduled → w.start ≤ a) := by
  have hpart : w.life.part.isSome = false ↔ w.life = .scheduled := by cases w.life <;> simp [Life.part]
  simp only [WindowRec.meets, Bool.or_eq_false_iff, Bool.and_eq_false_iff, decide_eq_false_iff_not, not_lt, hpart,
    imp_iff_not_or, ne_eq, not_not]
  exact and_congr_left' or_comm

/-- Test 6 on the list. -/
theorem any_meets_eq_false_iff (ws : List WindowRec) (a b : Nat) :
    (ws.any fun w => w.meets a b) = false
      ↔ ∀ w ∈ ws, (b ≤ w.start ∨ w.stop ≤ a) ∧ (w.life ≠ .scheduled → w.start ≤ a) := by
  simp only [List.any_eq_false, Bool.not_eq_true, WindowRec.meets_eq_false_iff]

section AddWindowTests

variable {l : LinkId} {args : Bytes} {s : State}

theorem addWindowTest_localHeld (h1 : s.barred l = true) : addWindowTest l args s = some .localHeld := by
  simp [addWindowTest, h1]

theorem addWindowTest_badLength (h1 : s.barred l = false) (h2 : args.length ≠ 9) :
    addWindowTest l args s = some .badLength := by
  simp [addWindowTest, h1, h2]

theorem addWindowTest_notReady (h1 : s.barred l = false) (h2 : args.length = 9) (h3 : s.tb.state = .unset) :
    addWindowTest l args s = some .notReady := by
  simp [addWindowTest, h1, h2, h3]

theorem addWindowTest_past (h1 : s.barred l = false) (h2 : args.length = 9) (h3 : s.tb.state ≠ .unset)
    (h4 : fieldU args 0 4 < s.tb.seconds + 2) : addWindowTest l args s = some .past := by
  simp [addWindowTest, h1, h2, h3, h4]

/-- Past tests 1 to 4, test 5 decides on the three fields. -/
theorem addWindowTest_outOfRange (h1 : s.barred l = false) (h2 : args.length = 9) (h3 : s.tb.state ≠ .unset)
    (h4 : s.tb.seconds + 2 ≤ fieldU args 0 4)
    (h5 : ¬ (fieldU args 0 4 < fieldU args 4 4 ∧ fieldU args 4 4 ≤ fieldU args 0 4 + 604800 ∧ fieldU args 8 1 ≤ 7)) :
    addWindowTest l args s = some .outOfRange := by
  have hrange : fieldU args 4 4 ≤ fieldU args 0 4 ∨ fieldU args 4 4 - fieldU args 0 4 > 604800 ∨ fieldU args 8 1 > 7 := by
    omega
  simp only [addWindowTest, h1, h2, h3, not_lt.mpr h4, hrange]
  rfl

/-- Past tests 1 to 5, the list decides (tests 6 and 7). -/
theorem addWindowTest_list (h1 : s.barred l = false) (h2 : args.length = 9) (h3 : s.tb.state ≠ .unset)
    (h4 : s.tb.seconds + 2 ≤ fieldU args 0 4)
    (h5 : fieldU args 0 4 < fieldU args 4 4 ∧ fieldU args 4 4 ≤ fieldU args 0 4 + 604800 ∧ fieldU args 8 1 ≤ 7) :
    addWindowTest l args s =
      if s.sl.windows.any fun w => w.meets (fieldU args 0 4) (fieldU args 4 4) then some .overlap
      else if 16 ≤ s.sl.windows.length then some .listFull
      else none := by
  have hrange :
      ¬ (fieldU args 4 4 ≤ fieldU args 0 4 ∨ fieldU args 4 4 - fieldU args 0 4 > 604800 ∨ fieldU args 8 1 > 7) := by
    omega
  simp only [addWindowTest, h1, h2, h3, not_lt.mpr h4, hrange]
  rfl

end AddWindowTests

/-! ### The command served -/

theorem exec_addWindow_serve {s : State} {l : LinkId} {args : Bytes} (h : s.serves l 3 args) :
    exec .addWindow s = .next (serve cmdAddWindow l (3 :: args) s) :=
  congrArg Host.Outcome.next (serveCode_serve (cmd := cmdAddWindow) h)

/-- A refused ADD WINDOW changes nothing but the answering link. -/
theorem exec_addWindow_refused {s : State} {l : LinkId} {args : Bytes} {st : Status} (h : s.serves l 3 args)
    (ht : addWindowTest l args s = some st) : exec .addWindow s = .next (s.answer l 3 ⟨st, []⟩) := by
  have ht' : addWindowTest l args (takeFrame l s) = some st := ht
  have hc : cmdAddWindow l args (takeFrame l s) = (⟨st, []⟩, { s with lc := (takeFrame l s).lc }) := by
    simp only [cmdAddWindow, ht']
    rfl
  rw [exec_addWindow_serve h, serve_answer h hc rfl]

/-- An ADD WINDOW that passes its tests places the window and answers with its ID. -/
theorem exec_addWindow_placed {s : State} {l : LinkId} {args : Bytes} (h : s.serves l 3 args)
    (ht : addWindowTest l args s = none) :
    exec .addWindow s = .next
      ((placeWindow l (fieldU args 0 4) (fieldU args 4 4) (Fin.ofNat 8 (fieldU args 8 1)) s).answer l 3
        ⟨.ok, u16 s.sl.assignId⟩) := by
  have ht' : addWindowTest l args (takeFrame l s) = none := ht
  let p := placeWindow l (fieldU args 0 4) (fieldU args 4 4) (Fin.ofNat 8 (fieldU args 8 1)) s
  have hc : cmdAddWindow l args (takeFrame l s) =
      (⟨.ok, u16 s.sl.assignId⟩, raiseAll .window { { s with sl := p.sl } with lc := (takeFrame l s).lc }) := by
    simp only [cmdAddWindow, ht']
    rfl
  rw [exec_addWindow_serve h, serve_answer_raised h hc rfl]
  rfl

/-- Settles O36: the refusals from the tests in order, the placed record from the free ID and the split of the list. -/
theorem addWindowTakes : Obligations.AddWindowTakes := by
  unfold Obligations.AddWindowTakes
  refine ⟨?placed, ?refused⟩
  case placed =>
    intro s l args hs h1 h2 a b p h3 h4 hab hmax hp hroom hclear hlaw
    have ht : addWindowTest l args s = none := by
      rw [addWindowTest_list h1 h2 h3 h4 ⟨hab, hmax, hp⟩, (any_meets_eq_false_iff _ _ _).mpr hclear,
        if_neg Bool.false_ne_true, if_neg (not_le.mpr hroom)]
    let w : WindowRec := ⟨s.sl.assignId, a, b, Fin.ofNat 8 p, l, .scheduled⟩
    obtain ⟨before, after, hold, hnew, hbefore, hafter⟩ :=
      insertWindow_split (w := w) hlaw hab fun v hv => (hclear v hv).1
    obtain ⟨hfree, hid1, hid2⟩ := Sl.assignId_free hlaw
    refine ⟨_, w, before, after, exec_addWindow_placed hs ht, rfl, hold, hnew, hbefore, hafter, hfree, hid1, hid2,
      Sl.assignId_of_free, ?nextId, addNotice_notices _ _ _, rfl, rfl, rfl⟩
    change next16 s.sl.assignId = if s.sl.assignId = 65535 then 1 else s.sl.assignId + 1
    have hlast : s.sl.assignId ≥ 65535 ↔ s.sl.assignId = 65535 := by omega
    simp only [next16, hlast]
  case refused =>
    intro s l args hs a b range clear
    refine ⟨fun h1 => exec_addWindow_refused hs (addWindowTest_localHeld h1),
      fun h1 h2 => exec_addWindow_refused hs (addWindowTest_badLength h1 h2),
      fun h1 h2 => ⟨fun h3 => exec_addWindow_refused hs (addWindowTest_notReady h1 h2 h3),
        fun h3 => ⟨fun h4 => exec_addWindow_refused hs (addWindowTest_past h1 h2 h3 h4),
          fun h4 h5 => exec_addWindow_refused hs (addWindowTest_outOfRange h1 h2 h3 h4 h5),
          fun h4 h5 h6 => exec_addWindow_refused hs ?overlap,
          fun h4 h5 h6 h7 => exec_addWindow_refused hs ?listFull⟩⟩⟩
    case overlap =>
      rw [addWindowTest_list h1 h2 h3 h4 h5, if_pos]
      exact Bool.eq_true_of_not_eq_false fun hno => h6 ((any_meets_eq_false_iff _ _ _).mp hno)
    case listFull =>
      rw [addWindowTest_list h1 h2 h3 h4 h5, (any_meets_eq_false_iff _ _ _).mpr h6, if_neg Bool.false_ne_true, if_pos h7]

end Sys2Proof.Machine
end

