-- ==== Sys2Proof/Proofs/MeasurementWindow.lean ====
section
/-! A measurement window opens and closes (R57, R58, R71, R74 to R76): the arithmetic in sign form, the two operations with a
running window and an OPEN capture, and the rows that take them. -/

namespace Sys2Proof.Machine

/-! ### The arithmetic (R74 to R76) -/

/-- Halves away from zero: the magnitude rounded half up, with the sign of the numerator. -/
theorem roundNearest_eq_sign (n : Int) (d : Nat) : roundNearest n d = Int.sign n * ((n.natAbs + d / 2) / d : Nat) := by
  rcases lt_trichotomy n 0 with hn | rfl | hn
  case inl => simp only [roundNearest, if_pos hn, Int.sign_eq_neg_one_of_neg hn, neg_one_mul]
  case inr.inl =>
    have hhalf : d / 2 / d = 0 := by
      rcases Nat.eq_zero_or_pos d with rfl | hd
      · rfl
      · exact Nat.div_eq_of_lt (Nat.div_lt_self hd one_lt_two)
    simp [roundNearest, hhalf]
  case inr.inr => simp only [roundNearest, if_neg hn.not_gt, Int.sign_eq_one_of_pos hn, one_mul]

/-- The mean code of an accumulator that holds codes is S / N. -/
theorem Acc.mean_of_pos {a : Acc} (h : 0 < a.count) : a.mean = roundNearest a.sum a.count := by
  simp only [Acc.mean, if_neg h.ne']

/-- The potential of an accumulator that holds codes is that of its rounded mean, clamped (R74, R75). -/
theorem potentialOf_of_pos {cal : Cal} {a : Acc} (h : 0 < a.count) :
    potentialOf cal a =
      min 5000 (max (-5000) (roundNearest ((roundNearest a.sum a.count - cal.coff) * cal.cgain) 8192)) := by
  simp only [potentialOf, clampTo, Cal.apply, Acc.mean_of_pos h]

/-- The spread of two extremes (R76). -/
theorem spreadOf_eq {cal : Cal} {m : Mu} {lo hi : Int} (hlo : m.offMin = some lo) (hhi : m.offMax = some hi) :
    spreadOf cal m = (hi - lo) * cal.cgain / 8192 := by
  simp only [spreadOf, hlo, hhi, Option.getD_some]

/-! ### What the two operations do with a window running and a capture OPEN (R57, R58, R71) -/

/-- MU as a window leaves it that opens: cleared, with the first code where there is one. -/
def Mu.openedWith (m : Mu) (w : MWindow) (first : Option Int) : Mu :=
  first.elim (m.drop w) ((m.drop w).accumulate w)

theorem Mu.openedWith_on (m : Mu) (first : Option Int) :
    m.openedWith .on first =
      { m with
        onResult := none
        onAcc := match first with | none => ⟨0, 0⟩ | some v => ⟨v, 1⟩ } := by
  cases first <;> simp [openedWith, drop, accumulate, Acc.add, Acc.zero]

theorem Mu.openedWith_off (m : Mu) (first : Option Int) :
    m.openedWith .off first =
      { m with
        offResult := none, offMin := first, offMax := first
        offAcc := match first with | none => ⟨0, 0⟩ | some v => ⟨v, 1⟩ } := by
  cases first <;> simp [openedWith, drop, accumulate, Acc.add, Acc.zero]

section RunningCapture

variable {s : State} {k : Capture} {r : WindowRec} {c : CyclePart} {w : MWindow}

theorem State.windowStatus_of_capture (hk : s.sl.capture = some k) : s.windowStatus w = some (k.status w) := by
  simp only [windowStatus, hk, Option.map_some]

theorem State.setWindowStatus_of_capture (hk : s.sl.capture = some k) (v : WStatus) :
    s.setWindowStatus w v = { s with sl := { s.sl with capture := some (k.setStatus w v) } } := by
  simp only [setWindowStatus, hk, Option.map_some]

@[simp] theorem Capture.status_setStatus (k : Capture) (w : MWindow) (v : WStatus) : (k.setStatus w v).status w = v := by
  cases w <;> rfl

/-- The phase test of a state with a window running is that of the window's profile at its phase. -/
theorem State.phaseIn_of_active (ha : s.active = some (r, c)) : s.phaseIn w = (s.profileOf r).inWindow w c.phase := by
  simp only [phaseIn, ha]

theorem State.noiseLimit_of_active (ha : s.active = some (r, c)) : s.noiseLimit = (s.profileOf r).noise := by
  simp only [noiseLimit, ha]

/-- A code offered to an OPEN window is accumulated where the phase lies within it (R58, R70). -/
theorem offerTo_of_opened (hk : s.sl.capture = some k) (ha : s.active = some (r, c)) (ho : k.status w = .opened)
    (code : Int) :
    offerTo w code s =
      { s with mu := if (s.profileOf r).inWindow w c.phase then s.mu.accumulate w code else s.mu } := by
  simp only [offerTo, State.windowStatus_of_capture hk, ho, State.phaseIn_of_active ha, true_and]
  cases (s.profileOf r).inWindow w c.phase <;> rfl

/-- A PENDING window opens: only its status and MU change. -/
theorem openWindow_of_pending (hk : s.sl.capture = some k) (ha : s.active = some (r, c)) (hp : k.status w = .pending) :
    openWindow w s =
      { s with
        sl := { s.sl with capture := some (k.setStatus w .opened) }
        mu := s.mu.openedWith w (if (s.profileOf r).inWindow w c.phase then s.moment.tickCode else none) } := by
  rw [openWindow, State.windowStatus_of_capture hk, hp, if_pos rfl, State.setWindowStatus_of_capture hk]
  cases s.moment.tickCode with
  | none => rw [ite_self]; rfl
  | some code =>
    have hoffer := offerTo_of_opened
      (s := { s with sl := { s.sl with capture := some (k.setStatus w .opened) }, mu := s.mu.drop w })
      rfl ha (Capture.status_setStatus k w .opened) code
    refine hoffer.trans ?_
    change { s with sl := _, mu := if (s.profileOf r).inWindow w c.phase then _ else _ } = _
    cases (s.profileOf r).inWindow w c.phase <;> rfl

/-- An OPEN window closes: only its status and MU's result change. -/
theorem closeWindow_of_opened (hk : s.sl.capture = some k) (ha : s.active = some (r, c)) (ho : k.status w = .opened) :
    closeWindow w s =
      { s with
        sl := { s.sl with capture := some (k.setStatus w .done) }
        mu := s.mu.result w (s.profileOf r).noise } := by
  rw [closeWindow, State.windowStatus_of_capture hk, ho, if_pos rfl, State.setWindowStatus_of_capture hk,
    State.noiseLimit_of_active ha]

/-! ### The rows -/

theorem exec_measurementWindowOpen_of_pending (hk : s.sl.capture = some k) (ha : s.active = some (r, c))
    (hpos : s.moment.positions = [.opens w]) (hp : k.status w = .pending) :
    exec (.measurementWindowOpen w) s = .next
      { s with
        sl := { s.sl with capture := some (k.setStatus w .opened) }
        mu := s.mu.openedWith w (if (s.profileOf r).inWindow w c.phase then s.moment.tickCode else none)
        moment := { s.moment with positions := [] } } := by
  change Host.Outcome.next (takeThrough (.opens w) s) = _
  have hopen := openWindow_of_pending
    (s := { s with moment := { s.moment with positions := [] } }) hk ha hp
  rw [takeThrough_head hpos, takePosition, hopen]
  rfl

theorem exec_measurementWindowClose_of_opened (hk : s.sl.capture = some k) (ha : s.active = some (r, c))
    (hpos : s.moment.positions = [.closes w]) (ho : k.status w = .opened) :
    exec (.measurementWindowClose w) s = .next
      { s with
        sl := { s.sl with capture := some (k.setStatus w .done) }
        mu := s.mu.result w (s.profileOf r).noise
        moment := { s.moment with positions := [] } } := by
  change Host.Outcome.next (takeThrough (.closes w) s) = _
  have hclose := closeWindow_of_opened
    (s := { s with moment := { s.moment with positions := [] } }) hk ha ho
  rw [takeThrough_head hpos, takePosition, hclose]
  rfl

end RunningCapture

/-- Settles O23: the rows' effects for either window, then MU's part field by field. -/
theorem measurementWindowOpensAndCloses : Obligations.MeasurementWindowOpensAndCloses := by
  unfold Obligations.MeasurementWindowOpensAndCloses
  refine ⟨fun s k r c hk ha => ⟨?opensOn, ?opensOff⟩, fun s k r c hk ha => ⟨?closesOn, ?closesOff⟩⟩
  case opensOn =>
    intro hpos hp first
    rw [exec_measurementWindowOpen_of_pending hk ha hpos hp, Mu.openedWith_on]
    rfl
  case opensOff =>
    intro hpos hp first
    rw [exec_measurementWindowOpen_of_pending hk ha hpos hp, Mu.openedWith_off]
    rfl
  case closesOn =>
    intro hpos ho hn
    rw [exec_measurementWindowClose_of_opened hk ha hpos ho, Mu.result, potentialOf_of_pos hn,
      roundNearest_eq_sign, roundNearest_eq_sign]
    rfl
  case closesOff =>
    intro lo hi hpos ho hn hlo hhi
    rw [exec_measurementWindowClose_of_opened hk ha hpos ho, Mu.result, potentialOf_of_pos hn,
      roundNearest_eq_sign, roundNearest_eq_sign, spreadOf_eq hlo hhi]
    rfl

end Sys2Proof.Machine
end

