-- ==== Sys2Proof/Proofs/OuterLoop.lean ====
section
/-! The outer loop at the boundary that completes a valid capture (R59, R85, R101, R102): the step of the off potential, the
record that is valid, and a boundary that finds nothing queued. -/

namespace Sys2Proof.Machine

/-! ### The step (R102) -/

/-- Below the over limit the step is the whole step limit downward, whatever the deadband. -/
theorem outerStep_of_over {r : RegSettings} {pot : Int} (h : pot < r.overLimit) : outerStep r pot = -r.stepLimit := by
  simp only [outerStep, if_pos h]

/-- From the over limit up the deadband, as an interval around the target, and the clamped proportional step decide. -/
theorem outerStep_of_not_over {r : RegSettings} {pot : Int} (h : ¬ pot < r.overLimit) :
    outerStep r pot =
      if -r.deadband ≤ pot - r.target ∧ pot - r.target ≤ r.deadband then 0
      else min r.stepLimit (max (-r.stepLimit) (Int.tdiv ((pot - r.target) * r.outerGain) 256)) := by
  have deadband_iff : ((pot - r.target).natAbs : Int) ≤ r.deadband ↔
      -r.deadband ≤ pot - r.target ∧ pot - r.target ≤ r.deadband := by omega
  simp only [outerStep, if_neg h, deadband_iff, clampTo, truncDiv]

/-! ### The record that RG takes (R85, R101) -/

/-- RG's part once it has taken a valid record with off potential `pot`: the settings by the mode (R102), the streak (R105). -/
def Rg.judged (g : Rg) (r : CRecord) (pot : Int) : Rg :=
  { g with
    set := if g.set.mode = .potentialOff then outerLoop g.set pot else g.set
    overStreak := if r.flags.overLim then g.overStreak + 1 else 0 }

/-- A valid record changes RG's part, and OVERPROTECTION is taken on the state so changed, or it is not. -/
theorem judgeRecord_of_valid {r : CRecord} {s : State} {pot : Int} (hv : r.valid = true) (hp : r.offPot = some pot) :
    judgeRecord r s = { s with rg := s.rg.judged r pot } ∨
      judgeRecord r s = takeFault .overprotection (some ⟨r.seq, pot⟩) { s with rg := s.rg.judged r pot } := by
  simp only [judgeRecord, hv, hp]
  by_cases htrips : r.flags.overLim = true ∧ (if r.flags.overLim = true then s.rg.overStreak + 1 else 0) ≥ 3
  · exact .inr (if_pos htrips)
  · exact .inl (if_neg htrips)

/-- Every valid record holds an off potential (R85). -/
theorem CRecord.offPot_of_valid {r : CRecord} (hv : r.valid = true) : ∃ pot, r.offPot = some pot := by
  cases hp : r.offPot with
  | none => simp [valid, hp] at hv
  | some pot => exact ⟨pot, rfl⟩

/-- A record that is not valid changes nothing. -/
theorem judgeRecord_of_not_valid {r : CRecord} {s : State} (hv : r.valid = false) : judgeRecord r s = s := by
  simp only [judgeRecord, hv]

/-- In POTENTIAL_OFF a valid record leaves the settings that the outer loop gives, whether or not OVERPROTECTION follows. -/
theorem judgeRecord_set_of_valid {r : CRecord} {s : State} {pot : Int} (hv : r.valid = true) (hp : r.offPot = some pot)
    (hm : s.rg.set.mode = .potentialOff) : (judgeRecord r s).rg.set = outerLoop s.rg.set pot := by
  have hset : (s.rg.judged r pot).set = outerLoop s.rg.set pot := if_pos hm
  rcases judgeRecord_of_valid (s := s) hv hp with h | h
  · rw [h, hset]
  · rw [h, takeFault_rg_set, hset]

/-- The record of a capture whose off window is DONE holds the off potential of MU's result. -/
theorem buildRecord_offPot {cap : Capture} {a : Assembly} {s : State} {o : OffResult} (hd : cap.offStatus = .done)
    (ho : s.mu.offResult = some o) : (buildRecord cap a s).offPot = some o.potential := by
  simp only [buildRecord, if_pos hd, ho, Option.map_some]

/-- The record of a capture whose off window is DONE is valid where none of the six flags of R85 is set. -/
theorem buildRecord_valid {cap : Capture} {a : Assembly} {s : State} {o : OffResult} (hd : cap.offStatus = .done)
    (ho : s.mu.offResult = some o) (hnoisy : o.noisy = false) (hshort : cap.onStatus ≠ .short)
    (hsynced : (match a.offEdge with | some e => e.tb | none => s.tb.state) = .locked)
    (hramp : (match a.offEdge with | some e => e.output | none => s.oc.output.kind) ≠ .ramp)
    (hout : a.noOutput = false) (hre : cap.realigned = false) : (buildRecord cap a s).valid = true := by
  simp only [CRecord.valid, buildRecord_offPot hd ho, Option.isSome_some]
  cases hedge : a.offEdge <;> simp_all [buildRecord]

/-- A capture in progress is completed: RG takes its record with the settings in force. -/
theorem completeCapture_set_of_valid {cap : Capture} {a : Assembly} {s : State} {pot : Int}
    (hcap : s.sl.capture = some cap) (hasm : s.cl.assembly = some a) (hv : (buildRecord cap a s).valid = true)
    (hp : (buildRecord cap a s).offPot = some pot) (hm : s.rg.set.mode = .potentialOff) :
    (completeCapture s).rg.set = outerLoop s.rg.set pot := by
  simp only [completeCapture, hcap, hasm]
  exact judgeRecord_set_of_valid hv hp hm

/-! ### A boundary with nothing queued (R59, R145) -/

/-- A fault puts nothing in the change queue: it leaves it as it is, or takes it as a pending list. -/
theorem takeFault_queue_nil {s : State} (kind : FaultKind) (cap : Option CapturePart) (h : s.cq.queue = []) :
    (takeFault kind cap s).cq.queue = [] := by
  by_cases hlock : s.oc.output = .lockout
  · rw [takeFault_lockout kind cap hlock, raiseAll_cq, h]
  · by_cases hfull : 2 ≤ s.sk.stack.length
    · rw [takeFault_full kind cap hlock hfull, raiseAll_cq, changeOutput_cq, h]
    · rw [takeFault_push kind cap hlock (by omega), pushFrame_queue]

theorem judgeRecord_queue_nil {s : State} (r : CRecord) (h : s.cq.queue = []) : (judgeRecord r s).cq.queue = [] := by
  cases hv : r.valid with
  | false => rw [judgeRecord_of_not_valid hv, h]
  | true =>
    obtain ⟨pot, hp⟩ := CRecord.offPot_of_valid hv
    rcases judgeRecord_of_valid (s := s) hv hp with hj | hj
    · rw [hj, h]
    · rw [hj]
      exact takeFault_queue_nil _ _ h

theorem completeCapture_queue_nil {s : State} (h : s.cq.queue = []) : (completeCapture s).cq.queue = [] := by
  unfold completeCapture
  split
  · exact judgeRecord_queue_nil _ h
  · exact h

/-- An apply point with an empty queue changes nothing. -/
theorem applyPoint_of_queue_nil {s : State} (b : Bool) (h : s.cq.queue = []) : applyPoint b s = s :=
  applyPoint_none_due (by simp [h])

/-- With nothing queued only the completed record can change the regulation settings at a cycle boundary. -/
theorem cycleBoundary_set_of_queue_nil {s : State} (h : s.cq.queue = []) :
    (cycleBoundary s).rg.set = (completeCapture s).rg.set := by
  have hq := completeCapture_queue_nil h
  unfold cycleBoundary
  cases s.moment.exam <;> simp [applyPoint_of_queue_nil, hq]

/-- In POTENTIAL_OFF a boundary with nothing queued that completes a valid capture leaves the outer loop's settings. -/
theorem cycleBoundary_set_of_valid {cap : Capture} {a : Assembly} {s : State} {pot : Int} (hq : s.cq.queue = [])
    (hcap : s.sl.capture = some cap) (hasm : s.cl.assembly = some a) (hv : (buildRecord cap a s).valid = true)
    (hp : (buildRecord cap a s).offPot = some pot) (hm : s.rg.set.mode = .potentialOff) :
    (cycleBoundary s).rg.set = outerLoop s.rg.set pot := by
  rw [cycleBoundary_set_of_queue_nil hq, completeCapture_set_of_valid hcap hasm hv hp hm]

/-- The row with the boundary alone due takes it. -/
theorem exec_cycleBoundary_of_alone {s : State} (hpos : s.moment.positions = [.boundary]) :
    exec .cycleBoundary s = .next (cycleBoundary { s with moment := { s.moment with positions := [] } }) :=
  congrArg Host.Outcome.next (takeThrough_head hpos)

/-- Settles O19: the boundary's settings are those of the completed record, which is valid, so the outer loop's. -/
theorem outerLoopStep : Obligations.OuterLoopStep := by
  unfold Obligations.OuterLoopStep
  intro s cap a o hpos hq hcap hasm hmode hd ho hnoisy hshort hre hout hsynced hramp
  have hvalid := buildRecord_valid hd ho hnoisy hshort hsynced hramp hout hre
  have hpot := buildRecord_offPot (a := a) hd ho
  refine ⟨_, exec_cycleBoundary_of_alone hpos, ?_⟩
  refine Eq.trans (cycleBoundary_set_of_valid hq hcap hasm hvalid hpot hmode) ?_
  rw [outerLoop, clampTo]
  by_cases hover : o.potential < s.rg.set.overLimit
  · rw [outerStep_of_over hover, if_pos hover]
  · rw [outerStep_of_not_over hover, if_neg hover]

end Sys2Proof.Machine
end

