-- ==== Sys2Proof/Proofs/OutputControl.lean ====
section
/-! START and STOP (R123, R124): the tests that the two commands share, a change of output state written out, and each command
by the output state that it finds. -/

namespace Sys2Proof.Machine

/-! ### Answers -/

/-- An answer leaves every link's event flags as they are. -/
theorem State.answer_flags (t : State) (l k : LinkId) (code : Byte) (r : Reply) :
    ((t.answer l code r).link k).flags = (t.link k).flags := by
  by_cases hk : k = l
  · simp [answer, link, Link.answered, hk]
  · simp [answer, link, hk]

/-- An answer stands in the answering link's buffer, with the error flags that the link had. -/
theorem State.answer_buffer (t : State) (l : LinkId) (code : Byte) (r : Reply) :
    ((t.answer l code r).link l).buffer = some (frameOf (responsePayload code.toNat (t.link l).errors r)) := by
  simp [answer, link, Link.answered]

/-- The payload of an OK without result fields: the command code and the error flags (R207). -/
theorem responsePayload_ok (code : Byte) (e : ErrFlags) :
    responsePayload code.toNat e ⟨.ok, []⟩ = [code, BitVec.ofNat 8 e.word] := by
  simp [responsePayload, u8, beBytes, Status.code]

/-- A command that changes nothing: the link is answered, and nothing else happens. -/
theorem serve_unchanged {s : State} {cmd : Command} {l : LinkId} {code : Byte} {args : Bytes} {r : Reply}
    (h : s.serves l code args) (hc : cmd l args (takeFrame l s) = (r, takeFrame l s)) :
    serve cmd l (code :: args) s = s.answer l code r :=
  serve_answer (t := s) h hc rfl

/-! ### A change of output state, field by field (R82, R116, R121, R133, R134) -/

section ChangeOutput

variable {o : Output} {s : State}

/-- But for the event that it raises, a change of output state neither reads nor writes LC. -/
theorem changeOutput_setLc (h : s.oc.output ≠ o) (x : Lc) :
    changeOutput o { s with lc := x } = raiseAll .output { changeOutput o s with lc := x } := by
  simp only [changeOutput, if_neg h]
  rfl

/-- OC's part after a change to any state but RUN: the switch is CLOSED, and the duty value drives the stage in RAMP. -/
theorem changeOutput_oc (h : s.oc.output ≠ o) (hrun : o ≠ .run) :
    (changeOutput o s).oc =
      { s.oc with output := o, switch := .closed, drive := if o.drives then s.rg.duty else 0 } := by
  simp only [changeOutput, if_neg h, raiseAll, State.onLinks_oc, markNoOutput_oc, sync, hrun, and_false, if_false, and_true]
  cases o.drives <;> rfl

theorem changeOutput_rg (h : s.oc.output ≠ o) :
    (changeOutput o s).rg = { s.rg with duty := if o.drives then s.rg.duty else 0 } := by
  simp only [changeOutput, if_neg h]
  rfl

/-- A change to a state outside RAMP and RUN marks the assembly in progress (R82). -/
theorem changeOutput_assembly (h : s.oc.output ≠ o) (ho : o.drives = false) :
    (changeOutput o s).cl.assembly = s.cl.assembly.map fun a => { a with noOutput := true } := by
  simp only [changeOutput, if_neg h, raiseAll, State.onLinks_cl, markNoOutput, State.noOutput, sync_oc_output, ho,
    Bool.not_false, Bool.true_or, Bool.or_true]
  rfl

/-- A served command whose effect is a change of output state. -/
theorem serve_answer_changeOutput {u : State} {cmd : Command} {l : LinkId} {code : Byte} {args : Bytes} {r : Reply}
    (h : s.serves l code args) (ho : u.oc.output ≠ o) (hu : u.lc = s.lc)
    (hc : cmd l args (takeFrame l s) = (r, changeOutput o { u with lc := (takeFrame l s).lc })) :
    serve cmd l (code :: args) s = (changeOutput o u).answer l code r := by
  rw [changeOutput_setLc ho] at hc
  rw [serve_answer_raised (u := { changeOutput o u with lc := u.lc }) h hc hu, ← changeOutput_setLc ho]

end ChangeOutput

/-! ### The tests that START and STOP share (R123, R124) -/

/-- The argument bytes of START and STOP that carry the auto-restart value `a`, or none. -/
abbrev CarriesAutoRestart (args : Bytes) (a : Option Bool) : Prop :=
  args = [] ∧ a = none ∨ args = [0] ∧ a = some false ∨ args = [1] ∧ a = some true

theorem CarriesAutoRestart.length_le {args : Bytes} {a : Option Bool} (h : CarriesAutoRestart args a) : args.length ≤ 1 := by
  obtain ⟨rfl, -⟩ | ⟨rfl, -⟩ | ⟨rfl, -⟩ := h <;> decide

theorem CarriesAutoRestart.field {args : Bytes} {a : Option Bool} (h : CarriesAutoRestart args a) :
    autoRestartField args = some a := by
  obtain ⟨rfl, rfl⟩ | ⟨rfl, rfl⟩ | ⟨rfl, rfl⟩ := h <;> rfl

/-- A code other than the two names no auto-restart value. -/
theorem autoRestartField_of_gt {code : Byte} (h : 1 < code.toNat) : autoRestartField [code] = none := by
  have hfield : fieldU [code] 0 1 = code.toNat := by simp [fieldU]
  simp only [autoRestartField, hfield, List.length_singleton, one_ne_zero, if_false]
  split
  · omega
  · omega
  · rfl

theorem setAutoRestart_eq (a : Option Bool) (s : State) :
    setAutoRestart a s = { s with oc := { s.oc with autoRestart := a.getD s.oc.autoRestart } } := by
  cases a <;> rfl

/-- A command with an optional auto-restart field: the tests that START and STOP begin with, and then `act`. -/
def autoRestartCommand (act : Option Bool → State → Reply × State) : Command := fun l args s =>
  if args.length > 1 then (refusal .badLength, s)
  else if s.barred l then (refusal .localHeld, s)
  else match autoRestartField args with
    | none => (refusal .outOfRange, s)
    | some a => act a s

/-- What START does past the tests that STOP has too. -/
def startAct (a : Option Bool) (s : State) : Reply × State :=
  if s.oc.output = .held then (refusal .held, s)
  else if s.oc.output = .lockout then (refusal .lockedOut, s)
  else (okWith [], startOutput (setAutoRestart a s))

/-- What STOP does past its tests. -/
def stopAct (a : Option Bool) (s : State) : Reply × State := (okWith [], stopOutput (setAutoRestart a s))

theorem cmdStart_eq : cmdStart = autoRestartCommand startAct := rfl

theorem cmdStop_eq : cmdStop = autoRestartCommand stopAct := rfl

section AutoRestartCommand

variable {act : Option Bool → State → Reply × State} {l : LinkId} {args : Bytes} {s : State}

theorem autoRestartCommand_barred (hl : args.length ≤ 1) (hb : s.barred l = true) :
    autoRestartCommand act l args s = (⟨.localHeld, []⟩, s) := by
  rw [autoRestartCommand, if_neg (not_lt.mpr hl), if_pos hb]
  rfl

theorem autoRestartCommand_outOfRange (hl : args.length ≤ 1) (hb : s.barred l = false) (hf : autoRestartField args = none) :
    autoRestartCommand act l args s = (⟨.outOfRange, []⟩, s) := by
  rw [autoRestartCommand, if_neg (not_lt.mpr hl), if_neg (by simp [hb]), hf]
  rfl

theorem autoRestartCommand_takes {a : Option Bool} (h : CarriesAutoRestart args a) (hb : s.barred l = false) :
    autoRestartCommand act l args s = act a s := by
  rw [autoRestartCommand, if_neg (not_lt.mpr h.length_le), if_neg (by simp [hb]), h.field]

end AutoRestartCommand

/-! ### START by the output state (R123) -/

section Start

variable {a : Option Bool} {s : State}

theorem startAct_held (h : s.oc.output = .held) : startAct a s = (⟨.held, []⟩, s) := if_pos h

theorem startAct_lockout (h : s.oc.output = .lockout) : startAct a s = (⟨.lockedOut, []⟩, s) := by
  simp only [startAct, h]
  rfl

theorem startAct_ramp {cause : StopCause} (h : s.oc.output = .stopped cause) (hm : s.hs.mains = .present) :
    startAct a s = (⟨.ok, []⟩,
      changeOutput .ramp
        { s with oc := { s.oc with rampLimit := 0, restartPending := false, autoRestart := a.getD s.oc.autoRestart } }) := by
  simp only [startAct, startOutput, setAutoRestart_eq, h, hm]
  rfl

theorem startAct_pending {cause : StopCause} (h : s.oc.output = .stopped cause) (hm : s.hs.mains ≠ .present) :
    startAct a s = (⟨.ok, []⟩,
      { s with oc := { s.oc with restartPending := true, autoRestart := a.getD s.oc.autoRestart } }) := by
  simp only [startAct, startOutput, setAutoRestart_eq, h, if_neg hm]
  rfl

theorem startAct_driving (h : s.oc.output = .ramp ∨ s.oc.output = .run) :
    startAct a s = (⟨.ok, []⟩, { s with oc := { s.oc with autoRestart := a.getD s.oc.autoRestart } }) := by
  rcases h with h | h
  · simp only [startAct, startOutput, setAutoRestart_eq, h]
    rfl
  · simp only [startAct, startOutput, setAutoRestart_eq, h]
    rfl

end Start

/-! ### STOP by the output state (R124) -/

section Stop

variable {a : Option Bool} {s : State}

theorem stopAct_stops (hheld : s.oc.output ≠ .held) (hlock : s.oc.output ≠ .lockout) :
    stopAct a s = (⟨.ok, []⟩,
      changeOutput (.stopped .command)
        { s with oc := { s.oc with restartPending := false, autoRestart := a.getD s.oc.autoRestart } }) := by
  simp only [stopAct, stopOutput, setAutoRestart_eq]
  cases h : s.oc.output with
  | held => exact absurd h hheld
  | lockout => exact absurd h hlock
  | stopped | ramp | run => rfl

/-- STOP in HELD, LOCKOUT and STOPPED with cause COMMAND: the flags alone. -/
theorem stopAct_kept (h : s.oc.output = .held ∨ s.oc.output = .lockout ∨ s.oc.output = .stopped .command) :
    stopAct a s = (⟨.ok, []⟩,
      { s with oc := { s.oc with restartPending := false, autoRestart := a.getD s.oc.autoRestart } }) := by
  rcases h with h | h | h
  · simp only [stopAct, stopOutput, setAutoRestart_eq, h]
    rfl
  · simp only [stopAct, stopOutput, setAutoRestart_eq, h]
    rfl
  · exact (stopAct_stops (by simp [h]) (by simp [h])).trans (congrArg _ (changeOutput_same h))

end Stop

/-! ### The rows -/

section Rows

variable {s : State} {l : LinkId} {args : Bytes}

theorem exec_start_serve (h : s.serves l 11 args) :
    exec .start s = .next (serve (autoRestartCommand startAct) l (11 :: args) s) := by
  rw [← cmdStart_eq]
  exact congrArg Host.Outcome.next (serveCode_serve h)

theorem exec_stop_serve (h : s.serves l 12 args) :
    exec .stop s = .next (serve (autoRestartCommand stopAct) l (12 :: args) s) := by
  rw [← cmdStop_eq]
  exact congrArg Host.Outcome.next (serveCode_serve h)

variable {act : Option Bool → State → Reply × State} {code : Byte}

theorem serve_autoRestart_barred (h : s.serves l code args) (hl : args.length ≤ 1) (hb : s.barred l = true) :
    serve (autoRestartCommand act) l (code :: args) s = s.answer l code ⟨.localHeld, []⟩ :=
  serve_unchanged h (autoRestartCommand_barred hl hb)

theorem serve_autoRestart_outOfRange {b : Byte} (h : s.serves l code [b]) (hb : s.barred l = false) (hgt : 1 < b.toNat) :
    serve (autoRestartCommand act) l [code, b] s = s.answer l code ⟨.outOfRange, []⟩ :=
  serve_unchanged h (autoRestartCommand_outOfRange le_rfl hb (autoRestartField_of_gt hgt))

/-- Past the tests, an act that changes the output state answers OK from the state so changed. -/
theorem serve_autoRestart_changes {u : State} {a : Option Bool} {o : Output} {r : Reply} (h : s.serves l code args)
    (hargs : CarriesAutoRestart args a) (hb : s.barred l = false) (ho : u.oc.output ≠ o) (hu : u.lc = s.lc)
    (hact : act a (takeFrame l s) = (r, changeOutput o { u with lc := (takeFrame l s).lc })) :
    serve (autoRestartCommand act) l (code :: args) s = (changeOutput o u).answer l code r :=
  serve_answer_changeOutput h ho hu ((autoRestartCommand_takes (s := takeFrame l s) hargs hb).trans hact)

/-- Past the tests, an act that leaves LC alone answers from the state that it leaves. -/
theorem serve_autoRestart_takes {t : State} {a : Option Bool} {r : Reply} (h : s.serves l code args)
    (hargs : CarriesAutoRestart args a) (hb : s.barred l = false) (ht : t.lc = s.lc)
    (hact : act a (takeFrame l s) = (r, { t with lc := (takeFrame l s).lc })) :
    serve (autoRestartCommand act) l (code :: args) s = t.answer l code r :=
  serve_answer h ((autoRestartCommand_takes (s := takeFrame l s) hargs hb).trans hact) ht

/-- What every link shows after an OK whose command changed the output state: OUTPUT raised, the answer in its buffer. -/
theorem answer_changeOutput_links {u : State} {o : Output} (ho : u.oc.output ≠ o) (hu : u.lc = s.lc) :
    (∀ k, (((changeOutput o u).answer l code ⟨.ok, []⟩).link k).flags = (s.link k).flags ||| EventClass.output.bit)
      ∧ (((changeOutput o u).answer l code ⟨.ok, []⟩).link l).buffer =
        some (frameOf [code, BitVec.ofNat 8 (s.link l).errors.word]) := by
  have hlink : ∀ k, u.link k = s.link k := fun k => by simp only [State.link, hu]
  refine ⟨fun k => ?_, ?_⟩
  · rw [State.answer_flags, changeOutput_link ho, Link.raise_flags, hlink]
  · rw [State.answer_buffer, responsePayload_ok, changeOutput_link ho, Link.raise_errors, hlink]

end Rows

/-- Settles O41: the shared tests, then START by the output state; from STOPPED with the mains PRESENT, the change to RAMP field
by field. -/
theorem startTakes : Obligations.StartTakes := by
  unfold Obligations.StartTakes
  refine ⟨fun s l code hs => ?refusals, fun s l args a hs (hargs : CarriesAutoRestart args a) => ?tested⟩
  case refusals =>
    rw [exec_start_serve hs]
    exact ⟨fun hb => congrArg _ (serve_autoRestart_barred hs le_rfl hb),
      fun hb hgt => congrArg _ (serve_autoRestart_outOfRange hs hb hgt)⟩
  case tested =>
    intro auto
    rw [exec_start_serve hs]
    refine ⟨fun hb => congrArg _ (serve_autoRestart_barred hs hargs.length_le hb), ?ramp,
      fun hb cause ho hm => congrArg _ (serve_autoRestart_takes hs hargs hb rfl (startAct_pending ho hm)),
      fun hb ho => congrArg _ (serve_autoRestart_takes hs hargs hb rfl (startAct_driving ho)),
      fun hb ho => congrArg _ (serve_autoRestart_takes hs hargs hb rfl (startAct_held ho)),
      fun hb ho => congrArg _ (serve_autoRestart_takes hs hargs hb rfl (startAct_lockout ho))⟩
    case ramp =>
      intro hb cause ho hm hduty _ _
      let u : State := { s with oc := { s.oc with rampLimit := 0, restartPending := false, autoRestart := auto } }
      have hne : u.oc.output ≠ .ramp := by simp [u, ho]
      have hserve := serve_autoRestart_changes (u := u) hs hargs hb hne rfl (startAct_ramp ho hm)
      obtain ⟨hflags, hbuffer⟩ := answer_changeOutput_links (l := l) (code := 11) hne rfl
      refine ⟨_, congrArg _ hserve, ?oc, changeOutput_rg hne, changeOutput_tb _ _, changeOutput_sk _ _, changeOutput_hs _ _,
        changeOutput_cq _ _, changeOutput_sl_windows _ _, changeOutput_sl_capture _ _, changeOutput_cl_log _ _,
        changeOutput_ns _ _, changeOutput_pins _ _, hflags, hbuffer⟩
      refine (changeOutput_oc hne (by simp)).trans ?_
      simp only [u, hduty, ite_self]

/-- Settles O42: the shared tests, then STOP by the output state; where the state changes, STOPPED field by field. -/
theorem stopTakes : Obligations.StopTakes := by
  unfold Obligations.StopTakes
  refine ⟨fun s l code hs => ?refusals, fun s l args a hs (hargs : CarriesAutoRestart args a) => ?tested⟩
  case refusals =>
    rw [exec_stop_serve hs]
    exact ⟨fun hb => congrArg _ (serve_autoRestart_barred hs le_rfl hb),
      fun hb hgt => congrArg _ (serve_autoRestart_outOfRange hs hb hgt)⟩
  case tested =>
    intro auto
    rw [exec_stop_serve hs]
    refine ⟨fun hb => congrArg _ (serve_autoRestart_barred hs hargs.length_le hb),
      fun hb ho => congrArg _ (serve_autoRestart_takes hs hargs hb rfl (stopAct_kept ho)), ?stops⟩
    case stops =>
      intro hb hheld hlock hne
      let u : State := { s with oc := { s.oc with restartPending := false, autoRestart := auto } }
      have hserve := serve_autoRestart_changes (u := u) hs hargs hb hne rfl (stopAct_stops hheld hlock)
      obtain ⟨hflags, hbuffer⟩ := answer_changeOutput_links (u := u) (l := l) (code := 12) hne rfl
      exact ⟨_, congrArg _ hserve, changeOutput_oc hne (by simp), changeOutput_rg hne, changeOutput_tb _ _,
        changeOutput_sk _ _, changeOutput_hs _ _, changeOutput_cq _ _, changeOutput_sl_windows _ _,
        changeOutput_sl_capture _ _, changeOutput_cl_log _ _, changeOutput_ns _ _, changeOutput_pins _ _,
        changeOutput_assembly hne rfl, hflags, hbuffer⟩

end Sys2Proof.Machine
end

