-- ==== Sys2Proof/Proofs/CancelChange.lean ====
section
/-! CANCEL CHANGE (R143): an event raised on one link by a served command, the entry for a setting in the queue, and the command
by its tests. -/

namespace Sys2Proof.Machine

/-! ### A served command that raises an event on one link -/

/-- A command that changes fields other than LC and then raises an event on one link, the answering one or another: the state
after it is its effect, with the answering link answered. The event leaves alone what the answer writes. -/
theorem serve_answer_raisedOn {s u : State} {cmd : Command} {l o : LinkId} {code : Byte} {args : Bytes} {r : Reply}
    {c : EventClass} (h : s.serves l code args)
    (hc : cmd l args (takeFrame l s) = (r, raiseOn o c { u with lc := (takeFrame l s).lc })) (hu : u.lc = s.lc) :
    serve cmd l (code :: args) s = (raiseOn o c u).answer l code r := by
  simp only [serve, List.tail_cons, hc, codeOf_cons]
  simp only [takeFrame_noRate h.2, State.answer, State.onLink, raiseOn, hu]
  congr 2
  by_cases ho : l = o
  · subst ho
    simp only [PerLink.get_set, if_true, PerLink.set_set]
    rfl
  · refine PerLink.ext_get fun m => ?_
    by_cases hm : m = l
    · subst hm
      simp only [PerLink.get_set, if_true, if_neg ho]
      rfl
    · simp only [PerLink.get_set, if_neg hm, if_neg (Ne.symm ho)]

/-! ### The entry for a setting (R138) -/

section QueueEntry

variable {before after : List QEntry} {e : QEntry} {x : Setting}

/-- The first entry for a setting is the one that a search by the setting finds. -/
theorem find?_setting_split (he : e.setting = x) (hb : ∀ f ∈ before, f.setting ≠ x) :
    (before ++ e :: after).find? (fun y => decide (y.setting = x)) = some e :=
  List.find?_eq_some_iff_append.mpr ⟨by simpa using he, before, after, rfl, fun f hf => by simpa using hb f hf⟩

/-- The first entry for a setting taken out: those behind it move up. -/
theorem eraseP_setting_split (he : e.setting = x) (hb : ∀ f ∈ before, f.setting ≠ x) :
    (before ++ e :: after).eraseP (fun y => decide (y.setting = x)) = before ++ after := by
  rw [List.eraseP_append_right _ fun f hf => by simpa using hb f hf, List.eraseP_cons_of_pos (by simpa using he)]

theorem find?_setting_none {q : List QEntry} (hq : ∀ f ∈ q, f.setting ≠ x) :
    q.find? (fun y => decide (y.setting = x)) = none :=
  List.find?_eq_none.mpr fun f hf => by simpa using hq f hf

end QueueEntry

/-! ### CANCEL CHANGE by its tests (R143) -/

section CancelChange

variable {l : LinkId} {args : Bytes} {s : State}

theorem cmdCancelChange_localHeld (hb : s.barred l = true) : cmdCancelChange l args s = (⟨.localHeld, []⟩, s) :=
  if_pos hb

theorem cmdCancelChange_badLength (hb : s.barred l = false) (hl : args.length ≠ 2) :
    cmdCancelChange l args s = (⟨.badLength, []⟩, s) := by
  rw [cmdCancelChange, if_neg (by simp [hb]), if_pos hl]
  rfl

theorem cmdCancelChange_outOfRange (hb : s.barred l = false) (hl : args.length = 2)
    (hx : settingOf (fieldU args 0 1) (fieldU args 1 1) = none) :
    cmdCancelChange l args s = (⟨.outOfRange, []⟩, s) := by
  rw [cmdCancelChange, if_neg (by simp [hb]), if_neg (not_not.mpr hl), hx]
  rfl

variable {x : Setting}

theorem cmdCancelChange_noSuch (hb : s.barred l = false) (hl : args.length = 2)
    (hx : settingOf (fieldU args 0 1) (fieldU args 1 1) = some x) (hq : ∀ e ∈ s.cq.queue, e.setting ≠ x) :
    cmdCancelChange l args s = (⟨.noSuch, []⟩, s) := by
  simp only [cmdCancelChange, hb, hl, hx, find?_setting_none hq]
  rfl

theorem cmdCancelChange_removes {before after : List QEntry} {e : QEntry} (hb : s.barred l = false) (hl : args.length = 2)
    (hx : settingOf (fieldU args 0 1) (fieldU args 1 1) = some x) (hq : s.cq.queue = before ++ e :: after)
    (he : e.setting = x) (hbefore : ∀ f ∈ before, f.setting ≠ x) :
    cmdCancelChange l args s =
      (⟨.ok, u32 e.value⟩, raiseOn e.origin .superseded { s with cq := { queue := before ++ after } }) := by
  simp only [cmdCancelChange, hb, hl, hx, hq, find?_setting_split he hbefore, eraseP_setting_split he hbefore]
  rfl

theorem exec_cancelChange_serve (h : s.serves l 8 args) :
    exec .cancelChange s = .next (serve cmdCancelChange l (8 :: args) s) :=
  congrArg Host.Outcome.next (serveCode_serve (cmd := cmdCancelChange) h)

end CancelChange

/-- Settles O40: the refusals from the tests in order, and the entry for the setting taken out of the queue, with SUPERSEDED on
its origin link. -/
theorem cancelChangeTakes : Obligations.CancelChangeTakes := by
  unfold Obligations.CancelChangeTakes
  intro s l args hs
  rw [exec_cancelChange_serve hs]
  refine ⟨fun hb => congrArg _ (serve_unchanged hs (cmdCancelChange_localHeld hb)),
    fun hb hl => congrArg _ (serve_unchanged hs (cmdCancelChange_badLength hb hl)),
    fun hb hl hx => congrArg _ (serve_unchanged hs (cmdCancelChange_outOfRange hb hl hx)),
    fun x hx hb hl => ⟨?removes, fun hq => congrArg _ (serve_unchanged hs (cmdCancelChange_noSuch hb hl hx hq))⟩⟩
  case removes =>
    intro before e after hq he hbefore
    have hcmd := cmdCancelChange_removes (s := takeFrame l s) hb hl hx hq he hbefore
    exact congrArg _ (serve_answer_raisedOn (u := { s with cq := { queue := before ++ after } }) hs hcmd rfl)

end Sys2Proof.Machine
end

