-- ==== Sys2Proof/Proofs/ChannelTables.lean ====
section
/-! SET CHANNEL LIMITS and WRITE CALIBRATION (R181, R184): the ranges of the two tables, and the commands by their tests. -/

namespace Sys2Proof.Machine

/-! ### The ranges of the two tables (R175, R183) -/

theorem Range.has_iff {r : Range} {v : Int} : r.has v = true ↔ r.lo ≤ v ∧ v ≤ r.hi := decide_eq_true_iff

theorem channelRanges_lo (i : Fin 8) :
    (channelRanges.get i).lo = (#v[0, 0, -5000, -5000, -500, 0, -32768, -32768] : Vector Int 8).get i := by
  decide +revert

theorem channelRanges_hi (i : Fin 8) :
    (channelRanges.get i).hi = (#v[500, 10000, 5000, 5000, 1500, 6500, 32767, 32767] : Vector Int 8).get i := by
  decide +revert

/-- A pair of limits passes its test exactly where it is ordered and its outer ends are in the channel's range. -/
theorem limits_pass_iff {r : Range} {low high : Int} :
    (r.has low = true ∧ r.has high = true ∧ low ≤ high) ↔ r.lo ≤ low ∧ low ≤ high ∧ high ≤ r.hi := by
  rw [Range.has_iff, Range.has_iff]
  omega

/-- A calibration entry passes its test exactly where the offset and the gain are in the entry's ranges. -/
theorem calibration_pass_iff (n gain : Nat) (coff : Int) :
    (calOffsetRange.has coff = true ∧ (calGainRange n).has gain = true) ↔
      let gains : Nat × Nat :=
        if n = 0 then (1000, 1500) else if n = 1 then (2000, 3000) else if n = 2 then (1200, 1800) else (1, 16383);
      -512 ≤ coff ∧ coff ≤ 511 ∧ gains.1 ≤ gain ∧ gain ≤ gains.2 := by
  simp only [Range.has_iff, calOffsetRange, calGainRange, and_assoc]
  split_ifs <;> dsimp only <;> norm_cast

/-! ### The two commands by their tests (R181, R184) -/

section TableCommands

variable {l : LinkId} {args : Bytes} {s : State}

theorem cmdSetChannelLimits_localHeld (hb : s.barred l = true) : cmdSetChannelLimits l args s = (⟨.localHeld, []⟩, s) :=
  if_pos hb

theorem cmdSetChannelLimits_badLength (hb : s.barred l = false) (hl : args.length ≠ 5) :
    cmdSetChannelLimits l args s = (⟨.badLength, []⟩, s) := by
  rw [cmdSetChannelLimits, if_neg (by simp [hb]), if_pos hl]
  rfl

theorem cmdSetChannelLimits_noChannel (hb : s.barred l = false) (hl : args.length = 5) (hn : 7 < fieldU args 0 1) :
    cmdSetChannelLimits l args s = (⟨.outOfRange, []⟩, s) := by
  rw [cmdSetChannelLimits, if_neg (by simp [hb]), if_neg (not_not.mpr hl), dif_neg (by omega)]
  rfl

/-- For a channel of the table the pair of limits decides. -/
theorem cmdSetChannelLimits_pair {i : Fin 8} (hb : s.barred l = false) (hl : args.length = 5) (hi : fieldU args 0 1 = i) :
    cmdSetChannelLimits l args s =
      if (channelRanges.get i).lo ≤ fieldS args 1 2 ∧ fieldS args 1 2 ≤ fieldS args 3 2
          ∧ fieldS args 3 2 ≤ (channelRanges.get i).hi then
        (⟨.ok, []⟩,
          { s with
            hs := { s.hs with
              channels := s.hs.channels.set i { s.hs.channels.get i with limits := ⟨fieldS args 1 2, fieldS args 3 2⟩ } } })
      else (⟨.outOfRange, []⟩, s) := by
  rw [cmdSetChannelLimits, if_neg (by simp [hb]), if_neg (not_not.mpr hl), dif_pos (hi ▸ i.isLt)]
  simp only [hi, limits_pass_iff, Fin.eta]
  rfl

theorem exec_setChannelLimits_serve (h : s.serves l 19 args) :
    exec .setChannelLimits s = .next (serve cmdSetChannelLimits l (19 :: args) s) :=
  congrArg Host.Outcome.next (serveCode_serve (cmd := cmdSetChannelLimits) h)

theorem cmdWriteCalibration_localHeld (hb : s.barred l = true) : cmdWriteCalibration l args s = (⟨.localHeld, []⟩, s) :=
  if_pos hb

theorem cmdWriteCalibration_badLength (hb : s.barred l = false) (hl : args.length ≠ 5) :
    cmdWriteCalibration l args s = (⟨.badLength, []⟩, s) := by
  rw [cmdWriteCalibration, if_neg (by simp [hb]), if_pos hl]
  rfl

theorem cmdWriteCalibration_noEntry (hb : s.barred l = false) (hl : args.length = 5) (hn : 10 < fieldU args 0 1) :
    cmdWriteCalibration l args s = (⟨.outOfRange, []⟩, s) := by
  rw [cmdWriteCalibration, if_neg (by simp [hb]), if_neg (not_not.mpr hl), dif_neg (by omega)]
  rfl

/-- For an entry of the table the offset and the gain decide. -/
theorem cmdWriteCalibration_pair {i : Fin 11} (hb : s.barred l = false) (hl : args.length = 5) (hi : fieldU args 0 1 = i) :
    cmdWriteCalibration l args s =
      if calOffsetRange.has (fieldS args 1 2) = true ∧ (calGainRange (fieldU args 0 1)).has (fieldU args 3 2) = true then
        (⟨.ok, []⟩, { s with mu := { s.mu with cal := s.mu.cal.set i ⟨fieldS args 1 2, fieldU args 3 2⟩ } })
      else (⟨.outOfRange, []⟩, s) := by
  rw [cmdWriteCalibration, if_neg (by simp [hb]), if_neg (not_not.mpr hl), dif_pos (hi ▸ i.isLt)]
  simp only [hi]
  rfl

theorem exec_writeCalibration_serve (h : s.serves l 20 args) :
    exec .writeCalibration s = .next (serve cmdWriteCalibration l (20 :: args) s) :=
  congrArg Host.Outcome.next (serveCode_serve (cmd := cmdWriteCalibration) h)

end TableCommands

/-- Settles O43: for each command the refusals from the tests in order, and the pair replaced where both ends pass. -/
theorem tablesWritten : Obligations.TablesWritten := by
  unfold Obligations.TablesWritten
  intro s l args n low high gain lows highs gains gainOk
  refine ⟨fun hs => ?limits, fun hs => ?calibration⟩
  case limits =>
    rw [exec_setChannelLimits_serve hs]
    refine ⟨fun hb => congrArg _ (serve_unchanged hs (cmdSetChannelLimits_localHeld hb)),
      fun hb hl => congrArg _ (serve_unchanged hs (cmdSetChannelLimits_badLength hb hl)),
      fun hb hl => ⟨fun hn => congrArg _ (serve_unchanged hs (cmdSetChannelLimits_noChannel hb hl hn)), fun i hi => ?_⟩⟩
    have hpair := cmdSetChannelLimits_pair (s := takeFrame l s) hb hl hi
    rw [channelRanges_lo, channelRanges_hi] at hpair
    split
    case isTrue hpass => exact congrArg _ (serve_answer hs (hpair.trans (if_pos hpass)) rfl)
    case isFalse hfail => exact congrArg _ (serve_unchanged hs (hpair.trans (if_neg hfail)))
  case calibration =>
    rw [exec_writeCalibration_serve hs]
    refine ⟨fun hb => congrArg _ (serve_unchanged hs (cmdWriteCalibration_localHeld hb)),
      fun hb hl => congrArg _ (serve_unchanged hs (cmdWriteCalibration_badLength hb hl)),
      fun hb hl => ⟨fun hn => congrArg _ (serve_unchanged hs (cmdWriteCalibration_noEntry hb hl hn)), fun i hi => ?_⟩⟩
    have hpair := cmdWriteCalibration_pair (s := takeFrame l s) hb hl hi
    have hiff := calibration_pass_iff n gain low
    split
    case isTrue hpass => exact congrArg _ (serve_answer hs (hpair.trans (if_pos (hiff.mpr hpass))) rfl)
    case isFalse hfail => exact congrArg _ (serve_unchanged hs (hpair.trans (if_neg (mt hiff.mp hfail))))

end Sys2Proof.Machine
end

