-- ==== Sys2Proof/Proofs/ScanEnd.lean ====
section
/-! The end of a scan (R174 to R177): the stored values, the alarm table by the state and the side of the limits, the channels
judged in order, and the CHANNEL flag. -/

namespace Sys2Proof.Machine

/-! ### The values of a scan (R175) -/

/-- The mean of the 240 codes, calibrated and clamped, with the roundings in sign form. -/
theorem scanValue_eq (s : State) (i : Fin 8) :
    scanValue s i =
      let away : Int → Nat → Int := fun n d => Int.sign n * ((n.natAbs + d / 2) / d : Nat)
      let k := s.mu.cal.get (scanCal i)
      min (channelRanges.get i).hi
        (max (channelRanges.get i).lo (away ((away (s.hs.sums.get i) 240 - k.coff) * k.cgain) 8192)) := by
  simp only [scanValue, clampTo, Cal.apply, roundNearest_eq_sign]

/-- A scan channel's calibration entry is the one three after its number (R183). -/
theorem scanCal_eq (i : Fin 8) : scanCal i = Fin.ofNat 11 (i.val + 3) := by decide +revert

/-! ### A value against its limits (R177) -/

section Side

variable {lim : Limits} {v : Int}

theorem Limits.side_below (h : v < lim.low) : lim.side v = .below := if_pos h

theorem Limits.side_above (h : ¬ v < lim.low ∧ lim.high < v) : lim.side v = .above := by
  rw [side, if_neg h.1, if_pos h.2]

theorem Limits.side_inside (h : ¬ v < lim.low ∧ ¬ (¬ v < lim.low ∧ lim.high < v)) : lim.side v = .inside := by
  rw [side, if_neg h.1, if_neg fun habove => h.2 ⟨h.1, habove⟩]

end Side

/-! ### The alarm table (R177) -/

/-- The alarm state of a channel with its three counts. -/
def Channel.standing (c : Channel) : Alarm × Nat × Nat × Nat := (c.alarm, c.low, c.high, c.inside)

section Judge

variable {c : Channel}

/-- A scan end judges a channel by its counts and its alarm state alone, and changes nothing else of it. -/
theorem Channel.judge_keeps (c : Channel) (side : Side) :
    (c.judge side).value = c.value ∧ (c.judge side).fresh = c.fresh ∧ (c.judge side).limits = c.limits := by
  unfold judge enter
  split <;> try split
  all_goals exact ⟨rfl, rfl, rfl⟩

theorem Channel.judge_of_none (h : c.alarm = .none) (side : Side) :
    (c.judge side).standing =
      match side with
      | .below => if 2 ≤ c.low then (.low, 0, 0, 0) else (.none, c.low + 1, 0, c.inside)
      | .above => if 2 ≤ c.high then (.high, 0, 0, 0) else (.none, 0, c.high + 1, c.inside)
      | .inside => (.none, 0, 0, c.inside) := by
  cases side <;> simp only [judge, h, ge_iff_le, Nat.reduceLeDiff, apply_ite standing] <;> rfl

theorem Channel.judge_of_low (h : c.alarm = .low) (side : Side) :
    (c.judge side).standing =
      match side with
      | .below => (.low, c.low, 0, 0)
      | .above => if 2 ≤ c.high then (.high, 0, 0, 0) else (.low, c.low, c.high + 1, 0)
      | .inside => if 2 ≤ c.inside then (.none, 0, 0, 0) else (.low, c.low, 0, c.inside + 1) := by
  cases side <;> simp only [judge, h, ge_iff_le, Nat.reduceLeDiff, apply_ite standing] <;> rfl

theorem Channel.judge_of_high (h : c.alarm = .high) (side : Side) :
    (c.judge side).standing =
      match side with
      | .below => if 2 ≤ c.low then (.low, 0, 0, 0) else (.high, c.low + 1, c.high, 0)
      | .above => (.high, 0, c.high, 0)
      | .inside => if 2 ≤ c.inside then (.none, 0, 0, 0) else (.high, 0, c.high, c.inside + 1) := by
  cases side <;> simp only [judge, h, ge_iff_le, Nat.reduceLeDiff, apply_ite standing] <;> rfl

end Judge

/-- The value stored has no part in the table but by its side. -/
theorem Channel.standing_judge_store (c : Channel) (v : Int) (side : Side) :
    ((c.store v).judge side).standing = (c.judge side).standing := by
  unfold judge store
  dsimp only
  split <;> try split
  all_goals rfl

/-! ### One channel's alarm at a scan end (R176 step 3) -/

/-- A channel judged by the value that it holds. -/
def Channel.judged (c : Channel) : Channel := c.judge (c.limits.side (c.value.getD 0))

/-- A channel as the scan's new value leaves it: stored, and judged by it. -/
theorem Channel.judged_store (c : Channel) (v : Int) : (c.store v).judged = (c.store v).judge (c.limits.side v) := rfl

/-- The CHANNEL flag of a link. -/
abbrev State.channelFlag (s : State) (l : LinkId) : Bool := (s.link l).flags.getLsbD EventClass.channel.code

theorem judgeChannel_hs (i : Fin 8) (s : State) :
    (judgeChannel i s).hs = { s.hs with channels := s.hs.channels.set i (s.hs.channels.get i).judged } := by
  unfold judgeChannel
  dsimp only
  split <;> rfl

theorem judgeChannel_get (i j : Fin 8) (s : State) :
    (judgeChannel i s).hs.channels.get j = if j = i then (s.hs.channels.get j).judged else s.hs.channels.get j := by
  rw [judgeChannel_hs]
  simp only [Vector.get_eq_getElem, Vector.getElem_set]
  by_cases h : j = i
  · simp [h]
  · simp [h, Fin.val_inj, Ne.symm h]

/-- An event raised on a link sets its class's flag and no other. -/
theorem Link.raise_channelFlag (c : EventClass) (k : Link) :
    (k.raise c).flags.getLsbD EventClass.channel.code =
      (k.flags.getLsbD EventClass.channel.code || decide (c = .channel)) := by
  have hbit : c.bit.getLsbD EventClass.channel.code = decide (c = .channel) := by cases c <;> rfl
  rw [raise_flags, BitVec.getLsbD_or, hbit]

theorem raiseAll_channelFlag (c : EventClass) (s : State) (l : LinkId) :
    (raiseAll c s).channelFlag l = (s.channelFlag l || decide (c = .channel)) := by
  rw [State.channelFlag, raiseAll_link, Link.raise_channelFlag]

/-- A judged channel raises CHANNEL exactly where its alarm state changes. -/
theorem judgeChannel_channelFlag (i : Fin 8) (s : State) (l : LinkId) :
    (judgeChannel i s).channelFlag l =
      (s.channelFlag l || decide ((s.hs.channels.get i).judged.alarm ≠ (s.hs.channels.get i).alarm)) := by
  unfold judgeChannel
  dsimp only
  split
  case isTrue h =>
    rw [Channel.judged, decide_eq_false (not_not.mpr h), Bool.or_false]
    rfl
  case isFalse h =>
    rw [raiseAll_channelFlag, Channel.judged, decide_eq_true h]
    rfl

/-! ### Several channels in order (R176 step 3) -/

/-- The channels of a list judged, one after another. -/
def judgeAll (is : List (Fin 8)) (s : State) : State := is.foldl (fun t i => judgeChannel i t) s

theorem judgeAll_cons (i : Fin 8) (is : List (Fin 8)) (s : State) :
    judgeAll (i :: is) s = judgeAll is (judgeChannel i s) := rfl

/-- Of HS only the channels change. -/
theorem judgeAll_hs (is : List (Fin 8)) (s : State) :
    (judgeAll is s).hs = { s.hs with channels := (judgeAll is s).hs.channels } := by
  induction is generalizing s with
  | nil => rfl
  | cons i is ih => rw [judgeAll_cons, ih, judgeChannel_hs]

/-- Each channel of the list is judged once, on what it held before. -/
theorem judgeAll_get {is : List (Fin 8)} (h : is.Nodup) (s : State) (j : Fin 8) :
    (judgeAll is s).hs.channels.get j =
      if j ∈ is then (s.hs.channels.get j).judged else s.hs.channels.get j := by
  induction is generalizing s with
  | nil => rfl
  | cons i is ih =>
    obtain ⟨hi, his⟩ := List.nodup_cons.mp h
    rw [judgeAll_cons, ih his, judgeChannel_get]
    by_cases hj : j = i
    · subst hj
      simp [hi]
    · simp [hj]

/-- CHANNEL stands on a link exactly where it stood or the alarm state of a channel of the list changes. -/
theorem judgeAll_channelFlag {is : List (Fin 8)} (h : is.Nodup) (s : State) (l : LinkId) :
    (judgeAll is s).channelFlag l = true ↔
      s.channelFlag l = true ∨ ∃ i ∈ is, (s.hs.channels.get i).judged.alarm ≠ (s.hs.channels.get i).alarm := by
  induction is generalizing s with
  | nil => simp [judgeAll]
  | cons i is ih =>
    obtain ⟨hi, his⟩ := List.nodup_cons.mp h
    have hrest : ∀ j ∈ is, (judgeChannel i s).hs.channels.get j = s.hs.channels.get j := fun j hj => by
      rw [judgeChannel_get, if_neg (ne_of_mem_of_not_mem hj hi)]
    have hexists : (∃ j ∈ is, ((judgeChannel i s).hs.channels.get j).judged.alarm ≠
          ((judgeChannel i s).hs.channels.get j).alarm) ↔
        ∃ j ∈ is, (s.hs.channels.get j).judged.alarm ≠ (s.hs.channels.get j).alarm :=
      exists_congr fun j => and_congr_right fun hj => by rw [hrest j hj]
    rw [judgeAll_cons, ih his, hexists, judgeChannel_channelFlag, Bool.or_eq_true, decide_eq_true_iff, or_assoc,
      List.exists_mem_cons_iff]

/-! ### The mains state at a scan end (R176 step 2) leaves the channels and CHANNEL alone -/

theorem changeOutput_channelFlag (o : Output) (s : State) (l : LinkId) :
    (changeOutput o s).channelFlag l = s.channelFlag l := by
  by_cases h : s.oc.output = o
  · rw [changeOutput_same h]
  · rw [State.channelFlag, changeOutput_link h, Link.raise_channelFlag]
    exact Bool.or_false _

theorem declareMains_channelFlag (m : Mains) (s : State) (l : LinkId) :
    (declareMains m s).channelFlag l = s.channelFlag l := by
  unfold declareMains
  dsimp only
  rw [raiseAll_channelFlag, State.channelFlag, State.link, markNoOutput_lc]
  split_ifs
  · exact (Bool.or_false _).trans (changeOutput_channelFlag _ _ l)
  · exact (Bool.or_false _).trans (changeOutput_channelFlag _ _ l)
  · exact Bool.or_false _

theorem updateMains_channelFlag (v : Option Mains × Nat × Bool) (s : State) (l : LinkId) :
    (updateMains v s).channelFlag l = s.channelFlag l := by
  unfold updateMains
  cases v.1 with
  | none => rfl
  | some m => exact declareMains_channelFlag m _ l

theorem declareMains_hs (m : Mains) (s : State) : (declareMains m s).hs = { s.hs with mains := m, mainsCount := 0 } := by
  unfold declareMains
  dsimp only
  split_ifs <;> simp

/-- Of HS the update changes the mains state, its count and its mark alone. -/
theorem updateMains_hs (v : Option Mains × Nat × Bool) (s : State) :
    (updateMains v s).hs =
      { s.hs with
        mains := v.1.getD s.hs.mains
        mainsCount := if v.1.isSome then 0 else v.2.1
        mainsMark := v.2.2 } := by
  unfold updateMains
  cases v.1 with
  | none => rfl
  | some m => exact declareMains_hs m _

/-! ### The end of a scan (R174, R176) -/

/-- The channels of the alarm table: all but channel 0. -/
def alarmChannels : List (Fin 8) := [1, 2, 3, 4, 5, 6, 7]

theorem alarmChannels_nodup : alarmChannels.Nodup := by decide

theorem mem_alarmChannels (i : Fin 8) : i ∈ alarmChannels ↔ i ≠ 0 := by decide +revert

theorem endScan_eq (s : State) : endScan s = judgeAll alarmChannels (updateMains s.mainsVerdict (storeScan s)) := rfl

/-- What a channel holds before the alarms are judged: the scan's value, stored. -/
theorem storedScan_get (s : State) (i : Fin 8) :
    (updateMains s.mainsVerdict (storeScan s)).hs.channels.get i = (s.hs.channels.get i).store (scanValue s i) := by
  rw [updateMains_hs]
  exact Vector.get_ofFn _ _

theorem endScan_get (s : State) (i : Fin 8) :
    (endScan s).hs.channels.get i =
      if i ≠ 0 then ((s.hs.channels.get i).store (scanValue s i)).judged
      else (s.hs.channels.get i).store (scanValue s i) := by
  rw [endScan_eq, judgeAll_get alarmChannels_nodup, storedScan_get]
  simp only [mem_alarmChannels]

theorem endScan_get_of_ne {s : State} {i : Fin 8} (h : i ≠ 0) :
    (endScan s).hs.channels.get i = ((s.hs.channels.get i).store (scanValue s i)).judged := by
  rw [endScan_get, if_pos h]

/-- Every channel holds the scan's value, fresh for every link, with its limits kept. -/
theorem endScan_channel (s : State) (i : Fin 8) :
    ((endScan s).hs.channels.get i).value = some (scanValue s i)
      ∧ ((endScan s).hs.channels.get i).fresh = ⟨true, true, true⟩
      ∧ ((endScan s).hs.channels.get i).limits = (s.hs.channels.get i).limits := by
  rw [endScan_get]
  split
  · exact Channel.judge_keeps _ _
  · exact ⟨rfl, rfl, rfl⟩

/-- The alarm state and the counts of a channel of the table follow the side of its limits that the scan's value is on. -/
theorem endScan_standing {s : State} {i : Fin 8} (hi : i ≠ 0) {side : Side}
    (h : (s.hs.channels.get i).limits.side (scanValue s i) = side) :
    ((endScan s).hs.channels.get i).standing = ((s.hs.channels.get i).judge side).standing := by
  rw [endScan_get_of_ne hi, Channel.judged_store, h, Channel.standing_judge_store]

theorem endScan_progress (s : State) : (endScan s).hs.scan = none ∧ (endScan s).hs.lastScan = some s.tb.seconds := by
  rw [endScan_eq, judgeAll_hs, updateMains_hs]
  exact ⟨rfl, rfl⟩

theorem endScan_channelFlag (s : State) (l : LinkId) :
    (endScan s).channelFlag l = true ↔
      s.channelFlag l = true
        ∨ ∃ i : Fin 8, i ≠ 0 ∧ ((endScan s).hs.channels.get i).alarm ≠ (s.hs.channels.get i).alarm := by
  rw [endScan_eq, judgeAll_channelFlag alarmChannels_nodup, updateMains_channelFlag, ← endScan_eq]
  refine or_congr Iff.rfl (exists_congr fun i => ?_)
  rw [mem_alarmChannels, storedScan_get]
  exact and_congr_right fun hi => by rw [endScan_get_of_ne hi]; rfl

theorem exec_scanEnd_of_due {s : State} (h : s.hs.scan = some 1000) : exec .scanEnd s = .next (endScan s) := by
  have hdue : s.scanDue = true := by simp only [State.scanDue, h]; rfl
  exact congrArg Host.Outcome.next (if_pos hdue)

/-- Settles O28: the stored values, the nine rows by the alarm state and the side of the limits, and CHANNEL; the rest of the
state is left as it was by the laws of `endScan`. -/
theorem scanStores : Obligations.ScanStores := by
  unfold Obligations.ScanStores
  intro s hscan away lows highs value
  have hvalue : ∀ i, scanValue s i = value i := fun i => by
    rw [scanValue_eq, channelRanges_lo, channelRanges_hi, scanCal_eq]
  obtain ⟨hidle, htime⟩ := endScan_progress s
  refine ⟨endScan s, exec_scanEnd_of_due hscan, hidle, htime, fun i => hvalue i ▸ endScan_channel s i, ?table,
    endScan_channelFlag s, endScan_tb s, endScan_sk s, endScan_cq s, endScan_ns s, endScan_rg_set s, endScan_cl_log s,
    endScan_sl_windows s, endScan_pins s, endScan_pending s⟩
  case table =>
    intro i hi c d below above inside counts
    have row {side : Side} (h : c.limits.side (value i) = side) :
        counts = (c.judge side).standing := endScan_standing hi (hvalue i ▸ h)
    exact ⟨fun ha hb => (row (Limits.side_below hb)).trans (Channel.judge_of_none ha .below),
      fun ha hb => (row (Limits.side_above hb)).trans (Channel.judge_of_none ha .above),
      fun ha hb => (row (Limits.side_inside hb)).trans (Channel.judge_of_none ha .inside),
      fun ha hb => (row (Limits.side_inside hb)).trans (Channel.judge_of_low ha .inside),
      fun ha hb => (row (Limits.side_below hb)).trans (Channel.judge_of_low ha .below),
      fun ha hb => (row (Limits.side_above hb)).trans (Channel.judge_of_low ha .above),
      fun ha hb => (row (Limits.side_inside hb)).trans (Channel.judge_of_high ha .inside),
      fun ha hb => (row (Limits.side_above hb)).trans (Channel.judge_of_high ha .above),
      fun ha hb => (row (Limits.side_below hb)).trans (Channel.judge_of_high ha .below)⟩

end Sys2Proof.Machine
end

