-- ==== Sys2Proof/Proofs/MaskAndAcknowledge.lean ====
section
/-! SET MASK and ACK EVENTS (R195, R196): a served command that changes the answering link itself, and the two commands by their
tests. -/

namespace Sys2Proof.Machine

/-! ### A served command that changes the answering link -/

/-- Taking a frame leaves the event flags of its link. -/
theorem takeFrame_flags {s : State} {l : LinkId} (h : (s.link l).pendingRate = none) :
    ((takeFrame l s).link l).flags = (s.link l).flags := by
  rw [takeFrame_noRate h]
  simp only [State.link, PerLink.get_set, if_true]

/-- A command that changes the answering link alone, where it makes no difference whether the change stands before or after
the frame leaves the FIFO: the state after the command is that change, with the link answered. -/
theorem serve_answer_onLink {s : State} {cmd : Command} {l : LinkId} {code : Byte} {args : Bytes} {r : Reply}
    {f : Link → Link} (h : s.serves l code args) (hc : cmd l args (takeFrame l s) = (r, (takeFrame l s).onLink l f))
    (hf : ∀ k, (f { k with fifo := k.fifo.tail }).respond code.toNat r = (f k).answered code r) :
    serve cmd l (code :: args) s = (s.onLink l f).answer l code r := by
  simp only [serve, List.tail_cons, hc, codeOf_cons]
  simp only [takeFrame_noRate h.2, State.answer, State.onLink, PerLink.get_set, if_true, PerLink.set_set, hf]

/-! ### The two commands by their tests (R195, R196) -/

section SetCommands

variable {l : LinkId} {args : Bytes} {s : State}

/-- An operand below 16384 names classes within the 14 alone, and its set is reported as it came. -/
theorem eventSet_toNat {n : Nat} (h : n < 16384) : (BitVec.ofNat 14 n : EventSet).toNat = n :=
  Nat.mod_eq_of_lt h

theorem cmdSetMask_outOfRange (hl : args.length = 2) (hn : 16384 ≤ fieldU args 0 2) :
    cmdSetMask l args s = (⟨.outOfRange, []⟩, s) := by
  rw [cmdSetMask, if_neg (not_not.mpr hl), if_pos hn]
  rfl

theorem cmdSetMask_replaces (hl : args.length = 2) (hn : fieldU args 0 2 < 16384) :
    cmdSetMask l args s =
      (⟨.ok, u16 (fieldU args 0 2) ++ u16 (s.link l).flags.toNat⟩,
        s.onLink l fun k => { k with mask := BitVec.ofNat 14 (fieldU args 0 2) }.reattend) := by
  rw [cmdSetMask, if_neg (not_not.mpr hl), if_neg (not_le.mpr hn)]
  simp only [eventSet_toNat hn]
  rfl

theorem exec_setMask_serve (h : s.serves l 24 args) : exec .setMask s = .next (serve cmdSetMask l (24 :: args) s) :=
  congrArg Host.Outcome.next (serveCode_serve (cmd := cmdSetMask) h)

theorem cmdAckEvents_outOfRange (hl : args.length = 2) (hn : 16384 ≤ fieldU args 0 2) :
    cmdAckEvents l args s = (⟨.outOfRange, []⟩, s) := by
  rw [cmdAckEvents, if_neg (not_not.mpr hl), if_pos hn]
  rfl

theorem cmdAckEvents_clears (hl : args.length = 2) (hn : fieldU args 0 2 < 16384) :
    cmdAckEvents l args s =
      (⟨.ok, u16 ((s.link l).flags &&& ~~~(BitVec.ofNat 14 (fieldU args 0 2))).toNat⟩,
        s.onLink l fun k => { k with flags := k.flags &&& ~~~(BitVec.ofNat 14 (fieldU args 0 2)) }.reattend) := by
  rw [cmdAckEvents, if_neg (not_not.mpr hl), if_neg (not_le.mpr hn)]
  rfl

theorem exec_ackEvents_serve (h : s.serves l 25 args) :
    exec .ackEvents s = .next (serve cmdAckEvents l (25 :: args) s) :=
  congrArg Host.Outcome.next (serveCode_serve (cmd := cmdAckEvents) h)

end SetCommands

/-- Settles O44: each command's effect on the answering link, whose flags the taken frame leaves, and its refusal. -/
theorem maskAndAcknowledge : Obligations.MaskAndAcknowledge := by
  unfold Obligations.MaskAndAcknowledge
  intro s l args hl n m k
  refine ⟨fun hs hn => ?mask, fun hs hn => ?ack, fun hs hn => ?maskRefused, fun hs hn => ?ackRefused⟩
  case mask =>
    have hc := cmdSetMask_replaces (l := l) (s := takeFrame l s) hl hn
    rw [takeFrame_flags hs.2] at hc
    rw [exec_setMask_serve hs, serve_answer_onLink hs hc fun _ => rfl]
    rfl
  case ack =>
    have hc := cmdAckEvents_clears (l := l) (s := takeFrame l s) hl hn
    rw [takeFrame_flags hs.2] at hc
    rw [exec_ackEvents_serve hs, serve_answer_onLink hs hc fun _ => rfl]
    rfl
  case maskRefused =>
    rw [exec_setMask_serve hs, serve_unchanged hs (cmdSetMask_outOfRange hl hn)]
  case ackRefused =>
    rw [exec_ackEvents_serve hs, serve_unchanged hs (cmdAckEvents_outOfRange hl hn)]

end Sys2Proof.Machine
end

