-- ==== Sys2Proof/Proofs/Moves.lean ====
section
/-! What a step is made of. Every row's meaning is a chain of small moves, each with the guard under which the model makes it; a
law that each move keeps is kept by every step. Two clauses of the laws do not hold between the moves of one operation (the end of
the ACTIVE entry is ahead, R39; the switch demand follows the phase, R52): a `Turn` is a chain of moves at whose end they do. -/

namespace Sys2Proof.Machine

/-! ### Words for parts of the laws -/

/-- The ranges of TB's own state. -/
abbrev TbLaw (x : Tb) : Prop :=
  x.tick < 2400 ∧ x.seconds < 4294967296 ∧ x.edgeAge ≤ 2402 ∧ x.holdoverSec < 4294967296
    ∧ (x.rejectStreak.length ≤ 2 ∧ ∀ c ∈ x.rejectStreak, c < 2400)
    ∧ (∀ st ∈ x.staged, 1 ≤ st.value ∧ st.value < 4294967296)

/-- The law of the window list but for the end of the ACTIVE entry and the due wrap. -/
abbrev ListLaw (s : State) : Prop :=
  s.sl.windows.length ≤ 16
    ∧ s.sl.windows.Pairwise WindowRec.before
    ∧ (∀ w ∈ s.sl.windows, 1 ≤ w.start ∧ w.start < w.stop ∧ 1 ≤ w.id ∧ w.id ≤ 65535)
    ∧ (∀ w ∈ s.sl.windows.tail, w.life = .scheduled)
    ∧ (1 ≤ s.sl.nextId ∧ s.sl.nextId ≤ 65535)

/-- What a due wrap leaves outstanding. -/
abbrev WrapLaw (s : State) : Prop :=
  s.moment.wrap.isSome = true → s.tb.tick = 2399 ∧ s.moment.exam = false ∧ s.moment.positions = []

/-- The end of an ACTIVE first entry is ahead, or the examination that ends it is due (R39). -/
abbrev State.endsAhead (s : State) : Prop := ∀ w ∈ s.sl.windows.head?, s.endAhead w

/-- The end of an ACTIVE first entry is ahead. -/
abbrev State.headAhead (s : State) : Prop := ∀ w ∈ s.sl.windows.head?, w.life.isActive = true → s.tb.seconds < w.stop

/-- The law of the switch output but for the phase that the demand follows. -/
abbrev DemandLaw (s : State) : Prop :=
  (s.oc.switch = .opened ↔ s.sl.demand = .opened ∧ s.oc.output = .run)
    ∧ (s.sl.demand = .opened → s.sk.stack = [] ∧ s.active.isSome = true)
    ∧ (∀ wc ∈ s.active, s.sl.outright = true ∨ wc.2.phase < (s.profileOf wc.1).period)

/-- The demand follows the phase once no boundary and no off edge is outstanding (R52). -/
abbrev State.demandStands (s : State) : Prop := s.phaseSettled → (s.sl.demand = .opened ↔ s.wantsOpen = true)

theorem timeLaw_iff {s : State} : TimeLaw s ↔ TbLaw s.tb ∧ (s.moment.wrap.isSome = true → s.tb.tick = 2399) := by
  simp only [TimeLaw, TbLaw, and_assoc]

theorem windowLaw_iff {s : State} : WindowLaw s ↔ ListLaw s ∧ s.endsAhead ∧ WrapLaw s := by
  simp only [WindowLaw, ListLaw, and_assoc]
  tauto

theorem switchLaw_iff {s : State} : SwitchLaw s ↔ DemandLaw s ∧ s.demandStands := by
  simp only [SwitchLaw, DemandLaw, and_assoc]
  tauto

/-- No wrap is due, or none can be by the tick count. -/
abbrev State.wrapAway (s : State) : Prop := s.moment.wrap = none ∨ s.tb.tick ≠ 2399

/-- No frame held holds the output. -/
abbrev State.outputFree (s : State) : Prop := ∀ f ∈ s.sk.stack, f.kind.holds = false

/-! ### The moves -/

/-- A move that keeps every law: one block written, or one of the operations that write several blocks at once. -/
inductive Act : State → State → Prop where
  /-- LC, by link operations that keep a link's law. -/
  | links {s : State} {x : Lc} (h : LinksLaw s → LinksLaw { s with lc := x }) : Act s { s with lc := x }
  /-- TB but for its counts. -/
  | timebase {s : State} {x : Tb} (ht : x.tick = s.tb.tick) (hs : x.seconds = s.tb.seconds) (h : TbLaw s.tb → TbLaw x)
      (hl : x.holdoverLimit = s.tb.holdoverLimit ∨ 10 ≤ x.holdoverLimit ∧ x.holdoverLimit ≤ 86400) : Act s { s with tb := x }
  | tickCount {s : State} {n : Nat} (hn : n < 2400) (hw : s.wrapAway) : Act s { s with tb := { s.tb with tick := n } }
  /-- A second boundary: the examination of the new second is due (R1, R2). -/
  | second {s : State} (hw : s.wrapAway) :
      Act s { s with
        tb := { s.tb with tick := 0, seconds := next32 s.tb.seconds }, moment := { s.moment with exam := true } }
  /-- A staged time taken where the examination of the new second is due (R17). -/
  | stagedTaken {s : State} {st : StagedTime} (hst : s.tb.staged = some st) (hw : s.wrapAway) (he : s.moment.exam = true) :
      Act s { s with tb := { s.tb with seconds := st.value, tick := 0, staged := none } }
  | scan {s : State} {x : Hs} (h : ScanLaw s → ScanLaw { s with hs := x })
      (hl : (∀ i, LimitsLaw i (s.hs.channels.get i).limits) → ∀ i, LimitsLaw i (x.channels.get i).limits) :
      Act s { s with hs := x }
  | store {s : State} {x : Ns} (h : SettingsLaw s → SettingsLaw { s with ns := x }) : Act s { s with ns := x }
  /-- RG but for the duty value. -/
  | regulator {s : State} {x : Rg} (hd : x.duty = s.rg.duty) (h : RegLaw s.rg.set → RegLaw x.set) : Act s { s with rg := x }
  | measuring {s : State} {x : Mu} (h : (∀ i, CalLaw i (s.mu.cal.get i)) → ∀ i, CalLaw i (x.cal.get i)) :
      Act s { s with mu := x }
  | inputs {s : State} {x : Pins} : Act s { s with pins := x }
  | restartFlags {s : State} {p a : Bool} : Act s { s with oc := { s.oc with restartPending := p, autoRestart := a } }
  /-- The record of the moment but for what is due to SL. -/
  | marks {s : State} {x : Moment} (hw : x.wrap = s.moment.wrap ∨ x.wrap = none) (he : x.exam = s.moment.exam)
      (hp : x.positions = s.moment.positions) : Act s { s with moment := x }
  | wrapDue {s : State} {x : Samples} (ht : ¬ s.tb.tick + 1 < 2400) (he : s.moment.exam = false)
      (hp : s.moment.positions = []) : Act s { s with moment := { s.moment with wrap := some x } }
  | queue {s : State} {q : List QEntry} (hq : QueueLaw s → QueueLaw { s with cq := { queue := q } })
      (hs : SettingsLaw s → ∀ e ∈ q, e.setting.acceptsExact e.value = true) : Act s { s with cq := { queue := q } }
  /-- What SL and CL keep of a capture that goes on. -/
  | captureGoes {s : State} {c : Option Capture} {a : Option Assembly} (hc : c.isSome = s.sl.capture.isSome)
      (ha : a.isSome = s.cl.assembly.isSome) :
      Act s { s with sl := { s.sl with capture := c }, cl := { s.cl with assembly := a } }
  | captureDropped {s : State} : Act s { s with sl := { s.sl with capture := none }, cl := { s.cl with assembly := none } }
  | captureLogged {s : State} {r : CRecord} (hr : r.seq = s.cl.nextSeq) :
      Act s { s with
        sl := { s.sl with capture := none }
        cl := { log := logRecord r s.cl.log, nextSeq := next32 s.cl.nextSeq, assembly := none } }
  | captureOpened {s : State} {c : Capture} {a : Assembly} (hk : s.sk.stack = []) (ha : s.active.isSome = true) :
      Act s { s with sl := { s.sl with capture := some c }, cl := { s.cl with assembly := some a } }
  | outright {s : State} : Act s { s with sl := { s.sl with outright := true } }
  | synced {s : State} : Act s (sync s)
  /-- The output stops or is held (R124, R127, R129, R130). -/
  | outputStops {s : State} {o : Output} (ho : o = .held ∨ ∃ c, o = .stopped c) (hl : s.oc.output ≠ .lockout)
      (hh : s.oc.output = .held → o = .held ∨ s.outputFree) : Act s (changeOutput o s)
  | rampEntered {s : State} (hd : s.oc.output.drives = false) (hl : s.oc.output ≠ .lockout)
      (hh : s.oc.output = .held → s.outputFree) : Act s (enterRamp s)
  | rampRises {s : State} {frozen : Bool} : Act s (rampRise frozen s)
  | dutyMoves {s : State} {i v : Int} (hd : s.oc.output.drives = true) : Act s (updateDuty i v s)
  | framePushed {s : State} {kind : FaultKind} {cap : Option CapturePart} (ho : s.oc.output ≠ .lockout)
      (hs : s.sk.stack.length < 2) : Act s (pushFrame kind cap s)
  | lockoutRecorded {s : State} {r : LockoutRec} (ho : s.oc.output = .lockout) :
      Act s { s with sk := { s.sk with lockout := some r } }
  | lockoutEntered {s : State} {r : LockoutRec} (ho : s.oc.output ≠ .lockout) :
      Act s (changeOutput .lockout { s with sk := { s.sk with lockout := some r } })
  | lockoutLeft {s : State} (ho : s.oc.output = .lockout) :
      Act s (changeOutput (.stopped .cleared) { s with sk := { s.sk with stack := [], lockout := none } })
  | noticed {s : State} {id : Nat} {o : NoticeOutcome} : Act s (addNotice id o s)
  | endedByTime {s : State} : Act s (endByTime s)
  | endingRemoved {s : State} (hc : s.sl.capture = none) : Act s (removeEnding s)
  /-- SCHEDULED entries leave the list. -/
  | scheduledDropped {s : State} {p : WindowRec → Bool}
      (hp : ListLaw s → ∀ w ∈ s.sl.windows, p w = false → w.life = .scheduled) :
      Act s { s with sl := { s.sl with windows := s.sl.windows.filter p } }
  /-- The first entry is activated in a phase of its cycle (R41). -/
  | windowActivated {s : State} {w : WindowRec} {ws : List WindowRec} {c : CyclePart} {e : Int} (hl : s.sl.windows = w :: ws)
      (hm : s.mayActivate w = true) (hc : c.phase = (e % (s.profileOf w).period).toNat) :
      Act s (sync (addNotice w.id .activated { s with sl := { s.sl with windows := { w with life := .active c } :: ws } }))
  /-- A SCHEDULED entry takes its place in the list (R32, R33). -/
  | windowPlaced {s : State} {l : LinkId} {a b : Nat} {p : Fin 8} (ha : 1 ≤ a) (hab : a < b)
      (hm : (s.sl.windows.any fun w => w.meets a b) = false) (hn : s.sl.windows.length < 16) :
      Act s { s with sl := { s.sl with
        windows := insertWindow ⟨s.sl.assignId, a, b, p, l, .scheduled⟩ s.sl.windows, nextId := next16 s.sl.assignId } }
  | windowCut {s : State} {id : Nat} : Act s (endWindow id s)
  | applied {s : State} {b : Bool} : Act s (applyPoint b s)
  | notice {s : State} (hw : s.wrapAway) : Act s (tickNotice s)
  /-- A re-phase takes the pair outright (R65). -/
  | rephased {s : State} {w : WindowRec} {c : CyclePart} {n e : Int} (ha : s.active = some (w, c)) :
      Act s (sync (s.setPair n (e % (s.profileOf w).period).toNat))
  | reloaded {s : State} : Act s (reload s)
  | poweredOn {s : State} {img : Image} {n : Ns}
      (h : SettingsLaw s → ImageLaw img ∧ (n.imageGood = true → ImageLaw n.image) ∧ n.write = none) :
      Act s (State.powerOn img n s.pins s.pending)

/-- A move after which the demand or the end of the ACTIVE entry is still to follow. -/
inductive Shift : State → State → Prop where
  /-- A position is about to be done. -/
  | positionTaken {s : State} {p : Position} {ps : List Position} (h : s.moment.positions = p :: ps) :
      Shift s { s with moment := { s.moment with positions := ps } }
  /-- The top frame is popped and its entries are back in the queue (R167). -/
  | framePopped {s : State} {q : List QEntry}
      (hq : QueueLaw s → QueueLaw { s with sk := { s.sk with stack := s.sk.stack.tail }, cq := { queue := q } })
      (hs : SettingsLaw s → ∀ e ∈ q, e.setting.acceptsExact e.value = true) :
      Shift s { s with sk := { s.sk with stack := s.sk.stack.tail }, cq := { queue := q } }
  /-- A staged time taken (R17). -/
  | stagedTaken {s : State} {st : StagedTime} (hst : s.tb.staged = some st) (hw : s.wrapAway) :
      Shift s { s with tb := { s.tb with seconds := st.value, tick := 0, staged := none } }
  | examined {s : State} : Shift s { s with moment := { s.moment with exam := false } }

/-- A chain of moves. -/
abbrev Moves : State → State → Prop := Relation.ReflTransGen fun s t => Act s t ∨ Shift s t

theorem Act.moves {s t : State} (h : Act s t) : Moves s t := Relation.ReflTransGen.single (.inl h)

theorem Shift.moves {s t : State} (h : Shift s t) : Moves s t := Relation.ReflTransGen.single (.inr h)

/-- A law that every move keeps is kept along a chain. -/
theorem Moves.keeps {L : State → Prop} (ha : ∀ {s t}, Act s t → L s → L t) (hs : ∀ {s t}, Shift s t → L s → L t)
    {s t : State} (h : Moves s t) (hL : L s) : L t := by
  induction h with
  | refl => exact hL
  | tail _ hstep ih => exact hstep.elim (fun hact => ha hact ih) fun hshift => hs hshift ih

end Sys2Proof.Machine
end

