-- ==== Sys2Proof/Proofs/MovesKeepRanges.lean ====
section
/-! Each move keeps the laws of time, scan, numbers, links and settings (R1, R31, R91, R97, R174, R186). -/

namespace Sys2Proof.Machine

/-! ### The operations on the list by their cases -/

/-- An ENDING first entry is removed with its notice; otherwise nothing happens (R42). -/
theorem removeEnding_cases (s : State) :
    removeEnding s = s ∨ ∃ w ws c cause, s.sl.windows = w :: ws ∧ w.life = .ending c cause ∧
      removeEnding s =
        (let removed := addNotice w.id cause.outcome { s with sl := { s.sl with windows := ws } }
        sync { removed with
          rg := { removed.rg with overStreak := 0 }, moment := { removed.moment with positions := [] } }) := by
  unfold removeEnding
  split
  · exact .inl rfl
  · split
    · exact .inr ⟨_, _, _, _, by assumption, by assumption, rfl⟩
    · exact .inl rfl
    · exact .inl rfl

/-! ### The law of time -/

theorem TimeLaw.congr {s t : State} (h : TimeLaw s) (htb : t.tb = s.tb) (hw : t.moment.wrap = s.moment.wrap) : TimeLaw t := by
  simpa only [TimeLaw, htb, hw] using h

theorem next32_lt (n : Nat) : next32 n < 4294967296 := Nat.mod_lt _ (by decide)

/-- The mark of a due wrap names the last count, so away from it no wrap is due. -/
theorem TimeLaw.wrap_none {s : State} (h : TimeLaw s) (hw : s.wrapAway) : s.moment.wrap = none := by
  obtain ⟨-, hdue⟩ := timeLaw_iff.mp h
  rcases hw with hw | hw
  · exact hw
  · exact Option.not_isSome_iff_eq_none.mp fun hs => hw (hdue hs)

theorem Act.keeps_timeLaw {s t : State} (h : Act s t) (hl : TimeLaw s) : TimeLaw t := by
  obtain ⟨⟨htick, hsec, hage, hhold, hstreak, hstaged⟩, hdue⟩ := timeLaw_iff.mp hl
  cases h with
  | timebase ht hs h => exact timeLaw_iff.mpr ⟨h ⟨htick, hsec, hage, hhold, hstreak, hstaged⟩, fun hw => ht.trans (hdue hw)⟩
  | tickCount hn hw =>
    exact timeLaw_iff.mpr ⟨⟨hn, hsec, hage, hhold, hstreak, hstaged⟩, by simp [hl.wrap_none hw]⟩
  | second hw =>
    exact timeLaw_iff.mpr ⟨⟨by simp, next32_lt _, hage, hhold, hstreak, hstaged⟩, by simp [hl.wrap_none hw]⟩
  | stagedTaken hst hw =>
    exact timeLaw_iff.mpr ⟨⟨by simp, (hstaged _ hst).2, hage, hhold, hstreak, by simp⟩, by simp [hl.wrap_none hw]⟩
  | marks hw => rcases hw with hw | hw <;> simp [TimeLaw, hw] <;> tauto
  | wrapDue ht => exact timeLaw_iff.mpr ⟨⟨htick, hsec, hage, hhold, hstreak, hstaged⟩, fun _ => by simp; omega⟩
  | reloaded => exact timeLaw_iff.mpr ⟨⟨htick, hsec, hage, hhold, hstreak, by simp [reload]⟩, fun hw => hdue (by simpa using hw)⟩
  | poweredOn => simp [TimeLaw, State.powerOn, Tb.reset, Moment.reset]
  | _ => exact hl.congr (by simp) (by simp)


theorem Shift.keeps_timeLaw {s t : State} (h : Shift s t) (hl : TimeLaw s) : TimeLaw t := by
  cases h with
  | stagedTaken hst hw =>
    obtain ⟨⟨-, -, hage, hhold, hstreak, hstaged⟩, -⟩ := timeLaw_iff.mp hl
    exact timeLaw_iff.mpr ⟨⟨by simp, (hstaged _ hst).2, hage, hhold, hstreak, by simp⟩, by simp [hl.wrap_none hw]⟩
  | _ => exact hl.congr rfl rfl

/-! ### The law of the scan -/

theorem ScanLaw.congr {s t : State} (h : ScanLaw s) (hhs : t.hs = s.hs) : ScanLaw t := by
  simpa only [ScanLaw, hhs] using h

theorem Act.keeps_scanLaw {s t : State} (h : Act s t) (hl : ScanLaw s) : ScanLaw t := by
  cases h with
  | scan h => exact h hl
  | reloaded =>
    obtain ⟨hch, -, hscan⟩ := hl
    refine ⟨fun i => ?_, by simp [reload, Hs.restart], by simpa [reload, Hs.restart] using hscan⟩
    have := hch i
    simp only [reload, sync_hs, Hs.restart, Vector.get_ofFn, Channel.restart]
    exact ⟨this.1, by simp⟩
  | poweredOn =>
    refine ⟨fun i => ?_, by simp [State.powerOn, Hs.reset], by simp [State.powerOn, Hs.reset]⟩
    simp [State.powerOn, Hs.reset, Channel.reset, ChannelLaw]
  | _ => exact hl.congr (by simp)

theorem Shift.keeps_scanLaw {s t : State} (h : Shift s t) (hl : ScanLaw s) : ScanLaw t := by
  cases h <;> exact hl.congr rfl

/-! ### The laws of the notices and of the capture log -/

theorem NoticeLaw.congr {s t : State} (h : NoticeLaw s) (hn : t.sl.notices = s.sl.notices) (hno : t.sl.noticeNo = s.sl.noticeNo) :
    NoticeLaw t := by
  simpa only [NoticeLaw, hn, hno] using h

theorem LogLaw.congr {s t : State} (h : LogLaw s) (hlog : t.cl.log = s.cl.log) (hseq : t.cl.nextSeq = s.cl.nextSeq) : LogLaw t := by
  simpa only [LogLaw, hlog, hseq] using h

/-- Numbers that follow one another up to the next one go on so when the oldest leave and the next one is taken. -/
theorem chain_drop_append {α : Type} {f : Nat → Nat} {g : α → Nat} {xs : List α} {n k : Nat} {x : α}
    (h : List.IsChain (fun a b => b = f a) (xs.map g ++ [n])) (hx : g x = n) :
    List.IsChain (fun a b => b = f a) ((xs.drop k ++ [x]).map g ++ [f n]) := by
  have hdrop : List.IsChain (fun a b => b = f a) ((xs.drop k).map g ++ [n]) := by
    rcases Nat.le_total k xs.length with hk | hk
    · simpa [List.drop_append, hk] using h.drop k
    · simp [List.drop_eq_nil_of_le hk]
  simp only [List.map_append, List.map_cons, List.map_nil, hx]
  exact List.isChain_append.mpr ⟨hdrop, by simp, by simp⟩

theorem addNotice_keeps_noticeLaw {id : Nat} {o : NoticeOutcome} {s : State} (h : NoticeLaw s) : NoticeLaw (addNotice id o s) := by
  obtain ⟨hlen, ⟨-, hno⟩, hchain⟩ := h
  refine ⟨?_, next16_range hno, ?_⟩
  · rw [addNotice_notices]; simp; omega
  · rw [addNotice_notices, addNotice_noticeNo]
    exact chain_drop_append hchain rfl

theorem Act.keeps_noticeLaw {s t : State} (h : Act s t) (hl : NoticeLaw s) : NoticeLaw t := by
  cases h with
  | noticed => exact addNotice_keeps_noticeLaw hl
  | endingRemoved =>
    rcases removeEnding_cases s with h | ⟨w, ws, c, cause, -, -, h⟩
    · rwa [h]
    · rw [h]
      exact NoticeLaw.congr (addNotice_keeps_noticeLaw (hl.congr rfl rfl)) rfl rfl
  | windowActivated => exact NoticeLaw.congr (addNotice_keeps_noticeLaw (hl.congr rfl rfl)) rfl rfl
  | poweredOn => simp [NoticeLaw, State.powerOn, Sl.reset]
  | _ => exact hl.congr (by simp) (by simp)

theorem Shift.keeps_noticeLaw {s t : State} (h : Shift s t) (hl : NoticeLaw s) : NoticeLaw t := by
  cases h <;> exact hl.congr rfl rfl

theorem Act.keeps_logLaw {s t : State} (h : Act s t) (hl : LogLaw s) : LogLaw t := by
  cases h with
  | captureLogged hr =>
    obtain ⟨hlen, hseq, hchain⟩ := hl
    refine ⟨?_, next32_lt _, chain_drop_append hchain hr⟩
    simp [logRecord, Config.maxRecords]; omega
  | poweredOn => simp [LogLaw, State.powerOn, Cl.reset]
  | _ => exact hl.congr (by simp) (by simp)

theorem Shift.keeps_logLaw {s t : State} (h : Shift s t) (hl : LogLaw s) : LogLaw t := by
  cases h <;> exact hl.congr rfl rfl

/-! ### The law of the links -/

theorem LinksLaw.congr {s t : State} (h : LinksLaw s) (hlc : t.lc = s.lc) : LinksLaw t := by
  simpa only [LinksLaw, hlc] using h

theorem linksLaw_iff {s : State} : LinksLaw s ↔ ∀ l, LinkLaw (s.link l) :=
  ⟨fun ⟨hsup, htel, hsvc⟩ l => by cases l <;> assumption, fun h => ⟨h .supervisor, h .telemetry, h .service⟩⟩

theorem Link.raise_keeps_law {k : Link} (c : EventClass) (h : LinkLaw k) : LinkLaw (k.raise c) := by
  obtain ⟨hrx, hgap, hfifo, hframes, -⟩ := h
  exact ⟨hrx, hgap, hfifo, hframes, by simp⟩

theorem raiseAll_keeps_linksLaw {c : EventClass} {s : State} (h : LinksLaw s) : LinksLaw (raiseAll c s) :=
  linksLaw_iff.mpr fun l => by
    rw [raiseAll_link]
    exact Link.raise_keeps_law c (linksLaw_iff.mp h l)

theorem changeOutput_keeps_linksLaw {o : Output} {s : State} (h : LinksLaw s) : LinksLaw (changeOutput o s) := by
  unfold changeOutput
  split
  · exact h
  · exact raiseAll_keeps_linksLaw (h.congr rfl)

theorem holdOutput_keeps_linksLaw {s : State} (h : LinksLaw s) : LinksLaw (holdOutput s) := by
  unfold holdOutput
  split
  · exact h
  · exact changeOutput_keeps_linksLaw (h.congr rfl)

theorem pushFrame_keeps_linksLaw {kind : FaultKind} {cap : Option CapturePart} {s : State} (h : LinksLaw s) :
    LinksLaw (pushFrame kind cap s) := by
  unfold pushFrame
  dsimp only
  refine raiseAll_keeps_linksLaw ?_
  cases kind.holds <;> cases s.sk.stack.isEmpty <;> cases s.sl.capture.isSome
  any_goals exact h.congr rfl
  all_goals exact holdOutput_keeps_linksLaw (h.congr rfl)

theorem addNotice_keeps_linksLaw {id : Nat} {o : NoticeOutcome} {s : State} (h : LinksLaw s) : LinksLaw (addNotice id o s) :=
  raiseAll_keeps_linksLaw (h.congr rfl)

theorem Link.restart_keeps_law {k : Link} (rate : Rate) (h : LinkLaw k) : LinkLaw (k.restart rate) := by
  obtain ⟨hrx, hgap, hfifo, hframes, -⟩ := h
  exact ⟨hrx, hgap, hfifo, hframes, by simp [Link.restart]⟩

theorem Link.reset_law (rate : Rate) : LinkLaw (Link.reset rate) := by
  simp [LinkLaw, ReceiverLaw, Link.reset]

theorem applyEntries_lc (q : List QEntry) (s : State) : (q.foldl (fun t e => applyEntry e t) s).lc = s.lc :=
  foldl_keeps State.lc _ (fun _ _ => applyEntry_lc _ _) q s

theorem Act.keeps_linksLaw {s t : State} (h : Act s t) (hl : LinksLaw s) : LinksLaw t := by
  cases h with
  | links h => exact h hl
  | outputStops | lockoutEntered | lockoutLeft | rampEntered => exact changeOutput_keeps_linksLaw (hl.congr rfl)
  | rampRises =>
    unfold rampRise
    split
    · dsimp only
      split
      · exact changeOutput_keeps_linksLaw (hl.congr rfl)
      · exact hl.congr rfl
    · exact hl
  | dutyMoves =>
    unfold updateDuty
    dsimp only
    split
    · exact raiseAll_keeps_linksLaw (hl.congr rfl)
    · exact hl.congr rfl
  | framePushed => exact pushFrame_keeps_linksLaw hl
  | noticed => exact addNotice_keeps_linksLaw hl
  | endingRemoved =>
    rcases removeEnding_cases s with h | ⟨w, ws, c, cause, -, -, h⟩
    · rwa [h]
    · rw [h]
      exact LinksLaw.congr (addNotice_keeps_linksLaw (id := w.id) (o := cause.outcome) (hl.congr rfl)) rfl
  | @windowActivated w => exact LinksLaw.congr (addNotice_keeps_linksLaw (id := w.id) (o := .activated) (hl.congr rfl)) rfl
  | applied =>
    unfold applyPoint
    dsimp only
    split
    · exact hl
    · refine raiseAll_keeps_linksLaw ?_
      split
      · exact hl.congr (by rw [reanchor_lc]; exact applyEntries_lc _ s)
      · exact hl.congr (applyEntries_lc _ s)
  | reloaded =>
    obtain ⟨hsup, htel, hsvc⟩ := hl
    exact ⟨Link.restart_keeps_law _ hsup, Link.restart_keeps_law _ htel, Link.restart_keeps_law _ hsvc⟩
  | poweredOn => exact ⟨Link.reset_law _, Link.reset_law _, Link.reset_law _⟩
  | _ => exact hl.congr (by simp)

theorem Shift.keeps_linksLaw {s t : State} (h : Shift s t) (hl : LinksLaw s) : LinksLaw t := by
  cases h <;> exact hl.congr rfl

/-! ### The law of the settings -/

/-- The law of the settings, block by block. -/
theorem settingsLaw_iff {s : State} :
    SettingsLaw s ↔ RegLaw s.rg.set ∧ (∀ i, ProfileLaw (s.sl.profiles.get i)) ∧ (∀ i, CalLaw i (s.mu.cal.get i))
      ∧ (∀ i, LimitsLaw i (s.hs.channels.get i).limits) ∧ (10 ≤ s.tb.holdoverLimit ∧ s.tb.holdoverLimit ≤ 86400)
      ∧ (∀ e ∈ s.cq.queue, e.setting.acceptsExact e.value = true) ∧ (s.ns.imageGood = true → ImageLaw s.ns.image)
      ∧ ∀ w ∈ s.ns.write, ImageLaw w.snapshot := by
  simp only [SettingsLaw, ImageLaw, State.snapshot, Vector.get_ofFn, and_assoc]

theorem SettingsLaw.congr {s t : State} (h : SettingsLaw s) (hrg : t.rg.set = s.rg.set) (hp : t.sl.profiles = s.sl.profiles)
    (hcal : t.mu.cal = s.mu.cal) (hch : t.hs = s.hs) (htb : t.tb = s.tb) (hq : t.cq = s.cq)
    (hns : t.ns = s.ns) : SettingsLaw t := by
  rw [settingsLaw_iff] at h ⊢
  simpa only [hrg, hp, hcal, hch, htb, hq, hns] using h

/-- The settings that loading gives obey the law where those of the store do (R203). -/
theorem defaultImage_law : ImageLaw defaultImage := by
  refine ⟨by decide, fun i => ?_, by decide, by decide, by decide⟩
  simp [defaultImage, defaultProfile, ProfileLaw, durationOk]

theorem SettingsLaw.loaded {s : State} (h : SettingsLaw s) : ImageLaw s.ns.loaded := by
  obtain ⟨-, -, -, -, -, -, himage, -⟩ := settingsLaw_iff.mp h
  unfold Ns.loaded
  split
  case isTrue hg => exact himage hg
  case isFalse => exact defaultImage_law

/-- A value that is accepted exactly leaves the regulation settings within their law (R99, R100). -/
theorem RegSettings.apply_law {r : RegSettings} {t : RegTarget} {v : Int} (h : RegLaw r)
    (hv : (Setting.reg t).acceptsExact v = true) : RegLaw (r.apply t v) := by
  cases t <;>
    simp [Setting.acceptsExact, Setting.range, RegTarget.range, Range.has_iff, RegSettings.apply, RegLaw, clampTo,
      Config.currentRating, Config.voltageRating] at h hv ⊢ <;> omega

theorem Profile.write_law {p : Profile} {f : ProfileField} {i : Fin 8} {v : Int} (h : ProfileLaw p)
    (hv : (Setting.profile f i).acceptsExact v = true) : ProfileLaw (p.write f v) := by
  cases f <;>
    simp [Setting.acceptsExact, Setting.range, ProfileField.range, ProfileField.isDuration, Range.has_iff, Profile.write,
      ProfileLaw] at h hv ⊢ <;> omega

/-- The settings in force that a queue entry writes stay within their laws. -/
theorem applyEntry_law {e : QEntry} {s : State} (h : RegLaw s.rg.set ∧ ∀ i, ProfileLaw (s.sl.profiles.get i))
    (he : e.setting.acceptsExact e.value = true) :
    RegLaw (applyEntry e s).rg.set ∧ ∀ i, ProfileLaw ((applyEntry e s).sl.profiles.get i) := by
  obtain ⟨hreg, hprof⟩ := h
  unfold applyEntry
  split
  case h_1 t ht => exact ⟨RegSettings.apply_law hreg (ht ▸ he), hprof⟩
  case h_2 f j hf =>
    refine ⟨hreg, fun i => ?_⟩
    simp only [Vector.get_eq_getElem, Vector.getElem_set]
    split
    case isTrue => exact Profile.write_law (hprof j) (hf ▸ he)
    case isFalse => exact hprof i

theorem applyEntries_law {q : List QEntry} {s : State} (h : RegLaw s.rg.set ∧ ∀ i, ProfileLaw (s.sl.profiles.get i))
    (hq : ∀ e ∈ q, e.setting.acceptsExact e.value = true) :
    let t := q.foldl (fun t e => applyEntry e t) s
    RegLaw t.rg.set ∧ ∀ i, ProfileLaw (t.sl.profiles.get i) := by
  induction q generalizing s with
  | nil => exact h
  | cons e q ih =>
    exact ih (applyEntry_law h (hq e List.mem_cons_self)) fun d hd => hq d (List.mem_cons_of_mem e hd)

/-- The settings that an apply point writes: those that the entries due leave. -/
theorem applyPoint_settings (b : Bool) (s : State) :
    let t := (s.cq.queue.filter fun e => !s.waits e).foldl (fun t e => applyEntry e t) s
    (applyPoint b s).rg.set = t.rg.set ∧ (applyPoint b s).sl.profiles = t.sl.profiles := by
  unfold applyPoint
  dsimp only
  split
  case isTrue h => rw [List.isEmpty_iff.mp h]; exact ⟨rfl, rfl⟩
  case isFalse => split <;> simp

theorem applyPoint_keeps_settingsLaw {b : Bool} {s : State} (h : SettingsLaw s) : SettingsLaw (applyPoint b s) := by
  rw [settingsLaw_iff] at h ⊢
  obtain ⟨hreg, hprof, hcal, hlim, hhold, hqueue, hstore⟩ := h
  obtain ⟨hset, hprofiles⟩ := applyPoint_settings b s
  obtain ⟨hreg', hprof'⟩ := applyEntries_law (q := s.cq.queue.filter fun e => !s.waits e) ⟨hreg, hprof⟩
    fun e he => hqueue e (List.mem_of_mem_filter he)
  simp only [applyPoint_mu_cal, applyPoint_hs, applyPoint_tb, applyPoint_ns, applyPoint_queue, hset, hprofiles]
  exact ⟨hreg', hprof', hcal, hlim, hhold, fun e he => hqueue e (List.mem_of_mem_filter he), hstore⟩

theorem Act.keeps_settingsLaw {s t : State} (h : Act s t) (hl : SettingsLaw s) : SettingsLaw t := by
  have hparts := settingsLaw_iff.mp hl
  obtain ⟨hreg, hprof, hcal, hlim, hhold, hqueue, himage, hwrite⟩ := hparts
  cases h with
  | @timebase x _ _ _ hlim' =>
    have hx : 10 ≤ x.holdoverLimit ∧ x.holdoverLimit ≤ 86400 := by
      rcases hlim' with h | h
      · rwa [h]
      · exact h
    exact settingsLaw_iff.mpr ⟨hreg, hprof, hcal, hlim, hx, hqueue, himage, hwrite⟩
  | scan _ hl' => exact settingsLaw_iff.mpr ⟨hreg, hprof, hcal, hl' hlim, hhold, hqueue, himage, hwrite⟩
  | store h => exact h hl
  | regulator _ h => exact settingsLaw_iff.mpr ⟨h hreg, hprof, hcal, hlim, hhold, hqueue, himage, hwrite⟩
  | measuring h => exact settingsLaw_iff.mpr ⟨hreg, hprof, h hcal, hlim, hhold, hqueue, himage, hwrite⟩
  | queue _ hs => exact settingsLaw_iff.mpr ⟨hreg, hprof, hcal, hlim, hhold, hs hl, himage, hwrite⟩
  | framePushed =>
    refine settingsLaw_iff.mpr ?_
    simp only [pushFrame_rg_set, pushFrame_sl_profiles, pushFrame_mu_cal, pushFrame_hs, pushFrame_tb, pushFrame_ns,
      pushFrame_queue]
    exact ⟨hreg, hprof, hcal, hlim, hhold, by simp, himage, hwrite⟩
  | applied => exact applyPoint_keeps_settingsLaw hl
  | tickCount | second | stagedTaken =>
    exact settingsLaw_iff.mpr ⟨hreg, hprof, hcal, hlim, hhold, hqueue, himage, hwrite⟩
  | reloaded =>
    obtain ⟨hreg', hprof', hcal', hlim', hhold'⟩ : ImageLaw s.ns.verified.loaded := hl.loaded
    refine settingsLaw_iff.mpr ⟨hreg', hprof', hcal', ?_, hhold', by simp [reload], himage, hwrite⟩
    simpa [reload, Hs.restart, Channel.restart] using hlim'
  | @poweredOn img n h =>
    obtain ⟨⟨hreg', hprof', hcal', hlim', hhold'⟩, hn, hw⟩ := h hl
    refine settingsLaw_iff.mpr ⟨hreg', hprof', hcal', ?_, hhold', by simp [State.powerOn, Cq.reset], hn, ?_⟩
    · simpa [State.powerOn, Hs.reset, Channel.reset] using hlim'
    · simp [State.powerOn, hw]
  | _ => exact hl.congr (by simp) (by simp) (by simp) (by simp) (by simp) (by simp) (by simp)

theorem Shift.keeps_settingsLaw {s t : State} (h : Shift s t) (hl : SettingsLaw s) : SettingsLaw t := by
  obtain ⟨hreg, hprof, hcal, hlim, hhold, hqueue, himage, hwrite⟩ := settingsLaw_iff.mp hl
  cases h with
  | framePopped _ hs => exact settingsLaw_iff.mpr ⟨hreg, hprof, hcal, hlim, hhold, hs hl, himage, hwrite⟩
  | _ => exact settingsLaw_iff.mpr ⟨hreg, hprof, hcal, hlim, hhold, hqueue, himage, hwrite⟩

end Sys2Proof.Machine
end

