-- ==== Sys2Proof/Proofs/MovesKeepWindows.lean ====
section
/-! Each move keeps the law of the window list and what a due wrap leaves outstanding (R29 to R33). -/

namespace Sys2Proof.Machine

/-! ### What a due wrap leaves outstanding -/

theorem removeEnding_moment (s : State) :
    (removeEnding s).moment = s.moment ∨ (removeEnding s).moment = { s.moment with positions := [] } := by
  rcases removeEnding_cases s with h | ⟨w, ws, c, cause, -, -, h⟩
  · exact .inl (by rw [h])
  · exact .inr (by rw [h]; rfl)

theorem reanchor_moment (b : Bool) (s : State) :
    (reanchor b s).moment = s.moment ∨ (reanchor b s).moment = { s.moment with positions := [] } := by
  unfold reanchor
  split
  · exact .inl rfl
  · exact .inr rfl

theorem applyEntries_moment (q : List QEntry) (s : State) : (q.foldl (fun t e => applyEntry e t) s).moment = s.moment :=
  foldl_keeps State.moment _ (fun _ _ => applyEntry_moment _ _) q s

theorem applyPoint_moment (b : Bool) (s : State) :
    (applyPoint b s).moment = s.moment ∨ (applyPoint b s).moment = { s.moment with positions := [] } := by
  unfold applyPoint
  dsimp only
  split
  · exact .inl rfl
  · rw [raiseAll_moment]
    split
    · rcases reanchor_moment b { (s.cq.queue.filter fun e => !s.waits e).foldl (fun t e => applyEntry e t) s with
        cq := { queue := s.cq.queue.filter s.waits } } with h | h
      · exact .inl (h.trans (applyEntries_moment _ s))
      · refine .inr (h.trans ?_)
        rw [applyEntries_moment]
    · exact .inl (applyEntries_moment _ s)

theorem WrapLaw.congr {s t : State} (h : WrapLaw s) (htb : t.tb = s.tb)
    (hm : t.moment = s.moment ∨ t.moment = { s.moment with positions := [] }) : WrapLaw t := by
  rcases hm with hm | hm <;> simp only [WrapLaw, htb, hm]
  · exact h
  · exact fun hw => ⟨(h hw).1, (h hw).2.1, trivial⟩

theorem WrapLaw.of_none {s : State} (h : s.moment.wrap = none) : WrapLaw s := by simp [WrapLaw, h]

theorem WrapLaw.wrap_none {s : State} (h : WrapLaw s) (hw : s.wrapAway) : s.moment.wrap = none := by
  rcases hw with hw | hw
  · exact hw
  · exact Option.not_isSome_iff_eq_none.mp fun hs => hw (h hs).1

theorem Act.keeps_wrapLaw {s t : State} (h : Act s t) (hl : TimeLaw s ∧ WrapLaw s) : WrapLaw t := by
  obtain ⟨⟨htick, -⟩, hwrap⟩ := hl
  cases h with
  | timebase ht =>
    intro hw
    obtain ⟨htick', hdue⟩ := hwrap hw
    exact ⟨ht.trans htick', hdue⟩
  | tickCount _ hw | second hw | stagedTaken _ hw => exact .of_none (hwrap.wrap_none hw)
  | notice hw => exact .of_none (by rw [tickNotice_moment_wrap]; exact hwrap.wrap_none hw)
  | marks hw he hp =>
    rcases hw with hw | hw
    · simpa only [WrapLaw, hw, he, hp] using hwrap
    · exact .of_none hw
  | wrapDue ht he hp => exact fun _ => ⟨by dsimp only; omega, he, hp⟩
  | endingRemoved => exact hwrap.congr (removeEnding_tb s) (removeEnding_moment s)
  | applied => exact hwrap.congr (applyPoint_tb _ s) (applyPoint_moment _ s)
  | reloaded => exact hwrap
  | poweredOn => exact .of_none rfl
  | _ => exact hwrap.congr (by simp) (by simp)

theorem Shift.keeps_wrapLaw {s t : State} (h : Shift s t) (hl : WrapLaw s) : WrapLaw t := by
  cases h with
  | positionTaken hp => exact fun hw => absurd hp (by simp [(hl hw).2.2])
  | framePopped => exact hl
  | stagedTaken _ hw => exact .of_none (hl.wrap_none hw)
  | examined => exact fun hw => ⟨(hl hw).1, rfl, (hl hw).2.2⟩

/-! ### The law of the list -/

theorem ListLaw.congr {s t : State} (h : ListLaw s) (hw : t.sl.windows = s.sl.windows) (hn : t.sl.nextId = s.sl.nextId) :
    ListLaw t := by
  simpa only [ListLaw, hw, hn] using h

/-- A list whose entries keep their IDs and starts, end no later but after their starts, and run no more than before obeys the
law. -/
theorem ListLaw.map {s t : State} {f : WindowRec → WindowRec} (h : ListLaw s) (hw : t.sl.windows = s.sl.windows.map f)
    (hn : t.sl.nextId = s.sl.nextId) (hid : ∀ w ∈ s.sl.windows, (f w).id = w.id) (hstart : ∀ w ∈ s.sl.windows, (f w).start = w.start)
    (hstop : ∀ w ∈ s.sl.windows, w.start < (f w).stop ∧ (f w).stop ≤ w.stop)
    (hlife : ∀ w ∈ s.sl.windows, w.life = .scheduled → (f w).life = .scheduled) : ListLaw t := by
  obtain ⟨hlen, hpair, heach, htail, hnext⟩ := h
  simp only [ListLaw, hw, hn]
  refine ⟨by simpa using hlen, ?_, ?_, ?_, hnext⟩
  · rw [List.pairwise_map]
    refine hpair.imp_of_mem fun {v w} hv hw hvw => ?_
    have := (hstop v hv).2
    exact ⟨by rw [hstart w hw]; exact this.trans hvw.1, by rw [hid v hv, hid w hw]; exact hvw.2⟩
  · intro x hx
    obtain ⟨w, hw, rfl⟩ := List.mem_map.mp hx
    have := heach w hw
    rw [hid w hw, hstart w hw]
    exact ⟨this.1, (hstop w hw).1, this.2.2⟩
  · intro x hx
    rw [← List.map_tail] at hx
    obtain ⟨w, hw, rfl⟩ := List.mem_map.mp hx
    exact hlife w (List.mem_of_mem_tail hw) (htail w hw)

/-- A list whose first entry changes its life alone obeys the law. -/
theorem ListLaw.head {s t : State} {w : WindowRec} {ws : List WindowRec} {life : Life} (h : ListLaw s)
    (hw : s.sl.windows = w :: ws) (ht : t.sl.windows = { w with life := life } :: ws) (hn : t.sl.nextId = s.sl.nextId) :
    ListLaw t := by
  simp only [ListLaw, hw, ht, hn, List.length_cons, List.pairwise_cons, List.forall_mem_cons, List.tail_cons] at h ⊢
  exact h

/-- A list that loses entries obeys the law. -/
theorem ListLaw.sublist {s t : State} (h : ListLaw s) (hw : t.sl.windows.Sublist s.sl.windows) (hn : t.sl.nextId = s.sl.nextId) :
    ListLaw t := by
  obtain ⟨hlen, hpair, heach, htail, hnext⟩ := h
  refine ⟨hw.length_le.trans hlen, hpair.sublist hw, fun w hm => heach w (hw.subset hm), fun w hm => ?_, hn ▸ hnext⟩
  exact htail w (hw.tail.subset hm)

/-- The list is the same but for the life of its first entry, which runs as before or goes on to end. -/
def State.sameList (s t : State) : Prop :=
  t.sl.windows = s.sl.windows ∨ ∃ w ws life, s.sl.windows = w :: ws ∧ t.sl.windows = { w with life := life } :: ws
    ∧ life.part.isSome = w.life.part.isSome ∧ (life.isActive = true → w.life.isActive = true)

theorem State.sameList.listLaw {s t : State} (h : s.sameList t) (hn : t.sl.nextId = s.sl.nextId) (hl : ListLaw s) : ListLaw t := by
  rcases h with h | ⟨w, ws, life, hw, ht, -⟩
  · exact hl.congr h hn
  · exact hl.head hw ht hn

theorem State.sameList.active {s t : State} (h : s.sameList t) : t.active.isSome = s.active.isSome := by
  rcases h with h | ⟨w, ws, life, hw, ht, hpart, -⟩
  · rw [State.active_congr h]
  · simp only [State.active, activeOf, hw, ht, Option.isSome_map, hpart]

theorem State.sameList.of_windows {s t u : State} (h : s.sameList t) (hu : u.sl.windows = t.sl.windows) : s.sameList u := by
  simpa only [State.sameList, hu] using h

theorem Life.withPart_keeps (c : CyclePart) (x : Life) :
    (x.withPart c).part.isSome = x.part.isSome ∧ ((x.withPart c).isActive = true → x.isActive = true) := by
  cases x <;> exact ⟨rfl, id⟩

theorem withCyclePart_sameList {s t : State} {w : WindowRec} {c d : CyclePart} (ha : s.active = some (w, c))
    (ht : t.sl.windows = withCyclePart d s.sl.windows) : s.sameList t := by
  obtain ⟨ws, hw, -⟩ := State.active_eq_some.mp ha
  exact .inr ⟨w, ws, w.life.withPart d, hw, by simp only [ht, hw, withCyclePart], Life.withPart_keeps d w.life⟩

theorem setPair_sameList (n : Int) (φ : Nat) (s : State) : s.sameList (s.setPair n φ) := by
  unfold State.setPair
  split
  · exact .inl rfl
  · exact withCyclePart_sameList (by assumption) rfl

theorem endByTime_sameList (s : State) : s.sameList (endByTime s) := by
  unfold endByTime
  split
  · exact .inl rfl
  case h_2 w ws hw =>
    split
    · refine .inr ⟨w, ws, (w.toEnding .time).life, hw, ?_, ?_⟩
      · unfold WindowRec.toEnding; split <;> rfl
      · unfold WindowRec.toEnding; split <;> simp_all [Life.part, Life.isActive]
    · exact .inl rfl

theorem reanchor_sameList (b : Bool) (s : State) : s.sameList (reanchor b s) := by
  unfold reanchor
  split
  · exact .inl rfl
  · exact withCyclePart_sameList (by assumption) rfl

theorem applyEntries_windows (q : List QEntry) (s : State) :
    (q.foldl (fun t e => applyEntry e t) s).sl.windows = s.sl.windows :=
  foldl_keeps (fun s => s.sl.windows) _ (fun _ _ => applyEntry_sl_windows _ _) q s

theorem applyPoint_sameList (b : Bool) (s : State) : s.sameList (applyPoint b s) := by
  unfold applyPoint
  dsimp only
  split
  · exact .inl rfl
  · split
    · have h := reanchor_sameList b { (s.cq.queue.filter fun e => !s.waits e).foldl (fun t e => applyEntry e t) s with
        cq := { queue := s.cq.queue.filter s.waits } }
      simpa only [State.sameList, applyEntries_windows, raiseAll_sl] using h
    · exact .inl (applyEntries_windows _ s)

theorem tickNotice_sameList (s : State) : s.sameList (tickNotice s) := by
  unfold tickNotice
  split
  · exact .inl rfl
  · dsimp only
    split
    · exact (setPair_sameList _ _ s).of_windows rfl
    · split
      · exact (setPair_sameList _ _ s).of_windows rfl
      · exact .inl rfl

/-- A lawful list stays lawful where an entry takes its place in it (R32, R33). -/
theorem ListLaw.placed {s t : State} {l : LinkId} {a b : Nat} {p : Fin 8} (h : ListLaw s) (ha : 1 ≤ a) (hab : a < b)
    (hm : (s.sl.windows.any fun w => w.meets a b) = false) (hn : s.sl.windows.length < 16)
    (hw : t.sl.windows = insertWindow ⟨s.sl.assignId, a, b, p, l, .scheduled⟩ s.sl.windows)
    (hi : t.sl.nextId = next16 s.sl.assignId) : ListLaw t := by
  have hclear := (any_meets_eq_false_iff _ _ _).mp hm
  -- the lemmas on ADD WINDOW speak of the whole law, which the list obeys with an examination due
  have hwhole : WindowLaw { s with moment := { s.moment with wrap := none, exam := true } } :=
    windowLaw_iff.mpr ⟨h, fun _ _ _ => .inr rfl, .of_none rfl⟩
  obtain ⟨hfree, hid1, hid2⟩ := Sl.assignId_free hwhole
  obtain ⟨before, after, hold, hnew, hbefore, hafter⟩ :=
    insertWindow_split (w := ⟨s.sl.assignId, a, b, p, l, .scheduled⟩) hwhole hab fun v hv => (hclear v hv).1
  obtain ⟨hlen, hpair, heach, htail, -⟩ := h
  simp only at hold hnew hfree hid1 hid2
  rw [hold] at hlen hpair heach htail hclear hfree hn
  simp only [ListLaw, hw, hi, hnew]
  refine ⟨?_, ?_, ?_, ?_, next16_range hid2⟩
  · simp at hn ⊢; omega
  · obtain ⟨hpb, hpa, hpba⟩ := List.pairwise_append.mp hpair
    have hnewAfter : ∀ w ∈ after, b ≤ w.start ∧ s.sl.assignId ≠ w.id := fun w hw => by
      have hlt : a < w.start := hafter w hw
      have := (hclear w (by simp [hw])).1; have := heach w (by simp [hw])
      exact ⟨by omega, (hfree w (by simp [hw])).symm⟩
    have hnewBefore : ∀ v ∈ before, v.stop ≤ a ∧ v.id ≠ s.sl.assignId := fun v hv => by
      have hlt : v.start < a := hbefore v hv
      have := (hclear v (by simp [hv])).1
      exact ⟨by omega, hfree v (by simp [hv])⟩
    refine List.pairwise_append.mpr ⟨hpb, List.pairwise_cons.mpr ⟨hnewAfter, hpa⟩, fun v hv w hw => ?_⟩
    rcases List.mem_cons.mp hw with rfl | hw
    · exact hnewBefore v hv
    · exact hpba v hv w hw
  · intro w hw
    rcases List.mem_append.mp hw with hw | hw
    · exact heach w (by simp [hw])
    · rcases List.mem_cons.mp hw with rfl | hw
      · exact ⟨ha, hab, hid1, hid2⟩
      · exact heach w (by simp [hw])
  · have hschAfter : ∀ w ∈ after, w.life = .scheduled := fun w hw => by
      by_contra hne
      exact absurd ((hclear w (by simp [hw])).2 hne) (not_le.mpr (hafter w hw))
    cases before with
    | nil => exact hschAfter
    | cons v vs =>
      intro w hw
      rcases List.mem_append.mp hw with hw | hw
      · exact htail w (List.mem_append_left _ hw)
      · rcases List.mem_cons.mp hw with rfl | hw
        · rfl
        · exact hschAfter w hw

theorem Life.part_eq_none_iff (x : Life) : x.part = none ↔ x = .scheduled := by cases x <;> simp [Life.part]

/-- With the tail SCHEDULED, a list without SCHEDULED entries that leave it runs the same window. -/
theorem active_filter {s : State} {p : WindowRec → Bool} (htail : ∀ w ∈ s.sl.windows.tail, w.life = .scheduled)
    (hp : ∀ w ∈ s.sl.windows, p w = false → w.life = .scheduled) : activeOf (s.sl.windows.filter p) = s.active := by
  unfold State.active
  cases hw : s.sl.windows with
  | nil => rfl
  | cons w ws =>
    rw [hw] at htail hp
    cases hpw : p w with
    | true => simp [hpw, activeOf]
    | false =>
      have hws : ∀ v ∈ ws.filter p, v.life = .scheduled := fun v hv => htail v (List.mem_of_mem_filter hv)
      have hwl := hp w List.mem_cons_self hpw
      simp only [List.filter_cons, hpw, activeOf, hwl, Life.part]
      cases hf : ws.filter p with
      | nil => rfl
      | cons v vs => simp [hws v (by simp [hf])]

theorem mayActivate_scheduled {s : State} {w : WindowRec} (h : s.mayActivate w = true) :
    w.life = .scheduled ∧ w.start ≤ s.tb.seconds ∧ s.tb.seconds < w.stop
      ∧ (s.tbSettled = .locked ∨ s.tbSettled = .holdover) ∧ ∀ v ∈ s.sl.windows, v.life = .scheduled := by
  simpa only [State.mayActivate, Bool.and_eq_true, Bool.or_eq_true, decide_eq_true_eq, List.all_eq_true, and_assoc] using h

theorem Act.keeps_listLaw {s t : State} (h : Act s t) (hl : ListLaw s) : ListLaw t := by
  cases h with
  | endedByTime => exact (endByTime_sameList s).listLaw (endByTime_sl_nextId s) hl
  | endingRemoved =>
    refine hl.sublist ?_ (removeEnding_sl_nextId s)
    rcases removeEnding_cases s with h | ⟨w, ws, c, cause, hw, -, h⟩
    · rw [h]
    · rw [h, hw]; exact List.sublist_cons_self w ws
  | scheduledDropped => exact hl.sublist List.filter_sublist rfl
  | windowActivated hw => exact hl.head hw rfl rfl
  | windowPlaced ha hab hm hn => exact hl.placed ha hab hm hn rfl rfl
  | windowCut =>
    refine hl.map rfl rfl (fun w _ => ?_) (fun w _ => ?_) (fun w hw => ?_) fun w _ hs => ?_
    all_goals split_ifs
    · exact congrArg Prod.fst (WindowRec.cut_keeps _ _)
    · rfl
    · exact congrArg (fun x => x.2.1) (WindowRec.cut_keeps _ _)
    · rfl
    · exact WindowRec.cut_stop (hl.2.2.1 w hw).2.1
    · exact ⟨(hl.2.2.1 w hw).2.1, le_rfl⟩
    · rw [WindowRec.cut_other (by simp [hs])]; exact hs
    · exact hs
  | applied => exact (applyPoint_sameList _ s).listLaw (applyPoint_sl_nextId _ s) hl
  | notice => exact (tickNotice_sameList s).listLaw (tickNotice_sl_nextId s) hl
  | rephased => exact ((setPair_sameList _ _ s).of_windows (sync_sl_windows _)).listLaw (by simp) hl
  | poweredOn => simp [ListLaw, State.powerOn, Sl.reset]
  | _ => exact hl.congr (by simp) (by simp)

theorem Shift.keeps_listLaw {s t : State} (h : Shift s t) (hl : ListLaw s) : ListLaw t := by
  cases h <;> exact hl

/-! ### The law of the capture -/

theorem CaptureLaw.congr {s t : State} (h : CaptureLaw s) (hc : t.sl.capture.isSome = s.sl.capture.isSome)
    (ha : t.cl.assembly.isSome = s.cl.assembly.isSome) (hk : t.sk.stack = s.sk.stack)
    (hw : t.active.isSome = s.active.isSome) : CaptureLaw t := by
  simpa only [CaptureLaw, hc, ha, hk, hw] using h

/-- With no capture OPEN and no assembly the law holds. -/
theorem CaptureLaw.of_none {s : State} (hc : s.sl.capture = none) (ha : s.cl.assembly = none) : CaptureLaw s := by
  simp [CaptureLaw, hc, ha]

theorem changeOutput_assembly_isSome (o : Output) (s : State) :
    (changeOutput o s).cl.assembly.isSome = s.cl.assembly.isSome := by
  unfold changeOutput
  split
  · rfl
  · exact Option.isSome_map

theorem rampRise_assembly_isSome (b : Bool) (s : State) : (rampRise b s).cl.assembly.isSome = s.cl.assembly.isSome := by
  unfold rampRise
  split
  · dsimp only
    split
    · exact changeOutput_assembly_isSome _ _
    · rfl
  · rfl

/-- A frame pushed on an empty stack discards the capture; with frames held there is none (R63). -/
theorem pushFrame_keeps_captureLaw {kind : FaultKind} {cap : Option CapturePart} {s : State} (h : CaptureLaw s) :
    CaptureLaw (pushFrame kind cap s) := by
  obtain ⟨hiff, hopen⟩ := h
  have hnone : (pushFrame kind cap s).sl.capture = none ∧ (pushFrame kind cap s).cl.assembly.isSome = false := by
    have hh (u : State) : (holdOutput u).cl.assembly.isSome = u.cl.assembly.isSome := by
      unfold holdOutput; split
      · rfl
      · exact changeOutput_assembly_isSome _ _
    unfold pushFrame
    dsimp only
    rw [raiseAll_sl, raiseAll_cl, apply_ite State.sl, apply_ite State.cl]
    cases hc : s.sl.capture with
    | none =>
      rw [hc] at hiff
      have ha := Option.not_isSome_iff_eq_none.mp (by simp [← hiff] : ¬ s.cl.assembly.isSome = true)
      split_ifs <;> simp_all
    | some c =>
      have hk := (hopen (by simp [hc])).1
      split_ifs <;> simp_all [discardCapture]
  exact CaptureLaw.of_none hnone.1 (Option.not_isSome_iff_eq_none.mp (by simp [hnone.2]))

end Sys2Proof.Machine
end

