-- ==== Sys2Proof/Proofs/MovesKeepOutputs.lean ====
section
/-! Each move keeps the laws of the capture, the drive, the stack and the queue (R57, R133, R138, R155). -/

namespace Sys2Proof.Machine

theorem active_isSome_congr {s t : State} (h : t.sl.windows = s.sl.windows) : t.active.isSome = s.active.isSome := by
  rw [State.active_congr h]

theorem endWindow_active (id : Nat) (s : State) : (endWindow id s).active.isSome = s.active.isSome := by
  simp only [State.active, endWindow]
  cases s.sl.windows with
  | nil => rfl
  | cons w ws =>
    simp only [List.map_cons, activeOf, Option.isSome_map]
    split
    · cases hl : w.life with
      | active c =>
        rcases Nat.lt_or_ge s.tb.seconds w.stop with hn | hn
        · simp [WindowRec.cut_ahead hl hn, Life.part]
        · simp [WindowRec.cut_past hl hn, Life.part]
      | _ => rw [WindowRec.cut_other (by simp [hl]), hl]
    · rfl

/-- A list of SCHEDULED entries runs no window. -/
theorem active_none_of_scheduled {s : State} (h : ∀ w ∈ s.sl.windows, w.life = .scheduled) : s.active = none := by
  unfold State.active
  cases hw : s.sl.windows with
  | nil => rfl
  | cons w ws => simp [activeOf, h w (by simp [hw]), Life.part]

theorem insertWindow_active {s : State} {w : WindowRec} (hl : ListLaw s) (hw : w.life = .scheduled) (hlt : w.start < w.stop)
    (hm : (s.sl.windows.any fun v => v.meets w.start w.stop) = false) :
    activeOf (insertWindow w s.sl.windows) = s.active := by
  have hclear := (any_meets_eq_false_iff _ _ _).mp hm
  unfold State.active insertWindow
  cases hv : s.sl.windows with
  | nil => simp [activeOf, hw, Life.part]
  | cons v vs =>
    rw [hv] at hclear
    have hvstop := (hl.2.2.1 v (by simp [hv])).2.1
    by_cases hb : v.start < w.start
    · simp [hb, activeOf]
    · have hvs : v.life = .scheduled := by
        by_contra hne
        have := (hclear v List.mem_cons_self).1
        have := (hclear v List.mem_cons_self).2 hne
        omega
      simp [hb, activeOf, hw, hvs, Life.part]

theorem Act.keeps_captureLaw {s t : State} (h : Act s t) (hlist : ListLaw s) (hl : CaptureLaw s) : CaptureLaw t := by
  obtain ⟨hiff, hopen⟩ := id hl
  have hidle (ha : s.active = none) : s.sl.capture = none ∧ s.cl.assembly = none := by
    have hc : s.sl.capture.isSome = false := by
      by_contra hne
      simpa [ha] using (hopen (Bool.eq_true_of_not_eq_false hne)).2
    rw [hc] at hiff
    exact ⟨Option.isSome_eq_false_iff.mp hc |> Option.isNone_iff_eq_none.mp, Option.isSome_eq_false_iff.mp hiff.symm |> Option.isNone_iff_eq_none.mp⟩
  cases h with
  | captureGoes hc ha => exact hl.congr hc ha rfl rfl
  | captureDropped | captureLogged => exact CaptureLaw.of_none rfl rfl
  | captureOpened hk ha => exact ⟨rfl, fun _ => ⟨hk, ha⟩⟩
  | outputStops | lockoutEntered | rampEntered =>
    exact hl.congr (by simp [enterRamp]) (changeOutput_assembly_isSome _ _) (by simp [enterRamp]) (active_isSome_congr (by simp))
  | lockoutLeft =>
    refine ⟨?_, fun hc => ⟨by simp, ?_⟩⟩
    · rw [changeOutput_assembly_isSome]; simpa using hiff
    · rw [active_isSome_congr (changeOutput_sl_windows _ _)]
      exact (hopen (by simpa using hc)).2
  | rampRises => exact hl.congr (by simp) (rampRise_assembly_isSome _ _) (by simp) (active_isSome_congr (by simp))
  | framePushed => exact pushFrame_keeps_captureLaw hl
  | endedByTime => exact hl.congr (by simp) (by simp) (by simp) (endByTime_sameList s).active
  | endingRemoved hc =>
    have ha : s.cl.assembly = none := by
      rw [hc] at hiff
      exact Option.isSome_eq_false_iff.mp hiff.symm |> Option.isNone_iff_eq_none.mp
    exact CaptureLaw.of_none (by simpa using hc) (by simpa using ha)
  | scheduledDropped hp =>
    refine hl.congr rfl rfl rfl ?_
    exact congrArg Option.isSome (active_filter hlist.2.2.2.1 (hp hlist))
  | windowActivated hw hm =>
    obtain ⟨hc, ha⟩ := hidle (active_none_of_scheduled (mayActivate_scheduled hm).2.2.2.2)
    exact CaptureLaw.of_none (by simpa using hc) (by simpa using ha)
  | windowPlaced _ hab hm =>
    exact hl.congr rfl rfl rfl (congrArg Option.isSome (insertWindow_active hlist rfl hab hm))
  | windowCut => exact hl.congr rfl rfl rfl (endWindow_active _ s)
  | applied => exact hl.congr (by simp) (by simp) (by simp) (applyPoint_sameList _ s).active
  | notice => exact hl.congr (by simp) (by simp) (by simp) (tickNotice_sameList s).active
  | rephased => exact hl.congr (by simp) (by simp) (by simp) ((setPair_sameList _ _ s).of_windows (sync_sl_windows _)).active
  | reloaded | poweredOn => exact CaptureLaw.of_none rfl rfl
  | _ => exact hl.congr (by simp) (by simp) (by simp) (active_isSome_congr (by simp))

theorem Shift.keeps_captureLaw {s t : State} (h : Shift s t) (hl : CaptureLaw s) : CaptureLaw t := by
  cases h with
  | framePopped => exact ⟨hl.1, fun hc => ⟨by simp [(hl.2 hc).1], (hl.2 hc).2⟩⟩
  | _ => exact hl

/-! ### The law of the drive -/

theorem DriveLaw.congr {s t : State} (h : DriveLaw s) (ho : t.oc.output = s.oc.output) (hr : t.oc.rampLimit = s.oc.rampLimit)
    (hs : t.oc.switch = s.oc.switch) (hd : t.oc.drive = s.oc.drive) (hduty : t.rg.duty = s.rg.duty) : DriveLaw t := by
  simpa only [DriveLaw, ho, hr, hs, hd, hduty] using h

/-- The law but for the drive output itself, which `sync` sets by it. -/
abbrev DutyLaw (s : State) : Prop :=
  (s.oc.output.drives = false → s.rg.duty = 0)
    ∧ (0 ≤ s.rg.duty ∧ (s.oc.output.drives = true → s.rg.duty ≤ s.oc.rampLimit))
    ∧ (0 ≤ s.oc.rampLimit ∧ s.oc.rampLimit ≤ 1000)

theorem DutyLaw.synced {s : State} (h : DutyLaw s) : DriveLaw (sync s) := ⟨sync_drive s, h⟩

/-- Driving the outputs anew keeps the law (R133). -/
theorem DriveLaw.synced {s u : State} (h : DriveLaw s) (ho : u.oc = s.oc) (hd : u.rg.duty = s.rg.duty) : DriveLaw (sync u) :=
  DutyLaw.synced (by simpa only [DutyLaw, ho, hd] using h.2)

theorem DriveLaw.duty {s : State} (h : DriveLaw s) : DutyLaw s := h.2

/-- A state outside RAMP and RUN keeps the law with duty value 0 (R116). -/
theorem changeOutput_keeps_driveLaw {o : Output} {s : State} (ho : o.drives = false) (h : DriveLaw s) :
    DriveLaw (changeOutput o s) := by
  by_cases hs : s.oc.output = o
  · rwa [changeOutput_same hs]
  · obtain ⟨-, -, -, hr⟩ := h
    simp only [changeOutput, if_neg hs, ho]
    exact DutyLaw.synced (s := { s with oc := { s.oc with output := o }, rg := { s.rg with duty := 0 } })
      ⟨fun _ => rfl, ⟨le_rfl, fun hd => absurd hd (by simp [ho])⟩, hr⟩

/-- RAMP and RUN are entered with a duty value under the ramp limit. -/
theorem changeOutput_driveLaw {o : Output} {s : State} (hne : s.oc.output ≠ o) (ho : o.drives = true) (h0 : 0 ≤ s.rg.duty)
    (hd : s.rg.duty ≤ s.oc.rampLimit) (hr : s.oc.rampLimit ≤ 1000) : DriveLaw (changeOutput o s) := by
  simp only [changeOutput, if_neg hne, ho, if_true]
  exact DutyLaw.synced (s := { s with oc := { s.oc with output := o }, rg := { s.rg with duty := s.rg.duty } })
    ⟨fun hf => absurd hf (by simp [ho]), ⟨h0, fun _ => hd⟩, h0.trans hd, hr⟩

theorem clampTo_range {a b : Int} (h : a ≤ b) (x : Int) : a ≤ clampTo a b x ∧ clampTo a b x ≤ b := by
  unfold clampTo; omega

theorem holdOutput_keeps_driveLaw {s : State} (h : DriveLaw s) : DriveLaw (holdOutput s) := by
  unfold holdOutput
  split
  · exact h
  · exact changeOutput_keeps_driveLaw rfl (h.congr rfl rfl rfl rfl rfl)

/-- What SK has pushed before SL and OC act on it. -/
def pushedFrame (kind : FaultKind) (cap : Option CapturePart) (s : State) : State :=
  { s with
    sk := { s.sk with stack := buildFrame kind cap s :: s.sk.stack, nextFrame := next16 s.sk.nextFrame }
    cq := { queue := [] } }

/-- A push before the output is held: on an empty stack the capture is discarded and the demand follows (R63). -/
def suspended (kind : FaultKind) (cap : Option CapturePart) (s : State) : State :=
  if s.sk.stack.isEmpty then
    sync (if s.sl.capture.isSome then discardCapture (pushedFrame kind cap s) else pushedFrame kind cap s)
  else pushedFrame kind cap s

theorem pushFrame_eq (kind : FaultKind) (cap : Option CapturePart) (s : State) :
    pushFrame kind cap s =
      raiseAll .fault (if kind.holds then holdOutput (suspended kind cap s) else suspended kind cap s) := rfl

theorem suspended_keeps_driveLaw {kind : FaultKind} {cap : Option CapturePart} {s : State} (h : DriveLaw s) :
    DriveLaw (suspended kind cap s) := by
  unfold suspended
  split
  · split
    · exact h.synced rfl rfl
    · exact h.synced rfl rfl
  · exact h

theorem pushFrame_keeps_driveLaw {kind : FaultKind} {cap : Option CapturePart} {s : State} (h : DriveLaw s) :
    DriveLaw (pushFrame kind cap s) := by
  rw [pushFrame_eq]
  have hs := suspended_keeps_driveLaw (kind := kind) (cap := cap) h
  refine DriveLaw.congr (s := if kind.holds then holdOutput (suspended kind cap s) else suspended kind cap s)
    ?_ rfl rfl rfl rfl rfl
  split
  · exact holdOutput_keeps_driveLaw hs
  · exact hs

theorem reanchor_keeps_driveLaw {b : Bool} {s : State} (h : DriveLaw s) : DriveLaw (reanchor b s) := by
  unfold reanchor
  split
  · exact h
  · exact h.synced rfl rfl

theorem applyEntries_oc (q : List QEntry) (s : State) : (q.foldl (fun t e => applyEntry e t) s).oc = s.oc :=
  foldl_keeps State.oc _ (fun _ _ => applyEntry_oc _ _) q s

theorem applyEntries_duty (q : List QEntry) (s : State) : (q.foldl (fun t e => applyEntry e t) s).rg.duty = s.rg.duty :=
  foldl_keeps (fun s => s.rg.duty) _ (fun _ e => by unfold applyEntry; split <;> rfl) q s

theorem applyPoint_keeps_driveLaw {b : Bool} {s : State} (h : DriveLaw s) : DriveLaw (applyPoint b s) := by
  unfold applyPoint
  dsimp only
  split
  · exact h
  · refine DriveLaw.congr (s := if _ then _ else _) ?_ rfl rfl rfl rfl rfl
    have hw := h.congr (t := (s.cq.queue.filter fun e => !s.waits e).foldl (fun t e => applyEntry e t) s)
      (by rw [applyEntries_oc]) (by rw [applyEntries_oc]) (by rw [applyEntries_oc]) (by rw [applyEntries_oc])
      (applyEntries_duty _ s)
    split
    · exact reanchor_keeps_driveLaw hw
    · exact hw

theorem tickNotice_keeps_driveLaw {s : State} (h : DriveLaw s) : DriveLaw (tickNotice s) := by
  unfold tickNotice
  split
  · exact h
  · dsimp only
    split
    · exact h.synced (by simp) (by simp)
    · split
      · exact h.congr (by simp) (by simp) (by simp) (by simp) (by simp)
      · exact h

theorem Act.keeps_driveLaw {s t : State} (h : Act s t) (hset : SettingsLaw s) (hl : DriveLaw s) : DriveLaw t := by
  obtain ⟨hstop, ⟨h0, hd⟩, hr0, hr⟩ := hl.duty
  cases h with
  | regulator hd => exact hl.congr rfl rfl rfl rfl hd
  | synced => exact hl.synced rfl rfl
  | outputStops ho =>
    refine changeOutput_keeps_driveLaw ?_ hl
    rcases ho with rfl | ⟨c, rfl⟩ <;> rfl
  | lockoutEntered | lockoutLeft => exact changeOutput_keeps_driveLaw rfl (hl.congr rfl rfl rfl rfl rfl)
  | rampEntered hdrives =>
    have hz := hstop hdrives
    exact changeOutput_driveLaw (fun h => by simp_all [Output.drives]) rfl (by simp [hz]) (by simp [hz]) (by simp)
  | rampRises =>
    obtain ⟨⟨-, -, -, -, -, -, -, -, ⟨hrate, -⟩, -⟩, -⟩ := settingsLaw_iff.mp hset
    unfold rampRise
    split
    case isTrue ho =>
      have hd := hd (by simp [ho.2, Output.drives])
      dsimp only
      split
      · exact changeOutput_driveLaw (by simp [ho.2]) rfl h0 (by dsimp only; omega) (by simp)
      · exact ⟨hl.1, hstop, ⟨h0, fun _ => by dsimp only; omega⟩, by dsimp only; omega, by dsimp only; omega⟩
    case isFalse => exact hl
  | @dutyMoves i v hdrives =>
    have hupd : ∀ lim d, DriveLaw (sync { s with rg := { s.rg with limited := lim, duty := clampTo 0 s.oc.rampLimit d } }) := by
      intro lim d
      obtain ⟨hlo, hhi⟩ := clampTo_range hr0 d
      exact DutyLaw.synced (s := { s with rg := { s.rg with limited := lim, duty := clampTo 0 s.oc.rampLimit d } })
        ⟨fun hf => absurd hdrives (by simp [show s.oc.output.drives = false from hf]), ⟨hlo, fun _ => hhi⟩, hr0, hr⟩
    unfold updateDuty
    dsimp only
    split
    · exact (hupd _ _).congr rfl rfl rfl rfl rfl
    · exact hupd _ _
  | framePushed => exact pushFrame_keeps_driveLaw hl
  | endingRemoved =>
    rcases removeEnding_cases s with h | ⟨w, ws, c, cause, -, -, h⟩
    · rwa [h]
    · rw [h]; exact hl.synced rfl rfl
  | windowActivated => exact hl.synced rfl rfl
  | applied => exact applyPoint_keeps_driveLaw hl
  | notice => exact tickNotice_keeps_driveLaw hl
  | rephased => exact hl.synced (by simp) (by simp)
  | reloaded => exact DutyLaw.synced ⟨fun _ => rfl, ⟨le_rfl, fun h => absurd h (by simp [Output.drives])⟩, hr0, hr⟩
  | poweredOn => simp [DriveLaw, State.powerOn, Oc.reset, Rg.reset]
  | _ => exact hl.congr (by simp) (by simp) (by simp) (by simp) (by simp)


theorem Shift.keeps_driveLaw {s t : State} (h : Shift s t) (hl : DriveLaw s) : DriveLaw t := by
  cases h <;> exact hl

/-! ### The law of the stack -/

theorem StackLaw.congr {s t : State} (h : StackLaw s) (hk : t.sk = s.sk) (ho : t.oc.output = s.oc.output) : StackLaw t := by
  simpa only [StackLaw, hk, ho] using h

/-- A change between states other than LOCKOUT, out of HELD only where no frame holds the output. -/
theorem changeOutput_keeps_stackLaw {o : Output} {s : State} (h : StackLaw s) (ho : o ≠ .lockout) (hl : s.oc.output ≠ .lockout)
    (hh : s.oc.output = .held → o = .held ∨ s.outputFree) : StackLaw (changeOutput o s) := by
  obtain ⟨hlen, hnext, hhold, hrec⟩ := h
  refine ⟨by simpa using hlen, by simpa using hnext, ?_, by simp [hrec, ho, hl]⟩
  simp only [changeOutput_sk, changeOutput_output]
  rintro ⟨f, hf, hfh⟩
  rcases hhold ⟨f, hf, hfh⟩ with hheld | hlock
  · rcases hh hheld with rfl | hfree
    · exact .inl rfl
    · exact absurd (hfree f hf) (by simp [hfh])
  · exact absurd hlock hl

theorem pushFrame_keeps_stackLaw {kind : FaultKind} {cap : Option CapturePart} {s : State} (ho : s.oc.output ≠ .lockout)
    (hs : s.sk.stack.length < 2) (h : StackLaw s) : StackLaw (pushFrame kind cap s) := by
  obtain ⟨hlen, ⟨-, hnext⟩, hhold, hrec⟩ := h
  simp only [StackLaw, pushFrame_sk, pushFrame_output]
  refine ⟨by simp; omega, next16_range hnext, ?_, ?_⟩
  · cases hk : kind.holds with
    | true => exact fun _ => .inl rfl
    | false =>
      rintro ⟨f, hf, hfh⟩
      rcases List.mem_cons.mp hf with rfl | hf
      · exact absurd hfh (by simp [buildFrame, hk])
      · exact hhold ⟨f, hf, hfh⟩
  · rw [hrec]
    cases kind.holds <;> simp [ho]

theorem Act.keeps_stackLaw {s t : State} (h : Act s t) (hl : StackLaw s) : StackLaw t := by
  obtain ⟨hlen, hnext, hhold, hrec⟩ := id hl
  cases h with
  | @outputStops o ho hlock hh =>
    refine changeOutput_keeps_stackLaw hl ?_ hlock hh
    rcases ho with rfl | ⟨c, rfl⟩ <;> simp
  | rampEntered _ hlock hh => exact changeOutput_keeps_stackLaw (hl.congr rfl rfl) (by simp) hlock fun hs => .inr (hh hs)
  | rampRises =>
    unfold rampRise
    split
    case isTrue ho =>
      dsimp only
      split
      · exact changeOutput_keeps_stackLaw (hl.congr rfl rfl) (by simp) (by simp [ho.2]) (by simp [ho.2])
      · exact hl
    case isFalse => exact hl
  | framePushed ho hs => exact pushFrame_keeps_stackLaw ho hs hl
  | lockoutRecorded ho => exact ⟨hlen, hnext, hhold, by simp [ho]⟩
  | lockoutEntered => exact ⟨by simpa using hlen, by simpa using hnext, fun _ => .inr (by simp), by simp⟩
  | lockoutLeft => exact ⟨by simp, by simpa using hnext, by simp, by simp⟩
  | reloaded => exact ⟨by simp [reload], by simpa [reload] using hnext, by simp [reload], by simp [reload]⟩
  | poweredOn => simp [StackLaw, State.powerOn, Sk.reset, Oc.reset]
  | _ => exact hl.congr (by simp) (by simp)

theorem Shift.keeps_stackLaw {s t : State} (h : Shift s t) (hl : StackLaw s) : StackLaw t := by
  cases h with
  | framePopped =>
    obtain ⟨hlen, hnext, hhold, hrec⟩ := hl
    refine ⟨by simp; omega, hnext, ?_, hrec⟩
    rintro ⟨f, hf, hfh⟩
    exact hhold ⟨f, List.mem_of_mem_tail hf, hfh⟩
  | _ => exact hl

/-! ### The law of the queue -/

theorem QueueLaw.congr {s t : State} (h : QueueLaw s) (hk : t.sk.stack = s.sk.stack) (hq : t.cq = s.cq) : QueueLaw t := by
  simpa only [QueueLaw, hk, hq] using h

theorem pushFrame_keeps_queueLaw {kind : FaultKind} {cap : Option CapturePart} {s : State} (h : QueueLaw s) :
    QueueLaw (pushFrame kind cap s) := by
  obtain ⟨hlen, hdist, hempty, hframes, hupper⟩ := h
  simp only [QueueLaw, pushFrame_sk, pushFrame_queue]
  refine ⟨by simp, by simp, by simp, ?_, ?_⟩
  · intro f hf
    rcases List.mem_cons.mp hf with rfl | hf
    · simpa [buildFrame, Function.comp_def] using ⟨hlen, hdist⟩
    · exact hframes f hf
  · cases hs : s.sk.stack with
    | nil => simp
    | cons g gs =>
      rw [hs] at hupper
      rw [List.dropLast_cons_of_ne_nil (by simp)]
      intro f hf
      rcases List.mem_cons.mp hf with rfl | hf
      · simp [buildFrame, hempty (by simp [hs])]
      · exact hupper f hf

theorem Act.keeps_queueLaw {s t : State} (h : Act s t) (hl : QueueLaw s) : QueueLaw t := by
  obtain ⟨hlen, hdist, hempty, hframes, hupper⟩ := id hl
  cases h with
  | queue hq => exact hq hl
  | framePushed => exact pushFrame_keeps_queueLaw hl
  | lockoutLeft => exact ⟨by simpa using hlen, by simpa using hdist, by simp, by simp, by simp⟩
  | applied =>
    simp only [QueueLaw, applyPoint_queue, applyPoint_sk]
    refine ⟨(List.length_filter_le _ _).trans hlen, hdist.filter _, fun hs => by simp [hempty hs], hframes, hupper⟩
  | reloaded => simp [QueueLaw, reload]
  | poweredOn => simp [QueueLaw, State.powerOn, Sk.reset, Cq.reset]
  | _ => exact hl.congr (by simp) (by simp)

theorem Shift.keeps_queueLaw {s t : State} (h : Shift s t) (hl : QueueLaw s) : QueueLaw t := by
  cases h with
  | framePopped hq => exact hq hl
  | _ => exact hl

end Sys2Proof.Machine
end

