-- ==== Sys2Proof/Proofs/MovesKeepDemand.lean ====
section
/-! Each move keeps the law of the switch, and the end of the ACTIVE entry ahead (R39, R52, R134). -/

namespace Sys2Proof.Machine

/-! ### The law of the switch: the demand, and the phase that it follows -/

/-- What the demand and the phase are read from: the profile index and the cycle part of the window that runs. -/
def State.runs (s : State) : Option (Fin 8 × CyclePart) := s.active.map fun wc => (wc.1.profile, wc.2)

/-- The phase in progress lies within the cycle, but for a pair that is to be taken outright. -/
abbrev PhaseLaw (s : State) : Prop := ∀ wc ∈ s.active, s.sl.outright = true ∨ wc.2.phase < (s.profileOf wc.1).period

theorem phaseLaw_iff {s : State} :
    PhaseLaw s ↔ ∀ x ∈ s.runs, s.sl.outright = true ∨ x.2.phase < (s.sl.profiles.get x.1).period := by
  unfold PhaseLaw State.runs State.profileOf
  cases s.active <;> simp

theorem wantsOpen_eq_runs (s : State) :
    s.wantsOpen = match s.runs with
      | none => false
      | some x => s.sk.stack.isEmpty && decide ((s.sl.profiles.get x.1).onT ≤ x.2.phase) := by
  unfold State.wantsOpen State.runs State.profileOf
  cases s.active <;> rfl

theorem active_isSome_eq_runs (s : State) : s.active.isSome = s.runs.isSome := by
  unfold State.runs
  rw [Option.isSome_map]

theorem runs_of_active {s t : State} (h : t.active = s.active) : t.runs = s.runs := by simp only [State.runs, h]

theorem runs_congr {s t : State} (h : t.sl.windows = s.sl.windows) : t.runs = s.runs := by
  simp only [State.runs, State.active_congr h]

theorem PhaseLaw.congr {s t : State} (h : PhaseLaw s) (hr : t.runs = s.runs) (hp : t.sl.profiles = s.sl.profiles)
    (ho : t.sl.outright = s.sl.outright) : PhaseLaw t := by
  rw [phaseLaw_iff] at h ⊢
  simpa only [hr, hp, ho] using h

/-- The two parts of the law of the switch. -/
def DemandKept (s t : State) : Prop := DemandLaw t ∧ (s.demandStands → t.demandStands)

theorem DemandLaw.phase {s : State} (h : DemandLaw s) : PhaseLaw s := h.2.2

/-- With the outputs driven anew the law holds where the phase lies within the cycle (R52, R134). -/
theorem PhaseLaw.synced {s u : State} (h : PhaseLaw u) : DemandKept s (sync u) := by
  refine ⟨⟨?_, ?_, h⟩, fun _ _ => ?_⟩
  · rw [sync_switch, sync_demand]
    cases u.wantsOpen <;> simp
  · rw [sync_demand, sync_sk, active_isSome_congr (sync_sl_windows u)]
    unfold State.wantsOpen
    cases u.active <;> simp +contextual
  · have hw : (sync u).wantsOpen = u.wantsOpen := State.wantsOpen_congr rfl rfl rfl
    rw [sync_demand, hw]
    cases u.wantsOpen <;> simp

/-- The law is about the demand, the outputs, the stack, the window that runs and the profile that it names. -/
theorem DemandLaw.congr_profile {s t : State} (h : DemandLaw s) (hsw : t.oc.switch = s.oc.switch)
    (hd : t.sl.demand = s.sl.demand) (ho : t.oc.output = s.oc.output) (hk : t.sk.stack = s.sk.stack) (hr : t.runs = s.runs)
    (hp : ∀ x ∈ s.runs, t.sl.profiles.get x.1 = s.sl.profiles.get x.1) (hout : t.sl.outright = s.sl.outright)
    (hpos : t.moment.positions = s.moment.positions) : DemandKept s t := by
  obtain ⟨hswitch, hdemand, hphase⟩ := h
  replace hphase := phaseLaw_iff.mp hphase
  refine ⟨⟨?_, ?_, phaseLaw_iff.mpr fun x hx => ?_⟩, ?_⟩
  · rw [hsw, hd, ho]; exact hswitch
  · rw [hd, hk, active_isSome_eq_runs, hr, ← active_isSome_eq_runs]; exact hdemand
  · rw [hr] at hx
    rw [hout, hp x hx]
    exact hphase x hx
  · simp only [State.demandStands, State.phaseSettled, wantsOpen_eq_runs, hpos, hd, hr, hk]
    cases hx : s.runs with
    | none => exact id
    | some x => simp only [hp x hx]; exact id

theorem DemandLaw.congr {s t : State} (h : DemandLaw s) (hsw : t.oc.switch = s.oc.switch) (hd : t.sl.demand = s.sl.demand)
    (ho : t.oc.output = s.oc.output) (hk : t.sk.stack = s.sk.stack) (hr : t.runs = s.runs)
    (hp : t.sl.profiles = s.sl.profiles) (hout : t.sl.outright = s.sl.outright) (hpos : t.moment.positions = s.moment.positions) :
    DemandKept s t :=
  h.congr_profile hsw hd ho hk hr (fun x _ => by rw [hp]) hout hpos

/-- Where the outputs stand, the law is kept if it was. -/
theorem DemandKept.then {s t u : State} (h : DemandKept s t) (h' : DemandLaw t → DemandKept t u) : DemandKept s u :=
  ⟨(h' h.1).1, fun hs => (h' h.1).2 (h.2 hs)⟩

theorem changeOutput_demandKept {o : Output} {s : State} (h : DemandLaw s) : DemandKept s (changeOutput o s) := by
  by_cases hs : s.oc.output = o
  · rw [changeOutput_same hs]
    exact ⟨h, id⟩
  · simp only [changeOutput, if_neg hs]
    refine DemandKept.then (t := sync { s with oc := { s.oc with output := o }, rg := { s.rg with duty := _ } })
      (PhaseLaw.synced (h.phase.congr rfl rfl rfl)) fun ht => ht.congr rfl rfl rfl rfl rfl rfl rfl rfl

theorem holdOutput_demandKept {s : State} (h : DemandLaw s) : DemandKept s (holdOutput s) := by
  unfold holdOutput
  split
  · exact ⟨h, id⟩
  · exact DemandKept.then (t := { s with oc := { s.oc with restartPending := _ } })
      (h.congr rfl rfl rfl rfl rfl rfl rfl rfl) fun ht => changeOutput_demandKept ht

theorem suspended_demandKept {kind : FaultKind} {cap : Option CapturePart} {s : State} (h : DemandLaw s) :
    DemandKept s (suspended kind cap s) := by
  unfold suspended
  split
  case isTrue =>
    split
    · exact PhaseLaw.synced (h.phase.congr rfl rfl rfl)
    · exact PhaseLaw.synced (h.phase.congr rfl rfl rfl)
  case isFalse hk =>
    obtain ⟨hswitch, hdemand, hphase⟩ := h
    have hclosed : s.sl.demand ≠ .opened := fun hd => hk (by simp [(hdemand hd).1])
    refine ⟨⟨hswitch, fun hd => absurd hd hclosed, hphase⟩, fun _ _ => ?_⟩
    have hw : (pushedFrame kind cap s).wantsOpen = false := State.wantsOpen_held (by simp [pushedFrame])
    rw [hw]
    exact iff_of_false hclosed (by simp)

theorem pushFrame_demandKept {kind : FaultKind} {cap : Option CapturePart} {s : State} (h : DemandLaw s) :
    DemandKept s (pushFrame kind cap s) := by
  rw [pushFrame_eq]
  refine DemandKept.then (t := if kind.holds then holdOutput (suspended kind cap s) else suspended kind cap s) ?_
    fun ht => ht.congr rfl rfl rfl rfl rfl rfl rfl rfl
  split
  · exact (suspended_demandKept h).then fun ht => holdOutput_demandKept ht
  · exact suspended_demandKept h

/-! #### The window that runs -/

theorem endByTime_runs (s : State) : (endByTime s).runs = s.runs := by
  unfold endByTime
  split
  · rfl
  case h_2 w ws hw =>
    split
    · simp only [State.runs, State.active, activeOf, hw, WindowRec.toEnding]
      cases hl : w.life <;> simp [Life.part, hl]
    · rfl

theorem endByTime_demand (s : State) : (endByTime s).sl.demand = s.sl.demand := by
  unfold endByTime
  split
  · rfl
  · split <;> rfl

theorem endWindow_runs (id : Nat) (s : State) : (endWindow id s).runs = s.runs := by
  simp only [State.runs, State.active, endWindow]
  cases s.sl.windows with
  | nil => rfl
  | cons w ws =>
    simp only [List.map_cons, activeOf]
    split
    · cases hl : w.life with
      | active c =>
        rcases Nat.lt_or_ge s.tb.seconds w.stop with hn | hn
        · simp [WindowRec.cut_ahead hl hn, Life.part]
        · simp [WindowRec.cut_past hl hn, Life.part]
      | _ => rw [WindowRec.cut_other (by simp [hl]), hl]
    · rfl

theorem phaseLaw_of_idle {s : State} (h : s.active = none) : PhaseLaw s := by simp [PhaseLaw, h]

theorem Profile.period_pos {p : Profile} (h : ProfileLaw p) : 0 < p.period := by
  obtain ⟨⟨hon, -⟩, -⟩ := h
  unfold Profile.period Profile.onT msTicks
  omega

theorem toNat_emod_lt {P : Nat} (h : 0 < P) (e : Int) : (e % P).toNat < P := by
  have h1 := Int.emod_lt_of_pos e (b := P) (by omega)
  have h2 := Int.emod_nonneg e (b := P) (by omega)
  omega

/-- A pair taken is the pair in progress. -/
theorem setPair_active {s : State} {w : WindowRec} {c : CyclePart} (h : s.active = some (w, c)) (n : Int) (φ : Nat) :
    (s.setPair n φ).active =
      some ({ w with life := w.life.withPart { c with cycle := n, phase := φ } }, { c with cycle := n, phase := φ }) := by
  obtain ⟨ws, hw, hpart⟩ := State.active_eq_some.mp h
  refine State.active_eq_some.mpr ⟨ws, ?_, ?_⟩
  · simp only [State.setPair, h, hw, withCyclePart]
  · cases hl : w.life <;> simp_all [Life.part, Life.withPart]

/-- A pair derived from the time is within its cycle. -/
theorem setPair_phase_lt {s : State} {w : WindowRec} {c : CyclePart} (h : s.active = some (w, c)) (n e : Int)
    (hp : ∀ i, ProfileLaw (s.sl.profiles.get i)) :
    ∀ wc ∈ (s.setPair n (e % (s.profileOf w).period).toNat).active, wc.2.phase < (s.profileOf wc.1).period := by
  intro wc hwc
  rw [setPair_active h, Option.mem_some_iff] at hwc
  subst hwc
  exact toNat_emod_lt (Profile.period_pos (hp _)) e

theorem setPair_profileOf (n : Int) (φ : Nat) (s : State) (w : WindowRec) : (s.setPair n φ).profileOf w = s.profileOf w := by
  simp only [State.profileOf, State.setPair_sl_profiles]

theorem setPair_demand (n : Int) (φ : Nat) (s : State) : (s.setPair n φ).sl.demand = s.sl.demand := by
  unfold State.setPair
  split <;> rfl

/-! #### An apply point -/

theorem applyEntry_profile {s : State} {w : WindowRec} {c : CyclePart} (ha : s.active = some (w, c)) {e : QEntry}
    (he : s.touchesActive e = false) (t : State) : (applyEntry e t).sl.profiles.get w.profile = t.sl.profiles.get w.profile := by
  simp only [State.touchesActive, ha] at he
  unfold applyEntry
  split
  · rfl
  case h_2 f i hs =>
    simp only [hs, decide_eq_false_iff_not] at he
    simp only [Vector.get_eq_getElem, Vector.getElem_set]
    rw [if_neg fun hi => he (Fin.ext hi.symm)]

/-- Entries that do not touch the profile of the window that runs leave it. -/
theorem applyEntries_profile {s : State} {w : WindowRec} {c : CyclePart} (ha : s.active = some (w, c)) {q : List QEntry}
    (hq : q.any s.touchesActive = false) (t : State) :
    (q.foldl (fun t e => applyEntry e t) t).sl.profiles.get w.profile = t.sl.profiles.get w.profile := by
  induction q generalizing t with
  | nil => rfl
  | cons e q ih =>
    rw [List.any_cons, Bool.or_eq_false_iff] at hq
    rw [List.foldl_cons, ih hq.2, applyEntry_profile ha hq.1]

theorem applyEntries_sl (q : List QEntry) (s : State) :
    (q.foldl (fun t e => applyEntry e t) s).sl.demand = s.sl.demand
      ∧ (q.foldl (fun t e => applyEntry e t) s).sl.outright = s.sl.outright :=
  ⟨foldl_keeps (fun s => s.sl.demand) _ (fun _ e => by unfold applyEntry; split <;> rfl) q s,
    foldl_keeps (fun s => s.sl.outright) _ (fun _ _ => applyEntry_sl_outright _ _) q s⟩

theorem applyEntries_sk (q : List QEntry) (s : State) : (q.foldl (fun t e => applyEntry e t) s).sk = s.sk :=
  foldl_keeps State.sk _ (fun _ _ => applyEntry_sk _ _) q s

/-- A re-anchored window is in phase 0 of its cycle (R62). -/
theorem reanchor_demandKept {b : Bool} {s u : State} (ha : u.active.isSome = true)
    (hp : ∀ i, ProfileLaw (u.sl.profiles.get i)) : DemandKept s (reanchor b u) := by
  unfold reanchor
  split
  case h_1 h => simp [h] at ha
  case h_2 w c h =>
    obtain ⟨ws, hw, hpart⟩ := State.active_eq_some.mp h
    refine PhaseLaw.synced fun wc hwc => .inr ?_
    obtain ⟨v, d⟩ := wc
    obtain ⟨vs, hv, hd⟩ := State.active_eq_some.mp hwc
    simp only [hw, withCyclePart, List.cons.injEq] at hv
    obtain ⟨rfl, -⟩ := hv
    have hd0 : d.phase = 0 := by
      cases hl : w.life <;> simp_all [Life.part, Life.withPart] <;> rw [← hd]
    rw [hd0]
    exact Profile.period_pos (hp _)

theorem applyPoint_demandKept {b : Bool} {s : State} (hset : SettingsLaw s) (h : DemandLaw s) : DemandKept s (applyPoint b s) := by
  unfold applyPoint
  dsimp only
  split
  · exact ⟨h, id⟩
  · refine DemandKept.then (t := if _ then _ else _) ?_ fun ht => ht.congr rfl rfl rfl rfl rfl rfl rfl rfl
    split
    case isTrue htouch =>
      obtain ⟨e, -, he⟩ := List.any_eq_true.mp htouch
      obtain ⟨hreg, hprof, -, -, -, hqueue, -⟩ := settingsLaw_iff.mp hset
      refine reanchor_demandKept ?_ (applyEntries_law ⟨hreg, hprof⟩ fun e he => hqueue e (List.mem_of_mem_filter he)).2
      refine (active_isSome_congr (s := s) (applyEntries_windows (s.cq.queue.filter fun e => !s.waits e) s)).trans ?_
      cases hs : s.active with
      | none => simp [State.touchesActive, hs] at he
      | some x => rfl
    case isFalse htouch =>
      have hsl := applyEntries_sl (s.cq.queue.filter fun e => !s.waits e) s
      refine h.congr_profile (by rw [applyEntries_oc]) hsl.1 (by rw [applyEntries_oc]) (by rw [applyEntries_sk])
        (runs_congr (applyEntries_windows _ s)) ?_ hsl.2 (by rw [applyEntries_moment])
      intro x hx
      obtain ⟨wc, ha, rfl⟩ := Option.map_eq_some_iff.mp hx
      exact applyEntries_profile (w := wc.1) (c := wc.2) ha (by simpa using htouch) s

/-! #### A notice -/

theorem Profile.mem_between {p : Profile} {φ k φ' j : Nat} {q : Nat × Position} (hq : q ∈ p.positions) (hj : j ≤ k)
    (hlo : φ < j * p.period + q.1) (hhi : j * p.period + q.1 ≤ k * p.period + φ') : q.2 ∈ p.between φ k φ' := by
  unfold Profile.between
  rw [List.mem_flatMap]
  refine ⟨j, List.mem_range.mpr (Nat.lt_succ_of_le hj), List.mem_filterMap.mpr ⟨q, hq, ?_⟩⟩
  rw [if_pos ⟨hlo, hhi⟩]

/-- A pair in a later cycle passes a boundary. -/
theorem Profile.boundary_mem_between {p : Profile} {φ k φ' : Nat} (hk : 1 ≤ k) (hφ : φ < p.period) :
    Position.boundary ∈ p.between φ k φ' := by
  have hle : p.period ≤ k * p.period := Nat.le_mul_of_pos_left _ hk
  exact Profile.mem_between (q := (0, .boundary)) (by simp [Profile.positions]) le_rfl (by dsimp only; omega) (by dsimp only; omega)

/-- A pair of the same cycle on the other side of the off edge passes it. -/
theorem Profile.offEdge_mem_between {p : Profile} {φ φ' : Nat} (hlo : φ < p.onT) (hhi : p.onT ≤ φ') :
    Position.offEdge ∈ p.between φ 0 φ' :=
  Profile.mem_between (q := (p.onT, .offEdge)) (by simp [Profile.positions]) le_rfl (by simpa using hlo) (by simpa using hhi)

theorem later_iff {n : Int} {φ : Nat} {c : CyclePart} : later n φ c = true ↔ c.cycle < n ∨ n = c.cycle ∧ c.phase < φ := by
  simp [later]

/-- A later pair that passes neither a boundary nor the off edge stays on its side of the off edge. -/
theorem onT_le_iff_of_between {p : Profile} {c : CyclePart} {n : Int} {φ : Nat} (hl : later n φ c = true) (hc : c.phase < p.period)
    (hb : Position.boundary ∉ p.between c.phase (n - c.cycle).toNat φ)
    (ho : Position.offEdge ∉ p.between c.phase (n - c.cycle).toNat φ) : p.onT ≤ φ ↔ p.onT ≤ c.phase := by
  have hk : (n - c.cycle).toNat = 0 := by
    by_contra hne
    exact hb (Profile.boundary_mem_between (by omega) hc)
  rw [hk] at ho
  rcases later_iff.mp hl with hn | ⟨-, hφ⟩
  · omega
  · refine ⟨fun h => ?_, fun h => h.trans hφ.le⟩
    by_contra hlt
    exact ho (Profile.offEdge_mem_between (not_le.mp hlt) h)

/-- A later pair taken with the positions that it passes (R51): the demand is to follow once they are done. -/
theorem laterPair_demandKept {s : State} {w : WindowRec} {c : CyclePart} {n e : Int} (hprof : ∀ i, ProfileLaw (s.sl.profiles.get i))
    (h : DemandLaw s) (ha : s.active = some (w, c)) (hout : s.sl.outright ≠ true)
    (hl : later n (e % (s.profileOf w).period).toNat c = true) :
    let φ := (e % (s.profileOf w).period).toNat
    let taken := s.setPair n φ
    DemandKept s { taken with moment := { taken.moment with
      positions := taken.moment.positions ++ (s.profileOf w).between c.phase (n - c.cycle).toNat φ } } := by
  intro φ taken
  obtain ⟨hswitch, hdemand, hphase⟩ := h
  have hc : c.phase < (s.profileOf w).period := (hphase (w, c) ha).resolve_left hout
  have hlt := setPair_phase_lt ha n e hprof
  refine ⟨⟨?_, ?_, fun wc hwc => .inr ?_⟩, ?_⟩
  · simpa [taken, setPair_demand] using hswitch
  · intro hd
    obtain ⟨hk, hs⟩ := hdemand (by simpa [taken, setPair_demand] using hd)
    exact ⟨by simpa [taken] using hk, (setPair_sameList n φ s).active.trans hs⟩
  · simpa only [State.profileOf, taken, State.setPair_sl_profiles] using hlt wc hwc
  · rintro hstands ⟨hb, ho⟩
    simp only [taken, State.setPair_moment, List.mem_append, not_or] at hb ho
    have hwant : s.wantsOpen = true ↔ s.sk.stack = [] ∧ (s.profileOf w).onT ≤ c.phase := by
      simp [State.wantsOpen, ha]
    have hwant' : taken.wantsOpen = true ↔ s.sk.stack = [] ∧ (s.profileOf w).onT ≤ φ := by
      simp [State.wantsOpen, taken, setPair_active ha, State.profileOf]
    have hiff := hstands ⟨hb.1, ho.1⟩
    rw [hwant] at hiff
    change taken.sl.demand = .opened ↔ taken.wantsOpen = true
    rw [hwant', setPair_demand, hiff, onT_le_iff_of_between hl hc hb.2 ho.2]

theorem tickNotice_demandKept {s : State} (hset : SettingsLaw s) (h : DemandLaw s) : DemandKept s (tickNotice s) := by
  have hprof := (settingsLaw_iff.mp hset).2.1
  unfold tickNotice
  split
  case h_1 ha =>
    exact ⟨⟨h.1, h.2.1, phaseLaw_of_idle (s := { s with sl := { s.sl with outright := false } }) ha⟩, id⟩
  case h_2 w c ha =>
    dsimp only
    split
    case isTrue =>
      refine PhaseLaw.synced fun wc hwc => .inr ?_
      simpa only [State.profileOf, State.setPair_sl_profiles] using
        setPair_phase_lt ha (derive (s.profileOf w) c s.tb.seconds s.tb.tick).1 (elapsed c s.tb.seconds s.tb.tick) hprof wc hwc
    case isFalse hout =>
      split
      case isTrue hl => exact laterPair_demandKept hprof h ha hout hl
      case isFalse => exact ⟨h, id⟩

/-! #### Every move -/

theorem Act.keeps_demandLaw {s t : State} (h : Act s t) (hset : SettingsLaw s) (hlist : ListLaw s) (hl : DemandLaw s) :
    DemandKept s t := by
  have hprof := (settingsLaw_iff.mp hset).2.1
  cases h with
  | outright => exact ⟨⟨hl.1, hl.2.1, fun _ _ => .inl rfl⟩, id⟩
  | synced => exact PhaseLaw.synced hl.phase
  | outputStops => exact changeOutput_demandKept hl
  | @rampEntered =>
    exact DemandKept.then (t := { s with oc := { s.oc with rampLimit := 0, restartPending := false } })
      (hl.congr rfl rfl rfl rfl rfl rfl rfl rfl) fun ht => changeOutput_demandKept ht
  | @lockoutEntered r =>
    exact DemandKept.then (t := { s with sk := { s.sk with lockout := some r } })
      (hl.congr rfl rfl rfl rfl rfl rfl rfl rfl) fun ht => changeOutput_demandKept ht
  | lockoutLeft ho =>
    simp only [changeOutput, if_neg (show s.oc.output ≠ .stopped .cleared by simp [ho])]
    refine DemandKept.then (t := sync { s with
      sk := { s.sk with stack := [], lockout := none }, oc := { s.oc with output := _ }, rg := { s.rg with duty := _ } })
      (PhaseLaw.synced (hl.phase.congr rfl rfl rfl)) fun ht => ht.congr rfl rfl rfl rfl rfl rfl rfl rfl
  | rampRises =>
    unfold rampRise
    split
    · dsimp only
      split
      · exact DemandKept.then (t := { s with oc := { s.oc with rampLimit := 1000 } })
          (hl.congr rfl rfl rfl rfl rfl rfl rfl rfl) fun ht => changeOutput_demandKept ht
      · exact hl.congr rfl rfl rfl rfl rfl rfl rfl rfl
    · exact ⟨hl, id⟩
  | @dutyMoves i v =>
    unfold updateDuty
    dsimp only
    have hupd : ∀ lim d, DemandKept s (sync { s with rg := { s.rg with limited := lim, duty := d } }) := fun _ _ =>
      PhaseLaw.synced (hl.phase.congr rfl rfl rfl)
    split
    · exact (hupd _ _).then fun ht => ht.congr rfl rfl rfl rfl rfl rfl rfl rfl
    · exact hupd _ _
  | framePushed => exact pushFrame_demandKept hl
  | noticed => exact hl.congr rfl rfl rfl rfl rfl rfl rfl rfl
  | endedByTime =>
    exact hl.congr (by simp) (endByTime_demand s) (by simp) (by simp) (endByTime_runs s) (by simp) (by simp) (by simp)
  | endingRemoved =>
    rcases removeEnding_cases s with h | ⟨w, ws, c, cause, hw, -, h⟩
    · rw [h]; exact ⟨hl, id⟩
    · rw [h]
      refine PhaseLaw.synced (phaseLaw_of_idle (active_none_of_scheduled fun v hv => ?_))
      exact hlist.2.2.2.1 v (by simpa [hw] using hv)
  | scheduledDropped hp =>
    have hact := active_filter hlist.2.2.2.1 (hp hlist)
    exact hl.congr rfl rfl rfl rfl (runs_of_active hact) rfl rfl rfl
  | @windowActivated w ws c e hw hm hc =>
    refine PhaseLaw.synced fun wc hwc => .inr ?_
    obtain ⟨vs, hv, hd⟩ := State.active_eq_some.mp hwc
    simp only [addNotice_sl_windows, List.cons.injEq] at hv
    rw [← hv.1, Life.part, Option.some.injEq] at hd
    rw [← hv.1, ← hd, hc]
    exact toNat_emod_lt (Profile.period_pos (hprof _)) e
  | windowPlaced _ hab hm =>
    exact hl.congr rfl rfl rfl rfl (runs_of_active (insertWindow_active hlist rfl hab hm)) rfl rfl rfl
  | windowCut => exact hl.congr rfl rfl rfl rfl (endWindow_runs _ s) rfl rfl rfl
  | applied => exact applyPoint_demandKept hset hl
  | notice => exact tickNotice_demandKept hset hl
  | rephased ha =>
    refine PhaseLaw.synced fun wc hwc => .inr ?_
    simpa only [State.profileOf, State.setPair_sl_profiles] using setPair_phase_lt ha _ _ hprof wc hwc
  | reloaded =>
    refine PhaseLaw.synced fun wc hwc => .inl ?_
    have hact : (discardCapture s).active = some wc := hwc
    simp [hact]
  | poweredOn =>
    exact ⟨⟨by simp [State.powerOn, Oc.reset, Sl.reset], by simp [State.powerOn, Sl.reset], phaseLaw_of_idle rfl⟩,
      fun _ _ => by simp [State.powerOn, Sl.reset, State.wantsOpen, State.active, activeOf]⟩
  | marks _ _ hp => exact hl.congr rfl rfl rfl rfl rfl rfl rfl hp
  | _ => exact hl.congr rfl rfl rfl rfl rfl rfl rfl rfl

theorem Shift.keeps_demandLaw {s t : State} (h : Shift s t) (hl : DemandLaw s) : DemandLaw t := by
  cases h with
  | framePopped =>
    obtain ⟨hswitch, hdemand, hphase⟩ := hl
    exact ⟨hswitch, fun hd => ⟨by simp [(hdemand hd).1], (hdemand hd).2⟩, hphase⟩
  | _ => exact hl

/-! ### The end of the ACTIVE entry (R39) -/

theorem endsAhead_congr {s t : State} (h : s.endsAhead) (hw : t.sl.windows = s.sl.windows) (htb : t.tb.seconds = s.tb.seconds)
    (he : t.moment.exam = s.moment.exam) : t.endsAhead := by
  simpa only [State.endsAhead, State.endAhead, hw, htb, he] using h

theorem endsAhead_of_exam {s : State} (h : s.moment.exam = true) : s.endsAhead := fun _ _ _ => .inr h

theorem State.headAhead.endsAhead {s : State} (h : s.headAhead) : s.endsAhead := fun w hw ha => .inl (h w hw ha)

theorem headAhead_of_scheduled {s : State} (h : ∀ w ∈ s.sl.windows, w.life = .scheduled) : s.headAhead :=
  fun w hw ha => by simp [h w (List.mem_of_mem_head? hw), Life.isActive] at ha

/-- An end that is ahead stays so while the same entries run. -/
theorem State.sameList.endsAhead {s t : State} (h : s.sameList t) (htb : t.tb.seconds = s.tb.seconds)
    (he : t.moment.exam = s.moment.exam) (hl : s.endsAhead) : t.endsAhead := by
  rcases h with h | ⟨w, ws, life, hw, ht, -, hact⟩
  · exact endsAhead_congr hl h htb he
  · intro v hv hva
    rw [ht, List.head?_cons, Option.mem_some_iff] at hv
    subst hv
    rw [htb, he]
    exact hl w (by simp [hw]) (hact hva)

theorem State.sameList.headAhead {s t : State} (h : s.sameList t) (htb : t.tb.seconds = s.tb.seconds) (hl : s.headAhead) :
    t.headAhead := by
  rcases h with h | ⟨w, ws, life, hw, ht, -, hact⟩
  · simpa only [State.headAhead, h, htb] using hl
  · intro v hv hva
    rw [ht, List.head?_cons, Option.mem_some_iff] at hv
    subst hv
    rw [htb]
    exact hl w (by simp [hw]) (hact hva)

/-- The end that an examination has looked at is ahead (R39). -/
theorem endByTime_headAhead (s : State) : (endByTime s).headAhead := by
  unfold endByTime
  split
  case h_1 h => simp [State.headAhead, h]
  case h_2 w ws hw =>
    split
    case isTrue hstop =>
      intro v hv hva
      simp only [List.head?_cons, Option.mem_some_iff] at hv
      subst hv
      unfold WindowRec.toEnding at hva
      cases hl : w.life <;> simp [hl, Life.isActive] at hva
    case isFalse hstop =>
      intro v hv _
      simp only [hw, List.head?_cons, Option.mem_some_iff] at hv
      subst hv
      exact not_le.mp hstop

theorem head_filter {ws : List WindowRec} {p : WindowRec → Bool} (htail : ∀ w ∈ ws.tail, w.life = .scheduled) :
    ∀ w ∈ (ws.filter p).head?, w.life.isActive = true → w ∈ ws.head? := by
  intro v hv hva
  cases ws with
  | nil => simp at hv
  | cons w ws =>
    cases hp : p w with
    | true => simpa [hp] using hv
    | false =>
      rw [List.filter_cons_of_neg (by simp [hp])] at hv
      have hm := List.mem_of_mem_filter (List.mem_of_mem_head? hv)
      simp [htail v hm, Life.isActive] at hva

theorem insertWindow_head {w v : WindowRec} {ws : List WindowRec} (hw : w.life = .scheduled)
    (hv : v ∈ (insertWindow w ws).head?) (ha : v.life.isActive = true) : v ∈ ws.head? := by
  unfold insertWindow at hv
  cases ws with
  | nil => simp at hv; simp [← hv, hw, Life.isActive] at ha
  | cons x xs =>
    by_cases hx : x.start < w.start
    · simpa [hx] using hv
    · simp [hx] at hv
      simp [← hv, hw, Life.isActive] at ha

theorem applyPoint_exam (b : Bool) (s : State) : (applyPoint b s).moment.exam = s.moment.exam := by
  rcases applyPoint_moment b s with h | h <;> rw [h]

theorem tickNotice_exam (s : State) : (tickNotice s).moment.exam = s.moment.exam := by
  unfold tickNotice
  split
  · rfl
  · dsimp only
    split
    · simp
    · split
      · simp
      · rfl

theorem Act.keeps_endsAhead {s t : State} (h : Act s t) (hlist : ListLaw s) (hl : s.endsAhead) : t.endsAhead := by
  cases h with
  | second => exact endsAhead_of_exam rfl
  | stagedTaken _ _ he => exact endsAhead_of_exam he
  | timebase _ hs => exact endsAhead_congr hl rfl hs rfl
  | marks _ he => exact endsAhead_congr hl rfl rfl he
  | endedByTime => exact (endByTime_headAhead s).endsAhead
  | endingRemoved =>
    rcases removeEnding_cases s with h | ⟨w, ws, c, cause, hw, -, h⟩
    · rwa [h]
    · rw [h]
      refine (headAhead_of_scheduled fun v hv => ?_).endsAhead
      exact hlist.2.2.2.1 v (by simpa [hw] using hv)
  | scheduledDropped => exact fun w hw ha => hl w (head_filter hlist.2.2.2.1 w hw ha) ha
  | windowActivated hw hm =>
    intro v hv _
    simp only [sync_sl_windows, addNotice_sl_windows, List.head?_cons, Option.mem_some_iff] at hv
    subst hv
    exact .inl (mayActivate_scheduled hm).2.2.1
  | windowPlaced => exact fun w hw ha => hl w (insertWindow_head rfl hw ha) ha
  | windowCut =>
    intro v hv hva
    simp only [endWindow, List.head?_map, Option.mem_map] at hv
    obtain ⟨w, hw, rfl⟩ := hv
    cases hlife : w.life with
    | active c =>
      split at hva
      case isTrue =>
        rcases Nat.lt_or_ge s.tb.seconds w.stop with hn | hn
        · simp [WindowRec.cut_ahead hlife hn, Life.isActive] at hva
        · simp [WindowRec.cut_past hlife hn, Life.isActive] at hva
      case isFalse hid =>
        rw [if_neg hid]
        exact hl w hw hva
    | _ => simp [WindowRec.cut_other (show ∀ c, w.life ≠ .active c by simp [hlife]), hlife, Life.isActive] at hva
  | applied => exact (applyPoint_sameList _ s).endsAhead (by simp) (applyPoint_exam _ s) hl
  | notice => exact (tickNotice_sameList s).endsAhead (by simp) (tickNotice_exam s) hl
  | rephased => exact ((setPair_sameList _ _ s).of_windows (sync_sl_windows _)).endsAhead (by simp) (by simp) hl
  | reloaded => exact endsAhead_congr hl (by simp) rfl (by simp)
  | poweredOn => simp [State.endsAhead, State.powerOn, Sl.reset]
  | _ => exact endsAhead_congr hl (by simp) (by simp) (by simp)

end Sys2Proof.Machine
end

