-- ==== Sys2Proof/Proofs/Turns.lean ====
section
/-! Chains of moves, and the operations of the station that are each one. -/

namespace Sys2Proof.Machine

/-! ### Chains of moves -/

theorem Moves.keeps_settingsLaw {s t : State} (h : Moves s t) : SettingsLaw s → SettingsLaw t :=
  h.keeps Act.keeps_settingsLaw Shift.keeps_settingsLaw

theorem Moves.keeps_listLaw {s t : State} (h : Moves s t) : ListLaw s → ListLaw t :=
  h.keeps Act.keeps_listLaw Shift.keeps_listLaw

theorem Moves.keeps_demandLaw {s t : State} (h : Moves s t) (hset : SettingsLaw s) (hlist : ListLaw s) (hl : DemandLaw s) :
    DemandLaw t :=
  (h.keeps (L := fun s => SettingsLaw s ∧ ListLaw s ∧ DemandLaw s)
    (fun ha ⟨h1, h2, h3⟩ => ⟨ha.keeps_settingsLaw h1, ha.keeps_listLaw h2, (ha.keeps_demandLaw h1 h2 h3).1⟩)
    (fun ha ⟨h1, h2, h3⟩ => ⟨ha.keeps_settingsLaw h1, ha.keeps_listLaw h2, ha.keeps_demandLaw h3⟩) ⟨hset, hlist, hl⟩).2.2

/-- A chain of moves at whose end the demand follows the phase, where it did before. -/
structure Path (s t : State) : Prop where
  moves : Moves s t
  stands : SettingsLaw s → ListLaw s → DemandLaw s → s.demandStands → t.demandStands

/-- A chain of moves at whose end the demand follows the phase and the end of the ACTIVE entry is ahead, where they did and
was before. -/
structure Turn (s t : State) : Prop extends Path s t where
  ahead : ListLaw s → s.endsAhead → t.endsAhead

theorem Path.trans {s t u : State} (h : Path s t) (h' : Path t u) : Path s u :=
  ⟨h.moves.trans h'.moves, fun h1 h2 h3 h4 => h'.stands (h.moves.keeps_settingsLaw h1) (h.moves.keeps_listLaw h2)
    (h.moves.keeps_demandLaw h1 h2 h3) (h.stands h1 h2 h3 h4)⟩

theorem Turn.refl (s : State) : Turn s s := ⟨⟨.refl, fun _ _ _ h => h⟩, fun _ h => h⟩

theorem Turn.trans {s t u : State} (h : Turn s t) (h' : Turn t u) : Turn s u :=
  ⟨h.toPath.trans h'.toPath, fun h1 h2 => h'.ahead (h.moves.keeps_listLaw h1) (h.ahead h1 h2)⟩

theorem Act.turn {s t : State} (h : Act s t) : Turn s t :=
  ⟨⟨h.moves, fun h1 h2 h3 => (h.keeps_demandLaw h1 h2 h3).2⟩, h.keeps_endsAhead⟩

/-- A fold of operations that are each a turn is one. -/
theorem foldl_turn {β : Type} {f : State → β → State} (h : ∀ s b, Turn s (f s b)) (l : List β) (s : State) : Turn s (l.foldl f s) := by
  induction l generalizing s with
  | nil => exact .refl s
  | cons b l ih => exact (h s b).trans (ih (f s b))

/-! ### Events and marks -/

theorem onLink_turn (l : LinkId) {f : Link → Link} (hf : ∀ k, LinkLaw k → LinkLaw (f k)) (s : State) : Turn s (s.onLink l f) :=
  (Act.links fun h => linksLaw_iff.mpr fun m => by
    have hm := linksLaw_iff.mp h m
    change LinkLaw ((s.onLink l f).link m)
    rw [State.onLink_link]
    split
    case isTrue hl => subst hl; exact hf _ hm
    case isFalse => exact hm).turn

theorem onLinks_turn {f : Link → Link} (hf : ∀ k, LinkLaw k → LinkLaw (f k)) (s : State) : Turn s (s.onLinks f) :=
  (Act.links fun h => linksLaw_iff.mpr fun m => by
    change LinkLaw ((s.onLinks f).link m)
    rw [State.onLinks_link]
    exact hf _ (linksLaw_iff.mp h m)).turn

theorem raiseAll_turn (c : EventClass) (s : State) : Turn s (raiseAll c s) := onLinks_turn (fun _ => Link.raise_keeps_law c) s

theorem raiseOn_turn (l : LinkId) (c : EventClass) (s : State) : Turn s (raiseOn l c s) :=
  onLink_turn l (fun _ => Link.raise_keeps_law c) s

theorem measuring_turn {s : State} {x : Mu} (h : x.cal = s.mu.cal) : Turn s { s with mu := x } :=
  (Act.measuring fun hc => by rwa [h]).turn

theorem captureGoes_turn {s : State} {c : Option Capture} {a : Option Assembly} (hc : c.isSome = s.sl.capture.isSome)
    (ha : a.isSome = s.cl.assembly.isSome) :
    Turn s { s with sl := { s.sl with capture := c }, cl := { s.cl with assembly := a } } := (Act.captureGoes hc ha).turn

theorem regulator_turn {s : State} {x : Rg} (hd : x.duty = s.rg.duty) (h : x.set = s.rg.set) : Turn s { s with rg := x } :=
  (Act.regulator hd fun hr => by rwa [h]).turn

theorem scan_turn {s : State} {x : Hs} (h : ScanLaw s → ScanLaw { s with hs := x })
    (hl : (∀ i, LimitsLaw i (s.hs.channels.get i).limits) → ∀ i, LimitsLaw i (x.channels.get i).limits) :
    Turn s { s with hs := x } := (Act.scan h hl).turn

theorem markNoOutput_turn (s : State) : Turn s (markNoOutput s) := captureGoes_turn (c := s.sl.capture) rfl Option.isSome_map

/-! ### Faults and the mains -/

theorem discardCapture_turn (s : State) : Turn s (discardCapture s) :=
  Act.captureDropped.turn.trans (measuring_turn (by simp))

/-- A fault takes one of its three ways (R156, R158, R159). -/
theorem takeFault_turn (kind : FaultKind) (cap : Option CapturePart) (s : State) : Turn s (takeFault kind cap s) := by
  by_cases hl : s.oc.output = .lockout
  · rw [takeFault_lockout kind cap hl]
    exact (Act.lockoutRecorded hl).turn.trans (raiseAll_turn _ _)
  · rcases Nat.lt_or_ge s.sk.stack.length 2 with hs | hs
    · rw [takeFault_push kind cap hl hs]
      exact (Act.framePushed hl hs).turn
    · rw [takeFault_full kind cap hl hs]
      exact (Act.lockoutEntered hl).turn.trans (raiseAll_turn _ _)

theorem stageCheck_turn (s : State) : Turn s (stageCheck s) := by
  unfold stageCheck
  split
  · exact takeFault_turn _ _ s
  · exact .refl s

theorem restartFlags_turn {s : State} {p a : Bool} : Turn s { s with oc := { s.oc with restartPending := p, autoRestart := a } } :=
  Act.restartFlags.turn

theorem drives_ne {o : Output} (h : o.drives = true) : o ≠ .lockout ∧ o ≠ .held := by
  constructor <;> rintro rfl <;> simp [Output.drives] at h

theorem stopped_ne {o : Output} (h : o.kind = .stopped) : o.drives = false ∧ o ≠ .lockout ∧ o ≠ .held := by
  cases o <;> simp_all [Output.kind, Output.drives]

theorem declareMains_turn (m : Mains) (s : State) : Turn s (declareMains m s) := by
  unfold declareMains
  dsimp only
  refine .trans ?_ ((markNoOutput_turn _).trans (raiseAll_turn _ _))
  have hdeclared : Turn s { s with
      hs := { s.hs with mains := m, mainsCount := 0 }
      mu := { s.mu with mainsBadInside := s.mu.mainsBadInside || decide (m ≠ .present) } } :=
    .trans (t := { s with hs := { s.hs with mains := m, mainsCount := 0 } })
      (scan_turn (fun h => ⟨h.1, Nat.zero_lt_succ 2, h.2.2⟩) id) (measuring_turn rfl)
  split
  case isTrue h =>
    obtain ⟨hlock, hheld⟩ := drives_ne h.2.2
    refine (hdeclared.trans
      (restartFlags_turn (p := s.oc.restartPending || s.oc.autoRestart) (a := s.oc.autoRestart))).trans ?_
    exact Act.turn (Act.outputStops (.inr ⟨_, rfl⟩) hlock fun hh => absurd hh hheld)
  case isFalse =>
    split
    case isTrue h =>
      obtain ⟨hdrive, hlock, hheld⟩ := stopped_ne h.2.1
      refine hdeclared.trans ?_
      exact Act.turn (Act.rampEntered hdrive hlock fun hh => absurd hh hheld)
    case isFalse => exact hdeclared

/-! ### Measurement windows and captures -/

theorem setWindowStatus_turn (w : MWindow) (v : WStatus) (s : State) : Turn s (s.setWindowStatus w v) :=
  captureGoes_turn (a := s.cl.assembly) Option.isSome_map rfl

theorem offerTo_turn (w : MWindow) (code : Int) (s : State) : Turn s (offerTo w code s) := by
  unfold offerTo
  split
  · exact measuring_turn (by simp)
  · exact .refl s

theorem offerCode_turn (code : Int) (s : State) : Turn s (offerCode code s) := (offerTo_turn .on code s).trans (offerTo_turn .off code _)

theorem openWindow_turn (w : MWindow) (s : State) : Turn s (openWindow w s) := by
  unfold openWindow
  split
  · have hopened : Turn s { (s.setWindowStatus w .opened) with mu := s.mu.drop w } :=
      (setWindowStatus_turn w .opened s).trans (measuring_turn (by simp))
    dsimp only
    split
    · exact hopened
    · exact hopened.trans (offerTo_turn w _ _)
  · exact .refl s

theorem closeWindow_turn (w : MWindow) (s : State) : Turn s (closeWindow w s) := by
  unfold closeWindow
  split
  · exact (setWindowStatus_turn w .done s).trans (measuring_turn (by simp))
  · exact .refl s

/-- A capture opens on an empty stack (R57, R63). -/
theorem openCapture_turn {entry : Nat} {realigned : Bool} {s : State} (hk : s.sk.stack = []) :
    Turn s (openCapture entry realigned s) := by
  unfold openCapture
  split
  case h_1 => exact .refl s
  case h_2 r c ha =>
    dsimp only
    have hopened : ∀ k a, Turn s { s with
        sl := { s.sl with capture := some k }, cl := { s.cl with assembly := some a } } := fun k a =>
      (Act.captureOpened hk (by simp [ha])).turn
    split_ifs
    · exact ((hopened _ _).trans (openWindow_turn .on _)).trans (openWindow_turn .off _)
    · exact (hopened _ _).trans (openWindow_turn .off _)
    · exact (hopened _ _).trans (openWindow_turn .on _)
    · exact hopened _ _

theorem offEdgeNotice_turn (s : State) : Turn s (offEdgeNotice s) := captureGoes_turn (c := s.sl.capture) rfl Option.isSome_map

theorem outerLoop_law {r : RegSettings} (h : RegLaw r) (pot : Int) : RegLaw (outerLoop r pot) := by
  obtain ⟨⟨himin, himset, hiset, hilim⟩, hrest⟩ := h
  obtain ⟨hlo, hhi⟩ := clampTo_range (himset.trans hiset) (r.iset + outerStep r pot)
  exact ⟨⟨himin, hlo, hhi, hilim⟩, hrest⟩

theorem judgeRecord_turn (r : CRecord) (s : State) : Turn s (judgeRecord r s) := by
  unfold judgeRecord
  split
  case h_1 pot _ _ =>
    dsimp only
    have hjudged : ∀ n, Turn s { s with rg := { s.rg with
        set := if s.rg.set.mode = .potentialOff then outerLoop s.rg.set pot else s.rg.set, overStreak := n } } := fun n =>
      Act.turn (Act.regulator rfl fun h => by
        dsimp only
        split
        · exact outerLoop_law h pot
        · exact h)
    have hraised : ∀ n (P : Prop) [Decidable P], Turn s
        (let judged : State := { s with rg := { s.rg with
          set := if s.rg.set.mode = .potentialOff then outerLoop s.rg.set pot else s.rg.set, overStreak := n } }
        if P then takeFault .overprotection (some ⟨r.seq, pot⟩) judged else judged) := by
      intro n P _
      dsimp only
      split
      · exact (hjudged n).trans (takeFault_turn _ _ _)
      · exact hjudged n
    exact hraised _ _
  · exact .refl s

theorem completeCapture_turn (s : State) : Turn s (completeCapture s) := by
  unfold completeCapture
  split
  · exact ((Act.captureLogged rfl).turn.trans (raiseAll_turn _ _)).trans (judgeRecord_turn _ _)
  · exact Act.captureDropped.turn

theorem cutShort_turn (s : State) : Turn s (cutShort s) := by
  have hdrop : ∀ w t, Turn t (if s.windowStatus w = some .opened then { t with mu := t.mu.drop w } else t) := by
    intro w t
    split
    · exact measuring_turn (by simp)
    · exact .refl t
  have hmarked : Turn s { s with sl := { s.sl with capture := s.sl.capture.map fun c => { c with realigned := true } } } :=
    captureGoes_turn (a := s.cl.assembly) Option.isSome_map rfl
  exact ((hmarked.trans (completeCapture_turn _)).trans (hdrop .on _)).trans (hdrop .off _)

/-! ### The scan -/

theorem startScan_turn (s : State) : Turn s (startScan s) :=
  scan_turn (fun h => ⟨h.1, h.2.1, by simp⟩) id

theorem Channel.judge_law {i : Fin 8} {c : Channel} (h : ChannelLaw i c) (side : Side) : ChannelLaw i (c.judge side) := by
  obtain ⟨hv, hlow, hhigh, hin⟩ := h
  unfold Channel.judge Channel.enter
  split <;> try split
  all_goals exact ⟨hv, by dsimp only; omega, by dsimp only; omega, by dsimp only; omega⟩

theorem judgeChannel_turn (i : Fin 8) (s : State) : Turn s (judgeChannel i s) := by
  have hjudged : Turn s { s with hs := { s.hs with channels := s.hs.channels.set i (s.hs.channels.get i).judged } } := by
    refine scan_turn (fun h => ⟨fun j => ?_, h.2⟩) fun h j => ?_
    · simp only [Vector.get_eq_getElem, Vector.getElem_set]
      split
      case isTrue hj =>
        obtain rfl : i = j := Fin.ext hj
        exact Channel.judge_law (h.1 i) _
      case isFalse => exact h.1 j
    · simp only [Vector.get_eq_getElem, Vector.getElem_set]
      split
      case isTrue hj =>
        obtain rfl : i = j := Fin.ext hj
        rw [Channel.judged, (Channel.judge_keeps _ _).2.2]
        exact h i
      case isFalse => exact h j
  unfold judgeChannel
  dsimp only
  split
  · exact hjudged
  · exact hjudged.trans (raiseAll_turn _ _)

theorem storeScan_turn (s : State) : Turn s (storeScan s) := by
  refine scan_turn (fun h => ⟨fun i => ?_, h.2.1, by simp⟩) fun h i => ?_
  · have hrange : ∀ i : Fin 8, (channelRanges.get i).lo ≤ (channelRanges.get i).hi := by decide
    simp only [Vector.get_ofFn]
    refine ⟨fun v hv => ?_, (h.1 i).2⟩
    rw [Channel.store, Option.mem_some_iff] at hv
    rw [← hv, Range.has_iff]
    exact clampTo_range (hrange i) _
  · simpa only [Vector.get_ofFn, Channel.store] using h i

theorem mainsStep_count (state : Mains) (count : Nat) (mark : Bool) (lim : Limits) (v : Int) :
    (mainsStep state count mark lim v).2.1 < 3 := by
  unfold mainsStep
  split <;> split_ifs <;> simp <;> omega

theorem updateMains_turn {v : Option Mains × Nat × Bool} (hv : v.2.1 < 3) (s : State) : Turn s (updateMains v s) := by
  have hcounted : Turn s { s with hs := { s.hs with mainsCount := v.2.1, mainsMark := v.2.2 } } :=
    scan_turn (fun h => ⟨h.1, hv, h.2.2⟩) id
  unfold updateMains
  dsimp only
  split
  · exact hcounted
  · exact hcounted.trans (declareMains_turn _ _)

theorem endScan_turn (s : State) : Turn s (endScan s) :=
  ((storeScan_turn s).trans (updateMains_turn (mainsStep_count _ _ _ _ _) _)).trans (foldl_turn (fun t i => judgeChannel_turn i t) _ _)

/-! ### The regulation tick -/

theorem marks_turn {s : State} {x : Moment} (hw : x.wrap = s.moment.wrap ∨ x.wrap = none) (he : x.exam = s.moment.exam)
    (hp : x.positions = s.moment.positions) : Turn s { s with moment := x } := (Act.marks hw he hp).turn

theorem takeAverages_turn (frozen : Bool) (s : State) : Turn s (takeAverages frozen s) := by
  have hmeasured : Turn s (if s.mu.iAcc.count = 0 then s
      else { s with rg := { s.rg with current := some s.measuredCurrent, voltage := some s.measuredVoltage } }) := by
    split
    · exact .refl s
    · exact regulator_turn rfl rfl
  have htaken : ∀ (u : State) {f : Assembly → Assembly} {x : Mu} {m : Moment}, x.cal = u.mu.cal → m.wrap = u.moment.wrap →
      m.exam = u.moment.exam → m.positions = u.moment.positions →
      Turn u { u with cl := { u.cl with assembly := u.cl.assembly.map f }, mu := x, moment := m } := by
    intro u f x m hx hw he hp
    have h1 : Turn u { u with cl := { u.cl with assembly := u.cl.assembly.map f } } :=
      captureGoes_turn (c := u.sl.capture) rfl Option.isSome_map
    have h2 : Turn u { u with cl := { u.cl with assembly := u.cl.assembly.map f }, mu := x } := h1.trans (measuring_turn hx)
    exact h2.trans (marks_turn (.inl hw) he hp)
  unfold takeAverages
  dsimp only
  refine hmeasured.trans ?_
  split
  · exact htaken s rfl rfl rfl rfl
  · exact htaken { s with rg := { s.rg with current := _, voltage := _ } } rfl rfl rfl rfl

theorem innerLoop_turn (frozen : Bool) (s : State) : Turn s (innerLoop frozen s) := by
  have hstreak : ∀ n, Turn s { s with rg := { s.rg with tripStreak := n } } := fun _ => regulator_turn rfl rfl
  unfold innerLoop
  split
  case isTrue hd =>
    split
    · exact .refl s
    · dsimp only
      split_ifs
      · exact (hstreak 0).trans (takeFault_turn _ _ _)
      · refine (hstreak (s.rg.tripStreak + 1)).trans ?_
        exact Act.turn (Act.dutyMoves hd)
      · refine (hstreak 0).trans ?_
        exact Act.turn (Act.dutyMoves hd)
  case isFalse => exact regulator_turn rfl rfl

theorem regulate_turn (riseFirst : Bool) (s : State) : Turn s (regulate riseFirst s) := by
  unfold regulate
  dsimp only
  refine (takeAverages_turn s.frozen s).trans ?_
  split
  · exact Act.rampRises.turn.trans (innerLoop_turn _ _)
  · exact (innerLoop_turn _ _).trans Act.rampRises.turn

end Sys2Proof.Machine
end

