-- ==== Sys2Proof/Proofs/TimelineTurns.lean ====
section
/-! The examination, the positions of a cycle, a re-phase and the end of a suspension as chains of moves. -/

namespace Sys2Proof.Machine

/-! ### The life of a window -/

theorem skipWindows_turn (s : State) : Turn s (skipWindows s) := by
  have hkept : Turn s { s with sl := { s.sl with windows := s.sl.windows.filter fun w => !w.skipped s.tb.seconds } } :=
    Act.turn (Act.scheduledDropped fun _ w _ hw => by
      simp only [WindowRec.skipped, Bool.not_eq_false', Bool.and_eq_true, decide_eq_true_eq] at hw
      exact hw.1)
  exact hkept.trans (foldl_turn (f := fun (t : State) (w : WindowRec) => addNotice w.id .skipped t) (fun _ _ => Act.noticed.turn) _ _)

/-- The place in its cycle at which an entry is activated (R41). -/
def State.activation (s : State) (w : WindowRec) : CyclePart :=
  let pair := derive (s.profileOf w) ⟨w.start, 0, 0, 0, 0⟩ s.tb.seconds s.tb.tick
  ⟨w.start, 0, 0, pair.1, pair.2⟩

/-- The first entry is activated where it may be, with its capture where the stack is empty (R41). -/
theorem activateFirst_turn (s : State) : Turn s (activateFirst s) := by
  unfold activateFirst
  split
  case h_1 => exact .refl s
  case h_2 w ws hw =>
    split
    case isTrue hm =>
      dsimp only
      have hact := Act.turn (Act.windowActivated (c := s.activation w) hw hm rfl)
      split
      case isTrue hk => exact hact.trans (openCapture_turn (List.isEmpty_iff.mp hk))
      case isFalse => exact hact
    case isFalse => exact .refl s

theorem examined_path (s : State) : Path s { s with moment := { s.moment with exam := false } } :=
  ⟨Shift.examined.moves, fun _ _ _ h => h⟩

/-! #### The end that an examination leaves ahead -/

theorem removeEnding_headAhead {s : State} (hl : ListLaw s) (h : s.headAhead) : (removeEnding s).headAhead := by
  rcases removeEnding_cases s with hr | ⟨w, ws, c, cause, hw, -, hr⟩
  · rwa [hr]
  · rw [hr]
    exact headAhead_of_scheduled fun v hv => hl.2.2.2.1 v (by simpa [hw] using hv)

theorem applyPoint_headAhead {b : Bool} {s : State} (h : s.headAhead) : (applyPoint b s).headAhead :=
  (applyPoint_sameList b s).headAhead (by simp) h

theorem skipWindows_windows (s : State) :
    (skipWindows s).sl.windows = s.sl.windows.filter fun w => !w.skipped s.tb.seconds := by
  unfold skipWindows
  exact foldl_keeps (fun t => t.sl.windows) (fun (t : State) (w : WindowRec) => addNotice w.id .skipped t) (fun _ _ => by simp) _ _

theorem skipWindows_headAhead {s : State} (hl : ListLaw s) (h : s.headAhead) : (skipWindows s).headAhead := by
  intro w hw ha
  rw [skipWindows_windows] at hw
  simpa using h w (head_filter hl.2.2.2.1 w hw ha) ha

theorem activateFirst_windows (s : State) :
    (activateFirst s).sl.windows = s.sl.windows ∨ ∃ w ws life, s.sl.windows = w :: ws ∧ s.mayActivate w = true
      ∧ (activateFirst s).sl.windows = { w with life := life } :: ws := by
  unfold activateFirst
  split
  case h_1 => exact .inl rfl
  case h_2 w ws hw =>
    split
    case isTrue hm =>
      refine .inr ⟨w, ws, .active (s.activation w), hw, hm, ?_⟩
      dsimp only
      split <;> simp [State.activation]
    case isFalse => exact .inl rfl

theorem activateFirst_headAhead {s : State} (h : s.headAhead) : (activateFirst s).headAhead := by
  rcases activateFirst_windows s with hw | ⟨w, ws, life, hw, hm, ht⟩
  · simpa only [State.headAhead, hw, activateFirst_tb] using h
  · intro v hv _
    rw [ht, List.head?_cons, Option.mem_some_iff] at hv
    subst hv
    simpa using (mayActivate_scheduled hm).2.2.1

theorem examineStep_turn (s : State) : Turn s (examineStep s) :=
  (Act.endedByTime.turn.trans (skipWindows_turn _)).trans (activateFirst_turn _)

theorem examineStep_headAhead {s : State} (hl : ListLaw s) : (examineStep s).headAhead :=
  activateFirst_headAhead (skipWindows_headAhead (Act.endedByTime.turn.moves.keeps_listLaw hl) (endByTime_headAhead s))

theorem applyIf_turn (P : Prop) [Decidable P] (b : Bool) (s : State) : Turn s (if P then applyPoint b s else s) := by
  split
  · exact Act.applied.turn
  · exact .refl s

theorem applyIf_headAhead {P : Prop} [Decidable P] {b : Bool} {s : State} (h : s.headAhead) :
    (if P then applyPoint b s else s).headAhead := by
  split
  · exact applyPoint_headAhead h
  · exact h

theorem examineSecond_turn (s : State) : Turn s (examineSecond s) := by
  have hended : Turn s (endByTime s) := Act.endedByTime.turn
  unfold examineSecond
  dsimp only
  have happlied := hended.trans (applyIf_turn (s.sk.stack.isEmpty = false ∨ s.active.isNone = true) false _)
  have hdone := (happlied.trans (skipWindows_turn _)).trans (activateFirst_turn _)
  refine ⟨hdone.toPath.trans (examined_path _), fun hl _ => State.headAhead.endsAhead ?_⟩
  exact activateFirst_headAhead (skipWindows_headAhead (happlied.moves.keeps_listLaw hl) (applyIf_headAhead (endByTime_headAhead s)))

/-! ### The positions of a cycle (R50, R59) -/

theorem takeFault_capture_none {kind : FaultKind} {cap : Option CapturePart} {s : State} (h : s.sl.capture = none) :
    (takeFault kind cap s).sl.capture = none := by
  unfold takeFault
  dsimp only
  split
  · simpa using h
  · split
    · simpa using h
    · rw [pushFrame_eq, raiseAll_sl]
      have hs : (suspended kind cap s).sl.capture = none := by
        unfold suspended
        split_ifs
        · rfl
        · simpa [pushedFrame] using h
        · exact h
      split
      · simpa using hs
      · exact hs

theorem judgeRecord_capture_none {r : CRecord} {s : State} (h : s.sl.capture = none) : (judgeRecord r s).sl.capture = none := by
  have hraised : ∀ (P : Prop) [Decidable P] (judged : State) (k : Option CapturePart), judged.sl.capture = none →
      (if P then takeFault .overprotection k judged else judged).sl.capture = none := by
    intro P _ judged k hj
    split
    · exact takeFault_capture_none hj
    · exact hj
  unfold judgeRecord
  split
  · exact hraised _ _ _ h
  · exact h

/-- A completed capture is no longer in progress (R87). -/
theorem completeCapture_capture (s : State) : (completeCapture s).sl.capture = none := by
  unfold completeCapture
  split
  · exact judgeRecord_capture_none rfl
  · rfl

theorem beginCycle_turn (s : State) : Turn s (beginCycle s) := by
  unfold beginCycle
  dsimp only
  split
  case isTrue h => exact Act.synced.turn.trans (openCapture_turn (List.isEmpty_iff.mp h.1))
  case isFalse => exact Act.synced.turn

theorem demandStands_congr {s t : State} (h : s.demandStands) (hd : t.sl.demand = s.sl.demand) (hk : t.sk.stack = s.sk.stack)
    (hr : t.sl.windows = s.sl.windows) (hp : t.sl.profiles = s.sl.profiles) (hpos : t.moment.positions = s.moment.positions) :
    t.demandStands := by
  simpa only [State.demandStands, State.phaseSettled, State.wantsOpen_congr hr hp hk, hd, hpos] using h

theorem sync_demandStands (s : State) : (sync s).demandStands := fun _ => by
  have hw : (sync s).wantsOpen = s.wantsOpen := State.wantsOpen_congr rfl rfl rfl
  rw [sync_demand, hw]
  cases s.wantsOpen <;> simp

theorem setWindowStatus_demand (w : MWindow) (v : WStatus) (s : State) : (s.setWindowStatus w v).sl.demand = s.sl.demand := rfl

theorem openWindow_demand (w : MWindow) (s : State) : (openWindow w s).sl.demand = s.sl.demand := by
  unfold openWindow
  dsimp only
  split
  · split
    · rfl
    · rw [offerTo_sl]; rfl
  · rfl

theorem openCapture_demand (entry : Nat) (b : Bool) (s : State) : (openCapture entry b s).sl.demand = s.sl.demand := by
  unfold openCapture
  dsimp only
  split
  · rfl
  · split_ifs <;> simp only [openWindow_demand]

theorem beginCycle_demandStands (s : State) : (beginCycle s).demandStands := by
  unfold beginCycle
  dsimp only
  split
  · exact demandStands_congr (sync_demandStands s) (openCapture_demand _ _ _) (by simp) (by simp) (by simp) (by simp)
  · exact sync_demandStands s

theorem headAhead_congr {s t : State} (h : s.headAhead) (hw : t.sl.windows = s.sl.windows) (htb : t.tb = s.tb) : t.headAhead := by
  simpa only [State.headAhead, hw, htb] using h

/-- A cycle boundary (R59): whatever the demand was, it follows the phase afterwards. -/
theorem cycleBoundary_moves (s : State) :
    Moves s (cycleBoundary s) ∧ (cycleBoundary s).demandStands ∧ (ListLaw s → s.endsAhead → (cycleBoundary s).endsAhead) := by
  have hcompleted := completeCapture_turn s
  unfold cycleBoundary
  dsimp only
  set completed := completeCapture s with hc
  have hended : Turn completed (if s.moment.exam = true then endByTime completed else completed) := by
    split
    · exact Act.endedByTime.turn
    · exact .refl _
  set ended := if s.moment.exam = true then endByTime completed else completed with he
  have hcap : ended.sl.capture = none := by
    rw [he]
    split
    · simpa using completeCapture_capture s
    · exact completeCapture_capture s
  have hremoved : Turn ended (removeEnding ended) := Act.turn (Act.endingRemoved hcap)
  set removed := removeEnding ended
  have happlied : Turn removed (if removed.sk.stack.isEmpty = true ∨ s.moment.exam = true then applyPoint true removed else removed) :=
    applyIf_turn _ _ _
  set applied := if removed.sk.stack.isEmpty = true ∨ s.moment.exam = true then applyPoint true removed else removed with ha
  have hexamined : Turn applied (if s.moment.exam = true then activateFirst (skipWindows applied) else applied) := by
    split
    · exact (skipWindows_turn _).trans (activateFirst_turn _)
    · exact .refl _
  set examined := if s.moment.exam = true then activateFirst (skipWindows applied) else applied with hx
  have hturn := ((hcompleted.trans hended).trans hremoved).trans happlied
  refine ⟨((hturn.trans hexamined).moves.trans (examined_path _).moves).trans (beginCycle_turn _).moves,
    beginCycle_demandStands _, fun hl hahead => ?_⟩
  have hl1 := hcompleted.moves.keeps_listLaw hl
  have hendedAhead : ended.headAhead := by
    rw [he]
    split
    case isTrue => exact endByTime_headAhead _
    case isFalse hexam =>
      have hs : s.headAhead := fun w hw hwa => (hahead w hw hwa).resolve_right hexam
      exact headAhead_congr hs (by simp [hc]) (by simp [hc])
  have happliedAhead : applied.headAhead :=
    applyIf_headAhead (removeEnding_headAhead (hended.moves.keeps_listLaw hl1) hendedAhead)
  have hexaminedAhead : examined.headAhead := by
    rw [hx]
    split
    · exact activateFirst_headAhead (skipWindows_headAhead (hturn.moves.keeps_listLaw hl) happliedAhead)
    · exact happliedAhead
  exact (headAhead_congr hexaminedAhead (by simp) (by simp)).endsAhead

/-- The off edge (R58): the demand follows the phase afterwards. -/
theorem offEdge_turn (s : State) : Turn s (offEdge s) := by
  unfold offEdge
  dsimp only
  split
  · exact (offEdgeNotice_turn s).trans Act.synced.turn
  · exact Act.synced.turn

theorem takePosition_moves (p : Position) (s : State) :
    Moves s (takePosition p s) ∧ (ListLaw s → s.endsAhead → (takePosition p s).endsAhead) := by
  cases p with
  | boundary => exact ⟨(cycleBoundary_moves s).1, (cycleBoundary_moves s).2.2⟩
  | opens w => exact ⟨(openWindow_turn w s).moves, (openWindow_turn w s).ahead⟩
  | closes w => exact ⟨(closeWindow_turn w s).moves, (closeWindow_turn w s).ahead⟩
  | offEdge => exact ⟨(offEdge_turn s).moves, (offEdge_turn s).ahead⟩

theorem takeNext_turn (s : State) : Turn s (takeNext s) := by
  unfold takeNext
  split
  case h_1 => exact .refl s
  case h_2 p ps hp =>
    have hdropped : Moves s { s with moment := { s.moment with positions := ps } } := (Shift.positionTaken hp).moves
    obtain ⟨hmoves, hahead⟩ := takePosition_moves p { s with moment := { s.moment with positions := ps } }
    refine ⟨⟨hdropped.trans hmoves, ?_⟩, fun hl h => hahead hl h⟩
    -- a measurement window's position moves no switch, and the two others set the demand themselves
    have hwindow (h : Turn { s with moment := { s.moment with positions := ps } }
        (takePosition p { s with moment := { s.moment with positions := ps } })) (hb : p ≠ .boundary) (ho : p ≠ .offEdge) :
        SettingsLaw s → ListLaw s → DemandLaw s → s.demandStands →
          (takePosition p { s with moment := { s.moment with positions := ps } }).demandStands := fun h1 h2 h3 h4 =>
      h.stands h1 h2 h3 fun ⟨hnb, hno⟩ => h4
        ⟨by rw [hp]; exact List.not_mem_cons_of_ne_of_not_mem hb.symm hnb,
          by rw [hp]; exact List.not_mem_cons_of_ne_of_not_mem ho.symm hno⟩
    cases p with
    | boundary => exact fun _ _ _ _ => (cycleBoundary_moves _).2.1
    | opens w => exact hwindow (openWindow_turn w _) (by simp) (by simp)
    | closes w => exact hwindow (closeWindow_turn w _) (by simp) (by simp)
    | offEdge => exact fun _ _ _ _ => sync_demandStands _

theorem takeSome_turn (n : Nat) (s : State) : Turn s (takeSome n s) := by
  induction n generalizing s with
  | zero => exact .refl s
  | succ n ih => exact (takeNext_turn s).trans (ih _)

theorem takeThrough_turn (p : Position) (s : State) : Turn s (takeThrough p s) := by
  unfold takeThrough
  split
  · exact takeSome_turn _ s
  · exact .refl s

theorem finishTimeline_turn (s : State) : Turn s (finishTimeline s) := by
  unfold finishTimeline
  dsimp only
  split
  · exact (takeSome_turn _ s).trans (examineSecond_turn _)
  · exact takeSome_turn _ s

theorem rephaseWindow_turn (p : Profile) (φ : Nat) (w : MWindow) (s : State) : Turn s (rephaseWindow p φ w s) := by
  unfold rephaseWindow
  split
  · exact (setWindowStatus_turn w .missed s).trans (measuring_turn (by simp))
  · split_ifs
    · exact setWindowStatus_turn w .missed s
    · exact openWindow_turn w s
    · exact .refl s
  · exact .refl s

theorem rephase_turn (s : State) : Turn s (rephase s) := by
  unfold rephase
  split
  case h_1 => exact .refl s
  case h_2 w c ha =>
    dsimp only
    have hmoved := Act.turn (Act.rephased (n := (derive (s.profileOf w) c s.tb.seconds s.tb.tick).1)
      (e := elapsed c s.tb.seconds s.tb.tick) ha)
    split
    · exact hmoved
    · split
      · refine ((hmoved.trans ?_).trans (rephaseWindow_turn _ _ _ _)).trans (rephaseWindow_turn _ _ _ _)
        exact captureGoes_turn (a := (sync (s.setPair _ _)).cl.assembly) Option.isSome_map rfl
      · have hcut := hmoved.trans (cutShort_turn _)
        split
        case isTrue hk => exact hcut.trans (openCapture_turn (List.isEmpty_iff.mp hk))
        case isFalse => exact hcut

theorem endSuspension_turn {s : State} (hk : s.sk.stack = []) : Turn s (endSuspension s) := by
  unfold endSuspension
  split
  · exact .refl s
  · split
    · exact Act.synced.turn
    · exact Act.synced.turn.trans (openCapture_turn hk)

end Sys2Proof.Machine
end

