-- ==== Sys2Proof/Proofs/TimebaseTurns.lean ====
section
/-! Tick notices, the wrap, the staged time and pulse edges as chains of moves. -/

namespace Sys2Proof.Machine

/-! ### Tick notices (R1, R2) -/

theorem State.wrapAway_congr {s t : State} (h : s.wrapAway) (hw : t.moment.wrap = s.moment.wrap) (ht : t.tb.tick = s.tb.tick) :
    t.wrapAway := by simpa only [State.wrapAway, hw, ht] using h

theorem Link.notice_keeps_law {k : Link} (h : LinkLaw k) : LinkLaw k.notice := by
  obtain ⟨⟨hhunt, hlength, hpayload, hcheck⟩, hgap, hrest⟩ := h
  refine ⟨⟨fun hr => ?_, hlength, hpayload, hcheck⟩, ?_, hrest⟩
  · obtain ⟨hp, hg⟩ := hhunt hr
    exact ⟨hp, by rw [Link.notice]; dsimp only; rw [if_pos (show k.rx = .hunt from hr), hg]⟩
  · rw [Link.notice]
    dsimp only
    split <;> omega

theorem linksMap_turn {f : Link → Link} (hf : ∀ k, LinkLaw k → LinkLaw (f k)) (s : State) :
    Turn s { s with lc := { s.lc with links := s.lc.links.map f } } := onLinks_turn hf s

theorem hsNotice_turn (x : Vector Int 8) (s : State) : Turn s { s with hs := s.hs.notice x } := by
  unfold Hs.notice
  split
  · exact .refl s
  · split
    case isTrue hn =>
      refine scan_turn (fun h => ⟨h.1, h.2.1, fun m hm => ?_⟩) id
      rw [Option.mem_some_iff] at hm
      rw [Config.scanTicks] at hn
      omega
    case isFalse => exact .refl s

theorem nsNotice_turn (s : State) : Turn s { s with ns := s.ns.notice } :=
  Act.turn (Act.store fun h => by
    obtain ⟨hsnap, hqueue, himage, hwrite⟩ := h
    refine ⟨hsnap, hqueue, himage, fun w hw => ?_⟩
    obtain ⟨v, hv, rfl⟩ := Option.map_eq_some_iff.mp hw
    exact hwrite v hv)

theorem timebase_turn {s : State} {x : Tb} (ht : x.tick = s.tb.tick) (hs : x.seconds = s.tb.seconds) (h : TbLaw s.tb → TbLaw x)
    (hl : x.holdoverLimit = s.tb.holdoverLimit) : Turn s { s with tb := x } := (Act.timebase ht hs h (.inl hl)).turn

theorem beginMoment_turn (x : Samples) (b : Bool) (s : State) : Turn s (beginMoment x b s) := by
  let s1 : State := { s with mu := s.mu.notice x }
  let s2 : State := { s1 with hs := s.hs.notice x.scan }
  let s3 : State := { s2 with lc := { s.lc with links := s.lc.links.map Link.notice } }
  let s4 : State := { s3 with ns := s.ns.notice }
  let s5 : State := { s4 with cl := { s.cl with assembly := s.cl.assembly.map fun a => { a with closedNow := false } } }
  let s6 : State := { s5 with tb := { s.tb with edgeAge := min (s.tb.edgeAge + 1) Config.maxEdgeAge } }
  have h1 : Turn s s1 := measuring_turn rfl
  have h2 : Turn s1 s2 := hsNotice_turn x.scan s1
  have h3 : Turn s2 s3 := linksMap_turn (fun _ => Link.notice_keeps_law) s2
  have h4 : Turn s3 s4 := nsNotice_turn s3
  have h5 : Turn s4 s5 := captureGoes_turn (c := s.sl.capture) rfl Option.isSome_map
  have h6 : Turn s5 s6 := timebase_turn rfl rfl (fun ⟨ht, hs, _, hrest⟩ => ⟨ht, hs, Nat.min_le_right _ _, hrest⟩) rfl
  have h7 : Turn s6 (beginMoment x b s) := marks_turn (.inr rfl) rfl rfl
  exact (((((h1.trans h2).trans h3).trans h4).trans h5).trans h6).trans h7

@[simp] theorem beginMoment_wrap (x : Samples) (b : Bool) (s : State) : (beginMoment x b s).moment.wrap = none := rfl

theorem handNotice_turn {x : Samples} {s : State} (hw : s.wrapAway) : Turn s (handNotice x s) := by
  refine ((Act.notice hw).turn.trans (offerCode_turn (convert x.pot) _)).trans ?_
  exact marks_turn (.inl rfl) rfl rfl

theorem countTick_turn {x : Samples} {s : State} (ht : s.tb.tick + 1 < 2400) : Turn s (countTick x s) := by
  let begun := beginMoment x (isRegulationCount (s.tb.tick + 1)) s
  have hcounted : Turn begun { begun with tb := { begun.tb with tick := s.tb.tick + 1 } } :=
    Act.turn (Act.tickCount ht (.inl rfl))
  exact ((beginMoment_turn x _ s).trans hcounted).trans (handNotice_turn (.inl rfl))

/-! ### Timebase states and the staged time (R3, R10 to R12, R17 to R19) -/

theorem enterTb_turn (st : TbState) (s : State) : Turn s (enterTb st s) :=
  .trans (t := { s with tb := { s.tb with state := st } }) (timebase_turn rfl rfl id rfl) (raiseAll_turn _ _)

theorem holdoverSec_turn {s : State} {n : Nat} (hn : n < 4294967296) : Turn s { s with tb := { s.tb with holdoverSec := n } } :=
  timebase_turn rfl rfl (fun ⟨ht, hs, he, _, hrest⟩ => ⟨ht, hs, he, hn, hrest⟩) rfl

theorem enterHoldover_turn (s : State) : Turn s (enterHoldover s) := by
  unfold enterHoldover
  split
  · exact (holdoverSec_turn (by decide)).trans (enterTb_turn _ _)
  · exact .refl s

theorem enterLostNow_turn (s : State) : Turn s (enterLostNow s) := by
  unfold enterLostNow
  split
  · have hentered : Turn s (enterTb .lost { s with moment := { s.moment with lost := false } }) :=
      .trans (t := { s with moment := { s.moment with lost := false } }) (marks_turn (.inl rfl) rfl rfl) (enterTb_turn _ _)
    dsimp only
    split
    · exact hentered.trans (takeFault_turn _ _ _)
    · exact hentered
  · exact .refl s

theorem advanceHoldover_turn (s : State) : Turn s (advanceHoldover s) := by
  unfold advanceHoldover
  split
  · refine .trans (t := { s with tb := { s.tb with holdoverSec := min (s.tb.holdoverSec + 1) (Config.count32 - 1) } })
      (holdoverSec_turn ?_) ?_
    · rw [Config.count32]; omega
    · exact marks_turn (.inl rfl) rfl rfl
  · exact .refl s

/-- What follows on the staged time in the count. -/
theorem applyStaged_turn_after {s : State} {st : StagedTime} (b : Bool) (h : s.tb.staged = some st) :
    Turn { s with tb := { s.tb with seconds := st.value, tick := 0, staged := none } } (applyStaged b s) := by
  unfold applyStaged
  rw [h]
  dsimp only
  have hset := raiseAll_turn .timeSet { s with tb := { s.tb with seconds := st.value, tick := 0, staged := none } }
  set set := raiseAll .timeSet { s with tb := { s.tb with seconds := st.value, tick := 0, staged := none } }
  have hnamed : Turn set (if s.tb.state = .unset then
      enterTb (if b = true then .locked else .holdover) { set with tb := { set.tb with holdoverSec := 0 } } else set) := by
    split
    · exact (holdoverSec_turn (by decide)).trans (enterTb_turn _ _)
    · exact .refl set
  refine (hset.trans hnamed).trans ?_
  generalize (if s.tb.state = .unset then
      enterTb (if b = true then .locked else .holdover) { set with tb := { set.tb with holdoverSec := 0 } } else set) = named
  split_ifs
  · exact .refl named
  · exact rephase_turn named
  · exact (takeFault_turn _ _ _).trans Act.outright.turn
  · exact .refl named

theorem applyStaged_turn {s : State} (b : Bool) (hw : s.wrapAway) (he : s.moment.exam = true) : Turn s (applyStaged b s) := by
  cases h : s.tb.staged with
  | none => rw [applyStaged_none b h]; exact .refl s
  | some st => exact (Act.stagedTaken h hw he).turn.trans (applyStaged_turn_after b h)

theorem applyStaged_path {s : State} (b : Bool) (hw : s.wrapAway) : Path s (applyStaged b s) := by
  cases h : s.tb.staged with
  | none => rw [applyStaged_none b h]; exact (Turn.refl s).toPath
  | some st =>
    exact Path.trans ⟨(Shift.stagedTaken h hw).moves, fun _ _ _ hd => hd⟩ (applyStaged_turn_after b h).toPath

/-! ### Second boundaries (R1, R2) -/

/-- The count of a new second, with what TB hands on. -/
theorem newSecond_turn {s : State} (hw : s.wrapAway) :
    Turn s (markSecond { s with tb := { s.tb with tick := 0, seconds := next32 s.tb.seconds } }) := by
  refine ((Act.second hw).turn.trans ?_).trans (startScan_turn _)
  exact marks_turn (.inl rfl) rfl rfl

/-- The count of a new second, with the holdover seconds and what TB hands on. -/
theorem newSecondAdvanced_turn {s : State} (hw : s.wrapAway) :
    Turn s (markSecond (advanceHoldover { s with tb := { s.tb with tick := 0, seconds := next32 s.tb.seconds } })) := by
  unfold advanceHoldover
  split
  · refine (((Act.second hw).turn.trans (holdoverSec_turn (n := min (s.tb.holdoverSec + 1) (Config.count32 - 1)) ?_)).trans
      ?_).trans (startScan_turn _)
    · rw [Config.count32]; omega
    · exact marks_turn (.inl rfl) rfl rfl
  · exact newSecond_turn hw

theorem examineNow_turn (s : State) : Turn s (examineNow s) := by
  unfold examineNow
  split
  · exact examineSecond_turn s
  · exact .refl s

theorem takeWrap_turn (s : State) : Turn s (takeWrap s) := by
  unfold takeWrap
  split
  case h_1 => exact .refl s
  case h_2 x hx =>
    dsimp only
    refine (beginMoment_turn x true s).trans ((newSecondAdvanced_turn (.inl rfl)).trans ?_)
    generalize hm : markSecond (advanceHoldover { beginMoment x true s with
      tb := { (beginMoment x true s).tb with tick := 0, seconds := next32 (beginMoment x true s).tb.seconds } }) = marked
    have hwrap : marked.wrapAway := .inl (by simp [← hm])
    have hexam : marked.moment.exam = true := by rw [← hm]; rfl
    have happlied : Turn marked (if s.tb.state.appliesAtBoundary then applyStaged false marked else marked) := by
      split
      · exact applyStaged_turn false hwrap hexam
      · exact .refl marked
    refine happlied.trans (handNotice_turn (.inl ?_))
    split <;> simp [← hm]

theorem secondBoundaryStep_turn (s : State) : Turn s (secondBoundaryStep s) := (takeWrap_turn s).trans (examineNow_turn _)

theorem regulationStep_turn (riseFirst : Bool) (s : State) : Turn s (regulationStep riseFirst s) := by
  refine (takeWrap_turn s).trans ?_
  unfold regulationStep
  dsimp only
  split
  · exact regulate_turn _ _
  · exact .refl _

/-! ### Pulse edges (R4 to R9) -/

theorem recordEdge_turn (c : Nat) (o : EdgeOutcome) (s : State) : Turn s (recordEdge c o s) := timebase_turn rfl rfl id rfl

theorem regulate_wrap (rise : Bool) (s : State) : (regulate rise s).moment.wrap = s.moment.wrap := by
  have hinner : ∀ f t, (innerLoop f t).moment.wrap = t.moment.wrap := by simp
  unfold regulate
  dsimp only
  split <;> simp <;> unfold takeAverages <;> dsimp only

theorem boundaryAtEdge_turn {s : State} (hw : s.wrapAway) : Turn s (boundaryAtEdge s) := by
  unfold boundaryAtEdge
  dsimp only
  have hended : Turn s (if s.scanDue = true then endScan s else s) ∧ (if s.scanDue = true then endScan s else s).wrapAway := by
    split
    · exact ⟨endScan_turn s, State.wrapAway_congr hw (by simp) (by simp)⟩
    · exact ⟨.refl s, hw⟩
  generalize (if s.scanDue = true then endScan s else s) = ended at hended
  obtain ⟨hended, hw1⟩ := hended
  have hticked : Turn ended (if ended.moment.regTick = true then regulate true ended else ended)
      ∧ (if ended.moment.regTick = true then regulate true ended else ended).wrapAway := by
    split
    · exact ⟨regulate_turn true ended, State.wrapAway_congr hw1 (regulate_wrap _ _) (by simp)⟩
    · exact ⟨.refl ended, hw1⟩
  exact (hended.trans hticked.1).trans (newSecond_turn hticked.2)

@[simp] theorem advanceHoldover_exam (s : State) : (advanceHoldover s).moment.exam = s.moment.exam := by
  unfold advanceHoldover
  split <;> rfl

@[simp] theorem advanceHoldover_tick (s : State) : (advanceHoldover s).tb.tick = s.tb.tick := by
  unfold advanceHoldover
  split <;> rfl

theorem boundaryAtEdge_exam (s : State) : (boundaryAtEdge s).moment.exam = true := rfl

theorem boundaryAtEdge_wrap {s : State} (h : s.moment.wrap = none) : (boundaryAtEdge s).moment.wrap = none := by
  unfold boundaryAtEdge
  dsimp only
  rw [markSecond_moment_wrap]
  split_ifs <;> simp [regulate_wrap, h]

/-! ### Accepted edges (R5, R6, R16, R17) -/

theorem enterIf_turn (P : Prop) [Decidable P] (st : TbState) (s : State) : Turn s (if P then enterTb st s else s) := by
  split
  · exact enterTb_turn st s
  · exact .refl s

theorem enterIf_moment (P : Prop) [Decidable P] (st : TbState) (s : State) : (if P then enterTb st s else s).moment = s.moment := by
  split <;> simp

/-- What an accepted edge does to the counts that it does not correct, and to the moment's code. -/
theorem aligned_turn (n : Option Int) (s : State) : Turn s { s with
    tb := { s.tb with rejectStreak := [], edgeAge := 0, holdoverSec := 0 }, moment := { s.moment with tickCode := n } } := by
  refine .trans (t := { s with tb := { s.tb with rejectStreak := [], edgeAge := 0, holdoverSec := 0 } }) ?_
    (marks_turn (.inl rfl) rfl rfl)
  exact timebase_turn rfl rfl (fun ⟨ht, hs, _, _, _, hst⟩ => ⟨ht, hs, by simp, by simp, by simp, hst⟩) rfl

/-- Where the correction of the count is a turn that leaves no wrap due, so is the edge: a staged time taken away from a second
boundary is followed by an examination of its own (R17, R37). -/
theorem edgeTaken_turn {s : State} {point second : Bool} (hw : s.moment.wrap = none)
    (he : second = true → s.moment.exam = true) :
    Turn s
      (let noticed := tickNotice (if point then applyStaged true s else s)
      if second then noticed else finishTimeline (if point then examineStep noticed else noticed)) := by
  have hwrap : (if point = true then applyStaged true s else s).wrapAway := .inl (by split <;> simp [hw])
  have hnoticed := (Act.notice hwrap).turn
  dsimp only
  split
  case isTrue h =>
    refine Turn.trans ?_ hnoticed
    split
    · exact applyStaged_turn true (.inl hw) (he h)
    · exact .refl s
  case isFalse =>
    cases point with
    | false => exact hnoticed.trans (finishTimeline_turn _)
    | true =>
      have hpath := (applyStaged_path true (.inl hw)).trans hnoticed.toPath
      have hdone := (examineStep_turn (tickNotice (applyStaged true s))).trans (finishTimeline_turn _)
      refine ⟨hpath.trans hdone.toPath, fun hl _ => ?_⟩
      have hlist := hpath.moves.keeps_listLaw hl
      exact (finishTimeline_turn _).ahead ((examineStep_turn _).moves.keeps_listLaw hlist) (examineStep_headAhead hlist).endsAhead

theorem acceptEdge_turn (c : Nat) (s : State) : Turn s (acceptEdge c s) := by
  unfold acceptEdge
  dsimp only
  have hrecorded : Turn s (recordEdge c .accepted { s with moment := { s.moment with
      wrap := none, requeued := if s.moment.wrap.isSome = true then s.moment.requeued else [] } }) :=
    .trans (t := { s with moment := { s.moment with
      wrap := none, requeued := if s.moment.wrap.isSome = true then s.moment.requeued else [] } })
      (marks_turn (.inr rfl) rfl rfl) (recordEdge_turn _ _ _)
  have hnone : (recordEdge c .accepted { s with moment := { s.moment with
      wrap := none, requeued := if s.moment.wrap.isSome = true then s.moment.requeued else [] } }).moment.wrap = none := by simp
  generalize recordEdge c .accepted { s with moment := { s.moment with
      wrap := none, requeued := if s.moment.wrap.isSome = true then s.moment.requeued else [] } } = recorded at hrecorded hnone
  refine hrecorded.trans ?_
  have hcorrected : Turn recorded (if decide (c ≥ 2398) = true then boundaryAtEdge recorded
      else { recorded with tb := { recorded.tb with tick := 0 } })
      ∧ (if decide (c ≥ 2398) = true then boundaryAtEdge recorded
        else { recorded with tb := { recorded.tb with tick := 0 } }).moment.wrap = none
      ∧ (decide (c ≥ 2398) = true → (if decide (c ≥ 2398) = true then boundaryAtEdge recorded
        else { recorded with tb := { recorded.tb with tick := 0 } }).moment.exam = true) := by
    split
    · exact ⟨boundaryAtEdge_turn (.inl hnone), boundaryAtEdge_wrap hnone, fun _ => boundaryAtEdge_exam _⟩
    · exact ⟨Act.turn (Act.tickCount (by decide) (.inl hnone)), hnone, fun h => absurd h ‹_›⟩
  generalize (if decide (c ≥ 2398) = true then boundaryAtEdge recorded
      else { recorded with tb := { recorded.tb with tick := 0 } }) = corrected at hcorrected
  obtain ⟨hcorrected, hw, he⟩ := hcorrected
  refine hcorrected.trans ((aligned_turn (if c = 0 then corrected.moment.tickCode else none) corrected).trans
    ((enterIf_turn (s.tb.state = .holdover ∨ s.tb.state = .lost) .locked _).trans ?_))
  exact edgeTaken_turn (by rw [enterIf_moment]; exact hw) (by rw [enterIf_moment]; exact he)

/-! ### Rejected edges (R7 to R9) -/

/-- The count re-aligned, with the streak already empty. -/
theorem realigned_turn (c : Nat) (before : TbState) {s : State} (ht : s.tb.tick ≠ 2399) :
    Turn s
      (if c ≥ 1200 then
        let stepped := rephase (raiseAll .timing (advanceHoldover (boundaryAtEdge s)))
        if before.appliesAtBoundary then applyStaged false stepped else stepped
      else rephase (raiseAll .timing { s with tb := { s.tb with tick := 0 } })) := by
  split
  · refine (boundaryAtEdge_turn (.inr ht)).trans ?_
    have htick : (boundaryAtEdge s).tb.tick = 0 := rfl
    have hexam := boundaryAtEdge_exam s
    generalize boundaryAtEdge s = second at htick hexam
    have hstepped := ((advanceHoldover_turn second).trans (raiseAll_turn .timing _)).trans (rephase_turn _)
    dsimp only
    split
    · refine hstepped.trans (applyStaged_turn false (.inr ?_) ?_)
      · rw [rephase_tb, raiseAll_tb, advanceHoldover_tick, htick]; decide
      · rw [rephase_moment, raiseAll_moment, advanceHoldover_exam, hexam]
    · exact hstepped
  · have hcounted : Turn s { s with tb := { s.tb with tick := 0 } } := Act.turn (Act.tickCount (by decide) (.inr ht))
    exact hcounted.trans ((raiseAll_turn _ _).trans (rephase_turn _))

theorem realign_turn (c : Nat) {s : State} (ht : s.tb.tick ≠ 2399) : Turn s (realign c s) := by
  have hemptied : Turn s { s with
      tb := { s.tb with rejectStreak := [] }, moment := { s.moment with tickCode := none, requeued := [] } } := by
    refine .trans (t := { s with tb := { s.tb with rejectStreak := [] } }) ?_ (marks_turn (.inl rfl) rfl rfl)
    exact timebase_turn rfl rfl (fun ⟨ht, hs, he, hh, _, hst⟩ => ⟨ht, hs, he, hh, by simp, hst⟩) rfl
  exact hemptied.trans (realigned_turn c s.tb.state ht)

theorem streak_turn {s : State} {streak : List Nat} (h : TbLaw s.tb → streak.length ≤ 2 ∧ ∀ c ∈ streak, c < 2400) :
    Turn s { s with tb := { s.tb with rejectStreak := streak } } :=
  timebase_turn rfl rfl (fun hl => ⟨hl.1, hl.2.1, hl.2.2.1, hl.2.2.2.1, h hl, hl.2.2.2.2.2⟩) rfl

theorem rejectEdge_turn {s : State} (ht : s.tb.tick ≠ 2399) : Turn s (rejectEdge s.tb.tick s) := by
  unfold rejectEdge
  dsimp only
  have hcounts : TbLaw s.tb → ∀ c ∈ s.tb.rejectStreak ++ [s.tb.tick], c < 2400 := fun hl c hc => by
    obtain ⟨htick, -, -, -, ⟨-, hstreak⟩, -⟩ := hl
    rcases List.mem_append.mp hc with hc | hc
    · exact hstreak c hc
    · rwa [List.mem_singleton.mp hc]
  refine (recordEdge_turn s.tb.tick .rejected s).trans ?_
  split
  case isTrue hlen => exact streak_turn fun hl => ⟨by omega, hcounts hl⟩
  case isFalse =>
    split
    · exact realign_turn _ ht
    · refine streak_turn fun hl => ⟨by rw [List.length_drop]; omega, fun c hc => hcounts hl c (List.mem_of_mem_drop hc)⟩

theorem pulseEdgeStep_turn (s : State) : Turn s (pulseEdgeStep s) := by
  unfold pulseEdgeStep
  dsimp only
  refine ((enterLostNow_turn s).trans (finishTimeline_turn _)).trans ?_
  split
  case isTrue => exact acceptEdge_turn _ _
  case isFalse h =>
    refine rejectEdge_turn fun ht => h ?_
    rw [ht]
    rfl

end Sys2Proof.Machine
end

