-- ==== Sys2Proof/Proofs/CommandTurns.lean ====
section
/-! Link operations, the store, the resets, the commands and the end of a moment as chains of moves. -/

namespace Sys2Proof.Machine

/-! ### Link operations (R186 to R192) -/

theorem Link.err_keeps_law {e : ErrKind} {k : Link} (h : LinkLaw k) : LinkLaw (k.err e) := by
  unfold Link.err
  split
  · exact h
  · exact Link.raise_keeps_law (k := { k with errors := k.errors.setFlag e }) .link h

/-- A receiver back in HUNT, with nothing collected. -/
theorem Link.hunting_law {k : Link} (h : LinkLaw k) : LinkLaw { k with rx := .hunt, partialBytes := [], gap := 0 } := by
  obtain ⟨-, -, hrest⟩ := h
  exact ⟨⟨fun _ => ⟨rfl, rfl⟩, nofun, nofun, nofun⟩, Nat.zero_le 49, hrest⟩

theorem Link.framing_keeps_law {k : Link} (h : LinkLaw k) : LinkLaw k.framing := Link.err_keeps_law (Link.hunting_law h)

theorem Link.offer_keeps_law {k : Link} {p : Bytes} (h : LinkLaw k) (hp : 1 ≤ p.length ∧ p.length ≤ 240) :
    LinkLaw (k.offer p) := by
  unfold Link.offer
  split
  case isTrue hroom =>
    obtain ⟨hrecv, hgap, hlen, hfifo, hatt⟩ := h
    refine ⟨hrecv, hgap, ?_, fun q hq => ?_, hatt⟩
    · rw [Config.maxFifo] at hroom
      rw [List.length_append, List.length_singleton]
      omega
    · rcases List.mem_append.mp hq with hq | hq
      · exact hfifo q hq
      · rwa [List.mem_singleton.mp hq]
  case isFalse => exact Link.err_keeps_law h

theorem Link.receive_keeps_law {b : Byte} {good : Bool} {k : Link} (h : LinkLaw k) : LinkLaw (k.receive b good) := by
  obtain ⟨⟨hhunt, hlength, hpayload, hcheck⟩, hgap, hrest⟩ := id h
  unfold Link.receive
  cases hr : k.rx <;> dsimp only
  case hunt =>
    split
    · exact ⟨⟨nofun, fun _ => rfl, nofun, nofun⟩, Nat.zero_le 49, hrest⟩
    · exact h
  case length =>
    split
    case isTrue hb => exact ⟨⟨nofun, nofun, fun _ => ⟨hb.2.1, hb.2.2, hb.2.1⟩, nofun⟩, Nat.zero_le 49, hrest⟩
    case isFalse => exact Link.framing_keeps_law h
  case payload =>
    split
    case isTrue =>
      obtain ⟨hlo, hhi, hlen⟩ := hpayload hr
      have hdeclared : declaredLength (k.partialBytes ++ [b]) = declaredLength k.partialBytes := by
        cases hp : k.partialBytes with
        | nil => rw [hp] at hlo; exact absurd hlo (by decide)
        | cons x xs => rfl
      refine ⟨?_, Nat.zero_le 49, hrest⟩
      rw [hdeclared, List.length_append, List.length_singleton]
      split
      case isTrue hfull =>
        refine ⟨nofun, nofun, nofun, fun _ => ?_⟩
        dsimp only
        rw [hdeclared, List.length_append, List.length_singleton]
        omega
      case isFalse hpart =>
        refine ⟨nofun, nofun, fun _ => ?_, nofun⟩
        dsimp only
        rw [hdeclared, List.length_append, List.length_singleton]
        omega
    case isFalse => exact Link.framing_keeps_law h
  case check =>
    split
    case isTrue =>
      obtain ⟨hlo, hhi, hlen⟩ := hcheck hr
      unfold Link.check
      dsimp only
      split
      · exact Link.offer_keeps_law (Link.hunting_law h) (by rw [List.length_tail]; omega)
      · exact Link.err_keeps_law (Link.hunting_law h)
    case isFalse => exact Link.framing_keeps_law h

theorem Link.expireGap_keeps_law {k : Link} (h : LinkLaw k) : LinkLaw k.expireGap := by
  unfold Link.expireGap
  split
  · exact Link.framing_keeps_law h
  · exact h

theorem Link.sent_keeps_law {k : Link} (h : LinkLaw k) : LinkLaw k.sent := h

theorem Link.finish_keeps_law {k : Link} (h : LinkLaw k) : LinkLaw k.finish := by
  unfold Link.finish
  split <;> exact h

theorem Link.switchRate_keeps_law {k : Link} (h : LinkLaw k) : LinkLaw k.switchRate := by
  unfold Link.switchRate
  split
  · exact h
  · split <;> exact h

theorem Link.respond_keeps_law {code : Nat} {r : Reply} {k : Link} (h : LinkLaw k) : LinkLaw (k.respond code r) := h

theorem Link.tail_keeps_law {k : Link} (h : LinkLaw k) : LinkLaw { k with fifo := k.fifo.tail } := by
  obtain ⟨hrecv, hgap, hlen, hfifo, hatt⟩ := h
  exact ⟨hrecv, hgap, by rw [List.length_tail]; omega, fun p hp => hfifo p (List.mem_of_mem_tail hp), hatt⟩

theorem Link.reattend_law {k : Link} {flags mask : EventSet} (h : LinkLaw k) :
    LinkLaw { k with flags := flags, mask := mask }.reattend := by
  obtain ⟨hrecv, hgap, hlen, hfifo, -⟩ := h
  exact ⟨hrecv, hgap, hlen, hfifo, decide_eq_true_iff⟩

/-! ### The store and the resets (R201 to R205) -/

theorem store_turn {s : State} {x : Ns} (h : SettingsLaw s → SettingsLaw { s with ns := x }) : Turn s { s with ns := x } :=
  (Act.store h).turn

theorem saveDone_turn (s : State) : Turn s (saveDone s) := by
  unfold saveDone
  split
  case h_1 => exact .refl s
  case h_2 w hw =>
    refine .trans (t := { s with ns := { image := w.snapshot, imageGood := true, imageState := .valid, write := none } })
      (store_turn fun h => ?_) (raiseAll_turn _ _)
    obtain ⟨hsnap, hqueue, -, hwrite⟩ := h
    exact ⟨hsnap, hqueue, fun _ => hwrite w hw, fun _ h => nomatch h⟩

theorem beginWrite_turn (rates : PerLink Rate) (s : State) : Turn s (beginWrite rates s) :=
  store_turn fun ⟨hsnap, hqueue, himage, _⟩ => ⟨hsnap, hqueue, himage, fun w hw => by
    obtain rfl := Option.mem_some_iff.mp hw
    exact hsnap⟩

theorem reportImage_turn (s : State) : Turn s (reportImage s) := by
  unfold reportImage
  split
  · exact raiseAll_turn _ s
  · exact .refl s

theorem powerOnStep_turn (s : State) : Turn s (powerOnStep s) := by
  have hon : Turn s (State.powerOn s.ns.cutWrite.verified.loaded s.ns.cutWrite.verified s.pins s.pending) :=
    Act.turn (Act.poweredOn fun h => by
      obtain ⟨hsnap, hqueue, himage, hwrite⟩ := id h
      have hcut : s.ns.cutWrite.imageGood = true → ImageLaw s.ns.cutWrite.image := by
        unfold Ns.cutWrite
        split
        · exact nofun
        · exact himage
      have hnone : s.ns.cutWrite.write = none := by
        unfold Ns.cutWrite
        split
        · rfl
        · exact Option.not_isSome_iff_eq_none.mp ‹_›
      refine ⟨?_, hcut, hnone⟩
      unfold Ns.loaded
      split
      case isTrue hg => exact hcut hg
      case isFalse => exact defaultImage_law)
  exact (hon.trans (reportImage_turn _)).trans (stageCheck_turn _)

theorem releaseReset_turn {s : State} (ho : s.oc.output = .stopped .reset) : Turn s (releaseReset s) := by
  unfold releaseReset
  split_ifs
  · exact stageCheck_turn s
  · exact Act.turn (Act.rampEntered (by simp [ho, Output.drives]) (by simp [ho]) (by simp [ho]))
  · exact .refl s

theorem restartStation_turn (s : State) : Turn s (restartStation s) :=
  (Act.reloaded.turn.trans (releaseReset_turn (by simp [reload]))).trans (reportImage_turn _)

theorem inputs_turn {s : State} {x : Pins} : Turn s { s with pins := x } := Act.inputs.turn

/-! ### What the commands do, as turns -/

/-- A command whose effect is a turn. -/
abbrev Command.turns (cmd : Command) : Prop := ∀ l args s, Turn s (cmd l args s).2

/-- A field of n bytes is below 2 to the power 8 n. -/
theorem fieldU_lt (bs : Bytes) (off n : Nat) : fieldU bs off n < 256 ^ n := by
  have hfold : ∀ (xs : Bytes) (a k : Nat), a < 256 ^ k →
      xs.foldl (fun acc b => acc * 256 + b.toNat) a < 256 ^ (k + xs.length) := by
    intro xs
    induction xs with
    | nil => exact fun a k h => by simpa using h
    | cons x xs ih =>
      intro a k h
      have hx := x.isLt
      have hstep : a * 256 + x.toNat < 256 ^ (k + 1) := by rw [pow_succ]; omega
      have := ih _ (k + 1) hstep
      rwa [List.length_cons, Nat.add_comm xs.length 1, ← Nat.add_assoc]
  calc fieldU bs off n < 256 ^ (0 + ((bs.drop off).take n).length) := hfold _ 0 0 (by decide)
    _ ≤ 256 ^ n := Nat.pow_le_pow_right (by decide) (by simp)

/-! #### Time and windows (R14, R15, R32 to R35) -/

theorem stageTime_turn {l : LinkId} {t : Nat} {s : State} (ht : 1 ≤ t ∧ t < 4294967296) : Turn s (stageTime l t s) := by
  have hstaged : Turn s { s with tb := { s.tb with staged := some ⟨t, l⟩ } } :=
    timebase_turn rfl rfl (fun ⟨h1, h2, h3, h4, h5, _⟩ => ⟨h1, h2, h3, h4, h5, fun st hst => by
      obtain rfl := Option.mem_some_iff.mp hst
      exact ht⟩) rfl
  unfold stageTime
  split
  · exact hstaged
  · exact hstaged.trans (raiseOn_turn _ _ _)

theorem setTimeTest_none {l : LinkId} {args : Bytes} {s : State} (h : setTimeTest l args s = none) :
    (fieldBit args 0 0 = true → fieldU args 1 4 ≠ 0)
      ∧ (fieldBit args 0 1 = true → 10 ≤ fieldU args 5 4 ∧ fieldU args 5 4 ≤ 86400) := by
  simp only [setTimeTest] at h
  split_ifs at h with hb hl hr
  push Not at hr
  exact ⟨hr.1, fun h1 => ⟨(hr.2.1 h1).1, (hr.2.1 h1).2⟩⟩

theorem cmdSetTime_turns : Command.turns cmdSetTime := by
  intro l args s
  unfold cmdSetTime
  split
  case h_1 => exact .refl s
  case h_2 htest =>
    obtain ⟨hvalue, hlimit⟩ := setTimeTest_none htest
    dsimp only
    have hlimited : Turn s (if fieldBit args 0 1 = true then { s with tb := { s.tb with holdoverLimit := fieldU args 5 4 } } else s) := by
      split
      case isTrue h => exact Act.turn (Act.timebase rfl rfl id (.inr (hlimit h)))
      case isFalse => exact .refl s
    generalize (if fieldBit args 0 1 = true then { s with tb := { s.tb with holdoverLimit := fieldU args 5 4 } } else s) = limited at hlimited
    have hacting : Turn limited (if fieldBit args 0 2 = true then
        { limited with tb := { limited.tb with lossAction := (LossAction.ofCode (fieldU args 9 1)).getD s.tb.lossAction } }
        else limited) := by
      split
      · exact timebase_turn rfl rfl id rfl
      · exact .refl limited
    refine hlimited.trans (hacting.trans ?_)
    generalize (if fieldBit args 0 2 = true then
        { limited with tb := { limited.tb with lossAction := (LossAction.ofCode (fieldU args 9 1)).getD s.tb.lossAction } }
        else limited) = acting
    split
    case isTrue h => exact stageTime_turn ⟨Nat.one_le_iff_ne_zero.mpr (hvalue h), fieldU_lt args 1 4⟩
    case isFalse => exact .refl _

theorem placeWindow_turn {l : LinkId} {a b : Nat} {p : Fin 8} {s : State} (ha : 1 ≤ a) (hab : a < b)
    (hm : (s.sl.windows.any fun w => w.meets a b) = false) (hn : s.sl.windows.length < 16) : Turn s (placeWindow l a b p s) :=
  (Act.windowPlaced ha hab hm hn).turn.trans Act.noticed.turn

theorem cmdAddWindow_turns : Command.turns cmdAddWindow := by
  intro l args s
  unfold cmdAddWindow
  split
  case h_1 => exact .refl s
  case h_2 htest =>
    simp only [addWindowTest] at htest
    split_ifs at htest with hb hl hu hpast hrange hmeets hfull
    rw [Config.maxWindows] at hfull
    exact placeWindow_turn (by omega) (by omega) (Bool.eq_false_iff.mpr hmeets) (by omega)

theorem deleteWindow_turn {w : WindowRec} {s : State} (hw : w ∈ s.sl.windows) : Turn s (deleteWindow w s) := by
  unfold deleteWindow
  split
  case isTrue hlife =>
    have hdropped : Turn s { s with sl := { s.sl with windows := s.sl.windows.filter fun x => decide (x.id ≠ w.id) } } :=
      Act.turn (Act.scheduledDropped fun hl v hv hid => by
        have heq : v.id = w.id := by simpa using hid
        have hids : (s.sl.windows.map WindowRec.id).Nodup := List.pairwise_map.mpr (hl.2.1.imp fun h => h.2)
        rw [List.inj_on_of_nodup_map hids hv hw heq, hlife])
    exact hdropped.trans Act.noticed.turn
  case isFalse => exact Act.windowCut.turn

theorem cmdDeleteWindow_turns : Command.turns cmdDeleteWindow := by
  intro l args s
  unfold cmdDeleteWindow
  split_ifs
  · exact .refl s
  · exact .refl s
  · split
    case h_1 => exact .refl s
    case h_2 w hw => exact deleteWindow_turn (List.mem_of_find?_eq_some hw)

/-! #### The change queue (R139 to R143) -/

theorem Setting.taken_acceptsExact {x : Setting} {r : RegSettings} {v w : Int} (hr : RegLaw r) (h : x.taken r v = some w) :
    x.acceptsExact w = true := by
  unfold Setting.taken at h
  split at h
  case isFalse => cases h
  case isTrue hrange =>
    cases x with
    | reg t =>
      obtain rfl := Option.some.inj h
      cases t <;>
        simp [Setting.acceptsExact, Setting.range, RegTarget.range, Range.has_iff, RegTarget.clamped, RegLaw, clampTo,
          Config.currentRating, Config.voltageRating] at hr hrange ⊢ <;> omega
    | profile f i =>
      obtain rfl := Option.some.inj h
      cases f <;>
        simp [Setting.acceptsExact, Setting.range, ProfileField.range, ProfileField.isDuration, Range.has_iff] at hrange ⊢ <;> omega

/-- A queue and the settings that wait no more, put in place with no frame held. -/
theorem entered_turn {s : State} {q : List QEntry} {r : List Setting} (hk : s.sk.stack = [])
    (hq : QueueLaw s → q.length ≤ 4 ∧ distinctSettings q)
    (hs : SettingsLaw s → ∀ e ∈ q, e.setting.acceptsExact e.value = true) :
    Turn s { s with cq := { queue := q }, moment := { s.moment with requeued := r } } := by
  have hqueued : Turn s { s with cq := { queue := q } } :=
    Act.turn (Act.queue (fun h => by
      obtain ⟨hlen, hdist⟩ := hq h
      obtain ⟨-, -, -, hrest⟩ := h
      exact ⟨hlen, hdist, fun hne => absurd hk hne, hrest⟩) hs)
  exact hqueued.trans (marks_turn (.inl rfl) rfl rfl)

theorem changesHeld_false {s : State} (h : s.changesHeld = false) : s.sk.stack = [] ∧ s.oc.output ≠ .lockout := by
  simpa [State.changesHeld] using h

theorem enqueue_turn {l : LinkId} {x : Setting} {v : Int} {b : Bool} {s : State} (hk : s.sk.stack = [])
    (hv : SettingsLaw s → x.acceptsExact v = true) : Turn s (enqueue l x v b s).2 := by
  have hqueue : SettingsLaw s → ∀ e ∈ s.cq.queue, e.setting.acceptsExact e.value = true := fun h => h.2.1
  unfold enqueue
  dsimp only
  split
  case h_1 i hi =>
    rw [Cq.position, List.findIdx?_eq_some_iff_getElem] at hi
    obtain ⟨hlt, hsame, -⟩ := hi
    rw [decide_eq_true_eq] at hsame
    have hsettings : (s.cq.queue.set i ⟨x, v, l⟩).map QEntry.setting = s.cq.queue.map QEntry.setting := by
      rw [List.map_set, ← hsame, ← List.getElem_map QEntry.setting, List.set_getElem_self]
      simpa using hlt
    have hreplaced : Turn s { s with
        cq := { queue := s.cq.queue.set i ⟨x, v, l⟩ }
        moment := { s.moment with requeued := s.moment.requeued.filter fun y => decide (y ≠ x) } } := by
      refine entered_turn hk (fun ⟨hlen, hdist, _⟩ => ⟨by rwa [List.length_set], ?_⟩) fun hset e he => ?_
      · rw [distinctSettings, ← List.pairwise_map (f := QEntry.setting) (R := (· ≠ ·)), hsettings, List.pairwise_map]
        exact hdist
      · rcases List.mem_or_eq_of_mem_set he with he | rfl
        · exact hqueue hset e he
        · exact hv hset
    dsimp only
    split
    · exact hreplaced
    · exact hreplaced.trans (raiseOn_turn _ _ _)
  case h_2 hi =>
    split
    case isTrue => exact .refl s
    case isFalse hroom =>
      rw [Config.maxQueue] at hroom
      refine entered_turn hk (fun ⟨hlen, hdist, _⟩ => ⟨by rw [List.length_append, List.length_singleton]; omega, ?_⟩) fun hset e he => ?_
      · rw [distinctSettings, List.pairwise_append]
        refine ⟨hdist, List.pairwise_singleton _ _, fun a ha b hb => ?_⟩
        rw [List.mem_singleton.mp hb]
        rw [Cq.position, List.findIdx?_eq_none_iff] at hi
        simpa using hi a ha
      · rcases List.mem_append.mp he with he | he
        · exact hqueue hset e he
        · rw [List.mem_singleton.mp he]
          exact hv hset

theorem cmdChange_turns : Command.turns cmdChange := by
  intro l args s
  unfold cmdChange
  split
  · exact .refl s
  · split
    · exact .refl s
    · split
      case h_1 => exact .refl s
      case h_2 v hv =>
        split
        case isTrue => exact .refl s
        case isFalse hheld =>
          split
          · exact .refl s
          · exact enqueue_turn (changesHeld_false (Bool.eq_false_iff.mpr hheld)).1 fun h =>
              Setting.taken_acceptsExact (settingsLaw_iff.mp h).1 hv

theorem queueSublist_turn {s : State} {q : List QEntry} (h : q.Sublist s.cq.queue) : Turn s { s with cq := { queue := q } } :=
  Act.turn (Act.queue (fun ⟨hlen, hdist, hheld, hrest⟩ => ⟨h.length_le.trans hlen, hdist.sublist h, fun hne => by
    have := hheld hne
    rw [this] at h
    exact List.sublist_nil.mp h, hrest⟩) fun hs e he => hs.2.1 e (h.subset he))

theorem cmdCancelChange_turns : Command.turns cmdCancelChange := by
  intro l args s
  unfold cmdCancelChange
  split_ifs
  · exact .refl s
  · exact .refl s
  · split
    · exact .refl s
    · split
      · exact .refl s
      · exact (queueSublist_turn List.eraseP_sublist).trans (raiseOn_turn _ _ _)

/-! #### The output (R123, R124) -/

theorem setAutoRestart_turn (a : Option Bool) (s : State) : Turn s (setAutoRestart a s) := by
  unfold setAutoRestart
  split
  · exact .refl s
  · exact restartFlags_turn (p := s.oc.restartPending)

theorem startOutput_turn (s : State) : Turn s (startOutput s) := by
  unfold startOutput
  split
  case h_1 c hc =>
    split
    · exact Act.turn (Act.rampEntered (by simp [hc, Output.drives]) (by simp [hc]) (by simp [hc]))
    · exact restartFlags_turn (a := s.oc.autoRestart)
  all_goals exact .refl s

theorem cmdStart_turns : Command.turns cmdStart := by
  intro l args s
  unfold cmdStart
  split
  · exact .refl s
  · split
    · exact .refl s
    split
    · exact .refl s
    · split
      · exact .refl s
      · split
        · exact .refl s
        · exact (setAutoRestart_turn _ s).trans (startOutput_turn _)

theorem stopOutput_turn (s : State) : Turn s (stopOutput s) := by
  have hcleared : Turn s { s with oc := { s.oc with restartPending := false } } := restartFlags_turn (a := s.oc.autoRestart)
  have hstopped (hl : s.oc.output ≠ .lockout) (hh : s.oc.output ≠ .held) :
      Turn s (changeOutput (.stopped .command) { s with oc := { s.oc with restartPending := false } }) :=
    hcleared.trans (Act.turn (Act.outputStops (.inr ⟨_, rfl⟩) hl fun h => absurd h hh))
  unfold stopOutput
  dsimp only
  split
  case h_1 h => exact hstopped (by simp [h]) (by simp [h])
  case h_2 h => exact hstopped (by simp [h]) (by simp [h])
  case h_3 h => exact hstopped (by simp [h]) (by simp [h])
  all_goals exact hcleared

theorem cmdStop_turns : Command.turns cmdStop := by
  intro l args s
  unfold cmdStop
  split_ifs
  · exact .refl s
  · exact .refl s
  · split
    · exact .refl s
    · exact (setAutoRestart_turn _ s).trans (stopOutput_turn _)

/-! #### Channels and calibration (R181, R182, R184) -/

theorem cmdReadChannels_turns : Command.turns cmdReadChannels := by
  intro l args s
  unfold cmdReadChannels
  split_ifs
  · exact .refl s
  · exact .refl s
  · exact scan_turn (fun h => ⟨fun i => by simpa only [Hs.clearFresh, Vector.get_ofFn] using h.1 i, h.2⟩) fun h i => by
      simpa only [Hs.clearFresh, Vector.get_ofFn] using h i

theorem cmdSetChannelLimits_turns : Command.turns cmdSetChannelLimits := by
  intro l args s
  unfold cmdSetChannelLimits
  split_ifs
  · exact .refl s
  · exact .refl s
  case pos hi =>
    dsimp only
    split
    case isTrue hlimits =>
      refine scan_turn (fun h => ⟨fun j => ?_, h.2⟩) fun h j => ?_
      · simp only [Vector.get_eq_getElem, Vector.getElem_set]
        split
        case isTrue hj =>
          obtain rfl : (⟨fieldU args 0 1, hi⟩ : Fin 8) = j := Fin.ext hj
          exact h.1 _
        case isFalse => exact h.1 j
      · simp only [Vector.get_eq_getElem, Vector.getElem_set]
        split
        case isTrue hj =>
          obtain rfl : (⟨fieldU args 0 1, hi⟩ : Fin 8) = j := Fin.ext hj
          exact hlimits
        case isFalse => exact h j
    case isFalse => exact .refl s
  · exact .refl s

theorem cmdWriteCalibration_turns : Command.turns cmdWriteCalibration := by
  intro l args s
  unfold cmdWriteCalibration
  split_ifs
  · exact .refl s
  · exact .refl s
  case pos hi =>
    dsimp only
    split
    case isTrue hcal =>
      refine Act.turn (Act.measuring fun h j => ?_)
      simp only [Vector.get_eq_getElem, Vector.getElem_set]
      split
      case isTrue hj =>
        obtain rfl : (⟨fieldU args 0 1, hi⟩ : Fin 11) = j := Fin.ext hj
        exact hcal
      case isFalse => exact h j
    case isFalse => exact .refl s
  · exact .refl s

/-! #### Events and the store (R195, R196, R202, R204) -/

theorem cmdSetMask_turns : Command.turns cmdSetMask := by
  intro l args s
  unfold cmdSetMask
  split_ifs
  · exact .refl s
  · exact .refl s
  · exact onLink_turn l (fun k h => Link.reattend_law (flags := k.flags) h) s

theorem cmdAckEvents_turns : Command.turns cmdAckEvents := by
  intro l args s
  unfold cmdAckEvents
  split_ifs
  · exact .refl s
  · exact .refl s
  · exact onLink_turn l (fun k h => Link.reattend_law (mask := k.mask) h) s

theorem cmdSaveSettings_turns : Command.turns cmdSaveSettings := by
  intro l args s
  unfold cmdSaveSettings
  split_ifs
  · exact .refl s
  · exact .refl s
  · exact .refl s
  · split
    · exact .refl s
    · exact beginWrite_turn _ s

theorem cmdRestart_turns : Command.turns cmdRestart := by
  intro l args s
  unfold cmdRestart
  split_ifs
  · exact .refl s
  · exact .refl s
  · exact .refl s
  · exact .refl s
  · exact restartStation_turn s

/-! ### RESUME and CLEAR LOCKOUT (R130, R163 to R172) -/

/-- The entries that a frame gives back: at most as many as it held, of settings it held, with values that RESUME accepts. -/
theorem requeued_facts {f : ResumeFields} {top : Frame} {r : RegSettings} (h : f.fits top r = true) :
    (requeued f.elements top.pendingList).length ≤ top.pendingList.length
      ∧ ((requeued f.elements top.pendingList).map QEntry.setting).Sublist
          (top.pendingList.map fun p => p.entry.setting)
      ∧ ∀ e ∈ requeued f.elements top.pendingList, e.setting.acceptsExact e.value = true := by
  have hagree : ∀ p ∈ f.elements.zip top.pendingList, p.1.agrees p.2 = true := by
    simp only [ResumeFields.fits, Bool.and_eq_true, List.all_eq_true] at h
    exact h.1.1.2
  have hlen : f.elements.length = top.pendingList.length := by
    simp only [ResumeFields.fits, Bool.and_eq_true, decide_eq_true_eq] at h
    exact h.1.1.1.2
  have hsub : ((requeued f.elements top.pendingList).map QEntry.setting).Sublist (top.pendingList.map fun p => p.entry.setting) := by
    have hzip : (f.elements.zip top.pendingList).map (fun p => p.2.entry.setting) = top.pendingList.map fun p => p.entry.setting := by
      rw [← List.map_snd_zip (l₁ := f.elements) (l₂ := top.pendingList) hlen.ge, List.map_map]
      simp only [List.map_snd_zip hlen.ge]
      rfl
    rw [← hzip]
    unfold requeued
    induction f.elements.zip top.pendingList with
    | nil => exact .slnil
    | cons p ps ih =>
      rw [List.filterMap_cons]
      cases p.1.valid
      · exact ih.cons _
      · exact ih.cons_cons _
  refine ⟨?_, hsub, fun e he => ?_⟩
  · simpa using hsub.length_le
  · obtain ⟨p, hp, hpe⟩ := List.mem_filterMap.mp he
    split at hpe
    case isTrue hvalid =>
      obtain rfl := Option.some.inj hpe
      have := hagree p hp
      simp only [ResumeElement.agrees, hvalid, Bool.and_eq_true, Bool.not_true, Bool.false_or] at this
      exact this.2.2
    case isFalse => cases hpe

theorem releaseHeld_turn (c : Continuation) (s : State) : Turn s (releaseHeld c s) := by
  unfold releaseHeld
  split
  case isFalse => exact .refl s
  case isTrue h =>
    obtain ⟨hheld, hfree⟩ := h
    have houtput : s.outputFree := fun f hf => by simpa using List.all_eq_true.mp hfree f hf
    have hlock : s.oc.output ≠ .lockout := by simp [hheld]
    split
    · split
      · exact Act.turn (Act.rampEntered (by simp [hheld, Output.drives]) hlock fun _ => houtput)
      · exact Act.turn (Act.outputStops (.inr ⟨_, rfl⟩) hlock fun _ => .inr houtput)
    · refine (restartFlags_turn (p := false) (a := s.oc.autoRestart)).trans ?_
      exact Act.turn (Act.outputStops (.inr ⟨_, rfl⟩) hlock fun _ => .inr houtput)
    · exact .refl s

theorem resumeWindow_turn (top : Frame) (c : Continuation) (s : State) : Turn s (resumeWindow top c s) := by
  unfold resumeWindow
  split
  · exact .refl s
  · split
    · exact Act.windowCut.turn
    · exact .refl s

/-- With frames left, or with no window running, the demand is CLOSED as the law has it (R63); otherwise the end of the suspension
sets it (R64). -/
theorem endSuspensionIf_path_end {s : State} (hd : DemandLaw s) :
    (if s.sk.stack.isEmpty = true then endSuspension s else s).demandStands := by
  obtain ⟨-, hdemand, -⟩ := hd
  split
  case isTrue hk =>
    unfold endSuspension
    split
    case h_1 hnone =>
      intro _
      rw [State.wantsOpen_idle hnone]
      exact ⟨fun h => by simpa [hnone] using (hdemand h).2, nofun⟩
    case h_2 =>
      split
      · exact sync_demandStands s
      · exact demandStands_congr (sync_demandStands s) (openCapture_demand _ _ _) (by simp) (by simp) (by simp) (by simp)
  case isFalse hk =>
    have hne : s.sk.stack ≠ [] := fun h => hk (by simp [h])
    intro _
    rw [State.wantsOpen_held hne]
    exact ⟨fun h => absurd (hdemand h).1 hne, nofun⟩

theorem endSuspensionIf_turn (s : State) : Turn s (if s.sk.stack.isEmpty = true then endSuspension s else s) := by
  split
  case isTrue hk => exact endSuspension_turn (List.isEmpty_iff.mp hk)
  case isFalse => exact .refl s

theorem resumeFrame_turn {f : ResumeFields} {top : Frame} {c : Continuation} {s : State} (htop : s.sk.stack.head? = some top)
    (hfits : f.fits top s.rg.set = true) : Turn s (resumeFrame f top c s) := by
  obtain ⟨hlen, hsub, hexact⟩ := requeued_facts hfits
  obtain ⟨lower, hstack⟩ : ∃ lower, s.sk.stack = top :: lower := by
    cases hk : s.sk.stack with
    | nil => simp [hk] at htop
    | cons x xs => exact ⟨xs, by rw [hk, List.head?_cons, Option.some_inj] at htop; rw [htop]⟩
  have hiset : s.rg.set.imin ≤ f.iset ∧ f.iset ≤ s.rg.set.ilim := by
    simp only [ResumeFields.fits, Bool.and_eq_true, decide_eq_true_eq] at hfits
    exact hfits.2
  set back := requeued f.elements top.pendingList with hback
  let set1 : State := { s with rg := { s.rg with set := { s.rg.set with iset := f.iset }, overStreak := 0 } }
  let set2 : State := { set1 with moment := { s.moment with requeued := s.moment.requeued ++ back.map QEntry.setting } }
  let popped : State := { set2 with sk := { s.sk with stack := s.sk.stack.tail }, cq := { queue := s.cq.queue ++ back } }
  have h1 : Turn s set1 := Act.turn (Act.regulator rfl fun h => by
    obtain ⟨⟨himin, -, -, hilim⟩, hrest⟩ := h
    exact ⟨⟨himin, hiset.1, hiset.2, hilim⟩, hrest⟩)
  have h2 : Turn set1 set2 := marks_turn (.inl rfl) rfl rfl
  have h3 : Shift set2 popped := Shift.framePopped
    (fun ⟨hqlen, hqdist, hheld, hframes, habove⟩ => by
      have hempty : s.cq.queue = [] := hheld (by simp [set2, set1, hstack])
      have htopLaw := hframes top (by simp [set2, set1, hstack])
      have hfacts : back.length ≤ 4 ∧ distinctSettings back := by
        refine ⟨hlen.trans htopLaw.1, ?_⟩
        have hd := List.pairwise_map.mpr htopLaw.2
        rw [List.map_map] at hd
        exact List.pairwise_map.mp (hd.sublist hsub)
      refine ⟨by simpa [hempty] using hfacts.1, by simpa [hempty] using hfacts.2, fun hne => ?_, fun g hg => ?_, fun g hg => ?_⟩
      · -- a frame above the lowest holds no pending element
        have hnone : top.pendingList = [] := habove top (by
          cases lower with
          | nil => simp [set2, set1, hstack] at hne
          | cons x xs => simp [set2, set1, hstack])
        have : back = [] := by simpa [hnone] using hlen
        simp [hempty, this]
      · exact hframes g (List.mem_of_mem_tail hg)
      · rw [← List.tail_dropLast] at hg
        exact habove g (List.mem_of_mem_tail hg))
    (fun hset e he => by
      rcases List.mem_append.mp he with he | he
      · exact hset.2.1 e he
      · exact hexact e he)
  have hpopped : Moves s popped := (h1.moves.trans h2.moves).trans h3.moves
  have hacted := (releaseHeld_turn c popped).trans (resumeWindow_turn top c _)
  have hended := hacted.trans (endSuspensionIf_turn _)
  have hlast := raiseAll_turn .resumed
    (if (resumeWindow top c (releaseHeld c popped)).sk.stack.isEmpty = true then endSuspension (resumeWindow top c (releaseHeld c popped))
      else resumeWindow top c (releaseHeld c popped))
  have hmoves : Moves s (resumeWindow top c (releaseHeld c popped)) := hpopped.trans hacted.moves
  refine ⟨⟨hpopped.trans (hended.trans hlast).moves, fun hset hlist hdem _ => ?_⟩, fun hlist hahead => ?_⟩
  · have hend : Moves s _ := hmoves.trans (endSuspensionIf_turn _).moves
    exact hlast.stands (hend.keeps_settingsLaw hset) (hend.keeps_listLaw hlist) (hend.keeps_demandLaw hset hlist hdem)
      (endSuspensionIf_path_end (hmoves.keeps_demandLaw hset hlist hdem))
  · exact (hended.trans hlast).ahead (hpopped.keeps_listLaw hlist) (endsAhead_congr hahead rfl rfl rfl)

theorem cmdResume_turns : Command.turns cmdResume := by
  intro l args s
  unfold cmdResume
  split
  case h_1 => exact .refl s
  case h_2 f top c htest =>
    obtain ⟨-, -, -, htop, -, hfits, -, -⟩ := resumeTest_ok htest
    exact resumeFrame_turn htop hfits

theorem clearLockout_turn {s : State} (ho : s.oc.output = .lockout) : Turn s (clearLockout s) := by
  let set1 : State := { s with rg := { s.rg with overStreak := 0 } }
  let set2 : State := { set1 with oc := { s.oc with restartPending := false } }
  have h1 : Turn s set1 := regulator_turn rfl rfl
  have h2 : Turn set1 set2 := restartFlags_turn (a := s.oc.autoRestart)
  have h3 : Turn set2 (changeOutput (.stopped .cleared) { set2 with sk := { s.sk with stack := [], lockout := none } }) :=
    Act.turn (Act.lockoutLeft ho)
  have h4 := endSuspension_turn
    (s := changeOutput (.stopped .cleared) { set2 with sk := { s.sk with stack := [], lockout := none } }) (by simp)
  exact ((((h1.trans h2).trans h3).trans h4).trans (raiseAll_turn _ _)).trans (stageCheck_turn _)

theorem cmdClearLockout_turns : Command.turns cmdClearLockout := by
  intro l args s
  unfold cmdClearLockout
  split_ifs
  · exact .refl s
  · exact .refl s
  · exact clearLockout_turn (not_not.mp ‹¬ s.oc.output ≠ .lockout›)
  · exact .refl s

/-! ### The command processor (R191, R192) -/

/-- A command that answers with a report and leaves the state. -/
theorem Command.turns.of_keeps {cmd : Command} (h : ∀ l args s, (cmd l args s).2 = s) : cmd.turns := fun l args s => by
  rw [h]
  exact .refl s

theorem cmdReadTime_keeps (l : LinkId) (args : Bytes) (s : State) : (cmdReadTime l args s).2 = s := by
  unfold cmdReadTime; split_ifs <;> rfl
theorem cmdReadWindows_keeps (l : LinkId) (args : Bytes) (s : State) : (cmdReadWindows l args s).2 = s := by
  unfold cmdReadWindows; split_ifs <;> rfl
theorem cmdReadProfile_keeps (l : LinkId) (args : Bytes) (s : State) : (cmdReadProfile l args s).2 = s := by
  unfold cmdReadProfile; split_ifs <;> rfl
theorem cmdReadQueue_keeps (l : LinkId) (args : Bytes) (s : State) : (cmdReadQueue l args s).2 = s := by
  unfold cmdReadQueue; split_ifs <;> rfl
theorem cmdReadSettings_keeps (l : LinkId) (args : Bytes) (s : State) : (cmdReadSettings l args s).2 = s := by
  unfold cmdReadSettings; split_ifs <;> rfl
theorem cmdReadStatus_keeps (l : LinkId) (args : Bytes) (s : State) : (cmdReadStatus l args s).2 = s := by
  unfold cmdReadStatus; split_ifs <;> rfl
theorem cmdReadCaptures_keeps (l : LinkId) (args : Bytes) (s : State) : (cmdReadCaptures l args s).2 = s := by
  unfold cmdReadCaptures; split_ifs <;> rfl
theorem cmdReadFrame_keeps (l : LinkId) (args : Bytes) (s : State) : (cmdReadFrame l args s).2 = s := by
  unfold cmdReadFrame; split_ifs <;> rfl
theorem cmdUnknown_keeps (l : LinkId) (args : Bytes) (s : State) : (cmdUnknown l args s).2 = s := rfl

/-- A property of commands that each command of the table has, and the answer to an unknown code too. -/
theorem commandOf_forall {P : Command → Prop} (h1 : P cmdSetTime) (h2 : P cmdReadTime) (h3 : P cmdAddWindow)
    (h4 : P cmdDeleteWindow) (h5 : P cmdReadWindows) (h6 : P cmdReadProfile) (h7 : P cmdChange) (h8 : P cmdCancelChange)
    (h9 : P cmdReadQueue) (h10 : P cmdReadSettings) (h11 : P cmdStart) (h12 : P cmdStop) (h16 : P cmdReadStatus)
    (h17 : P cmdReadCaptures) (h18 : P cmdReadChannels) (h19 : P cmdSetChannelLimits) (h20 : P cmdWriteCalibration)
    (h21 : P cmdReadFrame) (h22 : P cmdResume) (h23 : P cmdClearLockout) (h24 : P cmdSetMask) (h25 : P cmdAckEvents)
    (h26 : P cmdSaveSettings) (h27 : P cmdRestart) {n : Nat} {cmd : Command} (h : commandOf n = some cmd) : P cmd := by
  unfold commandOf at h
  split at h <;> cases h <;> with_reducible assumption

theorem commandOf_turns {n : Nat} {cmd : Command} (h : commandOf n = some cmd) : cmd.turns :=
  commandOf_forall (P := Command.turns) cmdSetTime_turns (.of_keeps cmdReadTime_keeps) cmdAddWindow_turns cmdDeleteWindow_turns
    (.of_keeps cmdReadWindows_keeps) (.of_keeps cmdReadProfile_keeps) cmdChange_turns cmdCancelChange_turns
    (.of_keeps cmdReadQueue_keeps) (.of_keeps cmdReadSettings_keeps) cmdStart_turns cmdStop_turns
    (.of_keeps cmdReadStatus_keeps) (.of_keeps cmdReadCaptures_keeps) cmdReadChannels_turns cmdSetChannelLimits_turns
    cmdWriteCalibration_turns (.of_keeps cmdReadFrame_keeps) cmdResume_turns cmdClearLockout_turns cmdSetMask_turns
    cmdAckEvents_turns cmdSaveSettings_turns cmdRestart_turns h

theorem lastServed_turn {s : State} {l : LinkId} : Turn s { s with lc := { s.lc with lastServed := l } } :=
  Act.turn (Act.links id)

theorem takeFrame_turn (l : LinkId) (s : State) : Turn s (takeFrame l s) :=
  (onLink_turn l (fun _ h => Link.tail_keeps_law (Link.switchRate_keeps_law h)) s).trans lastServed_turn

theorem serve_turn {cmd : Command} (h : cmd.turns) (l : LinkId) (p : Bytes) (s : State) : Turn s (serve cmd l p s) :=
  ((takeFrame_turn l s).trans (h _ _ _)).trans (onLink_turn l (fun _ => Link.respond_keeps_law) _)

theorem serveCode_turn {n : Nat} {cmd : Command} (h : commandOf n = some cmd) (s : State) : Turn s (serveCode n cmd s) := by
  unfold serveCode
  split
  · exact .refl s
  · split
    · exact serve_turn (commandOf_turns h) _ _ s
    · exact .refl s

theorem cmdUnknown_turns : Command.turns cmdUnknown := .of_keeps cmdUnknown_keeps

theorem serveUnknown_turn (s : State) : Turn s (serveUnknown s) := by
  unfold serveUnknown
  split
  · exact .refl s
  · split
    · exact serve_turn cmdUnknown_turns _ _ s
    · exact .refl s

theorem commandFor_turns (n : Nat) : Command.turns ((commandOf n).getD cmdUnknown) := by
  cases h : commandOf n with
  | none => exact cmdUnknown_turns
  | some cmd => exact commandOf_turns h

theorem serveNext_turn (s : State) : Turn s (serveNext s) := by
  unfold serveNext
  split
  · exact .refl s
  · exact serve_turn (commandFor_turns _) _ _ s

theorem serveAll_turn (s : State) : Turn s (serveAll s) :=
  ((serveNext_turn s).trans (serveNext_turn _)).trans (serveNext_turn _)

/-! ### The end of a moment -/

theorem settleTime_turn (s : State) : Turn s (settleTime s) :=
  (((secondBoundaryStep_turn s).trans (enterLostNow_turn _)).trans (enterHoldover_turn _)).trans (finishTimeline_turn _)

theorem turnIf {P : Prop} [Decidable P] {f : State → State} (h : ∀ s, Turn s (f s)) (s : State) : Turn s (if P then f s else s) := by
  split
  · exact h s
  · exact .refl s

theorem settleStation_turn (s : State) : Turn s (settleStation s) :=
  (((onLinks_turn (fun _ => Link.expireGap_keeps_law) s).trans (turnIf saveDone_turn _)).trans (turnIf endScan_turn _)).trans
    (turnIf (regulate_turn true) _)

theorem settleLinks_turn (s : State) : Turn s (settleLinks s) :=
  (onLinks_turn (fun k h => Link.switchRate_keeps_law (by split <;> exact h)) s).trans (serveAll_turn _)

theorem settle_turn (s : State) : Turn s (settle s) :=
  ((settleTime_turn s).trans (settleStation_turn _)).trans (settleLinks_turn _)

end Sys2Proof.Machine
end

