-- ==== Sys2Proof/Proofs/TimelineDone.lean ====
section
/-! What the end of a moment leaves to SL: nothing; so that every row is a chain of moves. -/

namespace Sys2Proof.Machine

/-! ### A list on which no window runs -/

/-- Every entry waits for its start. -/
abbrev State.dormant (s : State) : Prop := ∀ w ∈ s.sl.windows, w.life = .scheduled

theorem dormant_of_idle {s : State} (hl : ListLaw s) (h : s.active = none) : s.dormant := by
  obtain ⟨-, -, -, htail, -⟩ := hl
  cases hw : s.sl.windows with
  | nil => simp [State.dormant, hw]
  | cons w ws =>
    have hpart : w.life.part = none := by simpa [State.active, activeOf, hw] using h
    rw [hw, List.tail_cons] at htail
    rw [State.dormant, hw]
    exact List.forall_mem_cons.mpr ⟨(Life.part_eq_none_iff _).mp hpart, htail⟩

theorem State.dormant.idle {s : State} (h : s.dormant) : s.active = none := active_none_of_scheduled h

theorem State.dormant.sublist {s t : State} (h : s.dormant) (hw : t.sl.windows.Sublist s.sl.windows) : t.dormant :=
  fun w hm => h w (hw.subset hm)

theorem State.dormant.of_windows {s t : State} (h : s.dormant) (hw : t.sl.windows = s.sl.windows) : t.dormant :=
  h.sublist (by rw [hw])

theorem State.sameList.dormant {s t : State} (h : s.sameList t) (hd : s.dormant) : t.dormant := by
  rcases h with h | ⟨w, ws, life, hw, ht, hpart, -⟩
  · exact hd.of_windows h
  · rw [State.dormant, hw] at hd
    rw [State.dormant, ht]
    refine List.forall_mem_cons.mpr ⟨?_, fun v hv => hd v (List.mem_cons_of_mem _ hv)⟩
    rw [hd w List.mem_cons_self] at hpart
    exact (Life.part_eq_none_iff _).mp (Option.not_isSome_iff_eq_none.mp (by rw [hpart]; exact Bool.false_ne_true))

theorem State.dormant.cut {s : State} (h : s.dormant) (id : Nat) : (endWindow id s).dormant := by
  intro w hw
  obtain ⟨v, hv, rfl⟩ := List.mem_map.mp hw
  split
  · rw [WindowRec.cut_other (by simp [h v hv])]
    exact h v hv
  · exact h v hv

theorem State.dormant.inserted {s : State} (h : s.dormant) {w : WindowRec} (hw : w.life = .scheduled) :
    ∀ v ∈ insertWindow w s.sl.windows, v.life = .scheduled := by
  intro v hv
  unfold insertWindow at hv
  rcases List.mem_append.mp hv with hv | hv
  · exact h v ((List.takeWhile_sublist _).subset hv)
  · rcases List.mem_cons.mp hv with rfl | hv
    · exact hw
    · exact h v ((List.dropWhile_sublist _).subset hv)

/-! ### What the rest of a moment leaves to SL -/

/-- The examination and the positions that are due stay, and a list on which no window runs stays so. -/
structure Stays (s t : State) : Prop where
  exam : t.moment.exam = s.moment.exam
  positions : t.moment.positions = s.moment.positions
  dormant : s.dormant → t.dormant

theorem Stays.refl (s : State) : Stays s s := ⟨rfl, rfl, id⟩

theorem Stays.trans {s t u : State} (h : Stays s t) (h' : Stays t u) : Stays s u :=
  ⟨h'.exam.trans h.exam, h'.positions.trans h.positions, fun hd => h'.dormant (h.dormant hd)⟩

theorem Stays.of_eq {s t : State} (hm : t.moment = s.moment) (hw : t.sl.windows = s.sl.windows) : Stays s t :=
  ⟨by rw [hm], by rw [hm], fun h => h.of_windows hw⟩

abbrev Command.stays (cmd : Command) : Prop := ∀ l args s, Stays s (cmd l args s).2

theorem Command.stays.of_keeps {cmd : Command} (h : ∀ l args s, (cmd l args s).2 = s) : cmd.stays := fun l args s => by
  rw [h]
  exact .refl s

theorem Command.stays.of_eq {cmd : Command} (hm : ∀ l args s, (cmd l args s).2.moment = s.moment)
    (hw : ∀ l args s, (cmd l args s).2.sl.windows = s.sl.windows) : cmd.stays :=
  fun l args s => .of_eq (hm l args s) (hw l args s)

theorem cmdSetTime_stays : Command.stays cmdSetTime :=
  .of_eq (fun l args s => by unfold cmdSetTime; dsimp only; split <;> dsimp only <;> split_ifs <;> simp)
    (fun l args s => by unfold cmdSetTime; dsimp only; split <;> dsimp only <;> split_ifs <;> simp)

theorem cmdAddWindow_stays : Command.stays cmdAddWindow := by
  intro l args s
  unfold cmdAddWindow
  split
  · exact .refl s
  · refine ⟨by simp, by simp, fun h => ?_⟩
    unfold placeWindow
    exact fun v hv => h.inserted (w := ⟨s.sl.assignId, fieldU args 0 4, fieldU args 4 4, Fin.ofNat 8 (fieldU args 8 1), l, .scheduled⟩) rfl v (by simpa using hv)

theorem cmdDeleteWindow_stays : Command.stays cmdDeleteWindow := by
  intro l args s
  unfold cmdDeleteWindow
  split_ifs
  · exact .refl s
  · exact .refl s
  · split
    · exact .refl s
    · refine ⟨by simp, by simp, fun h => ?_⟩
      unfold deleteWindow
      split
      · exact h.sublist (by simp)
      · exact h.cut _

theorem cmdChange_stays : Command.stays cmdChange := by
  have henqueue : ∀ l x v b s, Stays s (enqueue l x v b s).2 := by
    intro l x v b s
    unfold enqueue
    dsimp only
    split
    · dsimp only
      split
      · exact ⟨rfl, rfl, id⟩
      · exact ⟨rfl, rfl, id⟩
    · split <;> exact ⟨rfl, rfl, id⟩
  intro l args s
  unfold cmdChange
  split
  · exact .refl s
  · split
    · exact .refl s
    · split
      · exact .refl s
      · split_ifs
        · exact .refl s
        · exact .refl s
        · exact henqueue _ _ _ _ s

theorem cmdCancelChange_stays : Command.stays cmdCancelChange := by
  intro l args s
  unfold cmdCancelChange
  split_ifs
  · exact .refl s
  · exact .refl s
  · split
    · exact .refl s
    · split <;> exact ⟨rfl, rfl, id⟩

theorem cmdStart_stays : Command.stays cmdStart := by
  intro l args s
  unfold cmdStart
  split
  · exact .refl s
  · split
    · exact .refl s
    split
    · exact .refl s
    · split
      · exact .refl s
      · split
        · exact .refl s
        · exact .of_eq (by simp) (by simp)

theorem cmdStop_stays : Command.stays cmdStop := by
  intro l args s
  unfold cmdStop
  split_ifs
  · exact .refl s
  · exact .refl s
  · split
    · exact .refl s
    · exact .of_eq (by simp) (by simp)

theorem cmdReadChannels_stays : Command.stays cmdReadChannels := by
  intro l args s
  unfold cmdReadChannels
  split_ifs <;> exact .of_eq rfl rfl

theorem cmdSetChannelLimits_stays : Command.stays cmdSetChannelLimits := by
  intro l args s
  unfold cmdSetChannelLimits
  dsimp only
  split_ifs <;> exact .of_eq rfl rfl

theorem cmdWriteCalibration_stays : Command.stays cmdWriteCalibration := by
  intro l args s
  unfold cmdWriteCalibration
  dsimp only
  split_ifs <;> exact .of_eq rfl rfl

theorem cmdResume_stays : Command.stays cmdResume := by
  intro l args s
  unfold cmdResume
  split
  · exact .refl s
  case h_2 f top c _ =>
    refine ⟨by simp, by simp, fun h => ?_⟩
    have hacted : ∀ u : State, u.dormant → (resumeWindow top c u).dormant := by
      intro u hu
      unfold resumeWindow
      split
      · exact hu
      · split
        · exact hu.cut _
        · exact hu
    have hlast : ∀ u : State,
        (raiseAll .resumed (if u.sk.stack.isEmpty then endSuspension u else u)).sl.windows = u.sl.windows := by
      intro u
      rw [raiseAll_sl]
      split
      · rw [endSuspension_sl_windows]
      · rfl
    have hreleased : ∀ u : State, u.sl = s.sl → (releaseHeld c u).dormant := fun u hu =>
      h.of_windows (by rw [releaseHeld_sl_windows, hu])
    exact (hacted _ (hreleased { s with
      sk := { s.sk with stack := s.sk.stack.tail }
      rg := { s.rg with set := { s.rg.set with iset := f.iset }, overStreak := 0 }
      cq := { queue := s.cq.queue ++ requeued f.elements top.pendingList }
      moment := { s.moment with
        requeued := s.moment.requeued ++ (requeued f.elements top.pendingList).map QEntry.setting } } rfl)).of_windows (hlast _)

theorem cmdClearLockout_stays : Command.stays cmdClearLockout := by
  intro l args s
  unfold cmdClearLockout
  split_ifs <;> exact .of_eq (by simp) (by simp)

theorem cmdSetMask_stays : Command.stays cmdSetMask := by
  intro l args s
  unfold cmdSetMask
  split_ifs <;> exact .of_eq rfl rfl

theorem cmdAckEvents_stays : Command.stays cmdAckEvents := by
  intro l args s
  unfold cmdAckEvents
  split_ifs <;> exact .of_eq rfl rfl

theorem cmdSaveSettings_stays : Command.stays cmdSaveSettings := by
  intro l args s
  unfold cmdSaveSettings
  split_ifs
  · exact .refl s
  · exact .refl s
  · exact .refl s
  · split <;> exact .of_eq (by simp) (by simp)

theorem cmdRestart_stays : Command.stays cmdRestart := by
  intro l args s
  unfold cmdRestart
  split_ifs <;> exact .of_eq (by simp) (by simp)

theorem commandOf_stays {n : Nat} {cmd : Command} (h : commandOf n = some cmd) : cmd.stays :=
  commandOf_forall (P := Command.stays) cmdSetTime_stays (.of_keeps cmdReadTime_keeps) cmdAddWindow_stays cmdDeleteWindow_stays
    (.of_keeps cmdReadWindows_keeps) (.of_keeps cmdReadProfile_keeps) cmdChange_stays cmdCancelChange_stays
    (.of_keeps cmdReadQueue_keeps) (.of_keeps cmdReadSettings_keeps) cmdStart_stays cmdStop_stays
    (.of_keeps cmdReadStatus_keeps) (.of_keeps cmdReadCaptures_keeps) cmdReadChannels_stays cmdSetChannelLimits_stays
    cmdWriteCalibration_stays (.of_keeps cmdReadFrame_keeps) cmdResume_stays cmdClearLockout_stays cmdSetMask_stays
    cmdAckEvents_stays cmdSaveSettings_stays cmdRestart_stays h

theorem cmdUnknown_stays : Command.stays cmdUnknown := .of_keeps cmdUnknown_keeps

theorem commandFor_stays (n : Nat) : Command.stays ((commandOf n).getD cmdUnknown) := by
  cases h : commandOf n with
  | none => exact cmdUnknown_stays
  | some cmd => exact commandOf_stays h

theorem serve_stays {cmd : Command} (h : cmd.stays) (l : LinkId) (p : Bytes) (s : State) : Stays s (serve cmd l p s) :=
  (Stays.of_eq (takeFrame_moment l s) (by rw [takeFrame_sl])).trans ((h l p.tail (takeFrame l s)).trans (.of_eq rfl rfl))

theorem serveCode_stays {n : Nat} {cmd : Command} (h : commandOf n = some cmd) (s : State) : Stays s (serveCode n cmd s) := by
  unfold serveCode
  split
  · exact .refl s
  · split
    · exact serve_stays (commandOf_stays h) _ _ s
    · exact .refl s

theorem serveUnknown_stays (s : State) : Stays s (serveUnknown s) := by
  unfold serveUnknown
  split
  · exact .refl s
  · split
    · exact serve_stays cmdUnknown_stays _ _ s
    · exact .refl s

theorem serveNext_stays (s : State) : Stays s (serveNext s) := by
  unfold serveNext
  split
  · exact .refl s
  · exact serve_stays (commandFor_stays _) _ _ s

theorem settleLinks_stays (s : State) : Stays s (settleLinks s) :=
  (Stays.of_eq (s := s) (t := s.onLinks fun k => (if k.sentDue then k.sent else k).switchRate) rfl rfl).trans
    (((serveNext_stays _).trans (serveNext_stays _)).trans (serveNext_stays _))

theorem regulate_stays (rise : Bool) (s : State) : Stays s (regulate rise s) := by
  have haverages : (takeAverages s.frozen s).moment.exam = s.moment.exam ∧ (takeAverages s.frozen s).moment.positions = s.moment.positions := by
    unfold takeAverages
    exact ⟨rfl, rfl⟩
  refine ⟨?_, ?_, fun h => h.of_windows (by simp)⟩ <;> unfold regulate <;> dsimp only <;> split <;> simp [haverages]

theorem settleStation_stays (s : State) : Stays s (settleStation s) := by
  have hif : ∀ (P : Prop) [Decidable P] {f : State → State}, (∀ s, Stays s (f s)) → ∀ s, Stays s (if P then f s else s) := by
    intro P _ f h s
    split
    · exact h s
    · exact .refl s
  have hsaved : ∀ u, Stays u (saveDone u) := fun u => .of_eq (saveDone_moment u) (by rw [saveDone_sl])
  have hscanned : ∀ u, Stays u (endScan u) := fun u => .of_eq (endScan_moment u) (endScan_sl_windows u)
  unfold settleStation
  dsimp only
  refine (Stays.of_eq (s := s) (t := s.onLinks Link.expireGap) rfl rfl).trans ?_
  refine (hif ((s.onLinks Link.expireGap).saveDue = true) hsaved _).trans ?_
  generalize (if (s.onLinks Link.expireGap).saveDue = true then saveDone (s.onLinks Link.expireGap)
    else s.onLinks Link.expireGap) = saved
  refine (hif (saved.scanDue = true) hscanned _).trans ?_
  generalize (if saved.scanDue = true then endScan saved else saved) = scanned
  exact hif (scanned.moment.regTick = true) (regulate_stays true) _

/-! ### The timeline at the end of a moment -/

theorem takeNext_positions {p : Position} {ps : List Position} {s : State} (h : s.moment.positions = p :: ps) :
    (takeNext s).moment.positions = ps ∨ (takeNext s).moment.positions = [] := by
  unfold takeNext
  rw [h]
  have hboundary : ∀ u : State, (cycleBoundary u).moment.positions = u.moment.positions ∨ (cycleBoundary u).moment.positions = [] := by
    intro u
    unfold cycleBoundary
    dsimp only
    rw [beginCycle_moment]
    set removed := removeEnding (if u.moment.exam = true then endByTime (completeCapture u) else completeCapture u) with hr
    have hremoved : removed.moment.positions = u.moment.positions ∨ removed.moment.positions = [] := by
      have hended : (if u.moment.exam = true then endByTime (completeCapture u) else completeCapture u).moment = u.moment := by
        split <;> simp
      rcases removeEnding_moment (if u.moment.exam = true then endByTime (completeCapture u) else completeCapture u) with h | h
      · exact .inl (by rw [hr, h, hended])
      · exact .inr (by rw [hr, h])
    have happlied : ∀ P : Prop, [Decidable P] → (if P then applyPoint true removed else removed).moment.positions = u.moment.positions
        ∨ (if P then applyPoint true removed else removed).moment.positions = [] := by
      intro P _
      split
      · rcases applyPoint_moment true removed with h | h
        · rwa [h]
        · exact .inr (by rw [h])
      · exact hremoved
    dsimp only
    split
    · rw [activateFirst_moment, skipWindows_moment]
      exact happlied _
    · exact happlied _
  cases p with
  | boundary => exact hboundary _
  | opens w => exact .inl (by simp [takePosition])
  | closes w => exact .inl (by simp [takePosition])
  | offEdge => exact .inl (by simp [takePosition])

theorem takeSome_positions {n : Nat} {s : State} (h : s.moment.positions.length ≤ n) : (takeSome n s).moment.positions = [] := by
  induction n generalizing s with
  | zero => exact List.length_eq_zero_iff.mp (Nat.le_zero.mp h)
  | succ n ih =>
    refine ih ?_
    cases hp : s.moment.positions with
    | nil => simp [takeNext, hp]
    | cons p ps =>
      rw [hp, List.length_cons] at h
      rcases takeNext_positions hp with h' | h' <;> rw [h']
      · omega
      · exact Nat.zero_le n

/-- SL leaves nothing outstanding (R51, R59). -/
theorem finishTimeline_timelineDone (s : State) : (finishTimeline s).timelineDone := by
  have hdone : (takeSome s.moment.positions.length s).moment.positions = [] := takeSome_positions (Nat.le_refl _)
  unfold finishTimeline
  dsimp only
  split
  case isTrue =>
    refine ⟨?_, rfl⟩
    unfold examineSecond
    dsimp only
    rw [activateFirst_moment, skipWindows_moment]
    split
    · rcases applyPoint_moment false (endByTime (takeSome s.moment.positions.length s)) with h | h <;> rw [h]
      rw [endByTime_moment, hdone]
    · rw [endByTime_moment, hdone]
  case isFalse h => exact ⟨hdone, Bool.eq_false_iff.mpr h⟩

theorem settle_timelineDone (s : State) : (settle s).timelineDone := by
  have h := (settleStation_stays (settleTime s)).trans (settleLinks_stays _)
  obtain ⟨hp, he⟩ := finishTimeline_timelineDone (enterHoldover (enterLostNow (secondBoundaryStep s)))
  exact ⟨h.positions.trans hp, h.exam.trans he⟩

/-! ### Every row is a turn -/

theorem tickStep_turn (x : Samples) (s : State) : Turn s (tickStep x s) := by
  obtain ⟨hp, he⟩ := settle_timelineDone s
  generalize hsettled : settle s = settled at hp he
  have hturn : Turn s settled := hsettled ▸ settle_turn s
  have hstood : Turn settled { settled with mu := settled.mu.stands settled.oc.switch } := measuring_turn rfl
  have hended : Turn { settled with mu := settled.mu.stands settled.oc.switch }
      { settled with mu := settled.mu.stands settled.oc.switch, moment := { settled.moment with requeued := [] } } :=
    marks_turn (.inl rfl) rfl rfl
  unfold tickStep
  rw [hsettled]
  dsimp only
  refine hturn.trans (hstood.trans (hended.trans ?_))
  split
  case isTrue ht => exact countTick_turn ht
  case isFalse ht => exact Act.turn (Act.wrapDue ht he hp)

/-- Whatever row is carried out, it is a chain of moves at whose end the demand follows the phase and the end of the ACTIVE entry
is ahead, where they did and was before. -/
theorem exec_turn (c : Instr) (s : State) : ∃ t, exec c s = .next t ∧ Turn s t :=
  match c with
  | .tick x => ⟨_, rfl, tickStep_turn x s⟩
  | .secondBoundary => ⟨_, rfl, secondBoundaryStep_turn s⟩
  | .regulationTick rise => ⟨_, rfl, regulationStep_turn rise s⟩
  | .pulseEdge => ⟨_, rfl, pulseEdgeStep_turn s⟩
  | .holdoverEntry => ⟨_, rfl, enterHoldover_turn s⟩
  | .enterLost => ⟨_, rfl, enterLostNow_turn s⟩
  | .cycleBoundary => ⟨_, rfl, takeThrough_turn _ s⟩
  | .offEdge => ⟨_, rfl, takeThrough_turn _ s⟩
  | .measurementWindowOpen _ => ⟨_, rfl, takeThrough_turn _ s⟩
  | .measurementWindowClose _ => ⟨_, rfl, takeThrough_turn _ s⟩
  | .scanEnd => ⟨_, rfl, turnIf endScan_turn s⟩
  | .byteReceived l _ _ => ⟨_, rfl, onLink_turn l (fun _ => Link.receive_keeps_law) s⟩
  | .gapExpiry l => ⟨_, rfl, onLink_turn l (fun _ => Link.expireGap_keeps_law) s⟩
  | .responseSent l => ⟨_, rfl, onLink_turn l (fun _ => Link.finish_keeps_law) s⟩
  | .bitRateSwitch l => ⟨_, rfl, onLink_turn l (fun _ => Link.switchRate_keeps_law) s⟩
  | .saveComplete => ⟨_, rfl, saveDone_turn s⟩
  | .stgfltAsserted => ⟨_, rfl, inputs_turn.trans (stageCheck_turn _)⟩
  | .stgfltDeasserted => ⟨_, rfl, inputs_turn⟩
  | .localChange _ => ⟨_, rfl, inputs_turn⟩
  | .powerOnReset => ⟨_, rfl, powerOnStep_turn s⟩
  | .setTime => ⟨_, rfl, serveCode_turn rfl s⟩
  | .readTime => ⟨_, rfl, serveCode_turn rfl s⟩
  | .addWindow => ⟨_, rfl, serveCode_turn rfl s⟩
  | .deleteWindow => ⟨_, rfl, serveCode_turn rfl s⟩
  | .readWindows => ⟨_, rfl, serveCode_turn rfl s⟩
  | .readProfile => ⟨_, rfl, serveCode_turn rfl s⟩
  | .change => ⟨_, rfl, serveCode_turn rfl s⟩
  | .cancelChange => ⟨_, rfl, serveCode_turn rfl s⟩
  | .readQueue => ⟨_, rfl, serveCode_turn rfl s⟩
  | .readSettings => ⟨_, rfl, serveCode_turn rfl s⟩
  | .start => ⟨_, rfl, serveCode_turn rfl s⟩
  | .stop => ⟨_, rfl, serveCode_turn rfl s⟩
  | .readStatus => ⟨_, rfl, serveCode_turn rfl s⟩
  | .readCaptures => ⟨_, rfl, serveCode_turn rfl s⟩
  | .readChannels => ⟨_, rfl, serveCode_turn rfl s⟩
  | .setChannelLimits => ⟨_, rfl, serveCode_turn rfl s⟩
  | .writeCalibration => ⟨_, rfl, serveCode_turn rfl s⟩
  | .readFrame => ⟨_, rfl, serveCode_turn rfl s⟩
  | .resume => ⟨_, rfl, serveCode_turn rfl s⟩
  | .clearLockout => ⟨_, rfl, serveCode_turn rfl s⟩
  | .setMask => ⟨_, rfl, serveCode_turn rfl s⟩
  | .ackEvents => ⟨_, rfl, serveCode_turn rfl s⟩
  | .saveSettings => ⟨_, rfl, serveCode_turn rfl s⟩
  | .restart => ⟨_, rfl, serveCode_turn rfl s⟩
  | .unknownCommand => ⟨_, rfl, serveUnknown_turn s⟩

/-- A step is a turn from the state with the command taken from the queue, which no law reads. -/
theorem step_turn {s t : State} (h : step s = .next t) : ∃ q, Turn { s with pending := q } t := by
  unfold step at h
  split at h
  · obtain rfl := Host.Outcome.next.inj h
    exact ⟨s.pending, .refl s⟩
  case h_2 c rest hq =>
    obtain ⟨u, hu, hturn⟩ := exec_turn c { s with pending := rest }
    rw [hu] at h
    obtain rfl := Host.Outcome.next.inj h
    exact ⟨rest, hturn⟩

end Sys2Proof.Machine
end

