-- ==== Sys2Proof/Proofs/StepLaws.lean ====
section
/-! The laws that every step keeps (O52 to O60). -/

namespace Sys2Proof.Machine

/-! ### No window comes to run while TB is LOST or UNSET (R40) -/

/-- TB is LOST or UNSET. -/
abbrev State.down (s : State) : Prop := s.tb.state = .lost ∨ s.tb.state = .unset

theorem State.down.of_tb {s t : State} (h : s.down) (ht : t.tb = s.tb) : t.down := by rwa [State.down, ht]

/-- Out of LOCKED and HOLDOVER no entry may be activated (R37, R40). -/
theorem mayActivate_down {s : State} (h : s.down) (w : WindowRec) : s.mayActivate w = false := by
  have hsettled : s.tbSettled = .lost ∨ s.tbSettled = .unset := by
    rcases h with h | h <;> simp [State.tbSettled, h]
  rcases hsettled with h' | h' <;> simp [State.mayActivate, h']

theorem activateFirst_down {s : State} (h : s.down) : activateFirst s = s := by
  unfold activateFirst
  split
  · rfl
  · rw [if_neg (by rw [mayActivate_down h]; exact Bool.false_ne_true)]

theorem skipWindows_dormant {s : State} (h : s.dormant) : (skipWindows s).dormant :=
  h.sublist (by rw [skipWindows_windows]; exact List.filter_sublist)

theorem removeEnding_dormant {s : State} (h : s.dormant) : (removeEnding s).dormant := by
  rcases removeEnding_cases s with hr | ⟨w, ws, c, cause, hw, -, hr⟩ <;> rw [hr]
  · exact h
  · exact h.sublist (by simp [hw])

theorem applyIf_dormant {P : Prop} [Decidable P] {b : Bool} {s : State} (h : s.dormant) :
    (if P then applyPoint b s else s).dormant := by
  split
  · exact (applyPoint_sameList b s).dormant h
  · exact h

theorem applyIf_tb (P : Prop) [Decidable P] (b : Bool) (s : State) : (if P then applyPoint b s else s).tb = s.tb := by
  split <;> simp

theorem examineSecond_dormant {s : State} (hd : s.down) (h : s.dormant) : (examineSecond s).dormant := by
  unfold examineSecond
  dsimp only
  rw [activateFirst_down]
  · exact skipWindows_dormant (applyIf_dormant ((endByTime_sameList s).dormant h))
  · exact hd.of_tb (by rw [skipWindows_tb, applyIf_tb, endByTime_tb])

theorem cycleBoundary_dormant {s : State} (hd : s.down) (h : s.dormant) : (cycleBoundary s).dormant := by
  unfold cycleBoundary
  dsimp only
  refine State.dormant.of_windows ?_ (beginCycle_sl_windows _)
  have hcompleted : (completeCapture s).dormant := h.of_windows (completeCapture_sl_windows s)
  have hended : (if s.moment.exam = true then endByTime (completeCapture s) else completeCapture s).dormant := by
    split
    · exact (endByTime_sameList _).dormant hcompleted
    · exact hcompleted
  have htb : (if s.moment.exam = true then endByTime (completeCapture s) else completeCapture s).tb = s.tb := by split <;> simp
  generalize (if s.moment.exam = true then endByTime (completeCapture s) else completeCapture s) = ended at hended htb
  have hremoved := removeEnding_dormant hended
  have happlied := applyIf_dormant (P := (removeEnding ended).sk.stack.isEmpty = true ∨ s.moment.exam = true) (b := true) hremoved
  have hatb := applyIf_tb ((removeEnding ended).sk.stack.isEmpty = true ∨ s.moment.exam = true) true (removeEnding ended)
  generalize (if (removeEnding ended).sk.stack.isEmpty = true ∨ s.moment.exam = true then applyPoint true (removeEnding ended)
    else removeEnding ended) = applied at happlied hatb
  split
  · rw [activateFirst_down (hd.of_tb (by rw [skipWindows_tb, hatb, removeEnding_tb, htb]))]
    exact skipWindows_dormant happlied
  · exact happlied

theorem takeNext_dormant {s : State} (hd : s.down) (h : s.dormant) : (takeNext s).dormant := by
  unfold takeNext
  split
  · exact h
  case h_2 p ps _ =>
    cases p with
    | boundary => exact cycleBoundary_dormant (s := { s with moment := { s.moment with positions := ps } }) hd h
    | opens w => exact h.of_windows (openWindow_sl_windows w _)
    | closes w => exact h.of_windows (closeWindow_sl_windows w _)
    | offEdge => exact h.of_windows (offEdge_sl_windows _)

theorem takeSome_dormant {n : Nat} {s : State} (hd : s.down) (h : s.dormant) : (takeSome n s).dormant := by
  induction n generalizing s with
  | zero => exact h
  | succ n ih => exact ih (hd.of_tb (takeNext_tb s)) (takeNext_dormant hd h)

theorem takeThrough_dormant {p : Position} {s : State} (hd : s.down) (h : s.dormant) : (takeThrough p s).dormant := by
  unfold takeThrough
  split
  · exact takeSome_dormant hd h
  · exact h

theorem finishTimeline_dormant {s : State} (hd : s.down) (h : s.dormant) : (finishTimeline s).dormant := by
  unfold finishTimeline
  dsimp only
  split
  · exact examineSecond_dormant (hd.of_tb (takeSome_tb _ s)) (takeSome_dormant hd h)
  · exact takeSome_dormant hd h

/-- A staged time applied at a second boundary brings TB out of UNSET alone (R17). -/
theorem applyStaged_down {s : State} (hd : s.tb.state = .lost ∨ s.tb.state = .unset ∧ s.tb.staged = none) (h : s.dormant) :
    (applyStaged false s).down ∧ (applyStaged false s).dormant := by
  rcases hd with hlost | ⟨hunset, hnone⟩
  · unfold applyStaged
    split
    · exact ⟨.inl hlost, h⟩
    case h_2 st _ =>
      dsimp only
      simp only [if_neg (show ¬ s.tb.state = .unset by rw [hlost]; decide)]
      generalize hn : raiseAll .timeSet { s with tb := { s.tb with seconds := st.value, tick := 0, staged := none } } = named
      have hstate : named.tb.state = .lost := by rw [← hn]; exact hlost
      have hdormant : named.dormant := by rw [← hn]; exact h
      split_ifs
      · exact ⟨.inl hstate, hdormant⟩
      · rw [rephase_idle hdormant.idle]
        exact ⟨.inl hstate, hdormant⟩
      · exact ⟨.inl (by rw [← hstate]; simp), hdormant.of_windows (takeFault_sl_windows _ _ _)⟩
      · exact ⟨.inl hstate, hdormant⟩
  · rw [applyStaged_none false hnone]
    exact ⟨.inr hunset, h⟩

theorem takeWrap_down {s : State} (hd : s.tb.state = .lost ∨ s.tb.state = .unset ∧ s.tb.staged = none) (h : s.dormant) :
    (takeWrap s).down ∧ (takeWrap s).dormant := by
  have hdown : s.down := hd.imp_right And.left
  unfold takeWrap
  split
  · exact ⟨hdown, h⟩
  case h_2 x _ =>
    dsimp only
    rw [if_pos (by rcases hdown with h' | h' <;> rw [h'] <;> rfl)]
    generalize hm : markSecond (advanceHoldover { beginMoment x true s with
      tb := { (beginMoment x true s).tb with tick := 0, seconds := next32 (beginMoment x true s).tb.seconds } }) = marked
    have hstate : marked.tb.state = s.tb.state ∧ marked.tb.staged = s.tb.staged ∧ marked.sl = s.sl := by
      rw [← hm, markSecond_tb, markSecond_sl, advanceHoldover_sl]
      unfold advanceHoldover
      split <;> exact ⟨rfl, rfl, rfl⟩
    obtain ⟨hst, hstaged, hsl⟩ := hstate
    obtain ⟨hd', h'⟩ := applyStaged_down (s := marked) (by rwa [hst, hstaged]) (h.of_windows (by rw [hsl]))
    refine ⟨hd'.of_tb (handNotice_tb _ _), State.dormant.of_windows h' ?_⟩
    unfold handNotice
    dsimp only
    rw [offerCode_sl, tickNotice_idle h'.idle]

theorem examineNow_dormant {s : State} (hd : s.down) (h : s.dormant) : (examineNow s).dormant := by
  unfold examineNow
  split
  · exact examineSecond_dormant hd h
  · exact h

theorem enterHoldover_down {s : State} (hd : s.down) : enterHoldover s = s := by
  unfold enterHoldover
  rw [if_neg]
  rintro ⟨hl, -⟩
  rcases hd with h | h <;> simp [h] at hl

theorem enterLostNow_down {s : State} (hd : s.down) : enterLostNow s = s :=
  enterLostNow_none (.inr (by rcases hd with h | h <;> simp [h]))

theorem settleTime_dormant {s : State} (hd : s.tb.state = .lost ∨ s.tb.state = .unset ∧ s.tb.staged = none) (h : s.dormant) :
    (settleTime s).dormant := by
  obtain ⟨hdown, hwrap⟩ := takeWrap_down hd h
  have hexam : (secondBoundaryStep s).down := hdown.of_tb (examineNow_tb _)
  unfold settleTime
  rw [enterLostNow_down hexam, enterHoldover_down hexam]
  exact finishTimeline_dormant hexam (examineNow_dormant hdown hwrap)

theorem tickStep_dormant {x : Samples} {s : State} (hd : s.tb.state = .lost ∨ s.tb.state = .unset ∧ s.tb.staged = none)
    (h : s.dormant) : (tickStep x s).dormant := by
  have hsettled : (settle s).dormant :=
    ((settleStation_stays _).trans (settleLinks_stays _)).dormant (settleTime_dormant hd h)
  unfold tickStep
  dsimp only
  split
  · refine hsettled.of_windows ?_
    unfold countTick handNotice
    dsimp only
    rw [offerCode_sl, tickNotice_idle]
    · rfl
    · exact (hsettled.of_windows rfl).idle
  · exact hsettled

theorem exec_dormant {c : Instr} {s t : State} (hc : c ≠ .pulseEdge)
    (hd : s.tb.state = .lost ∨ s.tb.state = .unset ∧ s.tb.staged = none) (h : s.dormant) (ht : exec c s = .next t) : t.dormant := by
  have hdown : s.down := hd.imp_right And.left
  have hserve : ∀ {n : Nat} {cmd : Command}, commandOf n = some cmd → (serveCode n cmd s).dormant := fun hn =>
    (serveCode_stays hn s).dormant h
  have hscan : (if s.scanDue = true then endScan s else s).dormant := by
    split
    · exact h.of_windows (endScan_sl_windows s)
    · exact h
  have hwrap := (takeWrap_down hd h).2
  have hreg : ∀ rise, (regulationStep rise s).dormant := fun rise => by
    unfold regulationStep
    dsimp only
    split
    · exact hwrap.of_windows (regulate_sl_windows _ _)
    · exact hwrap
  cases c with
  | pulseEdge => exact absurd rfl hc
  | tick x => cases ht; exact tickStep_dormant hd h
  | secondBoundary => cases ht; exact examineNow_dormant (takeWrap_down hd h).1 hwrap
  | regulationTick rise => cases ht; exact hreg rise
  | holdoverEntry => cases ht; rwa [enterHoldover_down hdown]
  | enterLost => cases ht; rwa [enterLostNow_down hdown]
  | cycleBoundary => cases ht; exact takeThrough_dormant hdown h
  | offEdge => cases ht; exact takeThrough_dormant hdown h
  | measurementWindowOpen w => cases ht; exact takeThrough_dormant hdown h
  | measurementWindowClose w => cases ht; exact takeThrough_dormant hdown h
  | scanEnd => cases ht; exact hscan
  | byteReceived => cases ht; exact h
  | gapExpiry => cases ht; exact h
  | responseSent => cases ht; exact h
  | bitRateSwitch => cases ht; exact h
  | saveComplete => cases ht; exact h.of_windows (by rw [saveDone_sl])
  | stgfltAsserted => cases ht; exact h.of_windows (stageCheck_sl_windows _)
  | stgfltDeasserted => cases ht; exact h
  | localChange => cases ht; exact h
  | powerOnReset =>
    cases ht
    intro w hw
    rw [powerOnStep, stageCheck_sl_windows, reportImage_sl] at hw
    exact nomatch hw
  | unknownCommand => cases ht; exact (serveUnknown_stays s).dormant h
  | _ => cases ht; exact hserve rfl

/-! ### The laws -/

/-- A law that each move keeps and that does not read the queue of commands is kept by a step. -/
theorem step_keeps {L : State → Prop} (hq : ∀ s q, L s → L { s with pending := q }) (ha : ∀ {s t}, Act s t → L s → L t)
    (hs : ∀ {s t}, Shift s t → L s → L t) {s t : State} (h : step s = .next t) (hl : L s) : L t := by
  obtain ⟨q, hturn⟩ := step_turn h
  exact hturn.moves.keeps ha hs (hq s q hl)

theorem step_keeps_timeLaw {s t : State} (h : step s = .next t) : TimeLaw s → TimeLaw t :=
  step_keeps (fun _ _ h => h) Act.keeps_timeLaw Shift.keeps_timeLaw h

theorem step_keeps_settingsLaw {s t : State} (h : step s = .next t) : SettingsLaw s → SettingsLaw t :=
  step_keeps (fun _ _ h => h) Act.keeps_settingsLaw Shift.keeps_settingsLaw h

theorem step_keeps_windowLaw {s t : State} (h : step s = .next t) (htime : TimeLaw s) (hl : WindowLaw s) : WindowLaw t := by
  obtain ⟨q, hturn⟩ := step_turn h
  obtain ⟨hlist, hends, hwrap⟩ := windowLaw_iff.mp hl
  refine windowLaw_iff.mpr ⟨hturn.moves.keeps_listLaw (s := { s with pending := q }) hlist, hturn.ahead hlist hends, ?_⟩
  exact (hturn.moves.keeps (L := fun s => TimeLaw s ∧ WrapLaw s)
    (fun ha hl => ⟨ha.keeps_timeLaw hl.1, ha.keeps_wrapLaw hl⟩) (fun ha hl => ⟨ha.keeps_timeLaw hl.1, ha.keeps_wrapLaw hl.2⟩)
    ⟨htime, hwrap⟩).2

theorem step_keeps_captureLaw {s t : State} (h : step s = .next t) (hl : ListLaw s ∧ CaptureLaw s) : CaptureLaw t :=
  (step_keeps (L := fun s => ListLaw s ∧ CaptureLaw s) (fun _ _ h => h)
    (fun ha hl => ⟨ha.keeps_listLaw hl.1, ha.keeps_captureLaw hl.1 hl.2⟩)
    (fun ha hl => ⟨ha.keeps_listLaw hl.1, ha.keeps_captureLaw hl.2⟩) h hl).2

theorem step_keeps_driveLaw {s t : State} (h : step s = .next t) (hl : SettingsLaw s ∧ DriveLaw s) : DriveLaw t :=
  (step_keeps (L := fun s => SettingsLaw s ∧ DriveLaw s) (fun _ _ h => h)
    (fun ha hl => ⟨ha.keeps_settingsLaw hl.1, ha.keeps_driveLaw hl.1 hl.2⟩)
    (fun ha hl => ⟨ha.keeps_settingsLaw hl.1, ha.keeps_driveLaw hl.2⟩) h hl).2

theorem step_keeps_switchLaw {s t : State} (h : step s = .next t) (hset : SettingsLaw s) (hlist : ListLaw s)
    (hl : SwitchLaw s) : SwitchLaw t := by
  obtain ⟨q, hturn⟩ := step_turn h
  obtain ⟨hdemand, hstands⟩ := switchLaw_iff.mp hl
  exact switchLaw_iff.mpr ⟨hturn.moves.keeps_demandLaw (s := { s with pending := q }) hset hlist hdemand,
    hturn.stands hset hlist hdemand hstands⟩

/-- Settles O52: every move keeps TB's ranges and the scan's table. -/
theorem stepKeepsTimeAndScan : Obligations.StepKeepsTimeAndScan := by
  unfold Obligations.StepKeepsTimeAndScan
  exact ⟨fun _ _ hl h => step_keeps_timeLaw h hl,
    fun _ _ hl h => step_keeps (L := ScanLaw) (fun _ _ h => h) Act.keeps_scanLaw Shift.keeps_scanLaw h hl⟩

/-- Settles O53: every move keeps the settings in force, staged and stored within their ranges and relations. -/
theorem stepKeepsSettings : Obligations.StepKeepsSettings := by
  unfold Obligations.StepKeepsSettings
  exact fun _ _ hl h => step_keeps_settingsLaw h hl

/-- Settles O54: every move keeps the list and every step leaves the end of the ACTIVE entry ahead; and no operation but a pulse
edge brings TB out of LOST, or out of UNSET with no time staged, before it examines the list. -/
theorem stepKeepsWindows : Obligations.StepKeepsWindows := by
  unfold Obligations.StepKeepsWindows
  refine ⟨fun _ _ ⟨htime, hl⟩ h => step_keeps_windowLaw h htime hl, fun c s t hl hc hd hidle h => ?_⟩
  exact (exec_dormant hc hd (dormant_of_idle (windowLaw_iff.mp hl).1 hidle) h).idle

/-- Settles O55: every move keeps both numberings consecutive and both collections in size. -/
theorem stepKeepsNumbers : Obligations.StepKeepsNumbers := by
  unfold Obligations.StepKeepsNumbers
  exact fun _ _ ⟨hn, hl⟩ h => ⟨step_keeps (L := NoticeLaw) (fun _ _ h => h) Act.keeps_noticeLaw Shift.keeps_noticeLaw h hn,
    step_keeps (L := LogLaw) (fun _ _ h => h) Act.keeps_logLaw Shift.keeps_logLaw h hl⟩

/-- Settles O56: a capture is opened only on an empty stack with a window running, and dropped where either ends. -/
theorem stepKeepsCapture : Obligations.StepKeepsCapture := by
  unfold Obligations.StepKeepsCapture
  exact fun _ _ ⟨hw, hl⟩ h => step_keeps_captureLaw h ⟨(windowLaw_iff.mp hw).1, hl⟩

/-- Settles O57: every move that changes the output, the switch, the duty value or the ramp limit drives the outputs anew. -/
theorem stepKeepsDrive : Obligations.StepKeepsDrive := by
  unfold Obligations.StepKeepsDrive
  exact fun _ _ hl h => step_keeps_driveLaw h hl

/-- Settles O58: every move keeps the switch by the demand, and every step leaves the demand by the phase. -/
theorem stepKeepsSwitch : Obligations.StepKeepsSwitch := by
  unfold Obligations.StepKeepsSwitch
  exact fun _ _ ⟨hset, hw, hl⟩ h => step_keeps_switchLaw h hset (windowLaw_iff.mp hw).1 hl

/-- Settles O59: every move keeps the law of the stack and that of the queue. -/
theorem stepKeepsStackAndQueue : Obligations.StepKeepsStackAndQueue := by
  unfold Obligations.StepKeepsStackAndQueue
  exact ⟨fun _ _ hl h => step_keeps (L := StackLaw) (fun _ _ h => h) Act.keeps_stackLaw Shift.keeps_stackLaw h hl,
    fun _ _ hl h => step_keeps (L := QueueLaw) (fun _ _ h => h) Act.keeps_queueLaw Shift.keeps_queueLaw h hl⟩

/-- Settles O60: every move keeps the law of each link. -/
theorem stepKeepsLinks : Obligations.StepKeepsLinks := by
  unfold Obligations.StepKeepsLinks
  exact fun _ _ hl h => step_keeps (L := LinksLaw) (fun _ _ h => h) Act.keeps_linksLaw Shift.keeps_linksLaw h hl

end Sys2Proof.Machine
end

