-- ==== Sys2Proof/Proofs/TelemetryBarred.lean ====
section
/-! Under LOCAL a command of the Telemetry link changes that link alone (O50, R193). -/

namespace Sys2Proof.Machine

/-! ### The Telemetry link while LOCAL is asserted (R193) -/

/-- What a link keeps while frames are taken from it and answered: its bit rates and its receiver. -/
abbrev Link.sameReceiver (k j : Link) : Prop :=
  (j.rate, j.pendingRate, j.rx, j.partialBytes, j.gap) = (k.rate, k.pendingRate, k.rx, k.partialBytes, k.gap)

/-- Only the Telemetry link and the last served link differ, and that link keeps its rates and its receiver. -/
structure TelemetryOnly (s t : State) : Prop where
  station : { t with lc := s.lc } = s
  sup : t.lc.links.sup = s.lc.links.sup
  svc : t.lc.links.svc = s.lc.links.svc
  tel : Link.sameReceiver s.lc.links.tel t.lc.links.tel

theorem TelemetryOnly.refl (s : State) : TelemetryOnly s s := ⟨rfl, rfl, rfl, rfl⟩

theorem TelemetryOnly.trans {s t u : State} (h : TelemetryOnly s t) (h' : TelemetryOnly t u) : TelemetryOnly s u :=
  ⟨by rw [← h.station, ← h'.station], h'.sup.trans h.sup, h'.svc.trans h.svc, h'.tel.trans h.tel⟩

theorem onLink_telemetryOnly {f : Link → Link} {s : State} (hf : ∀ k, Link.sameReceiver k (f k)) :
    TelemetryOnly s (s.onLink .telemetry f) := ⟨rfl, rfl, rfl, hf _⟩

theorem takeFrame_telemetryOnly {s : State} (h : (s.link .telemetry).pendingRate = none) :
    TelemetryOnly s (takeFrame .telemetry s) := by
  rw [takeFrame_noRate h]
  exact ⟨rfl, rfl, rfl, rfl⟩

/-- A command that under LOCAL leaves everything but the Telemetry link. -/
abbrev Command.telemetryOnly (cmd : Command) : Prop :=
  ∀ args s, s.pins.localIn = true → TelemetryOnly s (cmd .telemetry args s).2

theorem Command.telemetryOnly.of_keeps {cmd : Command} (h : ∀ args s, s.pins.localIn = true → (cmd .telemetry args s).2 = s) :
    cmd.telemetryOnly := fun args s hs => by
  rw [h args s hs]
  exact .refl s

theorem barred_telemetry {s : State} (h : s.pins.localIn = true) : s.barred .telemetry = true := by simp [State.barred, h]

/-- Each command but SET MASK and ACK EVENTS leaves the whole state. -/
theorem cmdSetTime_barred (args : Bytes) (s : State) (h : s.pins.localIn = true) : (cmdSetTime .telemetry args s).2 = s := by
  simp [cmdSetTime, setTimeTest, barred_telemetry h]

theorem cmdAddWindow_barred (args : Bytes) (s : State) (h : s.pins.localIn = true) : (cmdAddWindow .telemetry args s).2 = s := by
  simp [cmdAddWindow, addWindowTest, barred_telemetry h]

theorem cmdDeleteWindow_barred (args : Bytes) (s : State) (h : s.pins.localIn = true) :
    (cmdDeleteWindow .telemetry args s).2 = s := by
  simp [cmdDeleteWindow, barred_telemetry h]

theorem cmdChange_barred (args : Bytes) (s : State) (h : s.pins.localIn = true) : (cmdChange .telemetry args s).2 = s := by
  unfold cmdChange
  split
  · rfl
  · split
    · rfl
    · split
      · rfl
      · split
        · rfl
        · rw [if_pos (barred_telemetry h)]

theorem cmdCancelChange_barred (args : Bytes) (s : State) (h : s.pins.localIn = true) :
    (cmdCancelChange .telemetry args s).2 = s := by
  simp [cmdCancelChange, barred_telemetry h]

theorem cmdStart_barred (args : Bytes) (s : State) (h : s.pins.localIn = true) : (cmdStart .telemetry args s).2 = s := by
  unfold cmdStart
  split
  · rfl
  · rw [if_pos (barred_telemetry h)]

theorem cmdStop_barred (args : Bytes) (s : State) (h : s.pins.localIn = true) : (cmdStop .telemetry args s).2 = s := by
  unfold cmdStop
  split
  · rfl
  · rw [if_pos (barred_telemetry h)]

theorem cmdReadChannels_barred (args : Bytes) (s : State) (h : s.pins.localIn = true) :
    (cmdReadChannels .telemetry args s).2 = s := by
  unfold cmdReadChannels
  split
  · rfl
  · rw [if_pos (barred_telemetry h)]

theorem cmdSetChannelLimits_barred (args : Bytes) (s : State) (h : s.pins.localIn = true) :
    (cmdSetChannelLimits .telemetry args s).2 = s := by
  simp [cmdSetChannelLimits, barred_telemetry h]

theorem cmdWriteCalibration_barred (args : Bytes) (s : State) (h : s.pins.localIn = true) :
    (cmdWriteCalibration .telemetry args s).2 = s := by
  simp [cmdWriteCalibration, barred_telemetry h]

theorem cmdResume_barred (args : Bytes) (s : State) (h : s.pins.localIn = true) : (cmdResume .telemetry args s).2 = s := by
  unfold cmdResume
  split
  · rfl
  case h_2 htest =>
    obtain ⟨-, hbarred, -⟩ := resumeTest_ok htest
    simp [barred_telemetry h] at hbarred

theorem cmdClearLockout_telemetry (args : Bytes) (s : State) : (cmdClearLockout .telemetry args s).2 = s := by
  simp only [cmdClearLockout, reduceCtorEq, false_and, not_false_eq_true, if_true]
  split <;> rfl

theorem cmdSaveSettings_barred (args : Bytes) (s : State) (h : s.pins.localIn = true) :
    (cmdSaveSettings .telemetry args s).2 = s := by
  unfold cmdSaveSettings
  split
  · rfl
  · rw [if_pos (barred_telemetry h)]

theorem cmdRestart_barred (args : Bytes) (s : State) (h : s.pins.localIn = true) : (cmdRestart .telemetry args s).2 = s := by
  unfold cmdRestart
  split
  · rfl
  · rw [if_pos (barred_telemetry h)]

theorem cmdSetMask_telemetryOnly : Command.telemetryOnly cmdSetMask := by
  intro args s _
  unfold cmdSetMask
  split_ifs
  · exact .refl s
  · exact .refl s
  · exact onLink_telemetryOnly (f := fun k => { k with mask := BitVec.ofNat 14 (fieldU args 0 2) }.reattend) fun _ => rfl

theorem cmdAckEvents_telemetryOnly : Command.telemetryOnly cmdAckEvents := by
  intro args s _
  unfold cmdAckEvents
  split_ifs
  · exact .refl s
  · exact .refl s
  · exact onLink_telemetryOnly (f := fun k => { k with flags := k.flags &&& ~~~(BitVec.ofNat 14 (fieldU args 0 2)) }.reattend) fun _ => rfl

theorem commandOf_telemetryOnly {n : Nat} {cmd : Command} (h : commandOf n = some cmd) : cmd.telemetryOnly :=
  commandOf_forall (P := Command.telemetryOnly) (.of_keeps cmdSetTime_barred) (.of_keeps fun _ _ _ => cmdReadTime_keeps _ _ _)
    (.of_keeps cmdAddWindow_barred) (.of_keeps cmdDeleteWindow_barred) (.of_keeps fun _ _ _ => cmdReadWindows_keeps _ _ _)
    (.of_keeps fun _ _ _ => cmdReadProfile_keeps _ _ _) (.of_keeps cmdChange_barred) (.of_keeps cmdCancelChange_barred)
    (.of_keeps fun _ _ _ => cmdReadQueue_keeps _ _ _) (.of_keeps fun _ _ _ => cmdReadSettings_keeps _ _ _)
    (.of_keeps cmdStart_barred) (.of_keeps cmdStop_barred) (.of_keeps fun _ _ _ => cmdReadStatus_keeps _ _ _)
    (.of_keeps fun _ _ _ => cmdReadCaptures_keeps _ _ _) (.of_keeps cmdReadChannels_barred)
    (.of_keeps cmdSetChannelLimits_barred) (.of_keeps cmdWriteCalibration_barred)
    (.of_keeps fun _ _ _ => cmdReadFrame_keeps _ _ _) (.of_keeps cmdResume_barred)
    (.of_keeps fun _ _ _ => cmdClearLockout_telemetry _ _) cmdSetMask_telemetryOnly cmdAckEvents_telemetryOnly
    (.of_keeps cmdSaveSettings_barred) (.of_keeps cmdRestart_barred) h

theorem serve_telemetryOnly {cmd : Command} {p : Bytes} {s : State} (hc : cmd.telemetryOnly) (hl : s.pins.localIn = true)
    (hr : (s.link .telemetry).pendingRate = none) : TelemetryOnly s (serve cmd .telemetry p s) :=
  ((takeFrame_telemetryOnly hr).trans (hc _ _ (by rw [takeFrame_pins, hl]))).trans (onLink_telemetryOnly fun _ => rfl)

section
variable {s : State} {code : Byte} {args : Bytes} (hl : s.pins.localIn = true) (hs : s.serves .telemetry code args)
include hl hs

theorem serveCode_telemetryOnly {n : Nat} {cmd : Command} (hn : commandOf n = some cmd) : TelemetryOnly s (serveCode n cmd s) := by
  obtain ⟨hframe, hrate⟩ := hs
  unfold serveCode
  rw [hframe]
  dsimp only
  split
  · exact serve_telemetryOnly (commandOf_telemetryOnly hn) hl hrate
  · exact .refl s

theorem serveUnknown_telemetryOnly : TelemetryOnly s (serveUnknown s) := by
  obtain ⟨hframe, hrate⟩ := hs
  unfold serveUnknown
  rw [hframe]
  dsimp only
  split
  · exact serve_telemetryOnly (.of_keeps fun _ _ _ => cmdUnknown_keeps _ _ _) hl hrate
  · exact .refl s

end

/-- The state after, with the Telemetry link and the last served link taken from it. -/
theorem TelemetryOnly.eq {s t : State} (h : TelemetryOnly s t) :
    t = { s with lc := { links := { s.lc.links with tel := t.lc.links.tel }, lastServed := t.lc.lastServed } }
      ∧ t.lc.links.tel =
        { s.lc.links.tel with
          flags := t.lc.links.tel.flags, mask := t.lc.links.tel.mask, attention := t.lc.links.tel.attention
          errors := t.lc.links.tel.errors, fifo := t.lc.links.tel.fifo, buffer := t.lc.links.tel.buffer
          txBits := t.lc.links.tel.txBits } := by
  obtain ⟨hstation, hsup, hsvc, htel⟩ := h
  simp only [Link.sameReceiver, Prod.mk.injEq] at htel
  obtain ⟨hrate, hpending, hrx, hpartial, hgap⟩ := htel
  refine ⟨?_, ?_⟩
  · conv_rhs => rw [← hstation]
    dsimp only
    rw [← hsup, ← hsvc]
  · dsimp only
    rw [← hrate, ← hpending, ← hrx, ← hpartial, ← hgap]

/-- Settles O50: under LOCAL each command refuses the Telemetry link or touches that link alone. -/
theorem telemetryBarred : Obligations.TelemetryBarred := by
  unfold Obligations.TelemetryBarred
  intro c s t code args hl hs htick hrow hbool hwindow hbyte hlink ht
  refine TelemetryOnly.eq ?_
  cases c with
  | tick x => exact absurd rfl (htick x)
  | regulationTick b => exact absurd rfl (hbool b).1
  | localChange b => exact absurd rfl (hbool b).2
  | measurementWindowOpen w => exact absurd rfl (hwindow w).1
  | measurementWindowClose w => exact absurd rfl (hwindow w).2
  | byteReceived l b g => exact absurd rfl (hbyte l b g)
  | gapExpiry l => exact absurd rfl (hlink l).1
  | responseSent l => exact absurd rfl (hlink l).2.1
  | bitRateSwitch l => exact absurd rfl (hlink l).2.2
  | secondBoundary | pulseEdge | holdoverEntry | enterLost | cycleBoundary | offEdge | scanEnd | saveComplete
  | stgfltAsserted | stgfltDeasserted | powerOnReset => simp at hrow
  | unknownCommand => cases ht; exact serveUnknown_telemetryOnly hl hs
  | _ => cases ht; exact serveCode_telemetryOnly hl hs rfl

end Sys2Proof.Machine
end

