-- ==== Sys2Proof/Proofs/FaultFacts.lean ====
section
/-! What each block holds after a frame is pushed or LOCKOUT entered (R63, R129, R156, R160). -/

namespace Sys2Proof.Machine

/-! ### A frame pushed: what each block holds afterwards (R63, R129, R148, R156, R160) -/

section Push
variable {kind : FaultKind} {cap : Option CapturePart} {s : State}

theorem suspended_link (l : LinkId) : (suspended kind cap s).link l = s.link l := by
  unfold suspended
  split
  · split <;> rfl
  · rfl

theorem suspended_oc_output : (suspended kind cap s).oc.output = s.oc.output := by
  unfold suspended
  split
  · split <;> rfl
  · rfl

theorem suspended_oc_flags :
    ((suspended kind cap s).oc.restartPending, (suspended kind cap s).oc.autoRestart, (suspended kind cap s).oc.rampLimit)
      = (s.oc.restartPending, s.oc.autoRestart, s.oc.rampLimit) := by
  unfold suspended
  split
  · split <;> rfl
  · rfl

theorem suspended_rg : (suspended kind cap s).rg = s.rg := by
  unfold suspended
  split
  · split <;> rfl
  · rfl

/-- A frame that does not hold the output raises FAULT alone. -/
theorem pushFrame_link_free (h : kind.holds = false) (l : LinkId) :
    (pushFrame kind cap s).link l = (s.link l).raise .fault := by
  rw [pushFrame_eq, h, raiseAll_link]
  exact congrArg (Link.raise .fault) (suspended_link l)

/-- A frame that puts the output in HELD raises OUTPUT and FAULT. -/
theorem pushFrame_link_holds (h : kind.holds = true) (ho : s.oc.output ≠ .held) (l : LinkId) :
    (pushFrame kind cap s).link l = ((s.link l).raise .output).raise .fault := by
  rw [pushFrame_eq, h, if_pos rfl, raiseAll_link, holdOutput, if_neg (by rwa [suspended_oc_output]),
    changeOutput_link (by rwa [suspended_oc_output])]
  exact congrArg (fun k => (k.raise .output).raise .fault) (suspended_link l)

theorem pushFrame_oc_holds (h : kind.holds = true) (ho : s.oc.output ≠ .held) :
    (pushFrame kind cap s).oc = { s.oc with
      output := .held, restartPending := s.oc.restartPending || s.oc.output.drives, switch := .closed, drive := 0 } := by
  have hout := suspended_oc_output (kind := kind) (cap := cap) (s := s)
  have hflags := suspended_oc_flags (kind := kind) (cap := cap) (s := s)
  simp only [Prod.mk.injEq] at hflags
  obtain ⟨hpending, hauto, hlimit⟩ := hflags
  rw [pushFrame_eq, h, if_pos rfl, raiseAll_oc, holdOutput, if_neg (by rwa [hout]), changeOutput_oc (by rwa [hout]) (by decide)]
  simp only [hout, hpending, hauto, hlimit, Output.drives, Bool.false_eq_true, if_false]

theorem pushFrame_rg_holds (h : kind.holds = true) (ho : s.oc.output ≠ .held) :
    (pushFrame kind cap s).rg = { s.rg with duty := 0 } := by
  have hout := suspended_oc_output (kind := kind) (cap := cap) (s := s)
  rw [pushFrame_eq, h, if_pos rfl, raiseAll_rg, holdOutput, if_neg (by rwa [hout]), changeOutput_rg (by rwa [hout])]
  simp only [suspended_rg, Output.drives, Bool.false_eq_true, if_false]

theorem pushFrame_rg_free (h : kind.holds = false) : (pushFrame kind cap s).rg = s.rg := by
  rw [pushFrame_eq, h, raiseAll_rg]
  exact suspended_rg

theorem pushFrame_output_free (h : kind.holds = false) : (pushFrame kind cap s).oc.output = s.oc.output := by
  rw [pushFrame_output, h]
  rfl

theorem suspended_empty (hk : s.sk.stack = []) :
    suspended kind cap s =
      sync (if s.sl.capture.isSome then discardCapture (pushedFrame kind cap s) else pushedFrame kind cap s) := by
  simp only [suspended, hk, List.isEmpty_nil, if_true]

theorem suspended_demand (hk : s.sk.stack = []) : (suspended kind cap s).sl.demand = .closed := by
  rw [suspended_empty hk, sync_demand, State.wantsOpen_held]
  · rfl
  · split <;> exact List.cons_ne_nil _ _

theorem suspended_switch (hk : s.sk.stack = []) : (suspended kind cap s).oc.switch = .closed := by
  rw [suspended_empty hk, sync_switch, State.wantsOpen_held]
  · rfl
  · split <;> exact List.cons_ne_nil _ _

theorem suspended_capture (hk : s.sk.stack = []) : (suspended kind cap s).sl.capture = none := by
  rw [suspended_empty hk, sync_sl_capture]
  split
  · rfl
  case isFalse h => exact Option.not_isSome_iff_eq_none.mp h

theorem suspended_assembly (hk : s.sk.stack = []) (hc : s.sl.capture = none → s.cl.assembly = none) :
    (suspended kind cap s).cl.assembly = none := by
  rw [suspended_empty hk, sync_cl]
  split
  · rfl
  case isFalse h => exact hc (Option.not_isSome_iff_eq_none.mp h)

/-- On an empty stack a frame discards the capture (R63). -/
theorem pushFrame_capture (hk : s.sk.stack = []) : (pushFrame kind cap s).sl.capture = none := by
  rw [pushFrame_eq, raiseAll_sl]
  split
  · rw [holdOutput_sl_capture, suspended_capture hk]
  · exact suspended_capture hk

theorem changeOutput_assembly_none {o : Output} {t : State} (h : t.cl.assembly = none) : (changeOutput o t).cl.assembly = none := by
  have := changeOutput_assembly_isSome o t
  rw [h] at this
  exact Option.not_isSome_iff_eq_none.mp (by rw [this]; exact Bool.false_ne_true)

theorem pushFrame_assembly (hk : s.sk.stack = []) (hc : s.sl.capture = none → s.cl.assembly = none) :
    (pushFrame kind cap s).cl.assembly = none := by
  have hnone := suspended_assembly (kind := kind) (cap := cap) hk hc
  rw [pushFrame_eq, raiseAll_cl]
  split
  · unfold holdOutput
    split
    · exact hnone
    · exact changeOutput_assembly_none hnone
  · exact hnone

theorem pushFrame_demand (hk : s.sk.stack = []) : (pushFrame kind cap s).sl.demand = .closed := by
  rw [pushFrame_eq, raiseAll_sl]
  split
  · unfold holdOutput
    split
    · exact suspended_demand hk
    · unfold changeOutput
      split
      · exact suspended_demand hk
      · rw [raiseAll_sl, markNoOutput_sl, sync_demand, State.wantsOpen_held]
        · rfl
        · rw [suspended_empty hk]
          split <;> exact List.cons_ne_nil _ _
  · exact suspended_demand hk

theorem pushFrame_switch (hk : s.sk.stack = []) : (pushFrame kind cap s).oc.switch = .closed := by
  rw [pushFrame_eq, raiseAll_oc]
  split
  · unfold holdOutput
    split
    · exact suspended_switch hk
    case isFalse h =>
      refine (changeOutput_quiet (o := .held) (s := { suspended kind cap s with oc := { (suspended kind cap s).oc with
        restartPending := (suspended kind cap s).oc.restartPending || (suspended kind cap s).oc.output.drives } }) h rfl).1
  · exact suspended_switch hk

/-- By the law of the capture there is an assembly only with a capture OPEN. -/
theorem CaptureLaw.assembly_none {s : State} (h : CaptureLaw s) (hc : s.sl.capture = none) : s.cl.assembly = none :=
  Option.isSome_eq_false_iff.mp (h.1 ▸ by rw [hc]; rfl) |> Option.isNone_iff_eq_none.mp

end Push

/-! ### LOCKOUT entered (R131, R158) -/

/-- But in RUN the switch is CLOSED, and marks nothing for the interval (R110, R134). -/
theorem changeOutput_mu {o : Output} {s : State} (ho : o ≠ .run) : (changeOutput o s).mu = s.mu := by
  unfold changeOutput
  split
  · rfl
  · rw [raiseAll_mu, markNoOutput_mu]
    simp [sync, ho]

/-- The lockout record of a fault, in place. -/
abbrev State.recorded (kind : FaultKind) (s : State) : State :=
  { s with sk := { s.sk with lockout := some ⟨kind, s.tb.seconds, s.tb.tick⟩ } }

section Full
variable {kind : FaultKind} {cap : Option CapturePart} {s : State} (h : s.oc.output ≠ .lockout) (hs : 2 ≤ s.sk.stack.length)
include h hs

theorem takeFault_full_oc :
    (takeFault kind cap s).oc = { s.oc with output := .lockout, switch := .closed, drive := 0 } := by
  rw [takeFault_full kind cap h hs, raiseAll_oc, changeOutput_oc (s := s.recorded kind) h (by decide)]
  rfl

theorem takeFault_full_rg : (takeFault kind cap s).rg = { s.rg with duty := 0 } := by
  rw [takeFault_full kind cap h hs, raiseAll_rg, changeOutput_rg (s := s.recorded kind) h]
  rfl

theorem takeFault_full_sk :
    (takeFault kind cap s).sk = { s.sk with lockout := some ⟨kind, s.tb.seconds, s.tb.tick⟩ } := by
  rw [takeFault_full kind cap h hs, raiseAll_sk, changeOutput_sk]

theorem takeFault_full_cq : (takeFault kind cap s).cq = s.cq := by
  rw [takeFault_full kind cap h hs, raiseAll_cq, changeOutput_cq]

theorem takeFault_full_link (l : LinkId) :
    (takeFault kind cap s).link l = ((s.link l).raise .output).raise .fault := by
  rw [takeFault_full kind cap h hs, raiseAll_link, changeOutput_link (s := s.recorded kind) h]
  rfl

theorem takeFault_full_capture : (takeFault kind cap s).sl.capture = s.sl.capture := by
  rw [takeFault_full kind cap h hs, raiseAll_sl, changeOutput_sl_capture]

theorem takeFault_full_mu : (takeFault kind cap s).mu = s.mu := by
  rw [takeFault_full kind cap h hs, raiseAll_mu, changeOutput_mu (by decide)]

theorem takeFault_full_assembly :
    (takeFault kind cap s).cl.assembly = s.cl.assembly.map fun a => { a with noOutput := true } := by
  rw [takeFault_full kind cap h hs, raiseAll_cl, changeOutput_assembly (s := s.recorded kind) h rfl]

end Full

end Sys2Proof.Machine
end

