-- ==== Sys2Proof/Proofs/QuietRows.lean ====
section
/-! Rows without their cause, the resets and the laws there (O1 to O4, O12, O34, O39, O51). -/

namespace Sys2Proof.Machine

/-! ### Rows without a cause (logs 1, 9) -/

theorem gapDue_false {k : Link} (h : k.rx = .hunt ∨ k.gap ≤ 48) : k.gapDue = false := by
  rcases h with h | h
  · simp [Link.gapDue, h]
  · simp [Link.gapDue, Nat.not_lt.mpr h]

theorem maySend_false {k : Link} (h : k.buffer = none) : k.maySend = false := by simp [Link.maySend, h]

/-- A rate that cannot be taken, or none, leaves the link. -/
theorem switchRate_waits {k : Link} (h : k.pendingRate = none ∨ k.buffer ≠ none ∨ k.rx ≠ .hunt) : k.switchRate = k := by
  unfold Link.switchRate
  split
  · rfl
  case h_2 r hr =>
    rw [if_neg]
    rintro ⟨hb, hx⟩
    rcases h with h | h | h
    · simp [h] at hr
    · exact h hb
    · exact h hx

theorem scanDue_false {s : State} (h : ∀ n ∈ s.hs.scan, n < 1000) : s.scanDue = false := by
  unfold State.scanDue
  cases hn : s.hs.scan with
  | none => rfl
  | some n => simpa [Config.scanTicks] using h n hn

/-- Settles O1. -/
theorem stepRunsFrontCommand : Obligations.StepRunsFrontCommand := by
  unfold Obligations.StepRunsFrontCommand
  exact fun _ _ => rfl

/-- Settles O2: each row's guard is the presence of its cause. -/
theorem notDueChangesNothing : Obligations.NotDueChangesNothing := by
  unfold Obligations.NotDueChangesNothing
  intro s
  refine ⟨fun h => by simp only [step, h], fun hw hx => ?_, fun hw hr rise => ?_, fun h => ?_, fun h => ?_, fun h => ?_, fun h => ?_,
    fun w h => ?_, fun w h => ?_, fun h => ?_, fun h => ?_, fun l h => ?_, fun l h => ?_, fun l h => ?_⟩ <;>
    refine congrArg Host.Outcome.next ?_
  · rw [secondBoundaryStep_noWrap hw, examineNow_none hx]
  · rw [regulationStep_noWrap rise hw, hr]; rfl
  · unfold enterHoldover
    rw [if_neg]
    rintro ⟨hl, ha⟩
    rw [Config.maxEdgeAge] at ha
    exact h.elim (fun h => h hl) (fun h => by omega)
  · exact enterLostNow_none h
  · exact takeThrough_absent h
  · exact takeThrough_absent h
  · exact takeThrough_absent h
  · exact takeThrough_absent h
  · rw [scanDue_false h]; rfl
  · unfold saveDone
    rw [h]
  · exact State.onLink_self (Link.expireGap_none (gapDue_false h))
  · exact State.onLink_self (Link.finish_none (maySend_false h))
  · exact State.onLink_self (switchRate_waits h)

/-! ### A quiet moment (log 3) -/

theorem enterHoldover_none {s : State} (h : ¬ (s.tb.state = .locked ∧ s.tb.edgeAge ≥ 2402)) : enterHoldover s = s := if_neg h

/-- A moment with nothing due ends as it stands. -/
theorem settle_quiet {s : State} (h : s.quiet) : settle s = s := by
  obtain ⟨hwrap, hlost, hreg, hexam, hpos, hage, hscan, hsave, hlinks⟩ := h
  have htime : settleTime s = s := by
    unfold settleTime
    rw [secondBoundaryStep_noWrap hwrap, examineNow_none (.inl hexam), enterLostNow_none (.inl hlost), enterHoldover_none hage,
      finishTimeline_done hpos hexam]
  have hgap : s.onLinks Link.expireGap = s := State.onLinks_self fun l => Link.expireGap_none (hlinks l).1
  have hstation : settleStation s = s := by
    simp only [settleStation, hgap, hsave, hscan, hreg, Bool.false_eq_true, if_false]
  have hsent : (s.onLinks fun k => (if k.sentDue then k.sent else k).switchRate) = s := State.onLinks_self fun l => by
    obtain ⟨-, hdue, hrate, -⟩ := hlinks l
    rw [hdue]
    exact Link.switchRate_none hrate
  have hserve : serveNext s = s := by
    simp only [serveNext, State.nextFrame_none fun l => (hlinks l).2.2.2]
  unfold settle settleLinks serveAll
  rw [htime, hstation, hsent, hserve, hserve, hserve]

/-- Settles O4: a quiet moment has nothing to do, and the tick at the last count makes the wrap due. -/
theorem tickEndsMoment : Obligations.TickEndsMoment := by
  unfold Obligations.TickEndsMoment
  refine ⟨fun s h => settle_quiet h, fun x s h => congrArg Host.Outcome.next ?_⟩
  unfold tickStep
  dsimp only
  exact if_neg (by rw [Config.ticksPerSecond]; omega)

/-- Settles O12. -/
theorem holdoverEntered : Obligations.HoldoverEntered := by
  unfold Obligations.HoldoverEntered
  exact fun s hl ha => congrArg Host.Outcome.next (if_pos ⟨hl, ha⟩)

/-! ### Power-on reset (R203) -/

theorem cutWrite_verified (n : Ns) :
    n.cutWrite.verified = { image := n.image, imageGood := n.imageGood && n.write.isNone
                            imageState := if n.imageGood && n.write.isNone then .valid else .invalid, write := none } := by
  cases hw : n.write <;> simp [Ns.cutWrite, Ns.verified, hw]

theorem Link.reset_raise (c : EventClass) (r : Rate) :
    (Link.reset r).raise c = { Link.reset r with flags := c.bit } := by
  simp [Link.raise, Link.reattend, Link.reset]

/-- The state that a power-on leaves where the image does not verify: STORE is raised on every link. -/
theorem reportImage_invalid {s : State} (h : s.ns.imageState = .invalid) (rates : PerLink Rate)
    (hl : s.lc = { links := rates.map Link.reset, lastServed := .service }) :
    reportImage s = { s with lc := {
      links := rates.map fun r => { Link.reset r with flags := EventClass.store.bit }, lastServed := .service } } := by
  rw [reportImage, if_pos h, raiseAll, State.onLinks, hl]
  simp only [PerLink.map, Link.reset_raise]

theorem reportImage_valid {s : State} (h : s.ns.imageState = .valid) : reportImage s = s := by
  rw [reportImage, if_neg (by rw [h]; decide)]

/-- Settles O3: the state that a power-on leaves, and the STAGE_FAULT that follows it. -/
theorem powerOnReset : Obligations.PowerOnReset := by
  unfold Obligations.PowerOnReset
  constructor
  · intro s hs
    refine congrArg Host.Outcome.next ?_
    unfold powerOnStep
    dsimp only
    rw [stageCheck_deasserted (by rw [reportImage_pins]; exact hs), cutWrite_verified]
    cases hg : s.ns.imageGood && s.ns.write.isNone
    · rw [reportImage_invalid rfl defaultImage.rates rfl]
      rfl
    · rw [reportImage_valid rfl]
      rfl
  · intro s hs
    refine ⟨_, rfl, ?_⟩
    have hraised : ∀ u : State, u.pins = s.pins → u.sk = Sk.reset → u.oc.output = .stopped .reset →
        stageCheck u = pushFrame .stageFault none u := fun u hp hk ho => by
      rw [stageCheck_raises (by rw [hp]; exact hs) (by simp [hk, Sk.reset]) (by simp [ho])]
      exact takeFault_push _ _ (by simp [ho]) (by simp [hk, Sk.reset])
    unfold powerOnStep
    dsimp only
    rw [hraised _ (by rw [reportImage_pins]; rfl) (by rw [reportImage_sk]; rfl) (by rw [reportImage_oc]; rfl), cutWrite_verified]
    refine ⟨?_, ?_, fun l => ?_, ?_, ?_, ?_, ?_, ?_⟩
    · rw [pushFrame_sk]
      cases hg : s.ns.imageGood && s.ns.write.isNone <;> rfl
    · rw [pushFrame_oc_holds rfl (by rw [reportImage_oc]; nofun), reportImage_oc]
      simp only [State.powerOn, Oc.reset, Output.drives, Bool.or_false]
      cases hg : s.ns.imageGood && s.ns.write.isNone <;> rfl
    · rw [pushFrame_link_holds rfl (by rw [reportImage_oc]; nofun), Link.raise_flags, Link.raise_flags]
      cases hg : s.ns.imageGood && s.ns.write.isNone
      · rw [reportImage_invalid rfl defaultImage.rates rfl]
        cases l <;> exact (by decide : EventClass.store.bit ||| EventClass.output.bit ||| EventClass.fault.bit
          = EventClass.fault.bit ||| EventClass.output.bit ||| EventClass.store.bit)
      · rw [reportImage_valid rfl]
        cases l <;> exact (by decide : (0 : EventSet) ||| EventClass.output.bit ||| EventClass.fault.bit
          = EventClass.fault.bit ||| EventClass.output.bit ||| 0)
    · rw [pushFrame_tb, reportImage_tb]; rfl
    · rw [pushFrame_sl_windows, reportImage_sl]; rfl
    · rw [pushFrame_cl_log, reportImage_cl]; rfl
    · rw [pushFrame_queue]
    · rw [pushFrame_hs, reportImage_hs]; rfl

/-! ### Events (R194, R198) -/

theorem EventClass.bit_getLsbD (c d : EventClass) : c.bit.getLsbD d.code = decide (d = c) := by
  cases c <;> cases d <;> rfl

/-- Settles O34: the flags gain the class's bit alone. -/
theorem eventRaised : Obligations.EventRaised := by
  unfold Obligations.EventRaised
  intro k c
  refine ⟨rfl, rfl, decide_eq_true_iff, ?_, fun d hd => ?_, rfl⟩
  · rw [Link.raise_flags, BitVec.getLsbD_or, EventClass.bit_getLsbD]
    simp
  · rw [Link.raise_flags, BitVec.getLsbD_or, EventClass.bit_getLsbD]
    simp [hd]

/-- Settles O39: each target by its range and its clamp. -/
theorem valuesTaken : Obligations.ValuesTaken := by
  unfold Obligations.ValuesTaken
  intro r v i
  simp only [Setting.taken, Setting.range, RegTarget.range, ProfileField.range, Range.has_iff, RegTarget.clamped, clampTo,
    ProfileField.isDuration, Config.currentRating, Config.voltageRating, if_true, Bool.false_eq_true, if_false, and_self]

/-- The laws of the links and of the scan hold of a controller that a reset has set. -/
theorem powerOn_linksLaw (img : Image) (n : Ns) (p : Pins) (q : List Instr) : LinksLaw (State.powerOn img n p q) :=
  ⟨Link.reset_law _, Link.reset_law _, Link.reset_law _⟩

theorem powerOn_scanLaw (img : Image) (n : Ns) (p : Pins) (q : List Instr) : ScanLaw (State.powerOn img n p q) := by
  refine ⟨fun i => ?_, Nat.zero_lt_succ 2, nofun⟩
  simp [State.powerOn, Hs.reset, Channel.reset, ChannelLaw]

/-- Settles O51: the reset's state is empty, with the defaults in force. -/
theorem resetObeysLaws : Obligations.ResetObeysLaws := by
  unfold Obligations.ResetObeysLaws
  have hset : SettingsLaw State.reset := by
    obtain ⟨hreg, hprof, hcal, hlim, hhold⟩ := defaultImage_law
    refine settingsLaw_iff.mpr ⟨hreg, hprof, hcal, fun i => ?_, hhold, (fun _ h => nomatch h), fun _ => defaultImage_law,
      fun _ h => nomatch h⟩
    simpa [State.reset, State.powerOn, Hs.reset, Channel.reset] using hlim i
  refine ⟨by decide, hset, by decide, by decide, by decide, by decide, by decide, ?_, by decide, by decide,
    powerOn_linksLaw _ _ _ _, powerOn_scanLaw _ _ _ _⟩
  exact ⟨by decide, nofun, fun _ => by decide, nofun⟩

end Sys2Proof.Machine
end

