-- ==== Sys2Proof/Proofs/LinkRows.lean ====
section
/-! Bytes received, gaps, responses and rates of a link (O31 to O33). -/

namespace Sys2Proof.Machine

/-! ### Receivers (R186 to R189, R197) -/

theorem onLink_congr {s : State} {l : LinkId} {f g : Link → Link} (h : f (s.link l) = g (s.link l)) : s.onLink l f = s.onLink l g := by
  have h' : f (s.lc.links.get l) = g (s.lc.links.get l) := h
  simp only [State.onLink, h']

theorem exec_byteReceived_eq {s : State} {l : LinkId} {b : Byte} {good : Bool} {g : Link → Link}
    (h : (s.link l).receive b good = g (s.link l)) : exec (.byteReceived l b good) s = .next (s.onLink l g) :=
  congrArg Host.Outcome.next (onLink_congr h)

theorem Link.framing_eq (k : Link) :
    k.framing = if k.errors.framing then { k with rx := .hunt, partialBytes := [], gap := 0 }
      else ({ k with rx := .hunt, partialBytes := [], gap := 0, errors := { k.errors with framing := true } }).raise .link := rfl

/-- A byte of the payload is kept, and the last of them leads to the check byte. -/
theorem Link.receive_payload_good {k : Link} {len b : Byte} {got : Bytes} (h : k.rx = .payload) (hp : k.partialBytes = len :: got) :
    k.receive b true =
      { k with
        rx := if got.length + 1 = len.toNat then .check else .payload, partialBytes := len :: (got ++ [b]), gap := 0 } := by
  simp [Link.receive, h, hp, declaredLength]

/-- Settles O31: the receiver's table, state by state. -/
theorem byteTaken : Obligations.ByteTaken := by
  unfold Obligations.ByteTaken
  constructor
  · intro s l b good
    refine ⟨fun h => exec_byteReceived_eq ?_, fun h => exec_byteReceived_eq ?_, fun len got h hg hp => exec_byteReceived_eq ?_,
      fun h hg => exec_byteReceived_eq ?_⟩
    · simp only [Link.receive, h, Config.startByte]
    · simp only [Link.receive, h, Link.framing_eq]
    · rw [hg]
      exact Link.receive_payload_good h hp
    · rw [hg, Link.receive_badStop h, Link.framing_eq]
  · intro s l b len payload hrx hp
    refine ⟨fun ha hf => exec_byteReceived_eq ?_, fun ha hf => exec_byteReceived_eq ?_, fun ha => exec_byteReceived_eq ?_⟩
    · rw [ha, ← hp]
      refine (Link.receive_check_good hrx).trans ((Link.offer_room (k := { s.link l with rx := .hunt, partialBytes := [], gap := 0 })
        _ hf).trans ?_)
      rw [hp]
      rfl
    · rw [ha, ← hp]
      exact (Link.receive_check_good hrx).trans (Link.offer_full (k := { s.link l with rx := .hunt, partialBytes := [], gap := 0 }) _ hf)
    · rw [Link.receive_check_bad hrx (by rwa [hp])]
      rfl

/-! ### The bytes of one frame (R207) -/

/-- Bytes taken by one link, one after the other, are one change of that link. -/
theorem exec_bytes_eq (l : LinkId) (bytes : Bytes) (s : State) :
    bytes.foldl
        (fun o b => match o with | .next t => exec (.byteReceived l b true) t | .fault r => .fault r | .refused r => .refused r)
        (.next s : Host.Outcome State Fault Refusal)
      = .next (s.onLink l fun k => bytes.foldl (fun k b => k.receive b true) k) := by
  induction bytes generalizing s with
  | nil => exact congrArg Host.Outcome.next (State.onLink_self rfl).symm
  | cons b bytes ih =>
    rw [List.foldl_cons]
    refine (ih (s.onLink l (Link.receive b true))).trans (congrArg Host.Outcome.next ?_)
    simp only [State.onLink, PerLink.get_set, if_true, PerLink.set_set, List.foldl_cons]

/-- The payload bytes collected one after the other, up to the declared length. -/
theorem receive_payload_bytes {len : Byte} {rest got : Bytes} {k : Link} (hrx : k.rx = .payload) (hp : k.partialBytes = len :: got)
    (hne : rest ≠ []) (hlen : got.length + rest.length = len.toNat) (hgap : k.gap = 0) :
    rest.foldl (fun k b => k.receive b true) k = { k with rx := .check, partialBytes := len :: (got ++ rest) } := by
  induction rest generalizing got k with
  | nil => exact absurd rfl hne
  | cons b rest ih =>
    rw [List.length_cons] at hlen
    rw [List.foldl_cons, Link.receive_payload_good hrx hp]
    cases rest with
    | nil => rw [if_pos (by simpa using hlen)]; simp [hgap]
    | cons c rest =>
      rw [if_neg (by rw [List.length_cons] at hlen; omega)]
      rw [ih (got := got ++ [b]) rfl rfl (List.cons_ne_nil _ _) (by rw [List.length_append, List.length_singleton]; omega) rfl]
      simp [hgap]

/-- Settles O32: start byte, length, payload and check byte in turn. -/
theorem frameRoundTrip : Obligations.FrameRoundTrip := by
  unfold Obligations.FrameRoundTrip
  intro s l payload hlo hhi hrx hpart hgap hroom
  refine (exec_bytes_eq l (frameOf payload) s).trans (congrArg Host.Outcome.next (onLink_congr ?_))
  generalize s.link l = k at *
  set len : Byte := BitVec.ofNat 8 payload.length with hl
  have hlen : len.toNat = payload.length := by rw [hl, BitVec.toNat_ofNat]; omega
  have hframe : frameOf payload = Config.startByte :: len :: (payload ++ [checkByte (len :: payload)]) := rfl
  rw [hframe, List.foldl_cons, List.foldl_cons, List.foldl_append, Link.receive_hunt_start hrx,
    Link.receive_length_good rfl (by omega) (by omega),
    receive_payload_bytes (len := len) (got := []) rfl rfl (List.ne_nil_of_length_pos hlo) (by simp [hlen]) rfl,
    List.foldl_cons, List.foldl_nil, List.nil_append]
  refine (Link.receive_check_good (k := { k with rx := .check, partialBytes := len :: payload, gap := 0 }) rfl).trans ?_
  refine (Link.offer_room (k := { k with rx := .hunt, partialBytes := [], gap := 0 }) payload hroom).trans ?_
  rw [← hrx, ← hpart, ← hgap]

/-! ### The rows of one link (R187, R190, R200) -/

/-- Settles O33. -/
theorem linkSteps : Obligations.LinkSteps := by
  unfold Obligations.LinkSteps
  intro s l
  refine ⟨fun hrx hgap => ?_, fun bytes hb hbits => ?_, fun rate hr hb hrx => ?_⟩ <;>
    refine congrArg Host.Outcome.next (onLink_congr ?_)
  · rw [Link.expireGap, if_pos (by simp [Link.gapDue, hrx, hgap]), Link.framing_eq]
  · rw [Link.finish, if_pos]
    · rfl
    · simp only [Link.maySend, hb, decide_eq_true_eq]
      omega
  · simp only [Link.switchRate, hr, hb, hrx, and_self, if_true]

end Sys2Proof.Machine
end

