-- ==== Sys2Proof/Proofs/Commands.lean ====
section
/-! The reading commands, SET TIME, SAVE SETTINGS, DELETE WINDOW and CHANGE (O35, O37, O38, O45, O48). -/

namespace Sys2Proof.Machine

/-! ### The reading commands (R20, R27, R36, R94, R118, R144, R161, R182, R192) -/

section Reads
variable {l : LinkId} {args : Bytes} {s : State}

/-- A served row whose command leaves the state that it finds, with its reply. -/
theorem serveCode_reads {cmd : Command} {code : Byte} {r : Reply} (h : s.serves l code args)
    (hc : cmd l args (takeFrame l s) = (r, takeFrame l s)) : serveCode code.toNat cmd s = s.answer l code r := by
  rw [serveCode_serve h, serve_unchanged h hc]

/-- Taking a frame from a link without a pending rate leaves every bit rate. -/
theorem takeFrame_rates (h : (s.link l).pendingRate = none) :
    ((takeFrame l s).lc.links.sup.rate, (takeFrame l s).lc.links.tel.rate, (takeFrame l s).lc.links.svc.rate)
      = (s.lc.links.sup.rate, s.lc.links.tel.rate, s.lc.links.svc.rate) := by
  rw [takeFrame_noRate h]
  cases l <;> rfl

theorem settingsReport_takeFrame (h : (s.link l).pendingRate = none) : settingsReport (takeFrame l s) = settingsReport s := by
  have hrates := takeFrame_rates h
  simp only [Prod.mk.injEq] at hrates
  obtain ⟨hsup, htel, hsvc⟩ := hrates
  simp only [settingsReport, takeFrame_rg, takeFrame_tb, takeFrame_oc, takeFrame_mu, takeFrame_ns, hsup, htel, hsvc]

theorem cmdReadWindows_ok (hl : args.length ≤ 1) (hn : fieldU args 0 1 < 16) :
    cmdReadWindows l args s = (⟨.ok, windowsReport (fieldU args 0 1) s.sl⟩, s) := by
  rw [cmdReadWindows, if_neg (by omega), if_neg (by omega)]
  rfl

theorem fieldU_byte (i : Fin 8) : fieldU [BitVec.ofNat 8 i.val] 0 1 = i.val := by
  revert i
  decide

theorem cmdReadProfile_one (i : Fin 8) :
    cmdReadProfile l [BitVec.ofNat 8 i.val] s = (⟨.ok, u8 1 ++ profileBytes i.val (s.sl.profiles.get i)⟩, s) := by
  unfold cmdReadProfile
  rw [if_neg (by simp), if_neg (by simp), dif_pos (by rw [fieldU_byte]; exact i.isLt)]
  simp only [fieldU_byte]
  rfl

/-- A table of eight, entry by entry with its index. -/
theorem vector8_zipIdx {α : Type} (v : Vector α 8) :
    v.toList.zipIdx = ([0, 1, 2, 3, 4, 5, 6, 7] : List (Fin 8)).map fun i => (v.get i, i.val) := by
  apply List.ext_getElem
  · simp
  · intro n h1 h2
    have hn : n < 8 := by simpa using h2
    interval_cases n <;> simp [Vector.get_eq_getElem]

theorem cmdReadProfile_all :
    cmdReadProfile l [] s = (⟨.ok, u8 8 ++ ([0, 1, 2, 3, 4, 5, 6, 7] : List (Fin 8)).flatMap fun i =>
      profileBytes i.val (s.sl.profiles.get i)⟩, s) := by
  unfold cmdReadProfile
  rw [if_neg (by simp), if_pos (by simp), vector8_zipIdx]
  rfl

theorem cmdReadCaptures_ok (hl : args.length = 5) (h1 : 1 ≤ fieldU args 4 1) (h8 : fieldU args 4 1 ≤ 8) :
    cmdReadCaptures l args s = (⟨.ok, capturesReport (fieldU args 0 4) (fieldU args 4 1) s.cl⟩, s) := by
  rw [cmdReadCaptures, if_neg (not_not.mpr hl), if_neg (by omega)]
  rfl

theorem cmdReadFrame_ok (hl : args.length ≤ 1) (hn : fieldU args 0 1 ≤ 1) :
    cmdReadFrame l args s = (⟨.ok, frameReport (fieldU args 0 1) s.sk⟩, s) := by
  rw [cmdReadFrame, if_neg (by omega), if_neg (by omega)]
  rfl

/-- The codes that name no command. -/
theorem commandOf_none {n : Nat} (h : n = 0 ∨ 13 ≤ n ∧ n ≤ 15 ∨ 28 ≤ n) : commandOf n = none := by
  unfold commandOf
  split
  any_goals omega
  rfl

theorem serveUnknown_answer {code : Byte} (h : s.serves l code args)
    (hn : code = 0 ∨ 13 ≤ code.toNat ∧ code.toNat ≤ 15 ∨ 28 ≤ code.toNat) :
    serveUnknown s = s.answer l code ⟨.unknownCommand, []⟩ := by
  have hnone : commandOf (codeOf (code :: args)) = none := by
    rw [codeOf_cons]
    exact commandOf_none (hn.imp_left fun h => by rw [h]; rfl)
  unfold serveUnknown
  rw [h.1]
  dsimp only
  rw [if_pos (by rw [hnone]; rfl), serve_unchanged (r := ⟨.unknownCommand, []⟩) h rfl]

end Reads

/-- Settles O45: each reading command leaves the state that it finds, and READ CHANNELS clears the fresh flags. -/
theorem readsChangeNothing : Obligations.ReadsChangeNothing := by
  unfold Obligations.ReadsChangeNothing
  intro s l args
  refine ⟨fun h ha => ?_, fun h hl hn => ?_, fun i h ha => ?_, fun h ha => ?_, fun h ha => ?_, fun h ha => ?_, fun h ha => ?_,
    fun h hl h1 h8 => ?_, fun h ha => ?_, fun h hl hn => ?_, fun code h hn => ?_⟩ <;> refine congrArg Host.Outcome.next ?_
  · subst ha; exact serveCode_reads (cmd := cmdReadTime) h rfl
  · exact serveCode_reads (cmd := cmdReadWindows) h (cmdReadWindows_ok hl hn)
  · subst ha; exact serveCode_reads (cmd := cmdReadProfile) h (cmdReadProfile_one i)
  · subst ha; exact serveCode_reads (cmd := cmdReadProfile) h cmdReadProfile_all
  · subst ha; exact serveCode_reads (cmd := cmdReadQueue) h rfl
  · subst ha
    refine serveCode_reads (cmd := cmdReadSettings) h ?_
    rw [← settingsReport_takeFrame h.2]
    rfl
  · subst ha
    refine serveCode_reads (cmd := cmdReadStatus) h ?_
    rw [takeFrame_noRate h.2]
    rfl
  · exact serveCode_reads (cmd := cmdReadCaptures) h (cmdReadCaptures_ok hl h1 h8)
  · subst ha
    refine (serveCode_serve (cmd := cmdReadChannels) h).trans ?_
    by_cases hb : s.barred l = true
    · rw [if_pos (by simpa [State.barred] using hb)]
      refine serve_unchanged h ?_
      unfold cmdReadChannels
      rw [if_neg (by simp), if_pos (show (takeFrame l s).barred l = true from hb)]
      rfl
    · rw [if_neg (by simpa [State.barred] using hb)]
      refine serve_answer h ?_ rfl
      unfold cmdReadChannels
      rw [if_neg (by simp), if_neg (show ¬ (takeFrame l s).barred l = true from hb)]
      rfl
  · exact serveCode_reads (cmd := cmdReadFrame) h (cmdReadFrame_ok hl hn)
  · exact serveUnknown_answer h hn

/-! ### SET TIME (R14, R15) -/

section SetTime
variable {l : LinkId} {args : Bytes} {s : State}

/-- What SET TIME has changed of TB. -/
def Tb.setTime (l : LinkId) (args : Bytes) (x : Tb) : Tb :=
  { x with
    holdoverLimit := if fieldBit args 0 1 then fieldU args 5 4 else x.holdoverLimit
    lossAction := if fieldBit args 0 2 then (if fieldU args 9 1 = 0 then .cont else .suspend) else x.lossAction
    staged := if fieldBit args 0 0 then some ⟨fieldU args 1 4, l⟩ else x.staged }

theorem LossAction.ofCode_of_le {n : Nat} (h : n ≤ 1) : LossAction.ofCode n = some (if n = 0 then .cont else .suspend) := by
  interval_cases n <;> rfl

theorem LossAction.ofCode_none {n : Nat} : LossAction.ofCode n = none ↔ 1 < n := by
  unfold LossAction.ofCode
  split
  · simp
  · simp
  case h_3 h0 h1 => exact iff_of_true rfl (by rcases n with _ | _ | n; exacts [absurd rfl h0, absurd rfl h1, by omega])

theorem cmdSetTime_passed (ht : setTimeTest l args s = none) (ha : fieldBit args 0 2 = true → fieldU args 9 1 ≤ 1) :
    cmdSetTime l args s = (⟨.ok, []⟩,
      if fieldBit args 0 0 = false then { s with tb := s.tb.setTime l args }
      else match s.tb.staged with
        | none => { s with tb := s.tb.setTime l args }
        | some old => raiseOn old.origin .superseded { s with tb := s.tb.setTime l args }) := by
  have haction : fieldBit args 0 2 = true →
      (LossAction.ofCode (fieldU args 9 1)).getD s.tb.lossAction = if fieldU args 9 1 = 0 then .cont else .suspend :=
    fun h => by rw [LossAction.ofCode_of_le (ha h)]; rfl
  simp only [cmdSetTime, ht, okWith, Tb.setTime]
  cases h0 : fieldBit args 0 0 <;> cases h1 : fieldBit args 0 1 <;> cases h2 : fieldBit args 0 2 <;>
    simp only [h2, haction, stageTime, Bool.false_eq_true, if_true, if_false, Bool.true_eq_false] <;>
    rfl

theorem exec_setTime_serve (h : s.serves l 1 args) : exec .setTime s = .next (serve cmdSetTime l (1 :: args) s) :=
  congrArg Host.Outcome.next (serveCode_serve (cmd := cmdSetTime) h)

theorem cmdSetTime_refused {st : Status} (h : setTimeTest l args s = some st) : cmdSetTime l args s = (⟨st, []⟩, s) := by
  unfold cmdSetTime
  rw [h]
  rfl

end SetTime

/-- Settles O35: the tests in order, and TB's part as the command leaves it. -/
theorem setTimeTakes : Obligations.SetTimeTakes := by
  unfold Obligations.SetTimeTakes
  constructor
  · intro s l args hs hb hlen hasT hasLimit hasAction T limit action hany hT hlimit haction
    rw [exec_setTime_serve hs]
    refine congrArg Host.Outcome.next ?_
    have htest : setTimeTest l args (takeFrame l s) = none := by
      unfold setTimeTest
      rw [if_neg (by rw [show (takeFrame l s).barred l = s.barred l from rfl, hb]; exact Bool.false_ne_true), if_neg, if_neg]
      · rintro (⟨h, h'⟩ | ⟨h, h'⟩ | ⟨h, h'⟩)
        · exact hT h h'
        · exact h' (hlimit h)
        · have := LossAction.ofCode_none.mp h'
          exact absurd (haction h) (by omega)
      · rintro (h | h)
        · exact h hlen
        · simp only [Bool.or_eq_false_iff] at h
          obtain ⟨⟨h0, h1⟩, h2⟩ := h
          exact hany.elim (fun h => by simp [hasT, h0] at h) fun h => h.elim (fun h => by simp [hasLimit, h1] at h)
            fun h => by simp [hasAction, h2] at h
    have hcmd := cmdSetTime_passed htest haction
    rw [takeFrame_tb] at hcmd
    by_cases h0 : fieldBit args 0 0 = false
    · rw [if_pos h0] at hcmd
      rw [if_pos h0]
      exact serve_answer hs hcmd rfl
    · rw [if_neg h0] at hcmd
      rw [if_neg h0]
      split
      case h_1 hst =>
        rw [hst] at hcmd
        exact serve_answer (t := { s with tb := s.tb.setTime l args }) hs hcmd rfl
      case h_2 old hst =>
        rw [hst] at hcmd
        exact serve_answer_raisedOn (u := { s with tb := s.tb.setTime l args }) hs hcmd rfl
  · intro s l args hs none3
    rw [exec_setTime_serve hs]
    have hbar : (takeFrame l s).barred l = s.barred l := rfl
    have hnone3 : (fieldBit args 0 0 || fieldBit args 0 1 || fieldBit args 0 2) = false ↔ none3 := by
      simp [none3, and_assoc]
    refine ⟨fun hb => ?_, fun hb hl => ?_, fun hb hl hn hr => ?_⟩ <;>
      refine congrArg Host.Outcome.next (serve_unchanged hs (cmdSetTime_refused ?_)) <;> unfold setTimeTest
    · rw [if_pos (by rw [hbar, hb])]
    · rw [if_neg (by rw [hbar, hb]; exact Bool.false_ne_true), if_pos (hl.imp_right hnone3.mpr)]
    · rw [if_neg (by rw [hbar, hb]; exact Bool.false_ne_true), if_neg (not_or.mpr ⟨not_not.mpr hl, fun h => hn (hnone3.mp h)⟩),
        if_pos]
      refine hr.imp_right (Or.imp (fun ⟨h, h'⟩ => ⟨h, by omega⟩) fun ⟨h, h'⟩ => ⟨h, LossAction.ofCode_none.mpr h'⟩)

/-! ### SAVE SETTINGS (R202) -/

section Save
variable {l : LinkId} {args : Bytes} {s : State}

theorem rateOf_eq (r : Rate) (n : Nat) :
    rateOf r n = if 4 < n then none else some (if n = 1 then .r9600 else if n = 2 then .r19200 else if n = 3 then .r38400
      else if n = 4 then .r115200 else r) := by
  rcases n with _ | _ | _ | _ | _ | n
  case succ.succ.succ.succ.succ => exact (if_pos (by omega)).symm
  all_goals rfl

theorem exec_saveSettings_serve (h : s.serves l 26 args) :
    exec .saveSettings s = .next (serve cmdSaveSettings l (26 :: args) s) :=
  congrArg Host.Outcome.next (serveCode_serve (cmd := cmdSaveSettings) h)

end Save

/-- Settles O48: the tests in order, the snapshot that begins to be written, and the image that its end leaves. -/
theorem saveBeginsAndCompletes : Obligations.SaveBeginsAndCompletes := by
  unfold Obligations.SaveBeginsAndCompletes
  constructor
  · intro s l args hs hlen code rate image
    rw [exec_saveSettings_serve hs]
    have hl : ¬ (args.length ≠ 0 ∧ args.length ≠ 3) := by omega
    have hrates := takeFrame_rates hs.2
    simp only [Prod.mk.injEq] at hrates
    obtain ⟨hsup, htel, hsvc⟩ := hrates
    have hsave : saveRates args (takeFrame l s) = if 4 < code 0 ∨ 4 < code 1 ∨ 4 < code 2 then none else some image.rates := by
      unfold saveRates
      rw [hsup, htel, hsvc, rateOf_eq, rateOf_eq, rateOf_eq]
      by_cases h0 : 4 < fieldU args 0 1 <;> by_cases h1 : 4 < fieldU args 1 1 <;> by_cases h2 : 4 < fieldU args 2 1 <;>
        simp [code, rate, image, h0, h1, h2]
    have hbar : (takeFrame l s).barred l = s.barred l := rfl
    have hns : (takeFrame l s).ns.write = s.ns.write := rfl
    refine ⟨fun hb => ?_, fun hb hw => ?_, fun hb hw hc => ?_, fun hb hw h0 h1 h2 => ?_⟩ <;> refine congrArg Host.Outcome.next ?_
    · refine serve_unchanged hs ?_
      rw [cmdSaveSettings, if_neg hl, if_pos (by rw [hbar, hb])]
      rfl
    · refine serve_unchanged hs ?_
      rw [cmdSaveSettings, if_neg hl, if_neg (by rw [hbar, hb]; exact Bool.false_ne_true), if_pos (by rw [hns, hw])]
      rfl
    · refine serve_unchanged hs ?_
      rw [cmdSaveSettings, if_neg hl, if_neg (by rw [hbar, hb]; exact Bool.false_ne_true), if_neg (by rw [hns, hw]; exact Bool.false_ne_true),
        hsave, if_pos hc]
      rfl
    · refine serve_answer hs ?_ rfl
      rw [cmdSaveSettings, if_neg hl, if_neg (by rw [hbar, hb]; exact Bool.false_ne_true), if_neg (by rw [hns, hw]; exact Bool.false_ne_true),
        hsave, if_neg (by omega)]
      rfl
  · intro s w hw
    refine congrArg Host.Outcome.next ?_
    unfold saveDone
    rw [hw]
    rfl

/-! ### DELETE WINDOW (R34, R35) -/

section DeleteWindow
variable {l : LinkId} {args : Bytes} {s : State}

theorem exec_deleteWindow_serve (h : s.serves l 4 args) :
    exec .deleteWindow s = .next (serve cmdDeleteWindow l (4 :: args) s) :=
  congrArg Host.Outcome.next (serveCode_serve (cmd := cmdDeleteWindow) h)

theorem cmdDeleteWindow_localHeld (hb : s.barred l = true) : cmdDeleteWindow l args s = (⟨.localHeld, []⟩, s) := if_pos hb

theorem cmdDeleteWindow_badLength (hb : s.barred l = false) (hl : args.length ≠ 2) :
    cmdDeleteWindow l args s = (⟨.badLength, []⟩, s) := by
  rw [cmdDeleteWindow, if_neg (by simp [hb]), if_pos hl]
  rfl

theorem cmdDeleteWindow_noSuch (hb : s.barred l = false) (hl : args.length = 2)
    (h : s.windowOf (fieldU args 0 2) = none) : cmdDeleteWindow l args s = (⟨.noSuch, []⟩, s) := by
  rw [cmdDeleteWindow, if_neg (by simp [hb]), if_neg (not_not.mpr hl), h]
  rfl

theorem cmdDeleteWindow_found {w : WindowRec} (hb : s.barred l = false) (hl : args.length = 2)
    (h : s.windowOf (fieldU args 0 2) = some w) : cmdDeleteWindow l args s = (⟨.ok, []⟩, deleteWindow w s) := by
  rw [cmdDeleteWindow, if_neg (by simp [hb]), if_neg (not_not.mpr hl), h]
  rfl

end DeleteWindow

section Split
variable {before after : List WindowRec} {w : WindowRec}

/-- In a lawful list no other entry holds the ID of an entry (R29). -/
theorem ids_ne_of_split {s : State} (hl : ListLaw s) (hs : s.sl.windows = before ++ w :: after) :
    (∀ v ∈ before, v.id ≠ w.id) ∧ ∀ v ∈ after, v.id ≠ w.id := by
  obtain ⟨-, hpair, -⟩ := hl
  rw [hs, List.pairwise_append, List.pairwise_cons] at hpair
  obtain ⟨-, ⟨hafter, -⟩, hbefore⟩ := hpair
  exact ⟨fun v hv => (hbefore v hv w List.mem_cons_self).2, fun v hv => (hafter v hv).2.symm⟩

theorem find_id_split (hb : ∀ v ∈ before, v.id ≠ w.id) :
    (before ++ w :: after).find? (fun v => decide (v.id = w.id)) = some w :=
  List.find?_eq_some_iff_append.mpr ⟨by simp, before, after, rfl, fun v hv => by simpa using hb v hv⟩

theorem filter_id_split (hb : ∀ v ∈ before, v.id ≠ w.id) (ha : ∀ v ∈ after, v.id ≠ w.id) :
    (before ++ w :: after).filter (fun v => decide (v.id ≠ w.id)) = before ++ after := by
  rw [List.filter_append, List.filter_cons_of_neg (by simp), List.filter_eq_self.mpr (by simpa using hb),
    List.filter_eq_self.mpr (by simpa using ha)]

theorem map_id_split (f : WindowRec → WindowRec) (hb : ∀ v ∈ before, v.id ≠ w.id) (ha : ∀ v ∈ after, v.id ≠ w.id) :
    (before ++ w :: after).map (fun v => if v.id = w.id then f v else v) = before ++ f w :: after := by
  have hkeep : ∀ xs : List WindowRec, (∀ v ∈ xs, v.id ≠ w.id) → xs.map (fun v => if v.id = w.id then f v else v) = xs :=
    fun xs hx => (List.map_congr_left fun v hv => if_neg (hx v hv)).trans (List.map_id' xs)
  rw [List.map_append, List.map_cons, if_pos rfl, hkeep before hb, hkeep after ha]

/-- The entry that a command names ends; the others stay. -/
theorem endWindow_split {s : State} (hl : ListLaw s) (hs : s.sl.windows = before ++ w :: after) :
    endWindow w.id s = { s with sl := { s.sl with windows := before ++ w.cut s.tb.seconds :: after } } := by
  obtain ⟨hb, ha⟩ := ids_ne_of_split hl hs
  rw [endWindow, hs, map_id_split _ hb ha]

end Split

/-- Settles O37: the entry found by its ID, and what its life makes of it. -/
theorem deleteWindowTakes : Obligations.DeleteWindowTakes := by
  unfold Obligations.DeleteWindowTakes
  intro s l args hs hlaw id
  have hlist := (windowLaw_iff.mp hlaw).1
  rw [exec_deleteWindow_serve hs]
  refine ⟨fun hb => congrArg _ (serve_unchanged hs (cmdDeleteWindow_localHeld hb)),
    fun hb hl => congrArg _ (serve_unchanged hs (cmdDeleteWindow_badLength hb hl)),
    fun hb hl hno => congrArg _ (serve_unchanged hs (cmdDeleteWindow_noSuch hb hl ?noSuch)),
    fun before w after hsplit hb hl hid => ?found⟩
  case noSuch => exact List.find?_eq_none.mpr fun v hv => by simpa using hno v hv
  case found =>
    obtain ⟨hbefore, hafter⟩ := ids_ne_of_split hlist hsplit
    have hfound : (takeFrame l s).windowOf (fieldU args 0 2) = some w := by
      unfold State.windowOf
      rw [show fieldU args 0 2 = w.id from hid.symm, takeFrame_sl, hsplit]
      exact find_id_split hbefore
    have hcmd := cmdDeleteWindow_found (s := takeFrame l s) hb hl hfound
    have hended (hne : w.life ≠ .scheduled) : cmdDeleteWindow l args (takeFrame l s) = (⟨.ok, []⟩,
        { s with sl := { s.sl with windows := before ++ w.cut s.tb.seconds :: after }, lc := (takeFrame l s).lc }) := by
      rw [hcmd, deleteWindow, if_neg hne, endWindow_split (s := takeFrame l s) (before := before) (after := after)]
      · rfl
      · exact hlist
      · exact hsplit
    refine ⟨fun hlife => congrArg _ ?_, fun c hlife => congrArg _ ?_, fun c cause hlife => congrArg _ ?_⟩
    · let noted : Sl := { s.sl with
        windows := before ++ after
        notices := s.sl.notices.drop (s.sl.notices.length - 7) ++ [⟨s.sl.noticeNo, id, .deleted, s.tb.seconds⟩]
        noticeNo := next16 s.sl.noticeNo }
      refine (serve_answer_raised (c := .window) (u := { s with sl := noted }) hs ?_ rfl).trans rfl
      rw [hcmd, deleteWindow, if_pos hlife]
      have hwindows : s.sl.windows.filter (fun x => decide (x.id ≠ w.id)) = before ++ after := by
        rw [hsplit, filter_id_split hbefore hafter]
      rw [takeFrame_sl, hwindows, hid]
      rfl
    · have hcut : w.cut s.tb.seconds = if s.tb.seconds < w.stop then
          { w with stop := max s.tb.seconds (w.start + 1), life := .ending c .delete } else { w with life := .ending c .time } := by
        split
        case isTrue h => exact WindowRec.cut_ahead hlife h
        case isFalse h => exact WindowRec.cut_past hlife (Nat.not_lt.mp h)
      rw [← hcut]
      exact serve_answer (t := { s with sl := { s.sl with windows := before ++ w.cut s.tb.seconds :: after } }) hs
        (hended (by rw [hlife]; nofun)) rfl
    · refine serve_unchanged hs ((hended (by rw [hlife]; nofun)).trans ?_)
      rw [WindowRec.cut_other (by rw [hlife]; nofun), ← hsplit]
      rfl

/-! ### CHANGE (R139 to R142) -/

section Change
variable {l : LinkId} {args : Bytes} {s : State}

theorem exec_change_serve (h : s.serves l 7 args) : exec .change s = .next (serve cmdChange l (7 :: args) s) :=
  congrArg Host.Outcome.next (serveCode_serve (cmd := cmdChange) h)

theorem changesHeld_eq_true_iff : s.changesHeld = true ↔ s.sk.stack ≠ [] ∨ s.oc.output = .lockout := by
  simp [State.changesHeld]

theorem cmdChange_badLength (hl : args.length ≠ 6) : cmdChange l args s = (⟨.badLength, []⟩, s) := by
  rw [cmdChange, if_pos hl]
  rfl

theorem cmdChange_noTarget (hl : args.length = 6) (hx : settingOf (fieldU args 0 1) (fieldU args 1 1) = none) :
    cmdChange l args s = (⟨.outOfRange, []⟩, s) := by
  rw [cmdChange, if_neg (not_not.mpr hl), hx]
  rfl

variable {x : Setting}

theorem cmdChange_notTaken (hl : args.length = 6) (hx : settingOf (fieldU args 0 1) (fieldU args 1 1) = some x)
    (hv : x.taken s.rg.set (fieldS args 2 4) = none) : cmdChange l args s = (⟨.outOfRange, []⟩, s) := by
  simp only [cmdChange, hl, hx, hv]
  rfl

variable {v : Int}

theorem cmdChange_taken (hl : args.length = 6) (hx : settingOf (fieldU args 0 1) (fieldU args 1 1) = some x)
    (hv : x.taken s.rg.set (fieldS args 2 4) = some v) :
    cmdChange l args s = if s.changesHeld then (⟨.held, []⟩, s) else if s.barred l then (⟨.localHeld, []⟩, s)
      else enqueue l x v (decide (v ≠ fieldS args 2 4)) s := by
  simp only [cmdChange, hl, hx, hv]
  rfl

/-- The state with a queue in place, whose entry for a setting waits no more. -/
abbrev State.entered (x : Setting) (q : List QEntry) (s : State) : State :=
  { s with cq := { queue := q }, moment := { s.moment with requeued := s.moment.requeued.filter fun y => decide (y ≠ x) } }

variable {b : Bool}

theorem enqueue_replaces {before after : List QEntry} {e : QEntry} (hq : s.cq.queue = before ++ e :: after) (he : e.setting = x)
    (hb : ∀ f ∈ before, f.setting ≠ x) :
    enqueue l x v b s = (⟨if b then .adjusted else .ok, u32 v ++ u8 before.length ++ [1]⟩,
      raiseOn e.origin .superseded (s.entered x (before ++ ⟨x, v, l⟩ :: after))) := by
  have hpos : s.cq.position x = some before.length := by
    rw [Cq.position, hq, List.findIdx?_eq_some_iff_getElem]
    refine ⟨by simp, by simpa using he, fun j hj => ?_⟩
    rw [List.getElem_append_left hj]
    simpa using hb _ (List.getElem_mem hj)
  have hset : s.cq.queue.set before.length ⟨x, v, l⟩ = before ++ ⟨x, v, l⟩ :: after := by
    rw [hq, List.set_append_right _ _ (Nat.le_refl _), Nat.sub_self, List.set_cons_zero]
  have hget : s.cq.queue[before.length]? = some e := by rw [hq]; simp
  simp only [enqueue, hpos, hset, hget]
  rfl

theorem position_none (h : ∀ e ∈ s.cq.queue, e.setting ≠ x) : s.cq.position x = none := by
  rw [Cq.position, List.findIdx?_eq_none_iff]
  simpa using h

theorem enqueue_appends (h : ∀ e ∈ s.cq.queue, e.setting ≠ x) (hn : s.cq.queue.length < 4) :
    enqueue l x v b s = (⟨if b then .adjusted else .ok, u32 v ++ u8 s.cq.queue.length ++ [0]⟩,
      s.entered x (s.cq.queue ++ [⟨x, v, l⟩])) := by
  simp only [enqueue, position_none h, Config.maxQueue, if_neg (Nat.not_le.mpr hn)]
  rfl

theorem enqueue_full (h : ∀ e ∈ s.cq.queue, e.setting ≠ x) (hn : 4 ≤ s.cq.queue.length) :
    enqueue l x v b s = (⟨.queueFull, []⟩, s) := by
  simp only [enqueue, position_none h, Config.maxQueue, if_pos hn]
  rfl

end Change

/-- Settles O38: the tests in order, and the entry in place of the one for its setting or as the last. -/
theorem changeTakes : Obligations.ChangeTakes := by
  unfold Obligations.ChangeTakes
  constructor
  · intro s l args x v hs hl hx hv hk ho hb st entered
    rw [exec_change_serve hs]
    have hheld : (takeFrame l s).changesHeld = false := by
      rw [Bool.eq_false_iff, Ne, changesHeld_eq_true_iff]
      exact fun h => h.elim (fun h => h hk) ho
    have hcmd : cmdChange l args (takeFrame l s) = enqueue l x v (decide (v ≠ fieldS args 2 4)) (takeFrame l s) := by
      rw [cmdChange_taken (s := takeFrame l s) hl hx hv, if_neg (by rw [hheld]; exact Bool.false_ne_true),
        if_neg (by rw [show (takeFrame l s).barred l = s.barred l from rfl, hb]; exact Bool.false_ne_true)]
    have hst : (if decide (v ≠ fieldS args 2 4) = true then Status.adjusted else .ok) = st := by
      by_cases h : v = fieldS args 2 4 <;> simp [st, h]
    refine ⟨fun before e after hq he hbefore => congrArg _ ?_, fun hno hn => congrArg _ ?_, fun hno hn => congrArg _ ?_⟩
    · refine serve_answer_raisedOn (u := entered (before ++ ⟨x, v, l⟩ :: after)) hs ?_ rfl
      rw [hcmd, enqueue_replaces (s := takeFrame l s) hq he hbefore, hst]
      rfl
    · refine serve_answer (t := entered (s.cq.queue ++ [⟨x, v, l⟩])) hs ?_ rfl
      rw [hcmd, enqueue_appends (s := takeFrame l s) hno hn, hst]
      rfl
    · exact serve_unchanged hs (hcmd.trans (enqueue_full (s := takeFrame l s) hno hn))
  · intro s l args hs held
    rw [exec_change_serve hs]
    have hheld : (takeFrame l s).changesHeld = true ↔ held := changesHeld_eq_true_iff
    refine ⟨fun hl => congrArg _ (serve_unchanged hs (cmdChange_badLength hl)),
      fun hl hx => congrArg _ (serve_unchanged hs (cmdChange_noTarget hl hx)),
      fun x hx hl => ⟨fun hv => congrArg _ (serve_unchanged hs (cmdChange_notTaken hl hx hv)),
        fun v hv => ⟨fun h => congrArg _ (serve_unchanged hs ?_), fun h hb => congrArg _ (serve_unchanged hs ?_)⟩⟩⟩
    · rw [cmdChange_taken (s := takeFrame l s) hl hx hv, if_pos (hheld.mpr h)]
    · rw [cmdChange_taken (s := takeFrame l s) hl hx hv, if_neg (mt hheld.mp h), if_pos (show (takeFrame l s).barred l = true from hb)]

end Sys2Proof.Machine
end

