-- ==== Sys2Proof/Proofs/Station.lean ====
section
/-! STGFLT asserted, the mains declared, edges rejected and the off edge (O10, O22, O29, O30). -/

namespace Sys2Proof.Machine

/-! ### The STAGE FAULT input (R132) -/

theorem stageCheck_lockout {s : State} (h : s.oc.output = .lockout) : stageCheck s = s :=
  if_neg fun ⟨_, _, ho⟩ => ho h

/-- A pushed frame leaves the log and its numbers; two facts about CL's part make it whole. -/
theorem Cl.eq_of_log {c d : Cl} (hlog : c.log = d.log) (hseq : c.nextSeq = d.nextSeq) : c = { d with assembly := c.assembly } := by
  cases c
  cases d
  cases hlog
  cases hseq
  rfl

/-- The state with the STAGE FAULT input asserted. -/
abbrev State.stageFaulted (s : State) : State := { s with pins := { s.pins with stgflt := true } }

theorem exec_stgfltAsserted (s : State) : exec .stgfltAsserted s = .next (stageCheck s.stageFaulted) := rfl

theorem exec_stgfltAsserted_taken {s : State} (hk : ∀ f ∈ s.sk.stack, f.kind ≠ .stageFault) (ho : s.oc.output ≠ .lockout) :
    exec .stgfltAsserted s = .next (takeFault .stageFault none s.stageFaulted) :=
  congrArg Host.Outcome.next (stageCheck_raises (s := s.stageFaulted) rfl hk ho)

/-- Settles O30: nothing with a STAGE_FAULT frame or in LOCKOUT, LOCKOUT with two frames, a frame pushed otherwise. -/
theorem inputsTaken : Obligations.InputsTaken := by
  unfold Obligations.InputsTaken
  refine ⟨fun s => ⟨?ignored, fun hk ho hs => ?full, fun hk ho hs => ?pushed⟩, fun s b => ⟨rfl, rfl⟩⟩
  case ignored =>
    rw [exec_stgfltAsserted]
    rintro (⟨f, hf, hkind⟩ | ho)
    · exact congrArg _ (stageCheck_frameHeld (s := s.stageFaulted) hf hkind)
    · exact congrArg _ (stageCheck_lockout (s := s.stageFaulted) ho)
  case full =>
    refine ⟨_, exec_stgfltAsserted_taken hk ho, ?_⟩
    have ho' : s.stageFaulted.oc.output ≠ .lockout := ho
    have hs' : 2 ≤ s.stageFaulted.sk.stack.length := hs
    refine ⟨takeFault_full_sk ho' hs', takeFault_full_oc ho' hs', takeFault_full_rg ho' hs', takeFault_pins .., ?cl,
      fun l => by rw [takeFault_full_link ho' hs']; rfl, takeFault_full_cq ho' hs', takeFault_tb .., takeFault_hs ..,
      takeFault_ns .., takeFault_full_mu ho' hs', takeFault_sl_windows .., takeFault_full_capture ho' hs', takeFault_moment ..,
      takeFault_pending ..⟩
    rw [Cl.eq_of_log (takeFault_cl_log ..) (takeFault_cl_nextSeq ..), takeFault_full_assembly ho' hs']
  case pushed =>
    refine ⟨_, buildFrame .stageFault none s.stageFaulted, exec_stgfltAsserted_taken hk ho, ?_⟩
    rw [takeFault_push (s := s.stageFaulted) _ _ ho hs]
    refine ⟨pushFrame_sk .., rfl, rfl, rfl, rfl, rfl, rfl, rfl, rfl, rfl, rfl, rfl, ?_⟩
    refine ⟨pushFrame_output .., pushFrame_queue .., pushFrame_pins .., fun hheld => ?oc,
      fun hempty hcap => ⟨pushFrame_capture (s := s.stageFaulted) hempty, pushFrame_assembly (s := s.stageFaulted) hempty ?assembly⟩, pushFrame_fault _ _ _, pushFrame_tb ..,
      pushFrame_rg_set .., pushFrame_hs .., pushFrame_ns .., pushFrame_sl_windows .., pushFrame_cl_log ..⟩
    case oc =>
      rw [pushFrame_oc_holds (s := s.stageFaulted) rfl hheld, pushFrame_rg_holds (s := s.stageFaulted) rfl hheld]
      refine ⟨rfl, rfl, rfl, ?_⟩
      simp only [Output.drives]
      split <;> simp_all
    case assembly => exact fun h => absurd hcap (by rw [h]; exact Bool.false_ne_true)

/-! ### Mains declarations (R127, R128, R176) -/

section Declare
variable {s : State}

/-- LOST from PRESENT or UNKNOWN's successor stops an output that drives the stage. -/
theorem declareMains_stops (hm : s.hs.mains ≠ .unknown) (hd : s.oc.output.drives = true) :
    (declareMains .lost s).oc = { s.oc with
        output := .stopped .mains, drive := 0, switch := .closed, restartPending := s.oc.restartPending || s.oc.autoRestart }
      ∧ (declareMains .lost s).rg.duty = 0 := by
  have hout : s.oc.output ≠ .stopped .mains := fun h => by rw [h] at hd; exact absurd hd (by decide)
  unfold declareMains
  dsimp only
  rw [if_pos ⟨rfl, hm, hd⟩, raiseAll_oc, raiseAll_rg, markNoOutput_oc, markNoOutput_rg, changeOutput_oc (by exact hout) (by decide),
    changeOutput_duty (by exact hout)]
  exact ⟨rfl, rfl⟩

/-- PRESENT starts a STOPPED output that waits. -/
theorem declareMains_starts (hk : s.oc.output.kind = .stopped) (hr : s.oc.restartPending = true) :
    (declareMains .present s).oc.output = .ramp ∧ (declareMains .present s).oc.rampLimit = 0
      ∧ (declareMains .present s).oc.restartPending = false := by
  unfold declareMains
  dsimp only
  rw [if_neg fun h => absurd h.1 (by decide), if_pos ⟨rfl, hk, hr⟩, raiseAll_oc, markNoOutput_oc]
  exact enterRamp_oc

theorem declareMains_leaves {m : Mains} (hl : ¬ (m = .lost ∧ s.hs.mains ≠ .unknown ∧ s.oc.output.drives = true))
    (hp : ¬ (m = .present ∧ s.oc.output.kind = .stopped ∧ s.oc.restartPending = true)) : (declareMains m s).oc = s.oc := by
  unfold declareMains
  dsimp only
  rw [if_neg hl, if_neg hp, raiseAll_oc, markNoOutput_oc]

theorem declareMains_flag (m : Mains) (l : LinkId) :
    ((declareMains m s).link l).flags &&& EventClass.mains.bit = EventClass.mains.bit := by
  unfold declareMains
  dsimp only
  rw [raiseAll_link]
  exact Link.raise_sets _ _

end Declare

/-! ### The channels judged leave OC, RG and MAINS alone -/

theorem judgeAll_outputs (is : List (Fin 8)) (s : State) : (judgeAll is s).oc = s.oc ∧ (judgeAll is s).rg = s.rg := by
  induction is generalizing s with
  | nil => exact ⟨rfl, rfl⟩
  | cons i is ih =>
    rw [judgeAll_cons, (ih _).1, (ih _).2, judgeChannel_oc, judgeChannel_rg]
    exact ⟨rfl, rfl⟩

/-- What CHANNEL raised keeps of a link, the channels judged keep of it. -/
theorem judgeAll_link {P : Link → Prop} (hP : ∀ k, P k → P (k.raise .channel)) (is : List (Fin 8)) (s : State) (l : LinkId)
    (h : P (s.link l)) : P ((judgeAll is s).link l) := by
  induction is generalizing s with
  | nil => exact h
  | cons i is ih =>
    refine ih _ ?_
    unfold judgeChannel
    dsimp only
    split
    · exact h
    · rw [raiseAll_link]
      exact hP _ h

/-! ### The end of a scan by its verdict on the mains -/

section ScanVerdict
variable {s : State}

theorem endScan_mains (s : State) :
    (endScan s).hs.mains = s.mainsVerdict.1.getD s.hs.mains
      ∧ (endScan s).hs.mainsCount = (if s.mainsVerdict.1.isSome then 0 else s.mainsVerdict.2.1)
      ∧ (endScan s).hs.mainsMark = s.mainsVerdict.2.2 := by
  rw [endScan_eq, judgeAll_hs, updateMains_hs]
  exact ⟨rfl, rfl, rfl⟩

/-- The state on which a scan's verdict declares the mains: the scan stored, and the count and the mark of the verdict. -/
abbrev State.scanCounted (s : State) : State :=
  { storeScan s with hs := { (storeScan s).hs with mainsCount := s.mainsVerdict.2.1, mainsMark := s.mainsVerdict.2.2 } }

theorem updateMains_some {v : Option Mains × Nat × Bool} {m : Mains} (h : v.1 = some m) (t : State) :
    updateMains v t = declareMains m { t with hs := { t.hs with mainsCount := v.2.1, mainsMark := v.2.2 } } := by
  unfold updateMains
  rw [h]

theorem updateMains_silent {v : Option Mains × Nat × Bool} (h : v.1 = none) (t : State) :
    updateMains v t = { t with hs := { t.hs with mainsCount := v.2.1, mainsMark := v.2.2 } } := by
  unfold updateMains
  rw [h]

theorem endScan_declares {m : Mains} (h : s.mainsVerdict.1 = some m) :
    endScan s = judgeAll alarmChannels (declareMains m s.scanCounted) := by
  rw [endScan_eq, updateMains_some h]

theorem endScan_silent (h : s.mainsVerdict.1 = none) : endScan s = judgeAll alarmChannels s.scanCounted := by
  rw [endScan_eq, updateMains_silent h]

theorem endScan_counts {n : Nat} {b : Bool} (h : s.mainsVerdict = (none, n, b)) :
    (endScan s).hs.mains = s.hs.mains ∧ (endScan s).hs.mainsCount = n ∧ (endScan s).hs.mainsMark = b
      ∧ (endScan s).oc = s.oc ∧ (endScan s).rg = s.rg := by
  obtain ⟨hmains, hcount, hmark⟩ := endScan_mains s
  obtain ⟨hoc, hrg⟩ := judgeAll_outputs alarmChannels s.scanCounted
  rw [← endScan_silent (by rw [h])] at hoc hrg
  rw [h] at hmains hcount hmark
  exact ⟨hmains, hcount, hmark, hoc, hrg⟩

/-- A declaration's MAINS event stands on every link after the scan end. -/
theorem endScan_declares_flag {m : Mains} {n : Nat} {b : Bool} (h : s.mainsVerdict = (some m, n, b)) (l : LinkId) :
    ((endScan s).link l).flags &&& EventClass.mains.bit = EventClass.mains.bit := by
  rw [endScan_declares (by rw [h])]
  exact judgeAll_link (P := fun k => k.flags &&& EventClass.mains.bit = EventClass.mains.bit)
    (fun _ => Link.raise_keeps .channel .mains) _ _ l (declareMains_flag m l)

theorem endScan_declares_hs {m : Mains} {n : Nat} {b : Bool} (h : s.mainsVerdict = (some m, n, b)) :
    (endScan s).hs.mains = m ∧ (endScan s).hs.mainsCount = 0 := by
  obtain ⟨hmains, hcount, -⟩ := endScan_mains s
  rw [h] at hmains hcount
  exact ⟨hmains, hcount⟩

/-- PRESENT declared starts a STOPPED output that waits, and leaves any other. -/
theorem endScan_present {n : Nat} {b : Bool} (h : s.mainsVerdict = (some .present, n, b)) :
    (∀ cause, s.oc.output = .stopped cause → s.oc.restartPending = true →
        (endScan s).oc.output = .ramp ∧ (endScan s).oc.rampLimit = 0 ∧ (endScan s).oc.restartPending = false)
      ∧ ((∀ cause, s.oc.output ≠ .stopped cause) ∨ s.oc.restartPending = false → (endScan s).oc = s.oc) := by
  rw [endScan_declares (by rw [h]), (judgeAll_outputs _ _).1]
  refine ⟨fun cause hout hr => declareMains_starts (s := s.scanCounted) (by rw [show s.scanCounted.oc = s.oc from rfl, hout]; rfl) hr,
    fun hnot => declareMains_leaves (s := s.scanCounted) (fun h => absurd h.1 (by decide)) ?_⟩
  rintro ⟨-, hk, hr⟩
  rcases hnot with hnot | hnot
  · cases hout : s.oc.output with
    | stopped cause => exact hnot cause hout
    | _ => rw [show s.scanCounted.oc = s.oc from rfl, hout] at hk; exact absurd hk (by decide)
  · exact absurd (hnot.symm.trans hr) (by decide)

/-- LOST declared from a known state stops an output that drives the stage, and leaves any other. -/
theorem endScan_lost {n : Nat} {b : Bool} (h : s.mainsVerdict = (some .lost, n, b)) (hm : s.hs.mains ≠ .unknown) :
    (s.oc.output.drives = true → (endScan s).oc = { s.oc with
        output := .stopped .mains, drive := 0, switch := .closed, restartPending := s.oc.restartPending || s.oc.autoRestart }
      ∧ (endScan s).rg.duty = 0)
      ∧ (s.oc.output.drives = false → (endScan s).oc = s.oc) := by
  rw [endScan_declares (by rw [h]), (judgeAll_outputs _ _).1, (judgeAll_outputs _ _).2]
  refine ⟨fun hd => declareMains_stops (s := s.scanCounted) hm hd,
    fun hd => declareMains_leaves (s := s.scanCounted) ?_ (fun h => absurd h.1 (by decide))⟩
  exact fun h => absurd (hd.symm.trans h.2.2) (by decide)

/-- LOST declared from UNKNOWN leaves the output (R128). -/
theorem endScan_lost_unknown {n : Nat} {b : Bool} (h : s.mainsVerdict = (some .lost, n, b)) (hm : s.hs.mains = .unknown) :
    (endScan s).oc = s.oc := by
  rw [endScan_declares (by rw [h]), (judgeAll_outputs _ _).1]
  exact declareMains_leaves (s := s.scanCounted) (fun h => h.2.1 hm) (fun h => absurd h.1 (by decide))

/-- A scan that declares nothing leaves MAINS on every link. -/
theorem endScan_counts_flag {n : Nat} {b : Bool} (h : s.mainsVerdict = (none, n, b)) (l : LinkId) :
    ((endScan s).link l).flags.getLsbD EventClass.mains.code = (s.link l).flags.getLsbD EventClass.mains.code := by
  rw [endScan_silent (by rw [h])]
  refine judgeAll_link (P := fun k => k.flags.getLsbD EventClass.mains.code = (s.link l).flags.getLsbD EventClass.mains.code)
    (fun k hk => ?_) _ _ l rfl
  rw [Link.raise_flags, BitVec.getLsbD_or, hk, EventClass.bit_getLsbD, decide_eq_false (by decide), Bool.or_false]

end ScanVerdict

theorem Output.drives_iff {o : Output} : o.drives = true ↔ o = .run ∨ o = .ramp := by
  cases o <;> simp [Output.drives]

/-! ### The verdict by the mains state (R179, R180) -/

section Verdict
variable {s : State}

theorem mainsVerdict_present (hm : s.hs.mains = .present) :
    s.mainsVerdict = if scanValue s 0 < (s.hs.channels.get 0).limits.low then
      (if 2 ≤ s.hs.mainsCount then (some .lost, 0, s.hs.mainsMark) else (none, s.hs.mainsCount + 1, s.hs.mainsMark))
      else (none, 0, s.hs.mainsMark) := by
  simp only [State.mainsVerdict, mainsStep, hm, ge_iff_le, Nat.reduceLeDiff]

theorem mainsVerdict_lost (hm : s.hs.mains = .lost) :
    s.mainsVerdict = if (s.hs.channels.get 0).limits.high ≤ scanValue s 0 then
      (if 2 ≤ s.hs.mainsCount then (some .present, 0, s.hs.mainsMark) else (none, s.hs.mainsCount + 1, s.hs.mainsMark))
      else (none, 0, s.hs.mainsMark) := by
  simp only [State.mainsVerdict, mainsStep, hm, ge_iff_le, Nat.reduceLeDiff]

theorem mainsVerdict_unknown (hm : s.hs.mains = .unknown) :
    s.mainsVerdict =
      let mark := s.hs.mainsMark && decide ((s.hs.channels.get 0).limits.high ≤ scanValue s 0)
      if 2 ≤ s.hs.mainsCount then (some (if mark then .present else .lost), 0, mark) else (none, s.hs.mainsCount + 1, mark) := by
  simp only [State.mainsVerdict, mainsStep, hm, ge_iff_le, Nat.reduceLeDiff]

/-- Before the third scan nothing is declared. -/
theorem mainsVerdict_early (h : s.hs.mainsCount < 2) : s.mainsVerdict = (none, s.mainsVerdict.2.1, s.mainsVerdict.2.2) := by
  have hnone : s.mainsVerdict.1 = none := by
    cases hm : s.hs.mains with
    | present => rw [mainsVerdict_present hm, if_neg (Nat.not_le.mpr h)]; split <;> rfl
    | lost => rw [mainsVerdict_lost hm, if_neg (Nat.not_le.mpr h)]; split <;> rfl
    | unknown => rw [mainsVerdict_unknown hm]; dsimp only; rw [if_neg (Nat.not_le.mpr h)]
  rw [← hnone]

end Verdict

/-- Settles O29: the verdict by the mains state and the side of the limits, and what OC does with the declaration. -/
theorem mainsDeclared : Obligations.MainsDeclared := by
  unfold Obligations.MainsDeclared
  refine ⟨fun s hscan hcount => ?third, fun s hscan hcount => ?early⟩
  case third =>
    intro v lim
    refine ⟨_, exec_scanEnd_of_due hscan, fun hm hv => ?presentLow, fun hm hv => ?lostHigh, fun hm => ?unknown, fun hm hv => ?present,
      fun hm hv => ?lost⟩
    case presentLow =>
      have h := mainsVerdict_present hm
      rw [if_pos hv, if_pos (Nat.le_of_eq hcount.symm)] at h
      obtain ⟨hstops, hleaves⟩ := endScan_lost h (by rw [hm]; decide)
      obtain ⟨hmains, hzero⟩ := endScan_declares_hs h
      refine ⟨hmains, hzero, fun ho => hstops (Output.drives_iff.mpr ho), fun hrun hramp => hleaves ?_, endScan_declares_flag h⟩
      exact Bool.eq_false_iff.mpr fun hd => (Output.drives_iff.mp hd).elim hrun hramp
    case lostHigh =>
      have h := mainsVerdict_lost hm
      rw [if_pos hv, if_pos (Nat.le_of_eq hcount.symm)] at h
      obtain ⟨hstarts, hleaves⟩ := endScan_present h
      obtain ⟨hmains, hzero⟩ := endScan_declares_hs h
      exact ⟨hmains, hzero, hstarts, fun _ _ hr => hleaves (.inr hr), endScan_declares_flag h⟩
    case unknown =>
      have h := mainsVerdict_unknown hm
      dsimp only at h
      rw [if_pos (Nat.le_of_eq hcount.symm)] at h
      obtain ⟨hmains, hzero⟩ := endScan_declares_hs h
      have hmark : (s.hs.mainsMark && decide (lim.high ≤ v)) = true ↔ s.hs.mainsMark = true ∧ lim.high ≤ v := by simp
      have hpresent : s.hs.mainsMark = true → lim.high ≤ v → ∃ n b, s.mainsVerdict = (some .present, n, b) :=
        fun hm hv => ⟨_, _, by rw [h, if_pos (hmark.mpr ⟨hm, hv⟩)]⟩
      refine ⟨hmains.trans (if_congr hmark rfl rfl), hzero, fun hm hv => ?_, fun hm hv => ?_, fun hnot => ?_, endScan_declares_flag h⟩
      · obtain ⟨n, b, hp⟩ := hpresent hm hv
        exact (endScan_present hp).1
      · obtain ⟨n, b, hp⟩ := hpresent hm hv
        exact (endScan_present hp).2
      · rw [if_neg fun hb => ?_] at h
        · exact endScan_lost_unknown h hm
        · obtain ⟨hset, hhigh⟩ := hmark.mp hb
          exact hnot.elim (fun hclear => absurd (hclear.symm.trans hset) (by decide)) (Int.not_lt.mpr hhigh)
    case present =>
      have h := mainsVerdict_present hm
      rw [if_neg (Int.not_lt.mpr hv)] at h
      obtain ⟨hmains, hzero, -, hoc, -⟩ := endScan_counts h
      exact ⟨hmains.trans hm, hzero, hoc⟩
    case lost =>
      have h := mainsVerdict_lost hm
      rw [if_neg (Int.not_le.mpr hv)] at h
      obtain ⟨hmains, hzero, -, hoc, -⟩ := endScan_counts h
      exact ⟨hmains.trans hm, hzero, hoc⟩
  case early =>
    intro v lim
    have h := mainsVerdict_early hcount
    obtain ⟨hmains, hcounts, hmark, hoc, hrg⟩ := endScan_counts h
    refine ⟨_, exec_scanEnd_of_due hscan, hmains, hoc, hrg, fun hm => ?_, fun hm => ?_, fun hm => ?_, endScan_counts_flag h⟩
    · rw [hcounts, mainsVerdict_present hm, if_neg (Nat.not_le.mpr hcount)]
      exact apply_ite (fun p : Option Mains × Nat × Bool => p.2.1) _ _ _
    · rw [hcounts, mainsVerdict_lost hm, if_neg (Nat.not_le.mpr hcount)]
      exact apply_ite (fun p : Option Mains × Nat × Bool => p.2.1) _ _ _
    · rw [hcounts, hmark, mainsVerdict_unknown hm]
      dsimp only
      rw [if_neg (Nat.not_le.mpr hcount)]
      exact ⟨rfl, by simp [v, lim]⟩

/-! ### Pulse edges that are rejected (R4, R7) -/

/-- The difference around the second, written by the greater and the lesser count (R7). -/
theorem aroundSecond_eq (a b : Nat) :
    aroundSecond a b = min (max a b - min a b) (2400 - (max a b - min a b)) := by
  have hdiff : (if a ≤ b then b - a else a - b) = max a b - min a b := by split <;> omega
  rw [aroundSecond, hdiff]

theorem aroundSecond_self (a : Nat) : aroundSecond a a = 0 := by
  rw [aroundSecond_eq]
  omega

theorem aroundSecond_comm (a b : Nat) : aroundSecond a b = aroundSecond b a := by
  rw [aroundSecond_eq, aroundSecond_eq, Nat.max_comm, Nat.min_comm a b]

/-- Three counts agree exactly where their three differences are at most 2. -/
theorem agree_three (a b c : Nat) :
    agree [a, b, c] = true ↔ aroundSecond a b ≤ 2 ∧ aroundSecond a c ≤ 2 ∧ aroundSecond b c ≤ 2 := by
  simp only [agree, List.all_cons, List.all_nil, Bool.and_true, Bool.and_eq_true, decide_eq_true_eq, aroundSecond_self,
    aroundSecond_comm b a, aroundSecond_comm c a, aroundSecond_comm c b]
  omega

section Rejected
variable {s : State}

/-- An edge outside the band, with nothing of TB and SL outstanding, is rejected. -/
theorem exec_pulseEdge_rejected (hlo : 2 < s.tb.tick) (hhi : s.tb.tick < 2398) (hdone : s.timelineDone) (hlost : s.moment.lost = false) :
    exec .pulseEdge s = .next (rejectEdge s.tb.tick s) := by
  have hready : finishTimeline (enterLostNow s) = s := by
    rw [enterLostNow_none (.inl hlost), finishTimeline_done hdone.1 hdone.2]
  have hband : inBand s.tb.tick = false := decide_eq_false (by omega)
  refine congrArg Host.Outcome.next ?_
  rw [pulseEdgeStep, hready, hband]
  rfl

theorem rejectEdge_short {c : Nat} (h : s.tb.rejectStreak.length ≤ 1) :
    rejectEdge c s = { s with tb := { s.tb with
      lastEdge := some ⟨c, s.tb.seconds, .rejected⟩, rejectStreak := s.tb.rejectStreak ++ [c] } } := by
  rw [rejectEdge, if_pos (by rw [List.length_append, List.length_singleton]; omega)]
  rfl

theorem rejectEdge_disagreeing {a b c : Nat} (h : s.tb.rejectStreak = [a, b]) (hn : agree [a, b, c] = false) :
    rejectEdge c s = { s with tb := { s.tb with
      lastEdge := some ⟨c, s.tb.seconds, .rejected⟩, rejectStreak := [b, c] } } := by
  simp only [rejectEdge, h, List.cons_append, List.nil_append, hn]
  rfl

theorem rejectEdge_agreeing {a b c : Nat} (h : s.tb.rejectStreak = [a, b]) (ha : agree [a, b, c] = true) :
    rejectEdge c s = realign c (recordEdge c .rejected s) := by
  simp only [rejectEdge, h, List.cons_append, List.nil_append, ha]
  rfl

end Rejected

/-- Settles O10: the streak grows below two counts, and drops its oldest where three disagree. -/
theorem pulseRejected : Obligations.PulseRejected := by
  unfold Obligations.PulseRejected
  intro s hlo hhi hdone hlost apart edge
  rw [exec_pulseEdge_rejected hlo hhi hdone hlost]
  refine ⟨fun hshort => congrArg _ (rejectEdge_short hshort), fun a b hstreak hapart =>
    congrArg _ (rejectEdge_disagreeing hstreak (Bool.eq_false_iff.mpr fun ha => ?_))⟩
  rw [agree_three, aroundSecond_eq, aroundSecond_eq, aroundSecond_eq] at ha
  obtain ⟨hab, hac, hbc⟩ := ha
  rcases hapart with h | h | h
  · exact absurd hab (Nat.not_le.mpr h)
  · exact absurd hac (Nat.not_le.mpr h)
  · exact absurd hbc (Nat.not_le.mpr h)

/-! ### The off edge (R52, R81, R133, R134) -/

theorem exec_offEdge_alone {s : State} (h : s.moment.positions = [.offEdge]) :
    exec .offEdge s = .next (offEdge { s with moment := { s.moment with positions := [] } }) :=
  congrArg Host.Outcome.next (takeThrough_head h)

/-- The demand is OPEN with a window running in its OFF phase and the stack empty. -/
theorem State.wantsOpen_running {s : State} {w : WindowRec} {c : CyclePart} (h : s.active = some (w, c)) (hk : s.sk.stack = []) :
    s.wantsOpen = decide ((s.profileOf w).onT ≤ c.phase) := by
  simp only [State.wantsOpen, h, hk, List.isEmpty_nil, Bool.true_and]

/-- With the demand OPEN the switch opens in RUN; in RAMP the duty value drives the stage. -/
theorem sync_opened {s : State} (h : s.wantsOpen = true) :
    sync s = { s with
      sl := { s.sl with demand := .opened }
      oc := { s.oc with
        switch := if s.oc.output = .run then .opened else .closed, drive := if s.oc.output = .ramp then s.rg.duty else 0 }
      mu := { s.mu with switchOpenInside :=
        s.mu.switchOpenInside || (decide (s.oc.output = .run) && !(s.moment.regMoment || s.moment.wrap.isSome)) } } := by
  unfold sync
  cases s.oc.output <;> simp [h, Output.drives, State.atRegTick]

/-- Settles O22: the assembly takes the notice, and the demand follows the phase. -/
theorem offEdgeTaken : Obligations.OffEdgeTaken := by
  unfold Obligations.OffEdgeTaken
  intro s w c hpos hactive hphase hk sw
  rw [exec_offEdge_alone hpos]
  have hopen : s.wantsOpen = true := (State.wantsOpen_running hactive hk).trans (decide_eq_true hphase)
  refine congrArg _ ?_
  unfold offEdge
  cases hcap : s.sl.capture with
  | none => exact (sync_opened (s := { s with moment := { s.moment with positions := [] } }) hopen).trans (by simp [sw])
  | some k =>
    exact (sync_opened (s := offEdgeNotice { s with moment := { s.moment with positions := [] } }) hopen).trans
      (by simp [sw, offEdgeNotice])

end Sys2Proof.Machine
end

