-- ==== Sys2Proof/Proofs/RegulationTicks.lean ====
section
/-! A regulation tick in each output state (O24 to O27, R108 to R117, R126). -/

namespace Sys2Proof.Machine

/-! ### The averages of an interval (R108, R109) -/

/-- A measured value with its roundings in sign form. -/
abbrev measuredValue (a : Acc) (k : Cal) (top : Int) : Int :=
  let away : Int → Nat → Int := fun n d => Int.sign n * ((n.natAbs + d / 2) / d : Nat)
  min top (max 0 (away ((away a.sum a.count - k.coff) * k.cgain) 8192))

theorem measuredCurrent_eq {s : State} (h : 0 < s.mu.iAcc.count) :
    s.measuredCurrent = measuredValue s.mu.iAcc (s.mu.cal.get 1) 11000 := by
  rw [State.measuredCurrent, Cal.apply, Acc.mean_of_pos h, roundNearest_eq_sign, roundNearest_eq_sign]
  rfl

theorem measuredVoltage_eq {s : State} (h : 0 < s.mu.vAcc.count) :
    s.measuredVoltage = measuredValue s.mu.vAcc (s.mu.cal.get 2) 6500 := by
  rw [State.measuredVoltage, Cal.apply, Acc.mean_of_pos h, roundNearest_eq_sign, roundNearest_eq_sign]
  rfl

/-- The state once the averages of an interval that holds a notice are taken. -/
abbrev State.averaged (frozen : Bool) (s : State) : State :=
  { s with
    rg := { s.rg with current := some s.measuredCurrent, voltage := some s.measuredVoltage }
    cl := { s.cl with assembly := s.cl.assembly.map fun a =>
      if frozen = false ∧ (a.closed = false ∨ a.closedNow = true) then { a with current := some s.measuredCurrent } else a }
    mu := { s.mu with
      iAcc := ⟨0, 0⟩, vAcc := ⟨0, 0⟩, switchOpenInside := false
      mainsBadInside := s.moment.mainsBad || decide (s.hs.mains ≠ .present) }
    moment := { s.moment with regTick := false } }

theorem takeAverages_held {s : State} (f : Bool) (h : 0 < s.mu.iAcc.count) : takeAverages f s = s.averaged f := by
  rw [takeAverages, if_neg (Nat.ne_of_gt h)]
  rfl

theorem takeAverages_empty {s : State} (f : Bool) (h : s.mu.iAcc.count = 0) :
    takeAverages f s = { s.averaged f with rg := s.rg } := by
  rw [takeAverages, if_pos h]
  rfl

theorem takeAverages_cl (f : Bool) (s : State) : (takeAverages f s).cl = (s.averaged f).cl := by
  rcases Nat.eq_zero_or_pos s.mu.iAcc.count with h | h
  · rw [takeAverages_empty f h]
  · rw [takeAverages_held f h]

/-- What the averages of an interval change: the measured values, CL's current before off, the next interval and the due mark. -/
theorem takeAverages_eq (f : Bool) (s : State) :
    takeAverages f s = { s with
      rg := { s.rg with current := (takeAverages f s).rg.current, voltage := (takeAverages f s).rg.voltage }
      cl := { s.cl with assembly := (takeAverages f s).cl.assembly }
      mu := { s.mu with
        iAcc := ⟨0, 0⟩, vAcc := ⟨0, 0⟩, switchOpenInside := false
        mainsBadInside := s.moment.mainsBad || decide (s.hs.mains ≠ .present) }
      moment := { s.moment with regTick := false } } := by
  rcases Nat.eq_zero_or_pos s.mu.iAcc.count with h | h
  · rw [takeAverages_empty f h]
  · rw [takeAverages_held f h]

theorem takeAverages_cl_frozen (s : State) : (takeAverages true s).cl = s.cl := by
  rw [takeAverages_cl]
  simp

theorem takeAverages_cl_unfrozen (s : State) : (takeAverages false s).cl = { s.cl with assembly := s.cl.assembly.map fun a =>
    if a.closed = false ∨ a.closedNow = true then { a with current := some s.measuredCurrent } else a } := by
  rw [takeAverages_cl]
  simp only [true_and]

/-! ### Whether a tick is frozen (R110) -/

theorem State.frozen_of_marks {s : State} (h : s.mu.switchOpenInside = true ∨ s.mu.mainsBadInside = true ∨ s.hs.mains ≠ .present
    ∨ s.mu.iAcc.count = 0) : s.frozen = true := by
  simp only [State.frozen, Bool.or_eq_true, decide_eq_true_eq]
  rcases h with h | h | h | h <;> simp [h]

theorem State.frozen_of_clear {s : State} (h : ¬ (s.mu.switchOpenInside = true ∨ s.mu.mainsBadInside = true ∨ s.hs.mains ≠ .present
    ∨ s.mu.iAcc.count = 0)) (hscan : s.scanDue = false) : s.frozen = false := by
  obtain ⟨hopen, h⟩ := not_or.mp h
  obtain ⟨hbad, h⟩ := not_or.mp h
  obtain ⟨hmains, hcount⟩ := not_or.mp h
  simp only [State.frozen, State.scanDeclaresLost, hscan, hopen, hbad, hmains, hcount, decide_false, Bool.or_false, Bool.false_and]

/-! ### Ticks without a duty update (R108, R116) -/

theorem rampRise_frozen (s : State) : rampRise true s = s := if_neg fun h => absurd h.1 (by decide)

theorem rampRise_other {f : Bool} {s : State} (h : s.oc.output ≠ .ramp) : rampRise f s = s := if_neg fun h' => h h'.2

theorem innerLoop_frozen {s : State} (h : s.oc.output.drives = true) : innerLoop true s = s := by
  rw [innerLoop, if_pos h]
  rfl

theorem innerLoop_idle {f : Bool} {s : State} (h : s.oc.output.drives = false) :
    innerLoop f s = { s with rg := { s.rg with tripStreak := 0, limited := none } } := by
  rw [innerLoop, h]
  rfl

theorem exec_regulationTick_due {s : State} (rise : Bool) (hw : s.moment.wrap = none) (hd : s.moment.regTick = true) :
    exec (.regulationTick rise) s = .next (regulate rise s) :=
  congrArg Host.Outcome.next ((regulationStep_noWrap rise hw).trans (if_pos hd))

theorem regulate_eq (rise : Bool) (s : State) :
    regulate rise s = if rise then innerLoop s.frozen (rampRise s.frozen (takeAverages s.frozen s))
      else rampRise s.frozen (innerLoop s.frozen (takeAverages s.frozen s)) := rfl

theorem regulate_frozen {s : State} (rise : Bool) (h : s.oc.output.drives = true) (hf : s.frozen = true) :
    regulate rise s = takeAverages true s := by
  have hinner : innerLoop true (takeAverages true s) = takeAverages true s := innerLoop_frozen (by rw [takeAverages_oc]; exact h)
  rw [regulate_eq, hf, rampRise_frozen, hinner, rampRise_frozen, ite_self]

theorem regulate_idle {s : State} (rise : Bool) (h : s.oc.output.drives = false) :
    regulate rise s = { takeAverages s.frozen s with rg := { (takeAverages s.frozen s).rg with tripStreak := 0, limited := none } } := by
  have hout : (takeAverages s.frozen s).oc.output.drives = false := by rw [takeAverages_oc]; exact h
  have hramp : (takeAverages s.frozen s).oc.output ≠ .ramp :=
    fun hr => absurd (hout.symm.trans (congrArg Output.drives hr)) (by decide)
  rw [regulate_eq, rampRise_other hramp, innerLoop_idle hout, rampRise_other (by exact hramp), ite_self]

theorem takeAverages_current {f : Bool} {s : State} (h : 0 < s.mu.iAcc.count) :
    (takeAverages f s).rg.current = some (measuredValue s.mu.iAcc (s.mu.cal.get 1) 11000) := by
  rw [takeAverages_held f h, ← measuredCurrent_eq h]

theorem takeAverages_voltage {f : Bool} {s : State} (h : 0 < s.mu.iAcc.count) (hv : 0 < s.mu.vAcc.count) :
    (takeAverages f s).rg.voltage = some (measuredValue s.mu.vAcc (s.mu.cal.get 2) 6500) := by
  rw [takeAverages_held f h, ← measuredVoltage_eq hv]

theorem takeAverages_rg_empty {f : Bool} {s : State} (h : s.mu.iAcc.count = 0) : (takeAverages f s).rg = s.rg := by
  rw [takeAverages_empty f h]

/-- Settles O25: a frozen tick takes the averages alone, and one that drives no stage clears streak and status too. -/
theorem frozenTickHolds : Obligations.FrozenTickHolds := by
  unfold Obligations.FrozenTickHolds
  refine ⟨fun s rise hw hd ho hf => ?frozen, fun s rise hw hd hrun hramp => ?idle⟩
  case frozen =>
    intro away value
    refine ⟨takeAverages true s, ?_, ?_, takeAverages_rg_empty, takeAverages_current, takeAverages_voltage⟩
    · rw [exec_regulationTick_due rise hw hd, regulate_frozen rise (Output.drives_iff.mpr ho) (State.frozen_of_marks hf)]
    · exact (takeAverages_eq true s).trans (by rw [takeAverages_cl_frozen])
  case idle =>
    intro away value shut
    have hidle : s.oc.output.drives = false := Bool.eq_false_iff.mpr fun h => (Output.drives_iff.mp h).elim hrun hramp
    refine ⟨_, (exec_regulationTick_due rise hw hd).trans (congrArg _ (regulate_idle rise hidle)), ?_,
      fun h => ?_, takeAverages_current, takeAverages_voltage, fun h => ?_, fun h hscan => ?_⟩
    · conv_lhs => rw [takeAverages_eq]
    · dsimp only
      rw [takeAverages_rg_empty h]
    · rw [State.frozen_of_marks h]
      exact takeAverages_cl_frozen s
    · have hpos : 0 < s.mu.iAcc.count := Nat.pos_of_ne_zero fun h0 => h (.inr (.inr (.inr h0)))
      dsimp only
      rw [State.frozen_of_clear h hscan, takeAverages_cl_unfrozen, takeAverages_held _ hpos]

/-! ### The rise of the ramp limit (R126) -/

section Rise
variable {s : State}

theorem rampRise_ends (h : s.oc.output = .ramp) (hl : 1000 ≤ s.oc.rampLimit + s.rg.set.rampRate) :
    rampRise false s = changeOutput .run { s with oc := { s.oc with rampLimit := 1000 } } := by
  rw [rampRise, if_pos ⟨rfl, h⟩]
  exact if_pos hl

theorem rampRise_rises (h : s.oc.output = .ramp) (hl : ¬ 1000 ≤ s.oc.rampLimit + s.rg.set.rampRate) :
    rampRise false s = { s with oc := { s.oc with rampLimit := s.oc.rampLimit + s.rg.set.rampRate } } := by
  rw [rampRise, if_pos ⟨rfl, h⟩]
  exact if_neg hl

/-- RUN entered from RAMP: the switch follows the demand and the duty value stays. -/
theorem changeOutput_run_rg (h : s.oc.output ≠ .run) : (changeOutput .run s).rg = s.rg := by rw [changeOutput_rg h]; rfl

/-- The rise keeps RG's part, and the output is RUN exactly at 1000 permille, with its OUTPUT event. -/
theorem rampRise_facts (h : s.oc.output = .ramp) :
    (rampRise false s).oc.output = (if 1000 ≤ s.oc.rampLimit + s.rg.set.rampRate then .run else .ramp)
      ∧ (rampRise false s).oc.rampLimit = min 1000 (s.oc.rampLimit + s.rg.set.rampRate)
      ∧ (rampRise false s).rg = s.rg
      ∧ ∀ l, ((rampRise false s).link l).flags
          = (s.link l).flags ||| (if 1000 ≤ s.oc.rampLimit + s.rg.set.rampRate then EventClass.output.bit else 0) := by
  have hne : s.oc.output ≠ .run := by rw [h]; decide
  by_cases hl : 1000 ≤ s.oc.rampLimit + s.rg.set.rampRate
  · rw [rampRise_ends h hl, if_pos hl, Int.min_eq_left hl]
    refine ⟨changeOutput_output .., changeOutput_oc_rampLimit .., changeOutput_run_rg hne, fun l => ?_⟩
    rw [changeOutput_link (by exact hne), if_pos hl]
    rfl
  · rw [rampRise_rises h hl, if_neg hl, Int.min_eq_right (by omega)]
    exact ⟨h, rfl, rfl, fun l => by rw [if_neg hl]; exact BitVec.or_zero.symm⟩

end Rise

/-! ### OVERCURRENT (R111, R129, R131) -/

section Trip
variable {s : State}

theorem innerLoop_trips (hd : s.oc.output.drives = true) (hi : s.rg.set.trip ≤ s.rg.current.getD 0) (ht : s.rg.tripStreak = 1) :
    innerLoop false s = takeFault .overcurrent none { s with rg := { s.rg with tripStreak := 0 } } := by
  rw [innerLoop, if_pos hd]
  exact (if_pos hi).trans (if_pos (by rw [ht]))

/-- A fault that holds the output stops it: HELD with its frame, or LOCKOUT. -/
theorem takeFault_stops {kind : FaultKind} {cap : Option CapturePart} (hk : kind.holds = true) (hd : s.oc.output.drives = true) :
    (takeFault kind cap s).rg = { s.rg with duty := 0 } ∧ (takeFault kind cap s).oc.drive = 0
      ∧ (takeFault kind cap s).oc.switch = .closed
      ∧ (∀ l, ((takeFault kind cap s).link l).flags = (s.link l).flags ||| EventClass.output.bit ||| EventClass.fault.bit)
      ∧ ((takeFault kind cap s).oc.output = .held ∨ (takeFault kind cap s).oc.output = .lockout) := by
  have hlock : s.oc.output ≠ .lockout := fun h => absurd (hd.symm.trans (congrArg Output.drives h)) (by decide)
  have hheld : s.oc.output ≠ .held := fun h => absurd (hd.symm.trans (congrArg Output.drives h)) (by decide)
  rcases Nat.lt_or_ge s.sk.stack.length 2 with hs | hs
  · rw [takeFault_push _ _ hlock hs, pushFrame_oc_holds hk hheld]
    exact ⟨pushFrame_rg_holds hk hheld, rfl, rfl, fun l => by rw [pushFrame_link_holds hk hheld]; rfl, .inl rfl⟩
  · rw [takeFault_full_oc hlock hs]
    exact ⟨takeFault_full_rg hlock hs, rfl, rfl, fun l => by rw [takeFault_full_link hlock hs]; rfl, .inr rfl⟩

/-- The state on which a tick's trip is judged: the averages taken, and the limit risen where the rise comes first. -/
abbrev State.beforeTrip (rise : Bool) (s : State) : State :=
  if rise then rampRise false (takeAverages false s) else takeAverages false s

theorem regulate_trips {rise : Bool} (hf : s.frozen = false) (hd : (s.beforeTrip rise).oc.output.drives = true)
    (hi : (s.beforeTrip rise).rg.set.trip ≤ (s.beforeTrip rise).rg.current.getD 0) (ht : (s.beforeTrip rise).rg.tripStreak = 1) :
    regulate rise s
      = takeFault .overcurrent none { s.beforeTrip rise with rg := { (s.beforeTrip rise).rg with tripStreak := 0 } } := by
  have htrips := innerLoop_trips hd hi ht
  rw [regulate_eq, hf]
  cases rise with
  | true => exact htrips
  | false =>
    obtain ⟨-, -, -, -, hout⟩ := takeFault_stops (s := { takeAverages false s with
      rg := { (takeAverages false s).rg with tripStreak := 0 } }) (kind := .overcurrent) (cap := none) rfl hd
    refine (congrArg (rampRise false) htrips).trans (rampRise_other fun hramp => ?_)
    rcases hout with hout | hout
    · exact absurd (hramp.symm.trans hout) (by decide)
    · exact absurd (hramp.symm.trans hout) (by decide)

end Trip

section BeforeTrip
variable {s : State} {rise : Bool}

/-- But in RAMP with the rise first, the trip is judged on the averages alone. -/
theorem beforeTrip_steady (h : ¬ (s.oc.output = .ramp ∧ rise = true)) : s.beforeTrip rise = takeAverages false s := by
  cases rise with
  | false => rfl
  | true => exact rampRise_other (by rw [takeAverages_oc]; exact fun hr => h ⟨hr, rfl⟩)

theorem beforeTrip_rg (hpos : 0 < s.mu.iAcc.count) : (s.beforeTrip rise).rg =
    { s.rg with current := some s.measuredCurrent, voltage := some s.measuredVoltage } := by
  by_cases hr : s.oc.output = .ramp ∧ rise = true
  · obtain ⟨hramp, rfl⟩ := hr
    obtain ⟨-, -, hrg, -⟩ := rampRise_facts (s := takeAverages false s) (by rw [takeAverages_oc]; exact hramp)
    exact hrg.trans (by rw [takeAverages_held _ hpos])
  · rw [beforeTrip_steady hr, takeAverages_held _ hpos]

theorem beforeTrip_output (ho : s.oc.output = .run ∨ s.oc.output = .ramp) :
    (s.beforeTrip rise).oc.output =
      if s.oc.output = .ramp ∧ ¬ ((s.oc.output = .ramp ∧ rise = true) ∧ 1000 ≤ s.oc.rampLimit + s.rg.set.rampRate)
      then .ramp else .run := by
  by_cases hr : s.oc.output = .ramp ∧ rise = true
  · obtain ⟨hramp, rfl⟩ := hr
    obtain ⟨hout, -⟩ := rampRise_facts (s := takeAverages false s) (by rw [takeAverages_oc]; exact hramp)
    rw [takeAverages_oc, takeAverages_rg_set] at hout
    refine Eq.trans hout ?_
    simp only [hramp, and_self, true_and, ite_not]
  · rw [beforeTrip_steady hr, takeAverages_oc]
    simp only [hr, false_and, not_false_iff, and_true]
    rcases ho with ho | ho <;> simp [ho]

theorem beforeTrip_rampLimit : (s.beforeTrip rise).oc.rampLimit =
    if s.oc.output = .ramp ∧ rise = true then min 1000 (s.oc.rampLimit + s.rg.set.rampRate) else s.oc.rampLimit := by
  split
  case isTrue hr =>
    obtain ⟨hramp, rfl⟩ := hr
    obtain ⟨-, hlim, -⟩ := rampRise_facts (s := takeAverages false s) (by rw [takeAverages_oc]; exact hramp)
    rwa [takeAverages_oc, takeAverages_rg_set] at hlim
  case isFalse hr => rw [beforeTrip_steady hr, takeAverages_oc]

/-- The rise raises no event but OUTPUT. -/
theorem beforeTrip_flags (l : LinkId) :
    ((s.beforeTrip rise).link l).flags ||| EventClass.output.bit = (s.link l).flags ||| EventClass.output.bit := by
  have hlink : (takeAverages false s).link l = s.link l := by rw [takeAverages_eq]; rfl
  by_cases hr : s.oc.output = .ramp ∧ rise = true
  · obtain ⟨hramp, rfl⟩ := hr
    obtain ⟨-, -, -, hflags⟩ := rampRise_facts (s := takeAverages false s) (by rw [takeAverages_oc]; exact hramp)
    refine (congrArg (· ||| EventClass.output.bit) (hflags l)).trans ?_
    rw [hlink]
    split
    · rw [BitVec.or_assoc, BitVec.or_self]
    · rw [show (0 : EventSet) = 0#14 from rfl, BitVec.or_zero]
  · rw [beforeTrip_steady hr, hlink]

/-- The averages and the rise leave the blocks that a frame records. -/
theorem beforeTrip_keeps (rise : Bool) (s : State) :
    let u := s.beforeTrip rise
    u.tb = s.tb ∧ u.hs = s.hs ∧ u.ns = s.ns ∧ u.cl.log = s.cl.log ∧ u.sl.windows = s.sl.windows ∧ u.sl.capture = s.sl.capture
      ∧ u.sk = s.sk ∧ u.cq = s.cq ∧ u.pins = s.pins ∧ u.pending = s.pending
      ∧ u.oc.restartPending = s.oc.restartPending := by
  have hlog : (takeAverages false s).cl.log = s.cl.log := by rw [takeAverages_cl]
  cases rise <;> simp [State.beforeTrip, hlog]

end BeforeTrip

/-- Settles O27: the averages and the rise keep what the frame records, and the fault stops the output. -/
theorem overcurrentTrips : Obligations.OvercurrentTrips := by
  unfold Obligations.OvercurrentTrips
  intro s rise hw hd ho hm hopen hbad hscan hpos hi ht risen out
  have hfrozen : s.frozen = false :=
    State.frozen_of_clear (by simp [hopen, hbad, hm, Nat.ne_of_gt hpos]) hscan
  have hrg := beforeTrip_rg (rise := rise) hpos
  have hout := beforeTrip_output (rise := rise) ho
  have hdrives : (s.beforeTrip rise).oc.output.drives = true := by
    rw [hout]
    split <;> rfl
  have hkind : (s.beforeTrip rise).oc.output.kind = out := by
    rw [hout]
    exact apply_ite Output.kind _ _ _
  let u : State := { s.beforeTrip rise with rg := { (s.beforeTrip rise).rg with tripStreak := 0 } }
  have hexec : exec (.regulationTick rise) s = .next (takeFault .overcurrent none u) := by
    rw [exec_regulationTick_due rise hw hd]
    refine congrArg _ (regulate_trips hfrozen hdrives ?_ ?_)
    · rw [hrg]; exact hi
    · rw [hrg]; exact ht
  obtain ⟨hrg', hdrive, hswitch, hflags, -⟩ := takeFault_stops (s := u) (kind := .overcurrent) (cap := none) rfl hdrives
  obtain ⟨htb, hhs, hns, hlog, hwindows, hcapture, hsk, hcq, hpins, hpending, hwaits⟩ := beforeTrip_keeps rise s
  have hlock : u.oc.output ≠ .lockout := fun h => absurd (hdrives.symm.trans (congrArg Output.drives h)) (by decide)
  have hheld : u.oc.output ≠ .held := fun h => absurd (hdrives.symm.trans (congrArg Output.drives h)) (by decide)
  have hactive : u.active = s.active := State.active_congr hwindows
  have hurg : u.rg = { s.rg with current := some s.measuredCurrent, voltage := some s.measuredVoltage, tripStreak := 0 } :=
    congrArg (fun g : Rg => { g with tripStreak := 0 }) hrg
  rw [hurg] at hrg'
  refine ⟨_, hexec, by rw [hrg'], by rw [hrg'], hdrive, hswitch, by rw [hrg'], by rw [hrg'],
    (takeFault_oc_rampLimit ..).trans beforeTrip_rampLimit,
    fun l => (hflags l).trans (congrArg (· ||| EventClass.fault.bit) (beforeTrip_flags l)), by rw [hrg'],
    (takeFault_tb ..).trans htb, (takeFault_hs ..).trans hhs, (takeFault_ns ..).trans hns, (takeFault_cl_log ..).trans hlog,
    (takeFault_sl_windows ..).trans hwindows, (takeFault_pins ..).trans hpins, (takeFault_pending ..).trans hpending,
    fun hs => ?pushed, fun hs => ?full⟩
  case pushed =>
    have hs' : u.sk.stack.length < 2 := by rw [show u.sk = s.sk from hsk]; exact hs
    rw [takeFault_push _ _ hlock hs']
    refine ⟨buildFrame .overcurrent none u, ?_, rfl, congrArg Sk.nextFrame hsk, congrArg Tb.seconds htb, congrArg Tb.tick htb,
      hkind, by rw [buildFrame, hurg], by rw [buildFrame, hurg], by rw [buildFrame, hurg], by rw [buildFrame, hactive], rfl,
      congrArg (fun q : Cq => q.queue.map fun e => (⟨true, e⟩ : PElement)) hcq, rfl, pushFrame_queue .., pushFrame_output .., ?_,
      fun hempty hcap => ⟨pushFrame_capture (by rw [show u.sk = s.sk from hsk]; exact hempty),
        pushFrame_assembly (by rw [show u.sk = s.sk from hsk]; exact hempty) fun h => ?_⟩⟩
    · rw [pushFrame_sk, show u.sk = s.sk from hsk]
    · rw [pushFrame_oc_holds rfl hheld, show u.oc.output.drives = true from hdrives, Bool.or_true]
    · rw [show u.sl.capture = s.sl.capture from hcapture] at h
      rw [h] at hcap
      exact absurd hcap Bool.false_ne_true
  case full =>
    have hs' : 2 ≤ u.sk.stack.length := by rw [show u.sk = s.sk from hsk]; exact hs
    rw [takeFault_full_sk hlock hs', takeFault_full_oc hlock hs', takeFault_full_cq hlock hs', show u.sk = s.sk from hsk,
      show u.cq = s.cq from hcq, show u.tb = s.tb from htb]
    exact ⟨rfl, rfl, hwaits, rfl⟩

/-! ### The outputs driven, field by field (R52, R110, R133, R134) -/

/-- The switch position that the demand and the output state give (R134). -/
abbrev State.switchNow (s : State) : SwitchPos := if s.wantsOpen = true ∧ s.oc.output = .run then .opened else .closed

section Driven
variable {s : State}

theorem sync_oc (s : State) : (sync s).oc = { s.oc with
    switch := s.switchNow, drive := if s.oc.output.drives = true ∧ s.switchNow = .closed then s.rg.duty else 0 } := by
  unfold sync State.switchNow
  cases s.wantsOpen <;> simp

theorem sync_sl (s : State) : (sync s).sl = { s.sl with demand := if s.wantsOpen then .opened else .closed } := rfl

theorem sync_mu (s : State) : (sync s).mu = { s.mu with
    switchOpenInside := s.mu.switchOpenInside || (decide (s.switchNow = .opened) && !s.atRegTick) } := by
  unfold sync State.switchNow
  cases s.wantsOpen <;> simp

/-! ### RUN entered at the end of the ramp (R126) -/

variable (h : s.oc.output ≠ .run)
include h

theorem changeOutput_run_oc : (changeOutput .run s).oc = { s.oc with
    output := .run, switch := if s.wantsOpen then .opened else .closed, drive := if s.wantsOpen then 0 else s.rg.duty } := by
  rw [changeOutput, if_neg h, raiseAll_oc, markNoOutput_oc, sync_oc]
  have hopen : ∀ o : Oc, ∀ g : Rg, { s with oc := o, rg := g }.wantsOpen = s.wantsOpen := fun _ _ => rfl
  simp only [State.switchNow, hopen]
  cases s.wantsOpen <;> simp [Output.drives]

theorem changeOutput_run_sl : (changeOutput .run s).sl = { s.sl with demand := if s.wantsOpen then .opened else .closed } := by
  rw [changeOutput, if_neg h, raiseAll_sl, markNoOutput_sl, sync_sl]
  rfl

theorem changeOutput_run_mu : (changeOutput .run s).mu = { s.mu with
    switchOpenInside := s.mu.switchOpenInside || (s.wantsOpen && !s.atRegTick) } := by
  rw [changeOutput, if_neg h, raiseAll_mu, markNoOutput_mu, sync_mu]
  have hopen : ∀ o : Oc, ∀ g : Rg, { s with oc := o, rg := g }.wantsOpen = s.wantsOpen := fun _ _ => rfl
  have hreg : ∀ o : Oc, ∀ g : Rg, { s with oc := o, rg := g }.atRegTick = s.atRegTick := fun _ _ => rfl
  simp only [State.switchNow, hopen, hreg]
  cases s.wantsOpen <;> simp

/-- With the mains PRESENT the assembly in progress is not marked (R82). -/
theorem changeOutput_run_cl (hm : s.hs.mains = .present) : (changeOutput .run s).cl = s.cl := by
  rw [changeOutput, if_neg h, raiseAll_cl]
  unfold markNoOutput
  simp [State.noOutput, Output.drives, hm]

end Driven

/-! ### The duty update (R112 to R115) -/

theorem gainStep_eq (r : RegSettings) (i v : Int) :
    gainStep r i v
      = min 50 (max (-50) (Int.tdiv ((if r.mode = .voltage then r.vset - v else r.iset - i) * r.innerGain) 4096)) := by
  cases hm : r.mode <;> simp [gainStep, hm, clampTo, truncDiv]

/-- The step of a duty update, with its limit override. -/
abbrev dutyStep (r : RegSettings) (i v : Int) : Int := overrideStep r i v (gainStep r i v)

section Update
variable {s : State} {i v : Int}

/-- The state of a duty update before the outputs follow. -/
abbrev State.dutied (i v : Int) (s : State) : State :=
  { s with rg := { s.rg with
      limited := limitedBy s.rg.set i v, duty := min s.oc.rampLimit (max 0 (s.rg.duty + dutyStep s.rg.set i v)) } }

theorem updateDuty_eq (i v : Int) (s : State) :
    updateDuty i v s = if s.rg.limited = none ∧ (limitedBy s.rg.set i v).isSome = true then raiseAll .limit (sync (s.dutied i v))
      else sync (s.dutied i v) := rfl

theorem updateDuty_rg (i v : Int) (s : State) : (updateDuty i v s).rg = (s.dutied i v).rg := by
  rw [updateDuty_eq]
  split <;> rfl

theorem updateDuty_oc (i v : Int) (s : State) : (updateDuty i v s).oc = { s.oc with
    switch := s.switchNow, drive := if s.oc.output.drives = true ∧ s.switchNow = .closed then (s.dutied i v).rg.duty else 0 } := by
  rw [updateDuty_eq, apply_ite State.oc, raiseAll_oc, ite_self, sync_oc]
  rfl

theorem updateDuty_sl (i v : Int) (s : State) :
    (updateDuty i v s).sl = { s.sl with demand := if s.wantsOpen then .opened else .closed } := by
  rw [updateDuty_eq, apply_ite State.sl, raiseAll_sl, ite_self]
  rfl

theorem updateDuty_mu (i v : Int) (s : State) : (updateDuty i v s).mu = { s.mu with
    switchOpenInside := s.mu.switchOpenInside || (decide (s.switchNow = .opened) && !s.atRegTick) } := by
  rw [updateDuty_eq, apply_ite State.mu, raiseAll_mu, ite_self, sync_mu]
  rfl

theorem updateDuty_link (i v : Int) (s : State) (l : LinkId) : (updateDuty i v s).link l =
    if s.rg.limited = none ∧ limitedBy s.rg.set i v ≠ none then (s.link l).raise .limit else s.link l := by
  rw [updateDuty_eq, apply_ite (State.link · l), raiseAll_link]
  simp only [Option.isSome_iff_ne_none]
  rfl

theorem updateDuty_lc_same (h : s.rg.limited ≠ none ∨ limitedBy s.rg.set i v = none) : (updateDuty i v s).lc = s.lc := by
  rw [updateDuty_eq, if_neg]
  · rfl
  · rintro ⟨hclear, hset⟩
    rcases h with h | h
    · exact h hclear
    · rw [h] at hset; exact absurd hset (by decide)

/-- A tick that raises no trip counts the streak and updates the duty value. -/
theorem innerLoop_updates (hd : s.oc.output.drives = true) (hc : s.rg.current = some i) (hv : s.rg.voltage = some v)
    (hi : i < s.rg.set.trip ∨ s.rg.tripStreak = 0) :
    innerLoop false s = updateDuty i v { s with rg := { s.rg with tripStreak := if i < s.rg.set.trip then 0 else 1 } } := by
  rw [innerLoop, if_pos hd]
  simp only [hc, hv, Option.getD_some, Bool.false_eq_true, if_false]
  by_cases hlt : i < s.rg.set.trip
  · rw [if_neg (Int.not_le.mpr hlt), if_pos hlt]
  · rw [if_pos (Int.not_lt.mp hlt), hi.resolve_left hlt, if_neg (by decide), if_neg hlt]

end Update

/-- Settles O24: the averages, and the duty update in RUN. -/
theorem regulationTickInRun : Obligations.RegulationTickInRun := by
  unfold Obligations.RegulationTickInRun
  intro s rise hw hd ho hlimit hm hopen hbad hscan hpos hposv away value i v r hi err gain step duty lim sw
  have hfrozen : s.frozen = false := State.frozen_of_clear (by simp [hopen, hbad, hm, Nat.ne_of_gt hpos]) hscan
  have hmi : s.measuredCurrent = i := measuredCurrent_eq hpos
  have hmv : s.measuredVoltage = v := measuredVoltage_eq hposv
  let m := s.averaged false
  let u : State := { m with rg := { m.rg with tripStreak := if i < r.trip then 0 else 1 } }
  have hdrives : m.oc.output.drives = true := by rw [show m.oc = s.oc from rfl, ho]; rfl
  have hexec : exec (.regulationTick rise) s = .next (updateDuty i v u) := by
    rw [exec_regulationTick_due rise hw hd, regulate_eq, hfrozen, takeAverages_held _ hpos,
      rampRise_other (s := s.averaged false) (by rw [show (s.averaged false).oc = s.oc from rfl, ho]; decide),
      innerLoop_updates (s := s.averaged false) hdrives (congrArg some hmi) (congrArg some hmv) hi,
      rampRise_other (by rw [updateDuty_oc_output]; exact fun h => absurd (ho.symm.trans h) (by decide)), ite_self]
  have hsw : u.switchNow = sw := by simp [State.switchNow, sw, u, m, ho]; rfl
  have hstep : dutyStep r i v = step := by rw [dutyStep, gainStep_eq]; rfl
  have hrg : (u.dutied i v).rg = { s.rg with
      duty := duty, current := some i, voltage := some v, limited := lim
      tripStreak := if i < r.trip then 0 else 1 } := by
    change ({ s.rg with
      current := some s.measuredCurrent, voltage := some s.measuredVoltage
      tripStreak := if i < r.trip then 0 else 1
      limited := limitedBy r i v
      duty := min s.oc.rampLimit (max 0 (s.rg.duty + dutyStep r i v)) } : Rg) = _
    rw [hmi, hmv, hlimit, hstep]
    rfl
  refine ⟨_, hexec, (updateDuty_rg ..).trans hrg, ?oc, ?sl, ?cl, ?mu, updateDuty_moment .., fun hclear hset l => ?raised,
    fun h => updateDuty_lc_same h, updateDuty_tb .., updateDuty_cq .., updateDuty_sk .., updateDuty_hs .., updateDuty_ns ..,
    updateDuty_pins .., updateDuty_pending ..⟩
  case oc =>
    rw [updateDuty_oc, hsw, hrg, show u.oc = s.oc from rfl, ho]
    simp only [Output.drives, true_and]
  case sl =>
    rw [updateDuty_sl]
    rfl
  case cl => rw [updateDuty_cl, show u.cl = (s.averaged false).cl from rfl, ← takeAverages_cl, takeAverages_cl_unfrozen, hmi]
  case mu =>
    rw [updateDuty_mu, hsw]
    simp [u, m, hm, State.atRegTick, hw]
  case raised =>
    rw [updateDuty_link, if_pos ⟨hclear, hset⟩]
    rfl

/-! ### The rise, field by field (R126) -/

section Rise
variable {s : State} (h : s.oc.output = .ramp)
include h

theorem rampRise_oc : (rampRise false s).oc =
    if 1000 ≤ s.oc.rampLimit + s.rg.set.rampRate then
      { s.oc with
        output := .run, rampLimit := 1000, switch := if s.wantsOpen then .opened else .closed
        drive := if s.wantsOpen then 0 else s.rg.duty }
    else { s.oc with rampLimit := s.oc.rampLimit + s.rg.set.rampRate } := by
  split
  case isTrue hl =>
    rw [rampRise_ends h hl, changeOutput_run_oc (by rw [h]; decide)]
    rfl
  case isFalse hl => rw [rampRise_rises h hl]

theorem rampRise_sl : (rampRise false s).sl =
    if 1000 ≤ s.oc.rampLimit + s.rg.set.rampRate then { s.sl with demand := if s.wantsOpen then .opened else .closed } else s.sl := by
  split
  case isTrue hl =>
    rw [rampRise_ends h hl, changeOutput_run_sl (by rw [h]; decide)]
    rfl
  case isFalse hl => rw [rampRise_rises h hl]

theorem rampRise_mu : (rampRise false s).mu =
    if 1000 ≤ s.oc.rampLimit + s.rg.set.rampRate then
      { s.mu with switchOpenInside := s.mu.switchOpenInside || (s.wantsOpen && !s.atRegTick) }
    else s.mu := by
  split
  case isTrue hl =>
    rw [rampRise_ends h hl, changeOutput_run_mu (by rw [h]; decide)]
    rfl
  case isFalse hl => rw [rampRise_rises h hl]

theorem rampRise_cl (hm : s.hs.mains = .present) : (rampRise false s).cl = s.cl := by
  by_cases hl : 1000 ≤ s.oc.rampLimit + s.rg.set.rampRate
  · rw [rampRise_ends h hl, changeOutput_run_cl (by rw [h]; decide) (by exact hm)]
  · rw [rampRise_rises h hl]

omit h in
theorem rampRise_wantsOpen : (rampRise false s).wantsOpen = s.wantsOpen :=
  State.wantsOpen_congr (rampRise_sl_windows ..) (rampRise_sl_profiles ..) (congrArg Sk.stack (rampRise_sk ..))

end Rise

theorem updateDuty_wantsOpen (i v : Int) (s : State) : (updateDuty i v s).wantsOpen = s.wantsOpen :=
  State.wantsOpen_congr (updateDuty_sl_windows ..) (updateDuty_sl_profiles ..) (congrArg Sk.stack (updateDuty_sk ..))

/-! ### A tick in RAMP, in either order of rise and update (R108, R115, R126) -/

section RampTick
variable {s : State} {i v : Int}

/-- The trip streak that a tick without a trip leaves. -/
abbrev State.counted (i : Int) (s : State) : State :=
  { s with rg := { s.rg with tripStreak := if i < s.rg.set.trip then 0 else 1 } }

/-- The two orders of rise and duty update, on the state that the averages leave. -/
abbrev State.risen (rise : Bool) (i v : Int) (s : State) : State :=
  if rise then updateDuty i v ((rampRise false s).counted i) else rampRise false (updateDuty i v (s.counted i))

/-- The switch after a tick in RAMP: OPEN only where the ramp ends with the demand OPEN. -/
abbrev State.rampSwitch (s : State) : SwitchPos :=
  if 1000 ≤ s.oc.rampLimit + s.rg.set.rampRate ∧ s.wantsOpen = true then .opened else .closed

/-- The duty value after a tick in RAMP, under the ramp limit of the chosen order. -/
abbrev State.rampDuty (rise : Bool) (i v : Int) (s : State) : Int :=
  min (if rise then min 1000 (s.oc.rampLimit + s.rg.set.rampRate) else s.oc.rampLimit)
    (max 0 (s.rg.duty + dutyStep s.rg.set i v))

/-- What a tick in RAMP leaves. -/
theorem risen_keeps (i v : Int) (rise : Bool) (s : State) :
    let t := s.risen rise i v
    t.moment = s.moment ∧ t.sk = s.sk ∧ t.cq = s.cq ∧ t.hs = s.hs ∧ t.tb = s.tb ∧ t.ns = s.ns ∧ t.pins = s.pins
      ∧ t.pending = s.pending := by
  cases rise <;> simp [State.risen]

variable (h : s.oc.output = .ramp) (rise : Bool)
include h

theorem risen_rg : (s.risen rise i v).rg = { s.rg with
    tripStreak := if i < s.rg.set.trip then 0 else 1, limited := limitedBy s.rg.set i v, duty := s.rampDuty rise i v } := by
  cases rise with
  | true =>
    obtain ⟨-, hlim, hrg, -⟩ := rampRise_facts h
    rw [State.risen, if_pos rfl, updateDuty_rg, State.dutied, State.counted]
    simp only [hlim, hrg]
    rfl
  | false =>
    obtain ⟨-, -, hrg, -⟩ := rampRise_facts (s := updateDuty i v (s.counted i)) (by rw [updateDuty_oc_output]; exact h)
    rw [State.risen, if_neg Bool.false_ne_true, hrg, updateDuty_rg]
    rfl

theorem risen_switchNow : ((rampRise false s).counted i).switchNow = s.rampSwitch := by
  obtain ⟨hout, -⟩ := rampRise_facts h
  have hopen : ((rampRise false s).counted i).wantsOpen = s.wantsOpen := rampRise_wantsOpen
  simp only [State.switchNow, State.rampSwitch, hopen, hout]
  by_cases hl : 1000 ≤ s.oc.rampLimit + s.rg.set.rampRate <;> simp [hl]

/-- Before the ramp's end the switch is CLOSED. -/
theorem switchNow_ramp : s.switchNow = .closed := if_neg fun hr => absurd (h.symm.trans hr.2) (by decide)

theorem risen_oc : (s.risen rise i v).oc = { s.oc with
    output := if 1000 ≤ s.oc.rampLimit + s.rg.set.rampRate then .run else .ramp
    rampLimit := min 1000 (s.oc.rampLimit + s.rg.set.rampRate), switch := s.rampSwitch
    drive := if s.rampSwitch = .closed then s.rampDuty rise i v else 0 } := by
  have hduty := congrArg Rg.duty (risen_rg (i := i) (v := v) h rise)
  cases rise with
  | true =>
    rw [State.risen, if_pos rfl] at hduty ⊢
    rw [updateDuty_rg] at hduty
    rw [updateDuty_oc, hduty, risen_switchNow h, show ((rampRise false s).counted i).oc = (rampRise false s).oc from rfl, rampRise_oc h]
    split
    case isTrue hl =>
      rw [Int.min_eq_left hl]
      simp only [Output.drives, true_and]
    case isFalse hl =>
      rw [Int.min_eq_right (by omega)]
      simp only [h, Output.drives, true_and]
  | false =>
    rw [State.risen, if_neg Bool.false_ne_true, rampRise_oc (by rw [updateDuty_oc_output]; exact h), updateDuty_wantsOpen, updateDuty_oc,
      updateDuty_rg, switchNow_ramp (s := s.counted i) h, if_pos (⟨congrArg Output.drives h, rfl⟩ : (s.counted i).oc.output.drives = true ∧ _)]
    change (if 1000 ≤ s.oc.rampLimit + s.rg.set.rampRate then _ else _) = _
    by_cases hl : 1000 ≤ s.oc.rampLimit + s.rg.set.rampRate
    · rw [if_pos hl, Int.min_eq_left hl, State.rampSwitch]
      change ({ s.oc with
        output := _, rampLimit := _, switch := if s.wantsOpen then .opened else .closed
        drive := if s.wantsOpen then 0 else s.rampDuty false i v } : Oc) = _
      cases s.wantsOpen <;> simp [hl]
    · rw [if_neg hl, Int.min_eq_right (by omega), State.rampSwitch, if_neg hl, if_neg (fun hr => hl hr.1 : ¬ (_ ∧ s.wantsOpen = true)), ← h]
      rfl

theorem risen_sl : (s.risen rise i v).sl = { s.sl with demand := if s.wantsOpen then .opened else .closed } := by
  cases rise with
  | true =>
    rw [State.risen, if_pos rfl, updateDuty_sl, show ((rampRise false s).counted i).wantsOpen = s.wantsOpen from rampRise_wantsOpen,
      show ((rampRise false s).counted i).sl = (rampRise false s).sl from rfl, rampRise_sl h]
    split <;> rfl
  | false =>
    rw [State.risen, if_neg Bool.false_ne_true, rampRise_sl (by rw [updateDuty_oc_output]; exact h), updateDuty_sl,
      updateDuty_wantsOpen]
    split <;> rfl

theorem risen_mu : (s.risen rise i v).mu = { s.mu with
    switchOpenInside := s.mu.switchOpenInside || (decide (s.rampSwitch = .opened) && !s.atRegTick) } := by
  have hreg (t : State) (ht : t.moment = s.moment) : t.atRegTick = s.atRegTick := by rw [State.atRegTick, ht]; rfl
  cases rise with
  | true =>
    rw [State.risen, if_pos rfl, updateDuty_mu, risen_switchNow h, hreg ((rampRise false s).counted i) (rampRise_moment ..),
      show ((rampRise false s).counted i).mu = (rampRise false s).mu from rfl, rampRise_mu h, State.rampSwitch]
    by_cases hl : 1000 ≤ s.oc.rampLimit + s.rg.set.rampRate <;> cases s.wantsOpen <;> simp [hl]
  | false =>
    rw [State.risen, if_neg Bool.false_ne_true, rampRise_mu (by rw [updateDuty_oc_output]; exact h), updateDuty_mu,
      updateDuty_wantsOpen, switchNow_ramp (s := s.counted i) h, hreg (updateDuty i v (s.counted i)) (updateDuty_moment ..), updateDuty_oc_rampLimit,
      updateDuty_rg_set, State.rampSwitch]
    change (if 1000 ≤ s.oc.rampLimit + s.rg.set.rampRate then _ else _) = _
    by_cases hl : 1000 ≤ s.oc.rampLimit + s.rg.set.rampRate
    · rw [if_pos hl]
      change ({ s.mu with switchOpenInside := (s.mu.switchOpenInside || _) || (s.wantsOpen && _) } : Mu) = _
      cases s.wantsOpen <;> simp [hl]
    · simp [hl]

theorem risen_cl (hm : s.hs.mains = .present) : (s.risen rise i v).cl = s.cl := by
  cases rise with
  | true =>
    rw [State.risen, if_pos rfl, updateDuty_cl]
    exact rampRise_cl h hm
  | false =>
    rw [State.risen, if_neg Bool.false_ne_true, rampRise_cl (by rw [updateDuty_oc_output]; exact h) (by rw [updateDuty_hs]; exact hm),
      updateDuty_cl]

theorem risen_flags (l : LinkId) : ((s.risen rise i v).link l).flags =
    (s.link l).flags ||| (if 1000 ≤ s.oc.rampLimit + s.rg.set.rampRate then EventClass.output.bit else 0)
      ||| (if s.rg.limited = none ∧ limitedBy s.rg.set i v ≠ none then EventClass.limit.bit else 0) := by
  have hraised (t : State) : ((updateDuty i v t).link l).flags = (t.link l).flags
      ||| (if t.rg.limited = none ∧ limitedBy t.rg.set i v ≠ none then EventClass.limit.bit else 0) := by
    rw [updateDuty_link]
    split
    · rfl
    · exact BitVec.or_zero.symm
  cases rise with
  | true =>
    obtain ⟨-, -, hrg, hflags⟩ := rampRise_facts h
    rw [State.risen, if_pos rfl, hraised]
    simp only [hrg]
    exact congrArg (· ||| _) (hflags l)
  | false =>
    obtain ⟨-, -, -, hflags⟩ := rampRise_facts (s := updateDuty i v (s.counted i)) (by rw [updateDuty_oc_output]; exact h)
    rw [State.risen, if_neg Bool.false_ne_true, hflags, hraised, updateDuty_oc_rampLimit, updateDuty_rg_set]
    exact (BitVec.or_assoc ..).trans ((congrArg _ (BitVec.or_comm ..)).trans (BitVec.or_assoc ..).symm)

theorem innerLoop_risen (hc : s.rg.current = some i) (hv : s.rg.voltage = some v)
    (hi : i < s.rg.set.trip ∨ s.rg.tripStreak = 0) :
    (if rise then innerLoop false (rampRise false s) else rampRise false (innerLoop false s)) = s.risen rise i v := by
  cases rise with
  | true =>
    obtain ⟨hout, -, hrg, -⟩ := rampRise_facts h
    exact innerLoop_updates (by rw [hout]; split <;> rfl) (by rw [hrg, hc]) (by rw [hrg, hv]) (by rw [hrg]; exact hi)
  | false => exact congrArg (rampRise false) (innerLoop_updates (congrArg Output.drives h) hc hv hi)

end RampTick

/-- Settles O26: the averages, then rise and duty update in the order asked. -/
theorem rampRises : Obligations.RampRises := by
  unfold Obligations.RampRises
  intro s rise hw hd ho hm hopen hbad hscan hpos hposv i v r hi hlimit hrate ramp ends err gain step duty lim sw
  have hfrozen : s.frozen = false := State.frozen_of_clear (by simp [hopen, hbad, hm, Nat.ne_of_gt hpos]) hscan
  let m := s.averaged false
  have hramp : m.oc.output = .ramp := ho
  have hexec : exec (.regulationTick rise) s = .next (m.risen rise i v) := by
    rw [exec_regulationTick_due rise hw hd, regulate_eq, hfrozen, takeAverages_held _ hpos]
    exact congrArg _ (innerLoop_risen hramp rise rfl rfl hi)
  have hstep : dutyStep r i v = step := by rw [dutyStep, gainStep_eq]; rfl
  have hduty : m.rampDuty rise i v = duty := by rw [State.rampDuty, show m.rg.set = r from rfl, hstep]
  have hsw : m.rampSwitch = sw := rfl
  obtain ⟨hmoment, hsk, hcq, hhs, htb, hns, hpins, hpending⟩ := risen_keeps i v rise m
  refine ⟨_, hexec, ?rg, ?oc, risen_sl hramp rise, ?cl, ?mu, hmoment, ?flags, hsk, hcq, hhs, htb, hns, hpins, hpending⟩
  case rg =>
    rw [risen_rg hramp, hduty]
    rfl
  case oc =>
    rw [risen_oc hramp, hduty, hsw]
  case cl => rw [risen_cl hramp rise hm, ← takeAverages_cl, takeAverages_cl_unfrozen]
  case mu =>
    rw [risen_mu hramp, hsw]
    simp [m, hm, State.atRegTick, hw]
  case flags => exact risen_flags hramp rise

end Sys2Proof.Machine
end

