-- ==== Sys2Proof/Proofs/LockoutAndRestart.lean ====
section
/-! The end of a suspension, CLEAR LOCKOUT and RESTART (O47, O49). -/

namespace Sys2Proof.Machine

/-! ### A capture that opens (R57, R79) -/

/-- Where and how a capture was opened. -/
abbrev Capture.opening (k : Capture) : Nat × Bool := (k.entryPhase, k.realigned)

/-- Which cycle an assembly follows. -/
abbrev Assembly.follows (a : Assembly) : Nat × Int := (a.windowId, a.cycle)

theorem openWindow_sl (w : MWindow) (s : State) :
    (openWindow w s).sl = if s.windowStatus w = some .pending then (s.setWindowStatus w .opened).sl else s.sl := by
  unfold openWindow
  dsimp only
  split
  · split
    · rfl
    · rw [offerTo_sl]
  · rfl

theorem Capture.setStatus_opening (k : Capture) (w : MWindow) (v : WStatus) : (k.setStatus w v).opening = k.opening := by
  cases w <;> rfl

theorem setWindowStatus_opening (w : MWindow) (v : WStatus) (s : State) :
    (s.setWindowStatus w v).sl.capture.map Capture.opening = s.sl.capture.map Capture.opening := by
  rw [State.setWindowStatus, Option.map_map]
  exact congrArg (Option.map · _) (funext fun k => k.setStatus_opening w v)

/-- A measurement window that opens leaves where its capture was opened. -/
theorem openWindow_opening (w : MWindow) (s : State) :
    (openWindow w s).sl.capture.map Capture.opening = s.sl.capture.map Capture.opening := by
  rw [openWindow_sl]
  split
  · exact setWindowStatus_opening w .opened s
  · rfl

section OpenCapture
variable {s : State} {w : WindowRec} {c : CyclePart} (h : s.active = some (w, c)) (entry : Nat) (realigned : Bool)
include h

/-- The state of a capture that opens, before a window whose start is the entry phase opens. -/
abbrev State.captured (w : WindowRec) (c : CyclePart) (entry : Nat) (realigned : Bool) (s : State) : State :=
  { s with
    sl := { s.sl with
      capture := some ⟨entry, realigned, (s.profileOf w).statusAt entry .on, (s.profileOf w).statusAt entry .off⟩ }
    cl := { s.cl with assembly := some (Assembly.start w.id c.cycle s.noOutput) } }

/-- A measurement window opened where its start is the phase at hand. -/
abbrev openAt (p : Profile) (phase : Nat) (m : MWindow) (s : State) : State := if p.opensAt m = phase then openWindow m s else s

theorem openCapture_running : openCapture entry realigned s =
    openAt (s.profileOf w) entry .off (openAt (s.profileOf w) entry .on (s.captured w c entry realigned)) := by
  rw [openCapture, h]

omit h in
theorem openAt_opening (p : Profile) (phase : Nat) (m : MWindow) (t : State) :
    (openAt p phase m t).sl.capture.map Capture.opening = t.sl.capture.map Capture.opening := by
  unfold openAt
  split
  · exact openWindow_opening m t
  · rfl

omit h in
theorem openAt_cl (p : Profile) (phase : Nat) (m : MWindow) (t : State) : (openAt p phase m t).cl = t.cl := by
  unfold openAt
  split
  · exact openWindow_cl ..
  · rfl

theorem openCapture_opening : (openCapture entry realigned s).sl.capture.map Capture.opening = some (entry, realigned) := by
  rw [openCapture_running h, openAt_opening, openAt_opening]
  rfl

theorem openCapture_assembly :
    (openCapture entry realigned s).cl.assembly = some (Assembly.start w.id c.cycle s.noOutput) := by
  rw [openCapture_running h, openAt_cl, openAt_cl]

end OpenCapture

/-! ### The demand and the outputs by the phase (R52, R133) -/

theorem State.demand_iff_phase {s : State} {w : WindowRec} {c : CyclePart} (h : s.active = some (w, c)) (hk : s.sk.stack = []) :
    (if s.wantsOpen then SwitchPos.opened else .closed) = .opened ↔ (s.profileOf w).onT ≤ c.phase := by
  rw [State.wantsOpen_running h hk]
  by_cases hp : (s.profileOf w).onT ≤ c.phase <;> simp [hp]

/-- Outside RAMP and RUN the outputs that stand at rest stay at rest. -/
theorem sync_oc_idle {s : State} (hd : s.oc.output.drives = false) (hs : s.oc.switch = .closed) (hv : s.oc.drive = 0) :
    (sync s).oc = s.oc := by
  have hsw : s.switchNow = .closed := if_neg fun h => absurd (hd.symm.trans (congrArg Output.drives h.2)) (by decide)
  rw [sync_oc, hsw, hd, if_neg (by simp), ← hs, ← hv]

/-! ### The end of a suspension (R64) -/

section EndSuspension
variable {s : State} {w : WindowRec} {c : CyclePart} (h : s.active = some (w, c))
include h

theorem endSuspension_running : endSuspension s =
    if Position.boundary ∈ s.moment.positions then sync s else openCapture c.phase true (sync s) := by
  rw [endSuspension, h]

theorem endSuspension_demand (hk : s.sk.stack = []) : (endSuspension s).sl.demand = .opened ↔ (s.profileOf w).onT ≤ c.phase := by
  rw [endSuspension_running h, ← State.demand_iff_phase h hk]
  split
  · rfl
  · rw [openCapture_demand]
    rfl

theorem endSuspension_opens (hb : Position.boundary ∉ s.moment.positions) :
    (endSuspension s).sl.capture.map Capture.opening = some (c.phase, true)
      ∧ (endSuspension s).cl.assembly.map Assembly.follows = some (w.id, c.cycle) := by
  rw [endSuspension_running h, if_neg hb, openCapture_opening (s := sync s) h, openCapture_assembly (s := sync s) h]
  exact ⟨rfl, rfl⟩

theorem endSuspension_waits (hb : Position.boundary ∈ s.moment.positions) : endSuspension s = sync s := by
  rw [endSuspension_running h, if_pos hb]

end EndSuspension

theorem endSuspension_oc_idle {s : State} (hd : s.oc.output.drives = false) (hs : s.oc.switch = .closed) (hv : s.oc.drive = 0) :
    (endSuspension s).oc = s.oc := by
  unfold endSuspension
  split
  · rfl
  · split
    · exact sync_oc_idle hd hs hv
    · rw [openCapture_oc]
      exact sync_oc_idle hd hs hv

/-! ### A served command, block by block (R190 to R192) -/

section Serve
variable {s : State} {cmd : Command} {l : LinkId} {code : Byte} {args : Bytes} {r : Reply} {t : State}

/-- The state after a served command is the command's on the state that the processor finds, with the answering link answered. -/
theorem serve_eq (hc : cmd l args (takeFrame l s) = (r, t)) :
    serve cmd l (code :: args) s = t.onLink l (Link.respond code.toNat r) := by
  simp only [serve, List.tail_cons, hc, codeOf_cons]

theorem onLink_respond_flags (n : Nat) (k : LinkId) : ((t.onLink l (Link.respond n r)).link k).flags = (t.link k).flags := by
  rw [State.onLink_link]
  split
  case isTrue h => rw [h]; rfl
  case isFalse => rfl

/-- Taking a frame leaves every link's flags. -/
theorem takeFrame_link_flags (h : s.serves l code args) (k : LinkId) : ((takeFrame l s).link k).flags = (s.link k).flags := by
  rw [takeFrame_noRate h.2]
  simp only [State.link, PerLink.get_set]
  split
  case isTrue hk => rw [hk]
  case isFalse => rfl

end Serve

/-! ### CLEAR LOCKOUT (R172) -/

/-- Flags raised a second time stand as they did. -/
theorem flags_or_again (x a b : EventSet) : x ||| a ||| b ||| a = x ||| a ||| b := by
  rw [BitVec.or_assoc (x ||| a), BitVec.or_comm b a, ← BitVec.or_assoc, BitVec.or_assoc x, BitVec.or_self]

section ClearLockout
variable {l : LinkId} {args : Bytes} {s : State}

theorem exec_clearLockout_serve (h : s.serves l 23 args) :
    exec .clearLockout s = .next (serve cmdClearLockout l (23 :: args) s) :=
  congrArg Host.Outcome.next (serveCode_serve (cmd := cmdClearLockout) h)

theorem cmdClearLockout_localHeld (h : ¬ (l = .supervisor ∧ s.pins.localIn = true)) :
    cmdClearLockout l [] s = (⟨.localHeld, []⟩, s) := by
  rw [cmdClearLockout, if_neg (by simp), if_pos h]
  rfl

theorem cmdClearLockout_elsewhere (h : l = .supervisor ∧ s.pins.localIn = true) (ho : s.oc.output ≠ .lockout) :
    cmdClearLockout l [] s = (⟨.ok, []⟩, s) := by
  rw [cmdClearLockout, if_neg (by simp), if_neg (not_not.mpr h), if_pos ho]
  rfl

theorem cmdClearLockout_clears (h : l = .supervisor ∧ s.pins.localIn = true) (ho : s.oc.output = .lockout) :
    cmdClearLockout l [] s = (⟨.ok, []⟩, clearLockout s) := by
  rw [cmdClearLockout, if_neg (by simp), if_neg (not_not.mpr h), if_neg (not_not.mpr ho)]
  rfl

/-- The state with stack and lockout record empty, and the output STOPPED. -/
abbrev State.lockoutEmptied (s : State) : State := changeOutput (.stopped .cleared)
  { s with
    sk := { s.sk with stack := [], lockout := none }
    rg := { s.rg with overStreak := 0 }
    oc := { s.oc with restartPending := false } }

/-- A change of output state sets the demand by the phase. -/
theorem changeOutput_demand {o : Output} {s : State} (h : s.oc.output ≠ o) :
    (changeOutput o s).sl.demand = if s.wantsOpen then .opened else .closed := by
  rw [changeOutput, if_neg h]
  rfl

theorem lockoutEmptied_active (s : State) : s.lockoutEmptied.active = s.active :=
  State.active_congr (by rw [changeOutput_sl_windows])

theorem lockoutEmptied_profileOf (s : State) (w : WindowRec) : s.lockoutEmptied.profileOf w = s.profileOf w :=
  congrArg (fun p : Vector Profile 8 => p.get w.profile) (changeOutput_sl_profiles ..)

theorem lockoutEmptied_stack (s : State) : s.lockoutEmptied.sk.stack = [] := by rw [State.lockoutEmptied, changeOutput_sk]

theorem lockoutEmptied_moment (s : State) : s.lockoutEmptied.moment = s.moment := by rw [State.lockoutEmptied, changeOutput_moment]

theorem lockoutEmptied_capture (s : State) : s.lockoutEmptied.sl.capture = s.sl.capture := by
  rw [State.lockoutEmptied, changeOutput_sl_capture]

/-- A lockout cleared, before STGFLT is looked at again. -/
abbrev State.lockoutCleared (s : State) : State := raiseAll .resumed (endSuspension s.lockoutEmptied)

theorem clearLockout_eq (s : State) : clearLockout s = stageCheck s.lockoutCleared := rfl

variable (ho : s.oc.output = .lockout)
include ho

theorem lockoutEmptied_oc : s.lockoutEmptied.oc =
    { s.oc with output := .stopped .cleared, restartPending := false, switch := .closed, drive := 0 } := by
  rw [State.lockoutEmptied, changeOutput_oc (by rw [ho]; decide) (by decide)]
  rfl

theorem lockoutEmptied_rg : s.lockoutEmptied.rg = { s.rg with overStreak := 0, duty := 0 } := by
  rw [State.lockoutEmptied, changeOutput_rg (by rw [ho]; decide)]
  rfl

theorem lockoutCleared_oc : s.lockoutCleared.oc =
    { s.oc with output := .stopped .cleared, restartPending := false, switch := .closed, drive := 0 } := by
  have hoc := lockoutEmptied_oc ho
  rw [State.lockoutCleared, raiseAll_oc, endSuspension_oc_idle (by rw [hoc]; rfl) (by rw [hoc]) (by rw [hoc]), hoc]

theorem lockoutCleared_rg : s.lockoutCleared.rg = { s.rg with overStreak := 0, duty := 0 } := by
  rw [State.lockoutCleared, raiseAll_rg, endSuspension_rg, lockoutEmptied_rg ho]

theorem lockoutCleared_link (k : LinkId) : s.lockoutCleared.link k = ((s.link k).raise .output).raise .resumed := by
  rw [State.lockoutCleared, raiseAll_link]
  refine congrArg (Link.raise .resumed) ?_
  rw [State.link, endSuspension_lc]
  exact changeOutput_link (by rw [ho]; decide) k

omit ho in
theorem lockoutCleared_keeps (s : State) :
    let t := s.lockoutCleared
    t.sk = { s.sk with stack := [], lockout := none } ∧ t.cq = s.cq ∧ t.tb = s.tb ∧ t.sl.windows = s.sl.windows
      ∧ t.hs = s.hs ∧ t.ns = s.ns ∧ t.cl.log = s.cl.log ∧ t.moment = s.moment ∧ t.pins = s.pins ∧ t.pending = s.pending := by
  simp [State.lockoutCleared, State.lockoutEmptied]

omit ho in
/-- With a window running a lockout cleared leaves no assembly without a capture OPEN. -/
theorem lockoutCleared_assembly (hlaw : CaptureLaw s) (hk : s.sk.stack ≠ []) (hc : s.lockoutCleared.sl.capture = none) :
    s.lockoutCleared.cl.assembly = none := by
  have hnone : s.sl.capture = none := Option.not_isSome_iff_eq_none.mp fun h => hk (hlaw.2 h).1
  have hemptied : s.lockoutEmptied.cl.assembly = none := changeOutput_assembly_none (hlaw.assembly_none hnone)
  rw [State.lockoutCleared, raiseAll_sl] at hc
  rw [State.lockoutCleared, raiseAll_cl]
  cases hactive : s.lockoutEmptied.active with
  | none => rw [endSuspension_idle hactive, hemptied]
  | some wc =>
    obtain ⟨w, c⟩ := wc
    by_cases hb : Position.boundary ∈ s.lockoutEmptied.moment.positions
    · rw [endSuspension_waits hactive hb, sync_cl, hemptied]
    · have hopens := (endSuspension_opens hactive hb).1
      rw [hc] at hopens
      exact absurd hopens (by simp)

omit ho in
/-- The STAGE_FAULT frame of a lockout cleared leaves what the clearing left. -/
theorem lockoutFaulted_keeps (s : State) :
    let t := pushFrame .stageFault none s.lockoutCleared
    t.tb = s.tb ∧ t.sl.windows = s.sl.windows ∧ t.hs = s.hs ∧ t.ns = s.ns ∧ t.cl.log = s.cl.log ∧ t.moment = s.moment
      ∧ t.pins = s.pins ∧ t.pending = s.pending := by
  simp [State.lockoutCleared, State.lockoutEmptied]

theorem lockoutFaulted_sk : (pushFrame .stageFault none s.lockoutCleared).sk =
    { stack := [{ seq := s.sk.nextFrame, kind := .stageFault, sec := s.tb.seconds, tick := s.tb.tick, output := .stopped,
                  mode := s.rg.set.mode, iset := s.rg.set.iset, duty := 0
                  timeline := s.active.map fun a => ⟨a.1.id, a.2.cycle, a.2.phase⟩, capture := none
                  pendingList := s.cq.queue.map fun e => ⟨true, e⟩, continuation := .ramp }]
      nextFrame := next16 s.sk.nextFrame, lockout := none } := by
  obtain ⟨hsk, hcq, htb, hwindows, -⟩ := lockoutCleared_keeps s
  have hactive : s.lockoutCleared.active = s.active := State.active_congr hwindows
  rw [pushFrame_sk, buildFrame, hsk, hcq, htb, hactive, lockoutCleared_oc ho, lockoutCleared_rg ho]
  rfl

theorem lockoutFaulted_rg : (pushFrame .stageFault none s.lockoutCleared).rg = { s.rg with overStreak := 0, duty := 0 } := by
  rw [pushFrame_rg_holds rfl (by rw [lockoutCleared_oc ho]; nofun), lockoutCleared_rg ho]

theorem lockoutFaulted_oc : (pushFrame .stageFault none s.lockoutCleared).oc =
    { s.oc with output := .held, restartPending := false, switch := .closed, drive := 0 } := by
  rw [pushFrame_oc_holds rfl (by rw [lockoutCleared_oc ho]; nofun), lockoutCleared_oc ho]
  rfl

theorem lockoutFaulted_flags (k : LinkId) : ((pushFrame .stageFault none s.lockoutCleared).link k).flags =
    (s.link k).flags ||| EventClass.output.bit ||| EventClass.resumed.bit ||| EventClass.fault.bit := by
  rw [pushFrame_link_holds rfl (by rw [lockoutCleared_oc ho]; nofun), lockoutCleared_link ho]
  simp only [Link.raise_flags]
  rw [flags_or_again]

end ClearLockout

/-- Settles O47: the tests, the lockout cleared with its suspension, and STGFLT looked at again. -/
theorem clearLockoutTakes : Obligations.ClearLockoutTakes := by
  unfold Obligations.ClearLockoutTakes
  intro s l hs
  rw [exec_clearLockout_serve hs]
  refine ⟨fun hl hpins ho => ?quiet, fun hl hpins ho => ?faulted, fun hno => ?held, fun hl hlocal ho => ?elsewhere⟩
  case held =>
    refine congrArg _ (serve_unchanged hs (cmdClearLockout_localHeld (s := takeFrame l s) fun h => ?_))
    exact hno.elim (fun hl => hl h.1) fun hf => absurd (hf.symm.trans h.2) (by decide)
  case elsewhere => exact congrArg _ (serve_unchanged hs (cmdClearLockout_elsewhere (s := takeFrame l s) ⟨hl, hlocal⟩ ho))
  case quiet =>
    let u := takeFrame l s
    obtain ⟨hsk, hcq, htb, hwindows, hhs, hns, hlog, hmoment, hpins', hpending⟩ := lockoutCleared_keeps u
    have hcmd : cmdClearLockout l [] u = (⟨.ok, []⟩, u.lockoutCleared) := by
      rw [cmdClearLockout_clears (s := u) ⟨hl, congrArg Pins.localIn hpins⟩ ho, clearLockout_eq, stageCheck_deasserted]
      rw [hpins']
      exact congrArg Pins.stgflt hpins
    refine ⟨_, congrArg _ (serve_eq hcmd), hsk, lockoutCleared_rg (s := u) ho, lockoutCleared_oc (s := u) ho, fun k => ?flags,
      fun hidle => ?idle, fun w c hactive => ?running, hcq, htb, hwindows, hhs, hns, hlog, hmoment, hpins', hpending⟩
    case flags =>
      rw [onLink_respond_flags, lockoutCleared_link (s := u) ho, Link.raise_flags, Link.raise_flags, takeFrame_link_flags hs]
    case idle =>
      have hactive : u.lockoutEmptied.active = none := (lockoutEmptied_active u).trans hidle
      change u.lockoutCleared.sl.demand = _ ∧ u.lockoutCleared.sl.capture = _
      rw [State.lockoutCleared, raiseAll_sl, endSuspension_idle hactive, changeOutput_demand (by exact fun h => absurd (ho.symm.trans h) (by decide)),
        State.wantsOpen_idle (by exact hidle), lockoutEmptied_capture]
      exact ⟨rfl, rfl⟩
    case running =>
      have hactive' : u.lockoutEmptied.active = some (w, c) := (lockoutEmptied_active u).trans hactive
      have hpos : u.lockoutEmptied.moment = s.moment := lockoutEmptied_moment u
      refine ⟨?_, fun hb => endSuspension_opens hactive' (by rw [hpos]; exact hb), fun hb => ?_⟩
      · have hdemand := endSuspension_demand hactive' (lockoutEmptied_stack u)
        rwa [lockoutEmptied_profileOf] at hdemand
      · change (endSuspension u.lockoutEmptied).sl.capture = _
        rw [endSuspension_waits hactive' (by rw [hpos]; exact hb), sync_sl_capture, lockoutEmptied_capture]
        rfl
  case faulted =>
    let u := takeFrame l s
    let t := u.lockoutCleared
    obtain ⟨hsk, -, -, -, -, -, -, -, hpins', -⟩ := lockoutCleared_keeps u
    obtain ⟨htb, hwindows, hhs, hns, hlog, hmoment, hpins'', hpending⟩ := lockoutFaulted_keeps u
    have hstack : t.sk.stack = [] := congrArg Sk.stack hsk
    have hlock : t.oc.output ≠ .lockout := by rw [show t.oc = _ from lockoutCleared_oc (s := u) ho]; nofun
    have hcmd : cmdClearLockout l [] u = (⟨.ok, []⟩, pushFrame .stageFault none t) := by
      rw [cmdClearLockout_clears (s := u) ⟨hl, congrArg Pins.localIn hpins⟩ ho, clearLockout_eq,
        stageCheck_raises (by rw [hpins']; exact congrArg Pins.stgflt hpins) (fun f hf => absurd (hstack ▸ hf) List.not_mem_nil) hlock,
        takeFault_push _ _ hlock (by rw [hstack]; decide)]
    have hassembly (hlaw : CaptureLaw u) (hk : u.sk.stack ≠ []) : t.sl.capture = none → t.cl.assembly = none :=
      lockoutCleared_assembly hlaw hk
    refine ⟨_, congrArg _ (serve_eq hcmd), lockoutFaulted_sk (s := u) ho, lockoutFaulted_rg (s := u) ho, pushFrame_queue ..,
      lockoutFaulted_oc (s := u) ho, fun k => ?flags, pushFrame_demand hstack,
      fun hlaw hk => ⟨pushFrame_capture hstack, pushFrame_assembly hstack (hassembly hlaw hk)⟩,
      htb, hwindows, hhs, hns, hlog, hmoment, hpins'', hpending⟩
    case flags => rw [onLink_respond_flags, lockoutFaulted_flags (s := u) ho, takeFrame_link_flags hs]

/-! ### RESTART: the tests (R204) -/

section Tests
variable {l : LinkId} {s : State}

theorem exec_restart_serve {args : Bytes} (h : s.serves l 27 args) : exec .restart s = .next (serve cmdRestart l (27 :: args) s) :=
  congrArg Host.Outcome.next (serveCode_serve (cmd := cmdRestart) h)

theorem cmdRestart_eq (l : LinkId) (s : State) : cmdRestart l [] s =
    if s.barred l then (⟨.localHeld, []⟩, s) else if s.ns.write.isSome then (⟨.busy, []⟩, s)
    else if s.oc.output = .lockout ∧ ¬ (l = .supervisor ∧ s.pins.localIn = true) then (⟨.lockedOut, []⟩, s)
    else (⟨.ok, []⟩, restartStation s) := rfl

end Tests

/-! ### What each block reloads, discards and keeps (R205) -/

section Reload
variable (s : State)

/-- The settings that a RESTART reloads. -/
abbrev State.reloaded : Image := if s.ns.imageGood then s.ns.image else defaultImage

theorem reload_tb : (reload s).tb =
    { s.tb with staged := none, holdoverLimit := s.reloaded.holdoverLimit, lossAction := s.reloaded.lossAction } := rfl

theorem reload_cl : (reload s).cl = { s.cl with assembly := none } := rfl

theorem reload_rg : (reload s).rg =
    { s.rg with set := s.reloaded.reg, duty := 0, limited := none, tripStreak := 0, overStreak := 0 } := rfl

theorem reload_oc : (reload s).oc = { s.oc with
    output := .stopped .reset, autoRestart := s.reloaded.autoRestart, restartPending := s.reloaded.autoRestart, switch := .closed
    drive := 0 } := by
  have hsw : ∀ t : State, t.oc.output = .stopped .reset → t.switchNow = .closed :=
    fun t ht => if_neg fun h => absurd (ht.symm.trans h.2) (by decide)
  rw [reload, sync_oc, hsw _ rfl]
  simp only [Output.drives, Bool.false_eq_true, false_and, if_false]
  rfl

theorem reload_hs : (reload s).hs = s.hs.restart s.reloaded.limits := rfl

theorem reload_ns : (reload s).ns = s.ns.verified := rfl

theorem reload_link (k : LinkId) : (reload s).link k = (s.link k).restart (s.reloaded.rates.get k) := by cases k <;> rfl

variable {s}

/-- Without STGFLT and without a start by the reloaded auto-restart a RESTART reloads, and reports an image that is INVALID. -/
theorem restartStation_quiet (hp : s.pins.stgflt = false) (ha : s.reloaded.autoRestart = false ∨ s.hs.mains ≠ .present) :
    restartStation s = reportImage (reload s) := by
  have hrelease : releaseReset (reload s) = reload s := by
    rw [releaseReset, if_neg (by rw [reload_pins, hp]; decide), if_neg]
    rw [reload_oc, reload_hs]
    rintro ⟨hpending, hmains⟩
    exact ha.elim (fun h => absurd (h.symm.trans hpending) (by decide)) fun h => h hmains
  rw [restartStation, hrelease]

/-- A link after a RESTART: cleared, its rate reloaded, STORE set where the image does not verify. -/
def Link.restarted (good : Bool) (rate : Rate) (k : Link) : Link := if good then k.restart rate else (k.restart rate).raise .store

theorem reportImage_reload_link (k : LinkId) :
    (reportImage (reload s)).link k = (s.link k).restarted s.ns.imageGood (s.reloaded.rates.get k) := by
  cases hgood : s.ns.imageGood with
  | true =>
    have hstate : (reload s).ns.imageState ≠ .invalid := by
      rw [reload_ns, Ns.verified, hgood]
      nofun
    rw [reportImage, if_neg hstate, reload_link]
    rfl
  | false =>
    have hstate : (reload s).ns.imageState = .invalid := by
      rw [reload_ns, Ns.verified, hgood]
      rfl
    rw [reportImage, if_pos hstate, raiseAll_link, reload_link]
    rfl

end Reload

section Restarted
variable (good : Bool) (rate : Rate) (k : Link)

theorem Link.restarted_flags : (k.restarted good rate).flags = if good then 0 else EventClass.store.bit := by
  cases good with
  | true => rfl
  | false => exact BitVec.zero_or

/-- What a RESTART does with the rest of a link. -/
theorem Link.restarted_keeps :
    let k' := k.restarted good rate
    k'.mask = 0 ∧ k'.attention = false ∧ k'.errors = ⟨false, false, false⟩ ∧ k'.rate = k.rate ∧ k'.rx = k.rx
      ∧ k'.partialBytes = k.partialBytes ∧ k'.gap = k.gap ∧ k'.pendingRate = (if rate = k.rate then none else some rate)
      ∧ k'.fifo = k.fifo ∧ k'.buffer = k.buffer := by
  cases good with
  | true => exact ⟨rfl, rfl, rfl, rfl, rfl, rfl, rfl, rfl, rfl, rfl⟩
  | false =>
    refine ⟨rfl, ?_, rfl, rfl, rfl, rfl, rfl, rfl, rfl, rfl⟩
    refine decide_eq_false (not_not.mpr ?_)
    exact BitVec.and_zero

end Restarted

section Frame
variable {s : State} {l : LinkId} {code : Byte} {args : Bytes} (h : s.serves l code args)
include h

/-- Taking a frame leaves of the answering link everything but its FIFO, and the other links as they are. -/
theorem takeFrame_link_eq (k : LinkId) :
    (takeFrame l s).link k = if k = l then { s.link l with fifo := (s.link l).fifo.tail } else s.link k := by
  rw [takeFrame_noRate h.2]
  simp only [State.link, PerLink.get_set]

end Frame

/-- Settles O49: the tests in order, and the blocks of a station restarted. -/
theorem restartTakes : Obligations.RestartTakes := by
  unfold Obligations.RestartTakes
  intro s l hs
  rw [exec_restart_serve hs]
  have hbarred : (takeFrame l s).barred l = s.barred l := rfl
  refine ⟨fun hb => ?barred, fun hb hw => ?busy, fun hb hw ho hl => ?lockedOut, ?taken⟩
  case barred =>
    refine congrArg _ (serve_unchanged hs ?_)
    rw [cmdRestart_eq, hbarred, if_pos hb]
  case busy =>
    refine congrArg _ (serve_unchanged hs ?_)
    rw [cmdRestart_eq, hbarred, if_neg (by simp [hb]), if_pos (by exact hw)]
  case lockedOut =>
    refine congrArg _ (serve_unchanged hs ?_)
    have hstays : ¬ (l = .supervisor ∧ s.pins.localIn = true) :=
      fun h => hl.elim (fun hl => hl h.1) fun hf => absurd (hf.symm.trans h.2) (by decide)
    rw [cmdRestart_eq, hbarred, if_neg (by simp [hb]), if_neg (by simp [hw]), if_pos (by exact ⟨ho, hstays⟩)]
  case taken =>
    intro img hb hw hl hp ha
    let u := takeFrame l s
    have hcmd : cmdRestart l [] u = (⟨.ok, []⟩, reportImage (reload u)) := by
      rw [cmdRestart_eq, hbarred, if_neg (by simp [hb]), if_neg (by simp [u, hw]), if_neg (fun h => h.2 (hl h.1)),
        restartStation_quiet (s := u) hp ha]
    have hlink (k : LinkId) := takeFrame_link_eq hs k
    have hlinks (k : LinkId) : ((reportImage (reload u)).onLink l (Link.respond (27 : Byte).toNat ⟨.ok, []⟩)).link k =
        if k = l then ((u.link l).restarted s.ns.imageGood (img.rates.get l)).respond 27 ⟨.ok, []⟩
        else (s.link k).restarted s.ns.imageGood (img.rates.get k) := by
      rw [State.onLink_link, reportImage_reload_link, reportImage_reload_link, hlink k]
      split <;> rfl
    refine ⟨_, congrArg _ (serve_eq hcmd), ?_⟩
    simp only [State.onLink_tb, State.onLink_sl, State.onLink_mu, State.onLink_cl, State.onLink_rg, State.onLink_oc, State.onLink_cq,
      State.onLink_sk, State.onLink_hs, State.onLink_ns, State.onLink_pins, State.onLink_moment, State.onLink_pending,
      reportImage_tb, reportImage_sl, reportImage_mu, reportImage_cl, reportImage_rg, reportImage_oc, reportImage_cq,
      reportImage_sk, reportImage_hs, reportImage_ns, reportImage_pins, reportImage_moment, reportImage_pending]
    refine ⟨rfl, rfl, rfl, rfl, rfl, rfl, rfl, rfl, rfl, rfl, rfl, rfl, rfl, rfl, rfl, rfl, reload_oc u, rfl, rfl, rfl,
      fun i => Vector.get_ofFn _ _, fun hmains => ?mark, fun k => ?links, ?buffer, ?fifo, rfl, rfl, rfl, rfl⟩
    case mark =>
      rw [reload_hs] at hmains ⊢
      change (u.hs.mainsMark || decide (u.hs.mains = .unknown)) = true
      rw [show u.hs.mains = .unknown from hmains]
      exact Bool.or_true _
    case links =>
      rw [hlinks]
      obtain ⟨hmask, hattention, herrors, hrate', hrx, hpartial, hgap, hpending, hfifo, hbuffer⟩ :=
        Link.restarted_keeps s.ns.imageGood (img.rates.get k) (u.link k)
      have hflags := Link.restarted_flags s.ns.imageGood (img.rates.get k) (u.link k)
      by_cases hk : k = l
      · subst hk
        have hsame : (u.link k).rate = (s.link k).rate ∧ (u.link k).rx = (s.link k).rx
            ∧ (u.link k).partialBytes = (s.link k).partialBytes ∧ (u.link k).gap = (s.link k).gap := by
          rw [hlink k, if_pos rfl]
          exact ⟨rfl, rfl, rfl, rfl⟩
        obtain ⟨hrates, hrxs, hpartials, hgaps⟩ := hsame
        rw [hrates] at hpending
        rw [if_pos rfl]
        exact ⟨hflags, hmask, hattention, rfl, hrate'.trans hrates, hrx.trans hrxs, hpartial.trans hpartials, hgap.trans hgaps,
          hpending.trans (by cases k <;> rfl), fun hne => absurd rfl hne⟩
      · rw [hlink k, if_neg hk] at hflags hmask hattention herrors hrate' hrx hpartial hgap hpending hfifo hbuffer
        rw [if_neg hk]
        exact ⟨hflags, hmask, hattention, herrors, hrate', hrx, hpartial, hgap, hpending.trans (by cases k <;> rfl), fun _ => ⟨hfifo, hbuffer⟩⟩
    case buffer =>
      obtain ⟨-, -, herrors, -⟩ := Link.restarted_keeps s.ns.imageGood (img.rates.get l) (u.link l)
      rw [hlinks, if_pos rfl, Link.respond, herrors]
      exact congrArg (fun p => some (frameOf p)) (responsePayload_ok 27 ⟨false, false, false⟩)
    case fifo =>
      obtain ⟨-, -, -, -, -, -, -, -, hfifo, -⟩ := Link.restarted_keeps s.ns.imageGood (img.rates.get l) (u.link l)
      rw [hlink l, if_pos rfl] at hfifo
      rw [hlinks, if_pos rfl]
      rw [hlink l, if_pos rfl]
      exact hfifo

end Sys2Proof.Machine
end

