-- ==== Sys2Proof/Proofs/Raises.lean ====
section
/-! Operations that do no more to the links than raise events (R194). -/

namespace Sys2Proof.Machine

/-! ### Operations that do no more to the links than raise events (R194)

An event that an operation has raised then stands on every link at the end of the step. -/

/-- A link with several events raised, one after the other. -/
def Link.raises (cs : List EventClass) (k : Link) : Link := cs.foldl (fun k c => k.raise c) k

theorem Link.raises_keeps {cs : List EventClass} {c : EventClass} {k : Link} (h : k.flags &&& c.bit = c.bit) :
    (k.raises cs).flags &&& c.bit = c.bit := by
  induction cs generalizing k with
  | nil => exact h
  | cons d cs ih => exact ih (Link.raise_keeps d c h)

/-- From one state to the other every link has had the same events raised, and nothing else done to it. -/
def Raises (s t : State) : Prop := ∃ cs, ∀ l, t.link l = (s.link l).raises cs

namespace Raises
variable {s t u : State}

theorem refl (s : State) : Raises s s := ⟨[], fun _ => rfl⟩

theorem trans (h : Raises s t) (h' : Raises t u) : Raises s u := by
  obtain ⟨cs, hcs⟩ := h
  obtain ⟨ds, hds⟩ := h'
  exact ⟨cs ++ ds, fun l => by rw [hds, hcs]; exact (List.foldl_append ..).symm⟩

theorem of_lc (h : t.lc = s.lc) : Raises s t := ⟨[], fun l => by rw [State.link, h]; rfl⟩

theorem after (h : Raises t u) (ht : t.lc = s.lc) : Raises s u := (of_lc ht).trans h

theorem ite {p : Prop} [Decidable p] (h : Raises s t) (h' : Raises s u) : Raises s (if p then t else u) := by
  split
  · exact h
  · exact h'

theorem foldl {β : Type} {f : State → β → State} (h : ∀ s b, Raises s (f s b)) (l : List β) (s : State) : Raises s (l.foldl f s) := by
  induction l generalizing s with
  | nil => exact refl s
  | cons b l ih => exact (h s b).trans (ih _)

/-- A flag that is set stays set. -/
theorem keeps_flag (h : Raises s t) {l : LinkId} {c : EventClass} (hs : (s.link l).flags &&& c.bit = c.bit) :
    (t.link l).flags &&& c.bit = c.bit := by
  obtain ⟨cs, hcs⟩ := h
  rw [hcs]
  exact Link.raises_keeps hs

end Raises

theorem raiseAll_raises (c : EventClass) (s : State) : Raises s (raiseAll c s) := ⟨[c], fun l => raiseAll_link c s l⟩

/-- An event raised on every link and then kept is set on each. -/
theorem Raises.sets {c : EventClass} {s t : State} (h : Raises (raiseAll c s) t) (l : LinkId) :
    (t.link l).flags &&& c.bit = c.bit :=
  h.keeps_flag (by rw [raiseAll_link]; exact Link.raise_sets c _)

/-! ### Outputs and faults -/

section Outputs
variable (s : State)

theorem changeOutput_raises (o : Output) : Raises s (changeOutput o s) := by
  by_cases h : s.oc.output = o
  · rw [changeOutput_same h]
    exact .refl s
  · exact ⟨[.output], fun l => changeOutput_link h l⟩

theorem enterRamp_raises : Raises s (enterRamp s) := (changeOutput_raises _ .ramp).after rfl

theorem holdOutput_raises : Raises s (holdOutput s) := .ite (.refl s) ((changeOutput_raises _ .held).after rfl)

theorem pushFrame_raises (kind : FaultKind) (cap : Option CapturePart) : Raises s (pushFrame kind cap s) := by
  have hsuspended : Raises s (suspended kind cap s) := ⟨[], fun l => suspended_link l⟩
  rw [pushFrame_eq]
  exact Raises.trans (.ite (hsuspended.trans (holdOutput_raises _)) hsuspended) (raiseAll_raises _ _)

theorem takeFault_raises (kind : FaultKind) (cap : Option CapturePart) : Raises s (takeFault kind cap s) := by
  have hrecorded : Raises s (s.recorded kind) := .of_lc rfl
  exact .ite (hrecorded.trans (raiseAll_raises _ _))
    (.ite ((hrecorded.trans (changeOutput_raises _ _)).trans (raiseAll_raises _ _)) (pushFrame_raises s kind cap))

theorem addNotice_raises (id : Nat) (o : NoticeOutcome) : Raises s (addNotice id o s) :=
  ⟨[.window], fun l => addNotice_link id o s l⟩

end Outputs

/-! ### Captures and the list -/

section Timeline
variable (s : State)

theorem judgeRecord_raises (r : CRecord) : Raises s (judgeRecord r s) := by
  cases hv : r.valid with
  | false =>
    rw [judgeRecord_of_not_valid hv]
    exact .refl s
  | true =>
    obtain ⟨pot, hp⟩ := CRecord.offPot_of_valid hv
    rcases judgeRecord_of_valid (s := s) hv hp with h | h
    · rw [h]
      exact .of_lc rfl
    · rw [h]
      exact (takeFault_raises _ _ _).after rfl

theorem completeCapture_raises : Raises s (completeCapture s) := by
  unfold completeCapture
  split
  · refine Raises.trans ?_ (judgeRecord_raises _ _)
    exact (raiseAll_raises _ _).after rfl
  · exact .of_lc rfl

theorem cutShort_raises : Raises s (cutShort s) := by
  have hdrop (p : Prop) [Decidable p] (t : State) (m : Mu) (h : Raises s t) : Raises s (if p then { t with mu := m } else t) :=
    .ite (h.trans (.of_lc rfl)) h
  exact hdrop _ _ _ (hdrop _ _ _ ((completeCapture_raises _).after rfl))

theorem removeEnding_raises : Raises s (removeEnding s) := by
  unfold removeEnding
  split
  · exact .refl s
  next w ws _ =>
    split
    next c cause _ =>
      have hremoved : Raises s (addNotice w.id cause.outcome { s with sl := { s.sl with windows := ws } }) :=
        (addNotice_raises _ _ _).after rfl
      exact hremoved.trans (.of_lc rfl)
    · exact .refl s
    · exact .refl s

theorem skipWindows_raises : Raises s (skipWindows s) :=
  (Raises.foldl (fun t (w : WindowRec) => addNotice_raises t w.id .skipped) _ _).after rfl

theorem activateFirst_raises : Raises s (activateFirst s) := by
  unfold activateFirst
  split
  · exact .refl s
  · refine .ite ?_ (.refl s)
    have hactive (t u : State) (id : Nat) (h : t.lc = s.lc) (hu : u = sync (addNotice id .activated t)) : Raises s u :=
      ((Raises.of_lc h).trans (addNotice_raises t id .activated)).trans (.of_lc (hu ▸ sync_lc _))
    exact .ite ((hactive _ _ _ (by rfl) rfl).trans (.of_lc (openCapture_lc ..))) (hactive _ _ _ (by rfl) rfl)

theorem applyPoint_raises (b : Bool) : Raises s (applyPoint b s) := by
  have hwritten : Raises s (((s.cq.queue.filter fun e => !s.waits e).foldl (fun t e => applyEntry e t) s)) :=
    Raises.foldl (fun t e => .of_lc (applyEntry_lc ..)) _ _
  refine .ite (.refl s) (Raises.trans ?_ (raiseAll_raises _ _))
  exact (hwritten.trans (.of_lc rfl)).trans (.ite (.of_lc (reanchor_lc ..)) (.refl _))

theorem endByTime_raises : Raises s (endByTime s) := .of_lc (endByTime_lc ..)

theorem examineSecond_raises : Raises s (examineSecond s) := by
  have hended := endByTime_raises s
  exact (((Raises.ite (hended.trans (applyPoint_raises _ _)) hended).trans (skipWindows_raises _)).trans
    (activateFirst_raises _)).trans (.of_lc rfl)

theorem examineStep_raises : Raises s (examineStep s) :=
  ((endByTime_raises s).trans (skipWindows_raises _)).trans (activateFirst_raises _)

theorem examineNow_raises : Raises s (examineNow s) := .ite (examineSecond_raises s) (.refl s)

theorem cycleBoundary_raises : Raises s (cycleBoundary s) := by
  have hcompleted := completeCapture_raises s
  have hremoved : Raises s (removeEnding (if s.moment.exam = true then endByTime (completeCapture s) else completeCapture s)) :=
    (Raises.ite (hcompleted.trans (endByTime_raises _)) hcompleted).trans (removeEnding_raises _)
  have happlied := Raises.ite (p := (removeEnding (if s.moment.exam = true then endByTime (completeCapture s)
    else completeCapture s)).sk.stack.isEmpty = true ∨ s.moment.exam = true) (hremoved.trans (applyPoint_raises _ true)) hremoved
  have hexamined := Raises.ite (p := s.moment.exam = true)
    ((happlied.trans (skipWindows_raises _)).trans (activateFirst_raises _)) happlied
  exact (hexamined.trans (.of_lc rfl)).trans (.of_lc (beginCycle_lc ..))

theorem takePosition_raises (p : Position) : Raises s (takePosition p s) := by
  cases p with
  | boundary => exact cycleBoundary_raises s
  | opens w => exact .of_lc (openWindow_lc ..)
  | closes w => exact .of_lc (closeWindow_lc ..)
  | offEdge => exact .of_lc (offEdge_lc ..)

theorem takeNext_raises : Raises s (takeNext s) := by
  unfold takeNext
  split
  · exact .refl s
  · exact (takePosition_raises _ _).after rfl

theorem takeSome_raises (n : Nat) : Raises s (takeSome n s) := by
  induction n generalizing s with
  | zero => exact .refl s
  | succ n ih => exact (takeNext_raises s).trans (ih _)

theorem finishTimeline_raises : Raises s (finishTimeline s) :=
  have hdone := takeSome_raises s s.moment.positions.length
  .ite (hdone.trans (examineSecond_raises _)) hdone

theorem tickNotice_raises : Raises s (tickNotice s) := .of_lc (tickNotice_lc ..)

theorem rephaseWindow_raises (p : Profile) (φ : Nat) (w : MWindow) : Raises s (rephaseWindow p φ w s) := .of_lc (rephaseWindow_lc ..)

theorem setPair_lc (n : Int) (φ : Nat) : (s.setPair n φ).lc = s.lc := by
  unfold State.setPair
  split <;> rfl

/-- The state with the pair of the time in force taken outright, and the demand by it. -/
abbrev State.moved (w : WindowRec) (c : CyclePart) (s : State) : State :=
  let pair := derive (s.profileOf w) c s.tb.seconds s.tb.tick
  sync (s.setPair pair.1 pair.2)

/-- A capture that goes on over a re-phase is marked. -/
abbrev State.markedRealigned (s : State) : State :=
  { s with sl := { s.sl with capture := s.sl.capture.map fun k => { k with realigned := true } } }

/-- What a re-phase notice does with a window running: the pair, and the capture by the cycle number (R65 to R67). -/
theorem rephase_running {s : State} {w : WindowRec} {c : CyclePart} (h : s.active = some (w, c)) :
    rephase s =
      let pair := derive (s.profileOf w) c s.tb.seconds s.tb.tick
      if s.sl.capture.isSome = false then s.moved w c
      else if pair.1 = c.cycle then
        rephaseWindow (s.profileOf w) pair.2 .off (rephaseWindow (s.profileOf w) pair.2 .on (s.moved w c).markedRealigned)
      else if (cutShort (s.moved w c)).sk.stack.isEmpty then openCapture pair.2 true (cutShort (s.moved w c))
      else cutShort (s.moved w c) := by
  rw [rephase, h]

theorem moved_raises (w : WindowRec) (c : CyclePart) : Raises s (s.moved w c) := .of_lc ((sync_lc _).trans (setPair_lc s _ _))

theorem rephase_raises : Raises s (rephase s) := by
  cases h : s.active with
  | none =>
    rw [rephase_idle h]
    exact .refl s
  | some wc =>
    obtain ⟨w, c⟩ := wc
    have hmoved := moved_raises s w c
    have hmarked : Raises s (s.moved w c).markedRealigned := hmoved.trans (.of_lc rfl)
    have hcut := hmoved.trans (cutShort_raises (s.moved w c))
    rw [rephase_running h]
    exact .ite hmoved (.ite ((hmarked.trans (rephaseWindow_raises _ _ _ _)).trans (rephaseWindow_raises _ _ _ _))
      (.ite (hcut.trans (.of_lc (openCapture_lc ..))) hcut))

end Timeline

/-! ### The timebase -/

section Timebase
variable (s : State)

theorem enterTb_raises (st : TbState) : Raises s (enterTb st s) := (raiseAll_raises _ _).after rfl

theorem enterLostNow_raises : Raises s (enterLostNow s) := by
  have hentered : Raises s (enterTb .lost { s with moment := { s.moment with lost := false } }) :=
    (enterTb_raises _ _).after rfl
  exact .ite (.ite (hentered.trans (takeFault_raises _ _ _)) hentered) (.refl s)

/-- The state of a staged time taken, with its TIME_SET event, before a state that was UNSET is left. -/
abbrev State.timeTaken (st : StagedTime) (s : State) : State :=
  raiseAll .timeSet { s with tb := { s.tb with seconds := st.value, tick := 0, staged := none } }

/-- The timebase state named at a staged time, where TB was UNSET. -/
abbrev State.timeNamed (atEdge : Bool) (st : StagedTime) (s : State) : State :=
  if s.tb.state = .unset then
    enterTb (if atEdge then .locked else .holdover)
      { s.timeTaken st with tb := { (s.timeTaken st).tb with holdoverSec := 0 } }
  else s.timeTaken st

variable {s}

/-- What a staged time that is applied does: it is taken, and the step decides what follows. -/
theorem applyStaged_some {atEdge : Bool} {st : StagedTime} (h : s.tb.staged = some st) :
    applyStaged atEdge s =
      let step : Int := (st.value : Int) - s.tb.seconds
      if step = 0 then s.timeNamed atEdge st
      else if step = 1 ∨ step = -1 then rephase (s.timeNamed atEdge st)
      else if (s.timeNamed atEdge st).active.isSome then
        { takeFault .timeStep none (s.timeNamed atEdge st) with
          sl := { (takeFault .timeStep none (s.timeNamed atEdge st)).sl with outright := true } }
      else s.timeNamed atEdge st := by
  rw [applyStaged, h]

theorem timeNamed_raises (atEdge : Bool) (st : StagedTime) : Raises (s.timeTaken st) (s.timeNamed atEdge st) :=
  .ite ((enterTb_raises _ _).after rfl) (.refl _)

theorem applyStaged_raises_named {atEdge : Bool} {st : StagedTime} (h : s.tb.staged = some st) :
    Raises (s.timeNamed atEdge st) (applyStaged atEdge s) := by
  rw [applyStaged_some h]
  exact .ite (.refl _) (.ite (rephase_raises _) (.ite ((takeFault_raises _ _ _).trans (.of_lc rfl)) (.refl _)))

theorem applyStaged_raises (atEdge : Bool) (s : State) : Raises s (applyStaged atEdge s) := by
  cases h : s.tb.staged with
  | none =>
    rw [applyStaged_none atEdge h]
    exact .refl s
  | some st =>
    have htaken : Raises s (s.timeTaken st) := (raiseAll_raises _ _).after rfl
    exact (htaken.trans (timeNamed_raises atEdge st)).trans (applyStaged_raises_named h)

end Timebase

/-! ### The station -/

section Station
variable (s : State)

theorem judgeChannel_raises (i : Fin 8) : Raises s (judgeChannel i s) :=
  .ite (.of_lc rfl) ((raiseAll_raises _ _).after rfl)

theorem declareMains_raises (m : Mains) : Raises s (declareMains m s) := by
  unfold declareMains
  dsimp only
  refine Raises.trans (Raises.trans ?_ (.of_lc (markNoOutput_lc _))) (raiseAll_raises _ _)
  split_ifs
  · exact (changeOutput_raises _ _).after rfl
  · exact (enterRamp_raises _).after rfl
  · exact .of_lc rfl

theorem updateMains_raises (v : Option Mains × Nat × Bool) : Raises s (updateMains v s) := by
  unfold updateMains
  split
  · exact .of_lc rfl
  · exact (declareMains_raises _ _).after rfl

theorem endScan_raises : Raises s (endScan s) :=
  ((Raises.of_lc (storeScan_lc s)).trans (updateMains_raises _ _)).trans (Raises.foldl (fun t i => judgeChannel_raises t i) _ _)

theorem rampRise_raises (f : Bool) : Raises s (rampRise f s) :=
  .ite (.ite ((changeOutput_raises _ _).after rfl) (.of_lc rfl)) (.refl s)

theorem updateDuty_raises (i v : Int) : Raises s (updateDuty i v s) :=
  .ite ((raiseAll_raises _ _).after rfl) (.of_lc rfl)

theorem innerLoop_raises (f : Bool) : Raises s (innerLoop f s) := by
  refine .ite (.ite (.refl s) (.ite (.ite ?_ ?_) ?_)) (.of_lc rfl)
  · exact (takeFault_raises _ _ _).after rfl
  · exact (updateDuty_raises _ _ _).after rfl
  · exact (updateDuty_raises _ _ _).after rfl

theorem regulate_raises (rise : Bool) : Raises s (regulate rise s) := by
  have hmeasured : Raises s (takeAverages s.frozen s) := .of_lc (takeAverages_lc ..)
  exact .ite ((hmeasured.trans (rampRise_raises _ _)).trans (innerLoop_raises _ _))
    ((hmeasured.trans (innerLoop_raises _ _)).trans (rampRise_raises _ _))

theorem boundaryAtEdge_raises : Raises s (boundaryAtEdge s) := by
  have hended : Raises s (if s.scanDue then endScan s else s) := .ite (endScan_raises s) (.refl s)
  have hticked (t : State) : Raises t (if t.moment.regTick then regulate true t else t) := .ite (regulate_raises t true) (.refl t)
  exact (hended.trans (hticked _)).trans (.of_lc rfl)

end Station

end Sys2Proof.Machine
end

