-- ==== Sys2Proof/Proofs/TimeCounts.lean ====
section
/-! The wrap, the staged time and accepted edges (O7 to O9, R1 to R6, R11, R16, R17). -/

namespace Sys2Proof.Machine

/-! ### The staged time (R17 to R19) -/

section Staged
variable {s : State} {atEdge : Bool} {st : StagedTime}

theorem timeNamed_tb (atEdge : Bool) (st : StagedTime) (s : State) : (s.timeNamed atEdge st).tb = { s.tb with
    seconds := st.value, tick := 0, staged := none
    state := if s.tb.state = .unset then (if atEdge then .locked else .holdover) else s.tb.state
    holdoverSec := if s.tb.state = .unset then 0 else s.tb.holdoverSec } := by
  unfold State.timeNamed
  split <;> rfl

/-- What follows a staged time taken leaves TB as the time was named. -/
theorem applyStaged_tb (h : s.tb.staged = some st) : (applyStaged atEdge s).tb = (s.timeNamed atEdge st).tb := by
  rw [applyStaged_some h]
  dsimp only
  split
  · rfl
  · split
    · rw [rephase_tb]
    · split
      · rw [takeFault_tb]
      · rfl

theorem applyStaged_sets_timeSet (h : s.tb.staged = some st) {t : State} (ht : Raises (applyStaged atEdge s) t) (l : LinkId) :
    (t.link l).flags &&& EventClass.timeSet.bit = EventClass.timeSet.bit :=
  (((timeNamed_raises atEdge st).trans (applyStaged_raises_named h)).trans ht).sets l

/-- A staged time that ends UNSET raises TIMING (R3, R17). -/
theorem applyStaged_sets_timing (h : s.tb.staged = some st) (hu : s.tb.state = .unset) {t : State}
    (ht : Raises (applyStaged atEdge s) t) (l : LinkId) :
    (t.link l).flags &&& EventClass.timing.bit = EventClass.timing.bit := by
  have hnamed : s.timeNamed atEdge st = enterTb (if atEdge then .locked else .holdover)
      { s.timeTaken st with tb := { (s.timeTaken st).tb with holdoverSec := 0 } } := if_pos hu
  have hraises := (applyStaged_raises_named h).trans ht
  rw [hnamed] at hraises
  exact hraises.sets l

end Staged

/-! ### The wrap (R1, R2, R11) -/

/-- The holdover seconds after an advance (R11). -/
abbrev Tb.advanced (x : Tb) : Nat :=
  if x.state = .holdover ∨ x.state = .lost then min (x.holdoverSec + 1) 4294967295 else x.holdoverSec

theorem advanceHoldover_tb (s : State) : (advanceHoldover s).tb = { s.tb with holdoverSec := s.tb.advanced } := by
  unfold advanceHoldover Tb.advanced
  split <;> rfl

theorem advanceHoldover_lost (s : State) : (advanceHoldover s).moment.lost = true ↔
    s.moment.lost = true ∨ s.tb.state = .holdover ∧ s.tb.holdoverLimit ≤ s.tb.advanced := by
  unfold advanceHoldover Tb.advanced
  split
  · simp [Config.count32]
  case isFalse h =>
    obtain ⟨hh, -⟩ := not_or.mp h
    simp [hh]

/-- The wrap counted: TB's counts, and what a second boundary makes due, before a staged time and SL's notice. -/
abbrev State.wrapped (x : Samples) (s : State) : State :=
  markSecond (advanceHoldover
    { beginMoment x true s with tb := { (beginMoment x true s).tb with tick := 0, seconds := next32 (beginMoment x true s).tb.seconds } })

theorem takeWrap_due {x : Samples} {s : State} (h : s.moment.wrap = some x) :
    takeWrap s = handNotice x (if s.tb.state.appliesAtBoundary then applyStaged false (s.wrapped x) else s.wrapped x) := by
  rw [takeWrap, h]

section Wrapped
variable (x : Samples) (s : State)

theorem wrapped_tb : (s.wrapped x).tb = { s.tb with
    tick := 0, seconds := (s.tb.seconds + 1) % 4294967296, edgeAge := min (s.tb.edgeAge + 1) 2402
    holdoverSec := s.tb.advanced } := by
  rw [State.wrapped, markSecond_tb, advanceHoldover_tb]
  rfl

theorem wrapped_due : (s.wrapped x).moment.wrap = none ∧ (s.wrapped x).moment.regTick = true ∧ (s.wrapped x).moment.exam = true
    ∧ (s.wrapped x).moment.positions = s.moment.positions ∧ (s.wrapped x).hs.scan = some 0
    ∧ ((s.wrapped x).moment.lost = true ↔
      s.moment.lost = true ∨ s.tb.state = .holdover ∧ s.tb.holdoverLimit ≤ s.tb.advanced) := by
  refine ⟨?_, rfl, rfl, ?_, rfl, ?_⟩
  · rw [State.wrapped, markSecond_moment_wrap, advanceHoldover_moment_wrap]
    rfl
  · unfold State.wrapped markSecond advanceHoldover
    split <;> rfl
  · rw [State.wrapped, markSecond_moment_lost, advanceHoldover_lost]
    rfl

/-- What the counting of a wrap leaves as it was. -/
theorem wrapped_keeps :
    let t := s.wrapped x
    t.sl = s.sl ∧ t.rg = s.rg ∧ t.oc = s.oc ∧ t.cq = s.cq ∧ t.sk = s.sk ∧ t.pins = s.pins ∧ t.pending = s.pending
      ∧ t.hs.channels = s.hs.channels ∧ t.hs.mains = s.hs.mains ∧ t.mu = s.mu.notice x ∧ t.cl.log = s.cl.log
      ∧ t.ns = s.ns.notice ∧ t.moment.requeued = s.moment.requeued := by
  have hhs : (s.hs.notice x.scan).channels = s.hs.channels ∧ (s.hs.notice x.scan).mains = s.hs.mains := by
    unfold Hs.notice
    split
    · exact ⟨rfl, rfl⟩
    · split <;> exact ⟨rfl, rfl⟩
  simp only [State.wrapped, markSecond, startScan]
  simp [beginMoment, hhs]

theorem wrapped_tickCode : (s.wrapped x).moment.tickCode = none := by
  unfold State.wrapped markSecond advanceHoldover
  split <;> rfl

end Wrapped

/-- With TB LOCKED or no time staged the wrap applies none. -/
theorem takeWrap_counts {x : Samples} {s : State} (h : s.moment.wrap = some x) (hst : s.tb.state = .locked ∨ s.tb.staged = none) :
    takeWrap s = handNotice x (s.wrapped x) := by
  rw [takeWrap_due h]
  rcases hst with hst | hst
  · rw [hst, if_neg (by decide)]
  · rw [applyStaged_none false (by rw [wrapped_tb, hst]), ite_self]

/-- In the other states a wrap applies a staged time. -/
theorem takeWrap_applies {x : Samples} {s : State} (h : s.moment.wrap = some x) (hst : s.tb.state ≠ .locked) :
    takeWrap s = handNotice x (applyStaged false (s.wrapped x)) := by
  rw [takeWrap_due h, if_pos (show s.tb.state.appliesAtBoundary = true from decide_eq_true hst)]

theorem exec_secondBoundary (s : State) : exec .secondBoundary s = .next (examineNow (takeWrap s)) := rfl

theorem applyPoint_duty (b : Bool) (s : State) : (applyPoint b s).rg.duty = s.rg.duty := by
  unfold applyPoint
  dsimp only
  split
  · rfl
  · rw [raiseAll_rg]
    split
    · rw [reanchor_rg]
      exact applyEntries_duty _ s
    · exact applyEntries_duty _ s

theorem examineNow_duty (s : State) : (examineNow s).rg.duty = s.rg.duty := by
  have happlied (p : Prop) [Decidable p] : (if p then applyPoint false (endByTime s) else endByTime s).rg.duty = s.rg.duty := by
    split
    · rw [applyPoint_duty, endByTime_rg]
    · rw [endByTime_rg]
  unfold examineNow
  split
  · unfold examineSecond
    dsimp only
    rw [activateFirst_rg, skipWindows_rg, happlied]
  · rfl

/-- Settles O7: the wrap counted, SL's notice and the examination, which leave TB and the station as the count left them. -/
theorem secondBoundaryCounts : Obligations.SecondBoundaryCounts := by
  unfold Obligations.SecondBoundaryCounts
  intro x s hw hst held
  obtain ⟨hwrap, hreg, -, -, hscan, hlost⟩ := wrapped_due x s
  obtain ⟨-, hrg, hoc, -, hsk, hpins, hpending, hchannels, hmains, hmu, hlog, hns, -⟩ := wrapped_keeps x s
  refine ⟨_, exec_secondBoundary s, ?_⟩
  rw [takeWrap_counts hw hst]
  simp only [examineNow_tb, examineNow_moment_wrap, examineNow_moment_regTick, examineNow_moment_lost, examineNow_hs, examineNow_mu_iAcc,
    examineNow_mu_cal, examineNow_oc_output, examineNow_sk, examineNow_pins, examineNow_pending, examineNow_duty, examineNow_cl_log,
    examineNow_ns, handNotice_tb, handNotice_moment_wrap, handNotice_moment_regTick, handNotice_moment_lost, handNotice_hs,
    handNotice_mu_iAcc, handNotice_mu_cal, handNotice_oc_output, handNotice_sk, handNotice_pins, handNotice_pending, handNotice_rg,
    handNotice_cl, handNotice_ns]
  refine ⟨wrapped_tb x s, hwrap, hreg, hscan, hlost, ?_, by rw [hoc], hsk, hpins, hpending, hchannels, hmains, by rw [hrg], ?_, hlog, ?_⟩
  · rw [hmu]
    rfl
  · rw [hmu]
    rfl
  · rw [hns]
    rfl

/-! ### An accepted edge, stage by stage (R5, R6, R17) -/

section Stages
variable (c : Nat) (s : State)

/-- The edge recorded, as a moment of its own for the entries put back where it coincides with no wrap (R4, R150). -/
abbrev State.edgeRecorded : State := recordEdge c .accepted { s with
  moment := { s.moment with wrap := none, requeued := if s.moment.wrap.isSome then s.moment.requeued else [] } }

/-- The count corrected: a second boundary at 2398 and 2399, the second's beginning otherwise. -/
abbrev State.edgeCorrected : State :=
  if decide (c ≥ 2398) then boundaryAtEdge (s.edgeRecorded c)
  else { s.edgeRecorded c with tb := { (s.edgeRecorded c).tb with tick := 0 } }

/-- Streak, edge age and holdover seconds begin anew. -/
abbrev State.edgeAligned : State :=
  { s.edgeCorrected c with
    tb := { (s.edgeCorrected c).tb with rejectStreak := [], edgeAge := 0, holdoverSec := 0 }
    moment := { (s.edgeCorrected c).moment with tickCode := if c = 0 then (s.edgeCorrected c).moment.tickCode else none } }

/-- TB LOCKED out of HOLDOVER and LOST. -/
abbrev State.edgeLocked : State :=
  if s.tb.state = .holdover ∨ s.tb.state = .lost then enterTb .locked (s.edgeAligned c) else s.edgeAligned c

theorem acceptEdge_eq : acceptEdge c s =
    let isPoint := (s.edgeLocked c).tb.staged.isSome && (decide (c ≥ 2398) || decide (s.tb.state = .locked))
    let noticed := tickNotice (if isPoint then applyStaged true (s.edgeLocked c) else s.edgeLocked c)
    if decide (c ≥ 2398) then noticed else finishTimeline (if isPoint then examineStep noticed else noticed) := rfl

/-- The end of a scan that is due. -/
abbrev State.scanned (s : State) : State := if s.scanDue then endScan s else s

/-- The regulation tick that is due. -/
abbrev State.ticked (s : State) : State := if s.moment.regTick then regulate true s else s

/-- What an earlier moment of the second has left due for HS and MU is done first at an edge (log 13). -/
theorem boundaryAtEdge_eq (s : State) : boundaryAtEdge s = markSecond
    { s.scanned.ticked with tb := { s.scanned.ticked.tb with tick := 0, seconds := next32 s.scanned.ticked.tb.seconds } } := rfl

theorem scanned_tb (s : State) : s.scanned.tb = s.tb := by
  unfold State.scanned
  split <;> simp

theorem ticked_tb (s : State) : s.ticked.tb = s.tb := by
  unfold State.ticked
  split <;> simp

theorem boundaryAtEdge_tb (s : State) : (boundaryAtEdge s).tb = { s.tb with tick := 0, seconds := next32 s.tb.seconds } := by
  rw [boundaryAtEdge_eq, markSecond_tb, ticked_tb, scanned_tb]

theorem edgeCorrected_tb : (s.edgeCorrected c).tb = { s.tb with
    tick := 0, seconds := if 2398 ≤ c then (s.tb.seconds + 1) % 4294967296 else s.tb.seconds
    lastEdge := some ⟨c, s.tb.seconds, .accepted⟩ } := by
  unfold State.edgeCorrected
  by_cases h : 2398 ≤ c
  · rw [if_pos (decide_eq_true h), boundaryAtEdge_tb, if_pos h]
    rfl
  · rw [if_neg (by simpa using h), if_neg h]
    rfl

theorem edgeLocked_tb : (s.edgeLocked c).tb = { s.tb with
    tick := 0, seconds := if 2398 ≤ c then (s.tb.seconds + 1) % 4294967296 else s.tb.seconds
    state := if s.tb.state = .unset then .unset else .locked
    lastEdge := some ⟨c, s.tb.seconds, .accepted⟩, rejectStreak := [], edgeAge := 0, holdoverSec := 0 } := by
  have haligned : (s.edgeAligned c).tb = _ := congrArg (fun x : Tb => { x with rejectStreak := [], edgeAge := 0, holdoverSec := 0 })
    (edgeCorrected_tb c s)
  have hlocked : (s.edgeLocked c).tb = { (s.edgeAligned c).tb with
      state := if s.tb.state = .holdover ∨ s.tb.state = .lost then .locked else (s.edgeAligned c).tb.state } := by
    unfold State.edgeLocked
    split <;> rfl
  rw [hlocked, haligned]
  cases s.tb.state <;> rfl

theorem edgeLocked_moment : (s.edgeLocked c).moment = (s.edgeAligned c).moment := by
  unfold State.edgeLocked
  split <;> rfl

theorem edgeLocked_hs : (s.edgeLocked c).hs = (s.edgeCorrected c).hs := by
  unfold State.edgeLocked
  split <;> rfl

theorem edgeLocked_wrap : (s.edgeLocked c).moment.wrap = none := by
  rw [edgeLocked_moment]
  unfold State.edgeAligned State.edgeCorrected
  dsimp only
  split
  · exact boundaryAtEdge_wrap rfl
  · rfl

variable {c}

/-- At a second boundary the examination and the regulation tick are due, and the scan begins (R2, R174). -/
theorem edgeLocked_boundary (h : 2398 ≤ c) : (s.edgeLocked c).moment.exam = true ∧ (s.edgeLocked c).moment.regTick = true
    ∧ (s.edgeLocked c).hs.scan = some 0 := by
  have hcorrected : s.edgeCorrected c = boundaryAtEdge (s.edgeRecorded c) := if_pos (decide_eq_true h)
  rw [edgeLocked_moment, edgeLocked_hs, State.edgeAligned, hcorrected]
  exact ⟨rfl, rfl, rfl⟩

variable {s}

/-- An edge that applies no staged time. -/
theorem acceptEdge_plain (h : s.tb.staged = none ∨ ¬ 2398 ≤ c ∧ s.tb.state ≠ .locked) :
    acceptEdge c s = if 2398 ≤ c then tickNotice (s.edgeLocked c) else finishTimeline (tickNotice (s.edgeLocked c)) := by
  have hpoint : ((s.edgeLocked c).tb.staged.isSome && (decide (c ≥ 2398) || decide (s.tb.state = .locked))) = false := by
    rw [edgeLocked_tb]
    rcases h with h | ⟨hc, hl⟩
    · simp [h]
    · simp only [ge_iff_le, hc, hl, decide_false, Bool.or_self, Bool.and_false]
  rw [acceptEdge_eq, hpoint]
  by_cases hc : 2398 ≤ c <;> simp [hc]

/-- An edge that is a staged time's application point. -/
theorem acceptEdge_point {st : StagedTime} (h : s.tb.staged = some st) (hp : 2398 ≤ c ∨ s.tb.state = .locked) :
    acceptEdge c s = if 2398 ≤ c then tickNotice (applyStaged true (s.edgeLocked c))
      else finishTimeline (examineStep (tickNotice (applyStaged true (s.edgeLocked c)))) := by
  have hpoint : ((s.edgeLocked c).tb.staged.isSome && (decide (c ≥ 2398) || decide (s.tb.state = .locked))) = true := by
    rw [edgeLocked_tb]
    rcases hp with hp | hp <;> simp [h, hp]
  rw [acceptEdge_eq, hpoint]
  by_cases hc : 2398 ≤ c <;> simp [hc]

/-- Leaving HOLDOVER or LOST raises TIMING (R3). -/
theorem edgeLocked_sets_timing (h : s.tb.state = .holdover ∨ s.tb.state = .lost) {t : State} (ht : Raises (s.edgeLocked c) t)
    (l : LinkId) : (t.link l).flags &&& EventClass.timing.bit = EventClass.timing.bit := by
  have hlocked : s.edgeLocked c = enterTb .locked (s.edgeAligned c) := if_pos h
  rw [hlocked] at ht
  exact ht.sets l

end Stages

/-! ### The state on which an edge is captured (R4) -/

/-- The state once an entry to LOST and SL's work that earlier notices have made due are done. -/
abbrev State.edgeReady (s : State) : State := finishTimeline (enterLostNow s)

theorem exec_pulseEdge_accepted {s : State} (h : s.tb.tick = 2398 ∨ s.tb.tick = 2399 ∨ s.tb.tick ≤ 2)
    (ht : s.edgeReady.tb.tick = s.tb.tick) : exec .pulseEdge s = .next (acceptEdge s.tb.tick s.edgeReady) := by
  have hband : inBand s.tb.tick = true := decide_eq_true (by omega)
  refine congrArg Host.Outcome.next ?_
  rw [pulseEdgeStep, ht, hband]
  rfl

/-- An entry to LOST that is due changes nothing of TB but its state. -/
theorem edgeReady_tb (s : State) : s.edgeReady.tb = { s.tb with
    state := if s.moment.lost = true ∧ s.tb.state = .holdover then .lost else s.tb.state } := by
  rw [finishTimeline_tb]
  unfold enterLostNow
  split
  · split <;> simp [enterTb]
  · rfl

/-- Settles O9: the count corrected and TB locked, then SL's notice and, where no second begins, its work. -/
theorem pulseAccepted : Obligations.PulseAccepted := by
  unfold Obligations.PulseAccepted
  intro s hband hst
  have htb := edgeReady_tb s
  have htick : s.edgeReady.tb.tick = s.tb.tick := by rw [htb]
  have hstate : s.edgeReady.tb.state = .locked ↔ s.tb.state = .locked := by
    rw [htb]
    dsimp only
    split
    case isTrue h => rw [h.2]; decide
    case isFalse => rfl
  have hplain : s.edgeReady.tb.staged = none ∨ ¬ 2398 ≤ s.tb.tick ∧ s.edgeReady.tb.state ≠ .locked := by
    rcases hst with hst | ⟨hc, hl⟩
    · exact .inl (by rw [htb, hst])
    · exact .inr ⟨by omega, fun h => hl (hstate.mp h)⟩
  let k := s.edgeReady.edgeLocked s.tb.tick
  have hk : k.tb = { s.tb with
      tick := 0, seconds := if 2398 ≤ s.tb.tick then (s.tb.seconds + 1) % 4294967296 else s.tb.seconds
      state := if s.tb.state = .unset then .unset else .locked
      lastEdge := some ⟨s.tb.tick, s.tb.seconds, .accepted⟩, rejectStreak := [], edgeAge := 0, holdoverSec := 0 } := by
    refine (edgeLocked_tb _ _).trans ?_
    rw [htb]
    by_cases hlost : s.moment.lost = true ∧ s.tb.state = .holdover
    · simp [hlost]
    · simp [hlost]
  have hexec := exec_pulseEdge_accepted hband htick
  rw [acceptEdge_plain hplain] at hexec
  have hstep := Host.Outcome.next.inj hexec
  refine ⟨_, hexec, ?tb, ?wrap, ?due, fun ho l => ?timing, ?ns, ?pins, ?pending⟩
  case tb =>
    rw [apply_ite State.tb, finishTimeline_tb, tickNotice_tb, ite_self]
    exact hk
  case wrap =>
    rw [apply_ite (fun t : State => t.moment.wrap), finishTimeline_moment_wrap, tickNotice_moment_wrap, ite_self]
    exact edgeLocked_wrap _ _
  case due =>
    split
    case isTrue hc =>
      obtain ⟨hexam, hreg, hscan⟩ := edgeLocked_boundary s.edgeReady hc
      exact ⟨(tickNotice_exam _).trans hexam, (tickNotice_moment_regTick _).trans hreg, (congrArg Hs.scan (tickNotice_hs _)).trans hscan⟩
    case isFalse hc =>
      obtain ⟨hpositions, hexam⟩ := finishTimeline_timelineDone (tickNotice k)
      exact ⟨hexam, hpositions⟩
  case timing =>
    have hready : s.edgeReady.tb.state = .holdover ∨ s.edgeReady.tb.state = .lost := by
      rw [htb]
      dsimp only
      split
      · exact .inr rfl
      · exact ho
    refine edgeLocked_sets_timing hready (c := s.tb.tick) ?_ l
    exact .ite (tickNotice_raises _) ((tickNotice_raises _).trans (finishTimeline_raises _))
  case ns => exact (congrArg State.ns hstep).symm.trans (pulseEdgeStep_ns s)
  case pins => exact (congrArg State.pins hstep).symm.trans (pulseEdgeStep_pins s)
  case pending => exact (congrArg State.pending hstep).symm.trans (pulseEdgeStep_pending s)

theorem regulate_cal (rise : Bool) (s : State) : (regulate rise s).mu.cal = s.mu.cal := by
  have htaken : (takeAverages s.frozen s).mu.cal = s.mu.cal := by rw [takeAverages_eq]
  rw [regulate_eq]
  split
  · rw [innerLoop_mu_cal, rampRise_mu_cal, htaken]
  · rw [rampRise_mu_cal, innerLoop_mu_cal, htaken]

theorem boundaryAtEdge_cal (s : State) : (boundaryAtEdge s).mu.cal = s.mu.cal := by
  have hscanned : s.scanned.mu.cal = s.mu.cal := by
    unfold State.scanned
    split <;> simp
  rw [boundaryAtEdge_eq, markSecond_mu]
  unfold State.ticked
  dsimp only
  split
  · rw [regulate_cal, hscanned]
  · exact hscanned

theorem edgeLocked_cal (c : Nat) (s : State) : (s.edgeLocked c).mu.cal = s.mu.cal := by
  have hmu : (s.edgeLocked c).mu = (s.edgeCorrected c).mu := by
    unfold State.edgeLocked
    split <;> rfl
  rw [hmu]
  unfold State.edgeCorrected
  split
  · exact boundaryAtEdge_cal _
  · rfl

/-- With no entry to LOST due an edge is captured on the state that SL's work leaves. -/
theorem exec_pulseEdge_point {s : State} {st : StagedTime} (hst : s.tb.staged = some st) (hlost : s.moment.lost = false)
    (hband : s.tb.tick = 2398 ∨ s.tb.tick = 2399 ∨ (s.tb.tick ≤ 2 ∧ s.tb.state = .locked)) :
    exec .pulseEdge s = .next
      (if 2398 ≤ s.tb.tick then tickNotice (applyStaged true ((finishTimeline s).edgeLocked s.tb.tick))
      else finishTimeline (examineStep (tickNotice (applyStaged true ((finishTimeline s).edgeLocked s.tb.tick))))) := by
  have hready : s.edgeReady = finishTimeline s := by rw [State.edgeReady, enterLostNow_none (.inl hlost)]
  have hpoint : 2398 ≤ s.tb.tick ∨ s.tb.state = .locked := by
    rcases hband with h | h | h
    · exact .inl (by omega)
    · exact .inl (by omega)
    · exact .inr h.2
  rw [exec_pulseEdge_accepted (by omega) (by rw [hready, finishTimeline_tb]), hready,
    acceptEdge_point (by rw [finishTimeline_tb, hst]) (by rwa [finishTimeline_tb])]

/-- A staged time at an accepted edge leaves TB LOCKED on it. -/
theorem edgeTaken_tb {s : State} {st : StagedTime} (c : Nat) (h : s.tb.staged = some st) :
    (applyStaged true (s.edgeLocked c)).tb = { s.tb with
      tick := 0, seconds := st.value, staged := none, state := .locked
      lastEdge := some ⟨c, s.tb.seconds, .accepted⟩, rejectStreak := [], edgeAge := 0, holdoverSec := 0 } := by
  rw [applyStaged_tb (st := st) (by rw [edgeLocked_tb, h]), timeNamed_tb, edgeLocked_tb]
  by_cases hu : s.tb.state = .unset
  · simp [hu]
  · simp [hu]

theorem wrapTaken_tb {s : State} {st : StagedTime} (x : Samples) (h : s.tb.staged = some st) (hl : s.tb.state ≠ .locked) :
    (applyStaged false (s.wrapped x)).tb = { s.tb with
      tick := 0, seconds := st.value, staged := none, edgeAge := min (s.tb.edgeAge + 1) 2402
      state := if s.tb.state = .unset then .holdover else s.tb.state
      holdoverSec := if s.tb.state = .unset then 0 else min (s.tb.holdoverSec + 1) 4294967295 } := by
  rw [applyStaged_tb (st := st) (by rw [wrapped_tb, h]), timeNamed_tb, wrapped_tb]
  cases hs : s.tb.state with
  | locked => exact absurd hs hl
  | unset => rfl
  | holdover => simp [Tb.advanced, hs]
  | lost => simp [Tb.advanced, hs]

/-- Settles O8: the staged time taken at the wrap and at the edge, and what follows it. -/
theorem stagedTimeApplied : Obligations.StagedTimeApplied := by
  unfold Obligations.StagedTimeApplied
  refine ⟨fun x s st hw hl hst => ?wrap, fun s st hst hlost hband => ?edge⟩
  case wrap =>
    have hstaged : (s.wrapped x).tb.staged = some st := by rw [wrapped_tb, hst]
    have hraises : Raises (applyStaged false (s.wrapped x)) (examineNow (handNotice x (applyStaged false (s.wrapped x)))) :=
      (Raises.of_lc (handNotice_lc ..)).trans (examineNow_raises _)
    obtain ⟨-, -, -, -, -, hpins, hpending, hchannels, -, hmu, -, hns, -⟩ := wrapped_keeps x s
    refine ⟨_, exec_secondBoundary s, ?_⟩
    rw [takeWrap_applies hw hl]
    refine ⟨?tb, applyStaged_sets_timeSet hstaged hraises,
      fun hu => applyStaged_sets_timing hstaged (by rw [wrapped_tb, hu]) hraises, ?_⟩
    case tb => rw [examineNow_tb, handNotice_tb, wrapTaken_tb x hst hl]
    simp only [examineNow_hs, examineNow_mu_cal, examineNow_ns, examineNow_pins, examineNow_pending, handNotice_hs, handNotice_mu_cal,
      handNotice_ns, handNotice_pins, handNotice_pending, applyStaged_hs, applyStaged_mu_cal, applyStaged_ns, applyStaged_pins,
      applyStaged_pending]
    refine ⟨hchannels, ?_, ?_, hpins, hpending⟩
    · rw [hmu]
      rfl
    · rw [hns]
      rfl
  case edge =>
    let r := finishTimeline s
    let k := r.edgeLocked s.tb.tick
    have hr : r.tb = s.tb := finishTimeline_tb s
    have hstaged : k.tb.staged = some st := by rw [edgeLocked_tb, hr, hst]
    have hexec := exec_pulseEdge_point hst hlost hband
    have hstep := Host.Outcome.next.inj hexec
    have hraises : Raises (applyStaged true k) (if 2398 ≤ s.tb.tick then tickNotice (applyStaged true k)
        else finishTimeline (examineStep (tickNotice (applyStaged true k)))) :=
      .ite (tickNotice_raises _) (((tickNotice_raises _).trans (examineStep_raises _)).trans (finishTimeline_raises _))
    refine ⟨_, hexec, ?tb, applyStaged_sets_timeSet hstaged hraises, fun hl l => ?timing, ?due, ?cal, ?ns, ?pins, ?pending⟩
    case tb =>
      rw [apply_ite State.tb, finishTimeline_tb, examineStep_tb, tickNotice_tb, ite_self, edgeTaken_tb (st := st) _ (by rw [hr, hst]), hr]
    case timing =>
      cases hs : s.tb.state with
      | locked => exact absurd hs hl
      | unset => exact applyStaged_sets_timing hstaged (by rw [edgeLocked_tb, hr, hs]; rfl) hraises l
      | holdover => exact edgeLocked_sets_timing (.inl (by rw [hr, hs])) ((applyStaged_raises true k).trans hraises) l
      | lost => exact edgeLocked_sets_timing (.inr (by rw [hr, hs])) ((applyStaged_raises true k).trans hraises) l
    case due =>
      split
      case isTrue hc =>
        obtain ⟨hexam, hreg, hscan⟩ := edgeLocked_boundary r hc
        rw [tickNotice_exam, tickNotice_moment_regTick, tickNotice_hs, applyStaged_moment, applyStaged_hs]
        exact ⟨hexam, hreg, hscan⟩
      case isFalse hc =>
        obtain ⟨hpositions, hexam⟩ := finishTimeline_timelineDone (examineStep (tickNotice (applyStaged true k)))
        exact ⟨hexam, hpositions⟩
    case cal =>
      rw [apply_ite (fun t : State => t.mu.cal), finishTimeline_mu_cal, examineStep_mu_cal, tickNotice_mu_cal, ite_self,
        applyStaged_mu_cal, edgeLocked_cal, finishTimeline_mu_cal]
    case ns => exact (congrArg State.ns hstep).symm.trans (pulseEdgeStep_ns s)
    case pins => exact (congrArg State.pins hstep).symm.trans (pulseEdgeStep_pins s)
    case pending => exact (congrArg State.pending hstep).symm.trans (pulseEdgeStep_pending s)

end Sys2Proof.Machine
end

