-- ==== Sys2Proof/Proofs/BoundaryRecords.lean ====
section
/-! What a cycle boundary takes of the capture in progress (O17, O18, O20; R42, R59, R83 to R87, R105, R106). -/

namespace Sys2Proof.Machine

/-! ### The record of a capture (R83 to R87) -/

/-- CL's part of a completed capture: the record in the log with the CAPTURE event, capture and assembly ended. -/
abbrev State.recordLogged (r : CRecord) (s : State) : State :=
  raiseAll .capture
    { s with
      sl := { s.sl with capture := none }
      cl := { log := logRecord r s.cl.log, nextSeq := next32 s.cl.nextSeq, assembly := none } }

theorem completeCapture_open {s : State} {cap : Capture} {a : Assembly} (hcap : s.sl.capture = some cap)
    (hasm : s.cl.assembly = some a) :
    completeCapture s = judgeRecord (buildRecord cap a s) (s.recordLogged (buildRecord cap a s)) := by
  simp only [completeCapture, hcap, hasm]

theorem CRecord.valid_iff {r : CRecord} :
    r.valid = true ↔ r.offPot ≠ none ∧ r.flags.noisy = false ∧ r.flags.shortOn = false ∧ r.flags.unsynced = false
      ∧ r.flags.ramp = false ∧ r.flags.noOutput = false ∧ r.flags.realigned = false := by
  simp [CRecord.valid, Option.isSome_iff_ne_none, and_assoc]

section Built
variable {cap : Capture} {a : Assembly} {s : State}

theorem buildRecord_underLim :
    (buildRecord cap a s).flags.underLim
      = ((buildRecord cap a s).valid && decide (s.rg.set.underLimit < (buildRecord cap a s).offPot.getD 0)) := rfl

theorem buildRecord_overLim :
    (buildRecord cap a s).flags.overLim
      = ((buildRecord cap a s).valid && decide ((buildRecord cap a s).offPot.getD 0 < s.rg.set.overLimit)) := rfl

/-- A mark of the limits stands exactly on a valid record whose off potential is beyond the limit (R85, R86). -/
theorem CRecord.valid_and_iff {r : CRecord} {P : Int → Prop} [DecidablePred P] :
    (r.valid && decide (P (r.offPot.getD 0))) = true ↔
      ∃ v, r.offPot = some v ∧ P v ∧ r.flags.noisy = false ∧ r.flags.shortOn = false ∧ r.flags.unsynced = false
        ∧ r.flags.ramp = false ∧ r.flags.noOutput = false ∧ r.flags.realigned = false := by
  rw [Bool.and_eq_true, CRecord.valid_iff, decide_eq_true_iff]
  cases hp : r.offPot with
  | none => simp
  | some v =>
    simp only [ne_eq, reduceCtorEq, not_false_eq_true, true_and, Option.getD_some, Option.some.injEq, exists_eq_left']
    exact And.comm

theorem buildRecord_underLim_iff :
    (buildRecord cap a s).flags.underLim = true ↔
      ∃ v, (buildRecord cap a s).offPot = some v ∧ s.rg.set.underLimit < v ∧ (buildRecord cap a s).flags.noisy = false
        ∧ (buildRecord cap a s).flags.shortOn = false ∧ (buildRecord cap a s).flags.unsynced = false
        ∧ (buildRecord cap a s).flags.ramp = false ∧ (buildRecord cap a s).flags.noOutput = false
        ∧ (buildRecord cap a s).flags.realigned = false := by
  rw [buildRecord_underLim]
  exact CRecord.valid_and_iff (P := fun v => s.rg.set.underLimit < v)

theorem buildRecord_overLim_iff :
    (buildRecord cap a s).flags.overLim = true ↔
      ∃ v, (buildRecord cap a s).offPot = some v ∧ v < s.rg.set.overLimit ∧ (buildRecord cap a s).flags.noisy = false
        ∧ (buildRecord cap a s).flags.shortOn = false ∧ (buildRecord cap a s).flags.unsynced = false
        ∧ (buildRecord cap a s).flags.ramp = false ∧ (buildRecord cap a s).flags.noOutput = false
        ∧ (buildRecord cap a s).flags.realigned = false := by
  rw [buildRecord_overLim]
  exact CRecord.valid_and_iff (P := fun v => v < s.rg.set.overLimit)

theorem buildRecord_noisy_iff :
    (buildRecord cap a s).flags.noisy = true ↔
      ∃ o, (if cap.offStatus = .done then s.mu.offResult else none) = some o ∧ o.noisy = true := by
  show (match (if cap.offStatus = .done then s.mu.offResult else none) with | some o => o.noisy | none => false) = true ↔ _
  cases (if cap.offStatus = .done then s.mu.offResult else none) <;> simp

theorem buildRecord_irDrop_some {u v : Int} (hu : (buildRecord cap a s).onPot = some u)
    (hv : (buildRecord cap a s).offPot = some v) : (buildRecord cap a s).irDrop = some (u - v) := by
  show (match (buildRecord cap a s).onPot, (buildRecord cap a s).offPot with
    | some x, some y => some (x - y) | _, _ => none) = _
  rw [hu, hv]

theorem buildRecord_irDrop_none (h : (buildRecord cap a s).onPot = none ∨ (buildRecord cap a s).offPot = none) :
    (buildRecord cap a s).irDrop = none := by
  show (match (buildRecord cap a s).onPot, (buildRecord cap a s).offPot with
    | some x, some y => some (x - y) | _, _ => none) = _
  rcases h with h | h <;> rw [h]
  cases (buildRecord cap a s).onPot <;> rfl

theorem logRecord_eq (r : CRecord) (log : List CRecord) : logRecord r log = log.drop (log.length - 31) ++ [r] := by
  simp only [logRecord, Config.maxRecords, Nat.add_sub_add_right log.length 1 31]

end Built

/-! ### What a boundary does after the record (R59) -/

/-- The steps of a cycle boundary that follow the completed capture; `second` where it is a second boundary too. -/
def boundaryRest (second : Bool) (s : State) : State :=
  let removed := removeEnding (if second then endByTime s else s)
  let applied := if removed.sk.stack.isEmpty = true ∨ second = true then applyPoint true removed else removed
  let examined := if second then activateFirst (skipWindows applied) else applied
  beginCycle { examined with moment := { examined.moment with exam := false } }

theorem cycleBoundary_eq (s : State) : cycleBoundary s = boundaryRest s.moment.exam (completeCapture s) := rfl

theorem boundaryRest_cl_log (b : Bool) (s : State) : (boundaryRest b s).cl.log = s.cl.log := by
  unfold boundaryRest
  cases b
  · simp only [beginCycle_cl_log, Bool.false_eq_true, if_false, or_false]
    split <;> simp
  · rw [beginCycle_cl_log, if_pos rfl]
    simp

theorem boundaryRest_cl_nextSeq (b : Bool) (s : State) : (boundaryRest b s).cl.nextSeq = s.cl.nextSeq := by
  unfold boundaryRest
  cases b
  · simp only [beginCycle_cl_nextSeq, Bool.false_eq_true, if_false, or_false]
    split <;> simp
  · rw [beginCycle_cl_nextSeq, if_pos rfl]
    simp

theorem boundaryRest_raises (b : Bool) (s : State) : Raises s (boundaryRest b s) := by
  have hremoved : Raises s (removeEnding (if b = true then endByTime s else s)) :=
    (Raises.ite (endByTime_raises s) (.refl s)).trans (removeEnding_raises _)
  have happlied := Raises.ite (p := (removeEnding (if b = true then endByTime s else s)).sk.stack.isEmpty = true ∨ b = true)
    (hremoved.trans (applyPoint_raises _ true)) hremoved
  have hexamined := Raises.ite (p := b = true) ((happlied.trans (skipWindows_raises _)).trans (activateFirst_raises _)) happlied
  exact (hexamined.trans (.of_lc rfl)).trans (.of_lc (beginCycle_lc ..))

/-- Away from a second boundary, with nothing queued, the first entry is removed where it is ENDING, and the cycle begins. -/
theorem boundaryRest_plain {s : State} (hq : s.cq.queue = []) :
    boundaryRest false s = beginCycle { removeEnding s with moment := { (removeEnding s).moment with exam := false } } := by
  have happly : applyPoint true (removeEnding s) = removeEnding s :=
    applyPoint_of_queue_nil true (by rw [removeEnding_cq, hq])
  simp only [boundaryRest, Bool.false_eq_true, if_false, happly, ite_self]

/-- With no window left the new cycle only drives the outputs. -/
theorem beginCycle_idle {s : State} (h : s.active = none) : beginCycle s = sync s := by
  have hsync : (sync s).active = none := h
  simp only [beginCycle, openCapture, hsync, ite_self]

/-- Under suspension no capture opens at the boundary. -/
theorem beginCycle_held {s : State} (h : s.sk.stack ≠ []) : beginCycle s = sync s := by
  simp only [beginCycle, List.isEmpty_iff, h, false_and, if_false]

/-! ### No assembly is left (R79, R87) -/

theorem takeFault_assembly_none (kind : FaultKind) (cap : Option CapturePart) {s : State} (h : s.cl.assembly = none) :
    (takeFault kind cap s).cl.assembly = none := by
  by_cases hlock : s.oc.output = .lockout
  · rw [takeFault_lockout kind cap hlock, raiseAll_cl, h]
  · by_cases hfull : 2 ≤ s.sk.stack.length
    · rw [takeFault_full_assembly hlock hfull, h, Option.map_none]
    · rw [takeFault_push kind cap hlock (by omega)]
      have hsuspended : (suspended kind cap s).cl.assembly = none := by
        unfold suspended
        split
        · rw [sync_cl]
          split
          · rfl
          · exact h
        · exact h
      rw [pushFrame_eq, raiseAll_cl]
      split
      · unfold holdOutput
        split
        · exact hsuspended
        · exact changeOutput_assembly_none hsuspended
      · exact hsuspended

theorem judgeRecord_assembly_none (r : CRecord) {s : State} (h : s.cl.assembly = none) : (judgeRecord r s).cl.assembly = none := by
  cases hv : r.valid with
  | false => rw [judgeRecord_of_not_valid hv, h]
  | true =>
    obtain ⟨pot, hp⟩ := CRecord.offPot_of_valid hv
    rcases judgeRecord_of_valid (s := s) hv hp with hj | hj
    · rw [hj, h]
    · rw [hj]
      exact takeFault_assembly_none _ _ h

theorem completeCapture_assembly (s : State) : (completeCapture s).cl.assembly = none := by
  unfold completeCapture
  split
  · exact judgeRecord_assembly_none _ rfl
  · rfl

/-! ### The ENDING window (R42) -/

/-- The state after an ENDING first entry has been removed. -/
abbrev State.entryRemoved (w : WindowRec) (ws : List WindowRec) (cause : EndCause) (s : State) : State :=
  let removed := addNotice w.id cause.outcome { s with sl := { s.sl with windows := ws } }
  sync { removed with
    rg := { removed.rg with overStreak := 0 }
    moment := { removed.moment with positions := [] } }

theorem removeEnding_ending {s : State} {w : WindowRec} {ws : List WindowRec} {c : CyclePart} {cause : EndCause}
    (hw : s.sl.windows = w :: ws) (hl : w.life = .ending c cause) : removeEnding s = s.entryRemoved w ws cause := by
  simp only [removeEnding, hw, hl]

/-- Settles O17: with nothing queued the boundary completes the capture, removes the entry and drives the outputs of no window. -/
theorem endingWindowRemoved : Obligations.EndingWindowRemoved := by
  unfold Obligations.EndingWindowRemoved
  intro s w ws c cause hpos hexam hw hl hws hq
  let u : State := { s with moment := { s.moment with positions := [] } }
  let v := completeCapture u
  let t0 : State := { removeEnding v with moment := { (removeEnding v).moment with exam := false } }
  have hvw : v.sl.windows = w :: ws := (completeCapture_sl_windows u).trans hw
  have hr : removeEnding v = v.entryRemoved w ws cause := removeEnding_ending hvw hl
  have hidle : t0.active = none := active_none_of_scheduled fun x hx => hws x (by
    have : t0.sl.windows = ws := by show (removeEnding v).sl.windows = ws; rw [hr]; rfl
    rwa [this] at hx)
  have hcycle : cycleBoundary u = sync t0 := by
    rw [cycleBoundary_eq, show u.moment.exam = false from hexam, boundaryRest_plain (completeCapture_queue_nil (s := u) hq)]
    exact beginCycle_idle hidle
  have hquiet : t0.wantsOpen = false := State.wantsOpen_idle hidle
  refine ⟨_, (exec_cycleBoundary_of_alone hpos).trans (congrArg _ hcycle), ?_⟩
  have hnotices : (removeEnding v).sl.notices
      = v.sl.notices.drop (v.sl.notices.length - 7) ++ [⟨v.sl.noticeNo, w.id, cause.outcome, v.tb.seconds⟩] := by
    rw [hr]
    exact addNotice_notices w.id cause.outcome { v with sl := { v.sl with windows := ws } }
  refine ⟨?_, ?_, ?_, ?_, ?_, ?_, ?_, ?_, ?_, ?_, ?_, ?_, ?_, ?_, fun l => ?_⟩
  · show (removeEnding v).sl.windows = ws
    rw [hr]
    rfl
  · show (removeEnding v).rg.overStreak = 0
    rw [hr]
    rfl
  · show (removeEnding v).sl.capture = none
    rw [removeEnding_sl_capture, completeCapture_capture]
  · show (removeEnding v).cl.assembly = none
    rw [removeEnding_cl, completeCapture_assembly]
  · show (removeEnding v).sl.notices = _
    rw [hnotices, completeCapture_sl_notices, completeCapture_sl_noticeNo, completeCapture_tb]
    cases cause <;> rfl
  · rw [sync_demand, hquiet]
    rfl
  · rw [sync_switch, hquiet]
    rfl
  · show (removeEnding v).moment.positions = []
    rw [hr]
    rfl
  · rw [sync_tb]
    exact (removeEnding_tb v).trans (completeCapture_tb u)
  · exact (removeEnding_hs v).trans (completeCapture_hs u)
  · exact (removeEnding_ns v).trans (completeCapture_ns u)
  · exact (removeEnding_pins v).trans (completeCapture_pins u)
  · exact (removeEnding_pending v).trans (completeCapture_pending u)
  · exact (removeEnding_sl_nextId v).trans (completeCapture_sl_nextId u)
  · show ((removeEnding v).link l).flags &&& _ = _
    rw [hr]
    exact Raises.sets (c := .window) (.of_lc rfl) l

/-! ### The record of a boundary (R83 to R87) -/

theorem completeCapture_log {s : State} {cap : Capture} {a : Assembly} (hcap : s.sl.capture = some cap)
    (hasm : s.cl.assembly = some a) :
    (completeCapture s).cl.log = s.cl.log.drop (s.cl.log.length - 31) ++ [buildRecord cap a s]
      ∧ (completeCapture s).cl.nextSeq = (s.cl.nextSeq + 1) % 4294967296 := by
  rw [completeCapture_open hcap hasm, judgeRecord_cl_log, judgeRecord_cl_nextSeq, raiseAll_cl]
  exact ⟨logRecord_eq .., rfl⟩

theorem cycleBoundary_sets_capture {s : State} {cap : Capture} {a : Assembly} (hcap : s.sl.capture = some cap)
    (hasm : s.cl.assembly = some a) (l : LinkId) :
    ((cycleBoundary s).link l).flags &&& EventClass.capture.bit = EventClass.capture.bit := by
  have hrest : Raises (completeCapture s) (cycleBoundary s) := by
    rw [cycleBoundary_eq]
    exact boundaryRest_raises _ _
  rw [completeCapture_open hcap hasm] at hrest
  exact ((judgeRecord_raises _ _).trans hrest).sets l

/-- Settles O18: the record is the one built of the assembly, SL's statuses and MU's results, and nothing after it touches the log. -/
theorem cycleBoundaryRecords : Obligations.CycleBoundaryRecords := by
  unfold Obligations.CycleBoundaryRecords
  intro s cap a hpos hcap hasm onPot off tb out
  let u : State := { s with moment := { s.moment with positions := [] } }
  obtain ⟨hlog, hseq⟩ := completeCapture_log (s := u) hcap hasm
  have hoffPot : (buildRecord cap a u).offPot = off.map OffResult.potential := rfl
  refine ⟨cycleBoundary u, buildRecord cap a u, exec_cycleBoundary_of_alone hpos, ?_, ?_, rfl, rfl, rfl, rfl, rfl, rfl, rfl,
    fun x y => buildRecord_irDrop_some, fun hnone => buildRecord_irDrop_none ?_, rfl, rfl, buildRecord_noisy_iff,
    decide_eq_true_iff, decide_eq_true_iff, decide_eq_true_iff, decide_eq_true_iff, rfl, rfl, buildRecord_underLim_iff,
    buildRecord_overLim_iff, cycleBoundary_sets_capture (s := u) hcap hasm, cycleBoundary_tb u, cycleBoundary_hs u,
    cycleBoundary_ns u, cycleBoundary_pins u, cycleBoundary_pending u⟩
  · rw [cycleBoundary_eq, boundaryRest_cl_log, hlog]
  · rw [cycleBoundary_eq, boundaryRest_cl_nextSeq, hseq]
  · exact hnone.imp id fun h => by rw [hoffPot, h]; rfl

theorem removeEnding_duty (s : State) : (removeEnding s).rg.duty = s.rg.duty := by
  rcases removeEnding_cases s with h | ⟨w, ws, c, cause, -, -, h⟩ <;> rw [h] <;> rfl

/-! ### The third OVER capture in a row (R105, R106) -/

/-- The state in which OVERPROTECTION is raised: the record is in the log and RG has taken it. -/
abbrev State.overJudged (r : CRecord) (pot : Int) (s : State) : State :=
  { s.recordLogged r with rg := s.rg.judged r pot }

theorem judgeRecord_trips {r : CRecord} {s : State} {pot : Int} (hv : r.valid = true) (hp : r.offPot = some pot)
    (ho : r.flags.overLim = true) (hk : s.rg.overStreak = 2) :
    judgeRecord r s = takeFault .overprotection (some ⟨r.seq, pot⟩) { s with rg := s.rg.judged r pot } := by
  simp only [judgeRecord, hv, hp, ho, hk, Rg.judged, if_true, Nat.reduceAdd, ge_iff_le, Nat.le_refl, true_and]

/-- After OVERPROTECTION the boundary removes the first entry where it is ENDING, and drives the outputs under the frame. -/
theorem cycleBoundary_trips {s : State} {cap : Capture} {a : Assembly} {pot : Int} (hexam : s.moment.exam = false)
    (hcap : s.sl.capture = some cap) (hasm : s.cl.assembly = some a) (hv : (buildRecord cap a s).valid = true)
    (hp : (buildRecord cap a s).offPot = some pot) (ho : pot < s.rg.set.overLimit) (hk : s.rg.overStreak = 2)
    (hstack : s.sk.stack = []) (hrun : s.oc.output = .run) :
    let r := buildRecord cap a s
    let v := pushFrame .overprotection (some ⟨r.seq, pot⟩) (s.overJudged r pot)
    completeCapture s = v
      ∧ cycleBoundary s = sync { removeEnding v with moment := { (removeEnding v).moment with exam := false } } := by
  intro r v
  have hover : r.flags.overLim = true := by
    rw [buildRecord_overLim, hv, hp]
    exact decide_eq_true ho
  have hcompleted : completeCapture s = v := by
    rw [completeCapture_open hcap hasm, judgeRecord_trips (s := s.recordLogged r) hv hp hover hk]
    exact takeFault_push _ _ (by rw [show (s.overJudged r pot).oc.output = .run from hrun]; nofun)
      (by rw [show (s.overJudged r pot).sk.stack = [] from hstack]; decide)
  refine ⟨hcompleted, ?_⟩
  rw [cycleBoundary_eq, hexam, hcompleted, boundaryRest_plain (pushFrame_queue ..)]
  refine beginCycle_held ?_
  show (removeEnding v).sk.stack ≠ []
  rw [removeEnding_sk, pushFrame_sk]
  exact List.cons_ne_nil _ _

/-- Settles O20: the record is valid and OVER, so the streak reaches 3 and the frame is pushed on the empty stack. -/
theorem overprotectionHolds : Obligations.OverprotectionHolds := by
  unfold Obligations.OverprotectionHolds
  intro s cap a o r w c hpos hexam hcap hasm hactive hd hr hnoisy hshort hre hout hedge hlocked hramp hover hk hstack hrun
  let u : State := { s with moment := { s.moment with positions := [] } }
  have hvalid : (buildRecord cap a u).valid = true :=
    buildRecord_valid hd hr hnoisy hshort (by rw [hedge]; exact hlocked) (by rw [hedge]; exact hramp) hout hre
  have hpot : (buildRecord cap a u).offPot = some r.potential := buildRecord_offPot hd hr
  obtain ⟨hcompleted, hcycle⟩ := cycleBoundary_trips (s := u) hexam hcap hasm hvalid hpot hover hk hstack hrun
  let j := u.overJudged (buildRecord cap a u) r.potential
  let v := pushFrame .overprotection (some ⟨u.cl.nextSeq, r.potential⟩) j
  let t0 : State := { removeEnding v with moment := { (removeEnding v).moment with exam := false } }
  have hjout : j.oc.output ≠ .held := by rw [show j.oc.output = .run from hrun]; decide
  have hoc := pushFrame_oc_holds (kind := .overprotection) (cap := some ⟨u.cl.nextSeq, r.potential⟩) rfl hjout
  have hrg := pushFrame_rg_holds (kind := .overprotection) (cap := some ⟨u.cl.nextSeq, r.potential⟩) rfl hjout
  have hout0 : t0.oc.output = .held := by
    show (removeEnding v).oc.output = _
    rw [removeEnding_oc_output, hoc]
  obtain ⟨hswitch, hdrive⟩ := sync_quiet (s := t0) (by rw [hout0]; rfl)
  refine ⟨sync t0, buildFrame .overprotection (some ⟨u.cl.nextSeq, r.potential⟩) j,
    (exec_cycleBoundary_of_alone hpos).trans (congrArg _ hcycle), ?_, rfl, rfl, rfl, rfl, ?_, rfl, rfl, ?_, rfl, rfl, ?_, ?_,
    hdrive, hswitch, ?_, ?_, ?_, ?_, ?_, ?_, ?_, ?_, ?_⟩
  · show (removeEnding v).sk.stack = _
    rw [removeEnding_sk, pushFrame_sk]
    exact congrArg _ hstack
  · show s.oc.output.kind = _
    rw [hrun]
    rfl
  · show s.active.map _ = _
    rw [hactive]
    rfl
  · rw [sync_oc_output, hout0]
  · show (removeEnding v).oc.restartPending = true
    rw [removeEnding_oc_restartPending, hoc]
    show (s.oc.restartPending || s.oc.output.drives) = true
    rw [hrun]
    exact Bool.or_true _
  · show (removeEnding v).rg.duty = 0
    rw [removeEnding_duty, hrg]
  · show (removeEnding v).cq.queue = []
    rw [removeEnding_cq]
    exact pushFrame_queue ..
  · exact (removeEnding_sl_capture v).trans (pushFrame_capture hstack)
  · exact (congrArg Cl.assembly (removeEnding_cl v)).trans (pushFrame_assembly hstack fun _ => rfl)
  · exact (removeEnding_tb v).trans (pushFrame_tb ..)
  · exact (removeEnding_hs v).trans (pushFrame_hs ..)
  · exact (removeEnding_ns v).trans (pushFrame_ns ..)
  · exact (removeEnding_pins v).trans (pushFrame_pins ..)
  · exact (removeEnding_pending v).trans (pushFrame_pending ..)

end Sys2Proof.Machine
end

