-- ==== Sys2Proof/Proofs/Examination.lean ====
section
/-! A list examination that ends and skips entries (O16; R31, R37 to R40). -/

namespace Sys2Proof.Machine

/-! ### Skipped entries and their notices (R31, R38) -/

/-- The last eight of a list of notices. -/
abbrev lastEight (ns : List Notice) : List Notice := ns.drop (ns.length - 8)

theorem lastEight_of_long (a : List Notice) {b : List Notice} (h : 8 ≤ b.length) : lastEight (a ++ b) = lastEight b := by
  have hlen : (a ++ b).length - 8 = a.length + (b.length - 8) := by rw [List.length_append]; omega
  rw [lastEight, hlen, List.drop_length_add_append]

theorem lastEight_append (a b : List Notice) : lastEight (lastEight a ++ b) = lastEight (a ++ b) := by
  obtain hle | hgt := Nat.le_total a.length 8
  · rw [show lastEight a = a by rw [lastEight, Nat.sub_eq_zero_of_le hle, List.drop_zero]]
  · have hsplit : a ++ b = a.take (a.length - 8) ++ (lastEight a ++ b) := by
      rw [← List.append_assoc, List.take_append_drop]
    rw [hsplit]
    exact (lastEight_of_long _ (by simp only [List.length_append, List.length_drop]; omega)).symm

/-- The SKIPPED notices of entries, numbered on from `no`. -/
def skipNotices (now : Nat) : Nat → List WindowRec → List Notice
  | _, [] => []
  | no, w :: ws => ⟨no, w.id, .skipped, now⟩ :: skipNotices now (next16 no) ws

theorem skipNotices_eq_zipIdx (now no k : Nat) (ws : List WindowRec) :
    skipNotices now (Nat.repeat next16 k no) ws
      = (ws.zipIdx k).map fun p => ⟨Nat.repeat next16 p.2 no, p.1.id, .skipped, now⟩ := by
  induction ws generalizing k with
  | nil => rfl
  | cons w ws ih => exact congrArg _ (ih (k + 1))

theorem skipNotices_length (now no : Nat) (ws : List WindowRec) : (skipNotices now no ws).length = ws.length := by
  induction ws generalizing no with
  | nil => rfl
  | cons w ws ih => exact congrArg Nat.succ (ih _)

theorem Nat.repeat_next16 (n no : Nat) : Nat.repeat next16 n (next16 no) = Nat.repeat next16 (n + 1) no := by
  induction n with
  | zero => rfl
  | succ n ih => exact congrArg next16 ih

theorem Link.raise_again (c : EventClass) (k : Link) : (k.raise c).raise c = k.raise c := by
  simp [Link.raise, Link.reattend, BitVec.or_assoc]

/-- SKIPPED notices, one after the other: the last eight notices are kept, and the number goes on. -/
theorem foldl_addNotice_skipped (ws : List WindowRec) (s : State) (hlen : s.sl.notices.length ≤ 8) :
    ws.foldl (fun t w => addNotice w.id .skipped t) s =
      { s with
        sl := { s.sl with
          notices := lastEight (s.sl.notices ++ skipNotices s.tb.seconds s.sl.noticeNo ws)
          noticeNo := Nat.repeat next16 ws.length s.sl.noticeNo }
        lc := if ws = [] then s.lc else { s.lc with links := s.lc.links.map (Link.raise .window) } } := by
  induction ws generalizing s with
  | nil =>
    have hkept : lastEight (s.sl.notices ++ []) = s.sl.notices := by
      rw [List.append_nil, lastEight, Nat.sub_eq_zero_of_le hlen, List.drop_zero]
    simp only [List.foldl_nil, skipNotices, hkept, if_true, List.length_nil, Nat.repeat]
  | cons w ws ih =>
    have hnext : (addNotice w.id .skipped s).sl.notices = lastEight (s.sl.notices ++ [⟨s.sl.noticeNo, w.id, .skipped, s.tb.seconds⟩]) := by
      rw [addNotice_notices, lastEight, List.length_append, List.drop_append_of_le_length (by simp)]
      rfl
    have hlc : (addNotice w.id .skipped s).lc = { s.lc with links := s.lc.links.map (Link.raise .window) } := rfl
    rw [List.foldl_cons, ih _ (by rw [hnext, List.length_drop]; omega), hnext, lastEight_append, List.append_assoc, hlc]
    simp only [addNotice_noticeNo, addNotice_tb, Nat.repeat_next16, if_neg (List.cons_ne_nil w ws)]
    have hlinks : (if ws = [] then ({ s.lc with links := s.lc.links.map (Link.raise .window) } : Lc) else
        { s.lc with links := (s.lc.links.map (Link.raise .window)).map (Link.raise .window) })
        = { s.lc with links := s.lc.links.map (Link.raise .window) } := by
      split
      · rfl
      · simp only [PerLink.map, Link.raise_again]
    rw [hlinks]
    rfl

/-! ### The examination's steps (R37 to R40) -/

theorem endByTime_first {s : State} {w : WindowRec} {ws : List WindowRec} (hw : s.sl.windows = w :: ws) :
    endByTime s = { s with sl := { s.sl with
      windows := (if w.stop ≤ s.tb.seconds then w.toEnding .time else w) :: ws } } := by
  simp only [endByTime, hw]
  split
  · rfl
  · rw [← hw]

theorem WindowRec.toEnding_eq (cause : EndCause) (w : WindowRec) :
    w.toEnding cause =
      match w.life with
      | .active c => { w with life := .ending c cause }
      | .scheduled => w
      | .ending _ _ => w := by
  cases h : w.life <;> simp only [WindowRec.toEnding, h]

/-- Where every entry runs or ends, nothing is skipped. -/
theorem skipWindows_none {s : State} (h : ∀ v ∈ s.sl.windows, v.skipped s.tb.seconds = false) : skipWindows s = s := by
  have hgone : s.sl.windows.filter (WindowRec.skipped s.tb.seconds) = [] :=
    List.filter_eq_nil_iff.mpr fun v hv => by simp [h v hv]
  have hkept : (s.sl.windows.filter fun v => !v.skipped s.tb.seconds) = s.sl.windows :=
    List.filter_eq_self.mpr fun v hv => by simp [h v hv]
  simp only [skipWindows, hgone, hkept, List.foldl_nil]

theorem skipWindows_eq {s : State} (hlen : s.sl.notices.length ≤ 8) :
    let gone := s.sl.windows.filter (WindowRec.skipped s.tb.seconds)
    skipWindows s =
      { s with
        sl := { s.sl with
          windows := s.sl.windows.filter fun v => !v.skipped s.tb.seconds
          notices := lastEight (s.sl.notices ++ skipNotices s.tb.seconds s.sl.noticeNo gone)
          noticeNo := Nat.repeat next16 gone.length s.sl.noticeNo }
        lc := if gone = [] then s.lc else { s.lc with links := s.lc.links.map (Link.raise .window) } } :=
  foldl_addNotice_skipped _ _ hlen

/-- No entry is activated while one runs, or before the first one's start (R40). -/
theorem activateFirst_none {s : State}
    (h : (∃ v ∈ s.sl.windows, v.life ≠ .scheduled) ∨ ∀ v ∈ s.sl.windows.head?, s.tb.seconds < v.start) :
    activateFirst s = s := by
  unfold activateFirst
  split
  · rfl
  case h_2 w ws hw =>
    rw [if_neg]
    intro hm
    obtain ⟨-, hstart, -, -, hall⟩ := mayActivate_scheduled hm
    rcases h with ⟨v, hv, hlife⟩ | hbefore
    · exact hlife (hall v hv)
    · have := hbefore w (by rw [hw]; rfl)
      omega

/-- With no wrap due the row is the examination alone. -/
theorem exec_secondBoundary_examines {s : State} (hwrap : s.moment.wrap = none) (hexam : s.moment.exam = true)
    (hpos : Position.boundary ∉ s.moment.positions) : exec .secondBoundary s = .next (examineSecond s) :=
  congrArg Host.Outcome.next ((secondBoundaryStep_noWrap hwrap).trans (examineNow_due hexam hpos))

/-- The state that an examination finds once entries have ended and the apply point, where there is one, is taken. -/
abbrev State.examinedFrom (s : State) : State :=
  if s.sk.stack.isEmpty = false ∨ s.active.isNone = true then applyPoint false (endByTime s) else endByTime s

/-- An examination's apply point leaves the rest of the station as it is. -/
theorem examinedFrom_keeps (s : State) :
    s.examinedFrom.tb = s.tb ∧ s.examinedFrom.sl.notices = s.sl.notices ∧ s.examinedFrom.sl.noticeNo = s.sl.noticeNo
      ∧ s.examinedFrom.sl.nextId = s.sl.nextId
      ∧ s.examinedFrom.oc.output = s.oc.output ∧ s.examinedFrom.sk = s.sk ∧ s.examinedFrom.hs = s.hs
      ∧ s.examinedFrom.ns = s.ns ∧ s.examinedFrom.cl.log = s.cl.log ∧ s.examinedFrom.pins = s.pins
      ∧ s.examinedFrom.pending = s.pending := by
  unfold State.examinedFrom
  split <;> simp

theorem examineSecond_eq (s : State) :
    examineSecond s =
      { activateFirst (skipWindows s.examinedFrom) with
        moment := { (activateFirst (skipWindows s.examinedFrom)).moment with exam := false } } := rfl

theorem examinedFrom_of_queue_nil {s : State} (hq : s.cq.queue = []) : s.examinedFrom = endByTime s := by
  have happly : applyPoint false (endByTime s) = endByTime s := applyPoint_of_queue_nil false (by rw [endByTime_cq, hq])
  simp only [State.examinedFrom, happly, ite_self]

theorem examinedFrom_sameList (s : State) : (endByTime s).sameList s.examinedFrom := by
  unfold State.examinedFrom
  split
  · exact applyPoint_sameList false (endByTime s)
  · exact .inl rfl

/-- Where the first entry runs, the examination skips and activates none behind it that is not there. -/
theorem examineSecond_of_running {s : State} {v : WindowRec} (hv : s.examinedFrom.sl.windows = [v]) (hl : v.life ≠ .scheduled) :
    examineSecond s = { s.examinedFrom with moment := { s.examinedFrom.moment with exam := false } } := by
  have hskip : skipWindows s.examinedFrom = s.examinedFrom := skipWindows_none fun x hx => by
    rw [hv, List.mem_singleton] at hx
    simp [WindowRec.skipped, hx, hl]
  have hactivate : activateFirst s.examinedFrom = s.examinedFrom :=
    activateFirst_none (.inl ⟨v, by rw [hv]; exact List.mem_singleton_self v, hl⟩)
  rw [examineSecond_eq, hskip, hactivate]

/-- A single entry whose end has come leaves the list with its notice. -/
theorem examineSecond_of_passed {s : State} {w : WindowRec} (hw : s.examinedFrom.sl.windows = [w]) (hl : w.life = .scheduled)
    (hstop : w.stop ≤ s.tb.seconds) :
    let skipped := addNotice w.id .skipped { s.examinedFrom with sl := { s.examinedFrom.sl with windows := [] } }
    examineSecond s = { skipped with moment := { skipped.moment with exam := false } } := by
  have hgone : w.skipped s.examinedFrom.tb.seconds = true := by
    rw [(examinedFrom_keeps s).1]
    simp [WindowRec.skipped, hl, hstop]
  have hskip : skipWindows s.examinedFrom
      = addNotice w.id .skipped { s.examinedFrom with sl := { s.examinedFrom.sl with windows := [] } } := by
    simp only [skipWindows, hw, List.filter_cons, hgone, List.filter_nil, Bool.not_true, Bool.false_eq_true, if_true, if_false,
      List.foldl_cons, List.foldl_nil]
  rw [examineSecond_eq, hskip, activateFirst_none (.inr fun v hv => by simp at hv)]

/-- Settles O16: for one entry by what the apply point keeps, and for any list by the examination's three steps in turn. -/
theorem examinationEndsAndSkips : Obligations.ExaminationEndsAndSkips := by
  unfold Obligations.ExaminationEndsAndSkips
  refine ⟨fun s w hwrap hexam hpos hw => ⟨fun c hl hstop => ?_, fun hl hstop => ?_⟩, ?_⟩
  · have hended : endByTime s = { s with sl := { s.sl with windows := [{ w with life := .ending c .time }] } } := by
      rw [endByTime_first hw, if_pos hstop, WindowRec.toEnding_eq, hl]
    have hlist : ∃ v, s.examinedFrom.sl.windows = [v] ∧ v.life ≠ .scheduled := by
      have hsame := examinedFrom_sameList s
      rw [hended] at hsame
      rcases hsame with h | ⟨v, vs, life, hv, ht, hpart, -⟩
      · exact ⟨_, h, nofun⟩
      · obtain ⟨rfl, rfl⟩ := List.cons.inj hv
        exact ⟨_, ht, fun (h : life = _) => by rw [h] at hpart; exact absurd hpart (by simp [Life.part])⟩
    obtain ⟨v, hv, hvl⟩ := hlist
    obtain ⟨htb, hnotices, -, -, hout, hsk, hhs, hns, hlog, hpins, hpending⟩ := examinedFrom_keeps s
    refine ⟨_, (exec_secondBoundary_examines hwrap hexam hpos).trans (congrArg _ (examineSecond_of_running hv hvl)), rfl,
      hnotices, htb, hout, hsk, hhs, hns, hlog, hpins, hpending, fun hq => ?_⟩
    show s.examinedFrom.sl.windows = _
    rw [examinedFrom_of_queue_nil hq, hended]
  · have hended : endByTime s = s := by
      rw [endByTime_first hw, WindowRec.toEnding_eq, hl, ite_self, ← hw]
    have hlist : s.examinedFrom.sl.windows = [w] := by
      have hsame := examinedFrom_sameList s
      rw [hended] at hsame
      rcases hsame with h | ⟨v, vs, life, hv, ht, hpart, hact⟩
      · exact h.trans hw
      · rw [hw] at hv
        obtain ⟨rfl, rfl⟩ := List.cons.inj hv
        rw [hl] at hpart
        cases life with
        | scheduled => rw [ht, ← hl]
        | _ => exact absurd hpart (by simp [Life.part])
    obtain ⟨htb, hnotices, hno, hnextId, hout, hsk, hhs, hns, hlog, hpins, hpending⟩ := examinedFrom_keeps s
    refine ⟨_, (exec_secondBoundary_examines hwrap hexam hpos).trans (congrArg _ (examineSecond_of_passed hlist hl hstop)), rfl,
      rfl, ?_, fun l => Raises.sets (c := .window) (.of_lc rfl) l, htb, hsk, hnextId, hout, hhs, hns, hlog, hpins, hpending⟩
    refine (addNotice_notices ..).trans ?_
    show s.examinedFrom.sl.notices.drop (s.examinedFrom.sl.notices.length - 7)
      ++ [⟨s.examinedFrom.sl.noticeNo, w.id, .skipped, s.examinedFrom.tb.seconds⟩] = _
    rw [hnotices, hno, htb]
  · intro s w ws hwrap hexam hpos hw hq hlen now gone first kept skips hidle
    have hfirst : (if w.stop ≤ s.tb.seconds then w.toEnding .time else w) = first := by
      simp only [first, WindowRec.toEnding_eq]
      cases w.life <;> simp
      rfl
    have hended : endByTime s = { s with sl := { s.sl with windows := first :: ws } } := by
      rw [endByTime_first hw, hfirst]
    have hskipped : WindowRec.skipped s.tb.seconds = gone := funext fun v => (Bool.decide_and ..).symm
    have hsame : first = w ∨ gone first = false ∧ gone w = false := by
      cases hl : w.life with
      | scheduled => exact .inl (by simp only [first, hl])
      | active c =>
        refine .inr ⟨?_, by simp [gone, hl]⟩
        simp only [first, hl]
        split <;> simp [gone, hl]
      | ending c cause => exact .inl (by simp only [first, hl])
    have hgone : (first :: ws).filter gone = (w :: ws).filter gone := by
      rcases hsame with h | ⟨hfalse, hfalse'⟩
      · rw [h]
      · rw [List.filter_cons, List.filter_cons, if_neg (by rw [hfalse]; exact Bool.false_ne_true),
          if_neg (by rw [hfalse']; exact Bool.false_ne_true)]
    have hskips : skipNotices s.tb.seconds s.sl.noticeNo ((w :: ws).filter gone) = skips :=
      skipNotices_eq_zipIdx s.tb.seconds s.sl.noticeNo 0 _
    have hlength : ((w :: ws).filter gone).length = skips.length := by
      rw [← hskips, skipNotices_length]
    have hnil : (w :: ws).filter gone = [] ↔ skips = [] := by
      rw [← List.length_eq_zero_iff, hlength, List.length_eq_zero_iff]
    have hskip := skipWindows_eq (s := { s with sl := { s.sl with windows := first :: ws } }) hlen
    simp only [hskipped, hgone, hskips, hlength, hnil] at hskip
    rw [exec_secondBoundary_examines hwrap hexam hpos, examineSecond_eq, examinedFrom_of_queue_nil hq, hended, hskip,
      activateFirst_none hidle]
    simp only [lastEight, List.length_append]
    rfl

end Sys2Proof.Machine
end

