-- ==== Sys2Proof/Proofs/TickBelowLast.lean ====
section
/-! A tick below the last count (O5; R1, R2, R51, R58, R70, R109, R187, R190, R202). -/

namespace Sys2Proof.Machine

/-! ### A notice's potential code (R58, R70) -/

theorem State.phaseIn_congr {s t : State} (h : t.sl = s.sl) (w : MWindow) : t.phaseIn w = s.phaseIn w := by
  have ha : t.active = s.active := State.active_congr (congrArg Sl.windows h)
  simp only [State.phaseIn, ha, State.profileOf, h]

theorem State.windowStatus_congr {s t : State} (h : t.sl.capture = s.sl.capture) (w : MWindow) :
    t.windowStatus w = s.windowStatus w := by
  simp only [State.windowStatus, h]

/-- MU's off window after a code. -/
abbrev Mu.offTaken (m : Mu) (code : Int) : Acc × Option Int × Option Int :=
  (⟨m.offAcc.sum + code, m.offAcc.count + 1⟩,
    some (match m.offMin with | none => code | some x => min x code),
    some (match m.offMax with | none => code | some x => max x code))

theorem offerTo_mu (w : MWindow) (code : Int) (s : State) :
    (offerTo w code s).mu =
      if s.windowStatus w = some .opened ∧ s.phaseIn w = true then s.mu.accumulate w code else s.mu := by
  unfold offerTo
  split <;> rfl

/-- A code offered enters the window that is OPEN and holds the phase, and no other. -/
theorem offerCode_windows (code : Int) (s : State) :
    (offerCode code s).mu.onAcc =
        (if s.windowStatus .on = some .opened ∧ s.phaseIn .on = true then ⟨s.mu.onAcc.sum + code, s.mu.onAcc.count + 1⟩
        else s.mu.onAcc)
      ∧ ((offerCode code s).mu.offAcc, (offerCode code s).mu.offMin, (offerCode code s).mu.offMax) =
        (if s.windowStatus .off = some .opened ∧ s.phaseIn .off = true then s.mu.offTaken code
        else (s.mu.offAcc, s.mu.offMin, s.mu.offMax))
      ∧ ((offerCode code s).mu.onResult, (offerCode code s).mu.offResult) = (s.mu.onResult, s.mu.offResult) := by
  have hstatus : (offerTo .on code s).windowStatus .off = s.windowStatus .off :=
    State.windowStatus_congr (by rw [offerTo_sl]) .off
  have hphase : (offerTo .on code s).phaseIn .off = s.phaseIn .off := State.phaseIn_congr (offerTo_sl ..) .off
  rw [offerCode, offerTo_mu .off, hstatus, hphase, offerTo_mu .on]
  constructor
  · split <;> split <;> rfl
  · constructor
    · split <;> split <;> rfl
    · split <;> split <;> rfl

/-- SL's part of a notice leaves MU's windows. -/
theorem tickNotice_windows (s : State) :
    (tickNotice s).mu.onAcc = s.mu.onAcc ∧ (tickNotice s).mu.offAcc = s.mu.offAcc ∧ (tickNotice s).mu.offMin = s.mu.offMin
      ∧ (tickNotice s).mu.offMax = s.mu.offMax ∧ (tickNotice s).mu.onResult = s.mu.onResult
      ∧ (tickNotice s).mu.offResult = s.mu.offResult := by
  have hpair (n : Int) (φ : Nat) : (s.setPair n φ).mu = s.mu := by simp
  unfold tickNotice
  split
  · exact ⟨rfl, rfl, rfl, rfl, rfl, rfl⟩
  · dsimp only
    split
    · simp only [sync_mu, hpair, and_self]
    · split
      · simp only [hpair, and_self]
      · exact ⟨rfl, rfl, rfl, rfl, rfl, rfl⟩

theorem handNotice_windows (x : Samples) (s : State) :
    let t := handNotice x s
    t.mu.onAcc =
        (if s.windowStatus .on = some .opened ∧ t.phaseIn .on = true then
          ⟨s.mu.onAcc.sum + convert x.pot, s.mu.onAcc.count + 1⟩
        else s.mu.onAcc)
      ∧ (t.mu.offAcc, t.mu.offMin, t.mu.offMax) =
        (if s.windowStatus .off = some .opened ∧ t.phaseIn .off = true then s.mu.offTaken (convert x.pot)
        else (s.mu.offAcc, s.mu.offMin, s.mu.offMax))
      ∧ (t.mu.onResult, t.mu.offResult) = (s.mu.onResult, s.mu.offResult) := by
  intro t
  have hphase (w : MWindow) : t.phaseIn w = (tickNotice s).phaseIn w := State.phaseIn_congr (offerCode_sl ..) w
  have hstatus (w : MWindow) : (tickNotice s).windowStatus w = s.windowStatus w :=
    State.windowStatus_congr (tickNotice_sl_capture s) w
  obtain ⟨hon, hoff, hmin, hmax, honr, hoffr⟩ := tickNotice_windows s
  have h := offerCode_windows (convert x.pot) (tickNotice s)
  simp only [Mu.offTaken, hon, hoff, hmin, hmax, honr, hoffr, hstatus, ← hphase] at h
  exact h

/-! ### The counts of a tick (R1, R2, R109, R174, R187, R190, R202) -/

/-- The scan counts the notice, and the sums take one round of samples or none. -/
theorem Hs.notice_counts (h : Hs) (inputs : Vector Int 8) :
    (∀ n, h.scan = some n → n < 1000 →
        h.notice inputs = { h with scan := some (n + 1), sums := (h.notice inputs).sums }
          ∧ ((h.notice inputs).sums = h.sums
            ∨ (h.notice inputs).sums = Vector.ofFn fun i => h.sums.get i + min 32767 (max (-32768) (inputs.get i))))
      ∧ (h.scan = none → h.notice inputs = h) := by
  refine ⟨fun n hn hlt => ?_, fun hn => by simp only [Hs.notice, hn]⟩
  simp only [Hs.notice, hn, if_pos (show n < Config.scanTicks from hlt), true_and]
  split
  · exact .inr rfl
  · exact .inl rfl

/-- A settled state as the next tick finds it: the switch has stood, and no queue entry waits any more. -/
abbrev State.momentEnded (e : State) : State :=
  { e with
    mu := e.mu.stands e.oc.switch
    moment := { e.moment with requeued := [] } }

theorem exec_tick_counts (x : Samples) {s : State} (h : (settle s).tb.tick + 1 < 2400) :
    exec (.tick x) s = .next (countTick x (settle s).momentEnded) :=
  congrArg Host.Outcome.next (if_pos h)

/-- The tick begun and counted, its notice not yet handed to SL. -/
def State.tickBegun (x : Samples) (e : State) : State :=
  { beginMoment x (isRegulationCount (e.tb.tick + 1)) e.momentEnded with
    tb := { (beginMoment x (isRegulationCount (e.tb.tick + 1)) e.momentEnded).tb with tick := e.tb.tick + 1 } }

theorem countTick_eq (x : Samples) (e : State) : countTick x e.momentEnded = handNotice x (e.tickBegun x) := rfl

theorem countTick_windows (x : Samples) (e : State) :
    let code : Int := min 32767 (max (-32768) x.pot)
    let t := countTick x e.momentEnded
    t.mu.onAcc =
        (if e.windowStatus .on = some .opened ∧ t.phaseIn .on = true then ⟨e.mu.onAcc.sum + code, e.mu.onAcc.count + 1⟩
        else e.mu.onAcc)
      ∧ (t.mu.offAcc, t.mu.offMin, t.mu.offMax) =
        (if e.windowStatus .off = some .opened ∧ t.phaseIn .off = true then e.mu.offTaken code
        else (e.mu.offAcc, e.mu.offMin, e.mu.offMax))
      ∧ (t.mu.onResult, t.mu.offResult) = (e.mu.onResult, e.mu.offResult) :=
  handNotice_windows x (e.tickBegun x)

/-- The counts of the tick in TB, MU, HS, NS and LC. -/
theorem countTick_counts (x : Samples) (e : State) :
    let t := countTick x e.momentEnded
    t.moment.requeued = [] ∧ t.tb = { e.tb with tick := e.tb.tick + 1, edgeAge := min (e.tb.edgeAge + 1) 2402 }
      ∧ t.moment.regTick = decide ((e.tb.tick + 1) % 240 = 0)
      ∧ t.mu.iAcc = ⟨e.mu.iAcc.sum + convert x.iout, e.mu.iAcc.count + 1⟩
      ∧ t.mu.vAcc = ⟨e.mu.vAcc.sum + convert x.vout, e.mu.vAcc.count + 1⟩
      ∧ t.hs = e.hs.notice x.scan ∧ t.ns = e.ns.notice ∧ (∀ l, t.link l = (e.link l).notice)
      ∧ t.lc.lastServed = e.lc.lastServed := by
  rw [countTick_eq]
  refine ⟨handNotice_moment_requeued .., handNotice_tb .., handNotice_moment_regTick .., handNotice_mu_iAcc ..,
    handNotice_mu_vAcc .., handNotice_hs .., handNotice_ns .., fun l => ?_,
    (congrArg Lc.lastServed (handNotice_lc x (e.tickBegun x))).trans rfl⟩
  exact (congrArg (fun lc : Lc => lc.links.get l) (handNotice_lc ..)).trans (PerLink.get_map ..)

/-- What the tick leaves of the rest of the station. -/
theorem countTick_rest (x : Samples) (e : State) :
    let t := countTick x e.momentEnded
    t.oc.output = e.oc.output ∧ t.oc.rampLimit = e.oc.rampLimit ∧ t.oc.restartPending = e.oc.restartPending
      ∧ t.oc.autoRestart = e.oc.autoRestart
      ∧ t.sl.profiles = e.sl.profiles ∧ t.sl.nextId = e.sl.nextId ∧ t.sl.notices = e.sl.notices
      ∧ t.sl.noticeNo = e.sl.noticeNo ∧ t.sl.capture = e.sl.capture
      ∧ t.cl.log = e.cl.log ∧ t.cl.nextSeq = e.cl.nextSeq ∧ t.mu.cal = e.mu.cal
      ∧ t.rg = e.rg ∧ t.cq = e.cq ∧ t.sk = e.sk ∧ t.pins = e.pins ∧ t.pending = e.pending := by
  simp

/-- Settles O5: the notice is begun, counted and handed, and each block's part of it is read off. -/
theorem tickCounts : Obligations.TickCounts := by
  unfold Obligations.TickCounts
  intro x s htick
  rw [exec_tick_counts x htick]
  clear htick
  generalize settle s = e
  obtain ⟨hon, hoff, hresults⟩ := countTick_windows x e
  obtain ⟨hrequeued, htb, hreg, hiout, hvout, hhs, hns, hlink, hserved⟩ := countTick_counts x e
  obtain ⟨hscan, hidle⟩ := Hs.notice_counts e.hs x.scan
  rw [← hhs] at hscan hidle
  exact ⟨_, rfl, hon, hoff, hresults, hrequeued, htb, hreg, hiout, hvout, hscan, hidle, hns, hlink,
    hserved, countTick_rest x e⟩

end Sys2Proof.Machine
end

