-- ==== Sys2Proof/Proofs/Activation.lean ====
section
/-! The first entry activated at a second boundary (O15; R31, R37, R40, R41, R49, R53, R57). -/

namespace Sys2Proof.Machine

/-! ### A wrap with no window running -/

section IdleWrap
variable {x : Samples} {s : State}

/-- With no window running the notice of the wrap leaves SL, but for the mark of a large step. -/
theorem wrapIdle_sl (h : s.active = none) :
    (handNotice x (s.wrapped x)).sl = { s.sl with outright := false }
      ∧ (handNotice x (s.wrapped x)).moment.positions = s.moment.positions
      ∧ (handNotice x (s.wrapped x)).moment.exam = true := by
  obtain ⟨-, -, hexam, hpos, -, -⟩ := wrapped_due x s
  obtain ⟨hsl, -⟩ := wrapped_keeps x s
  have hidle : (s.wrapped x).active = none := (State.active_congr (congrArg Sl.windows hsl)).trans h
  rw [handNotice, tickNotice_idle hidle]
  refine ⟨?_, ?_, ?_⟩
  · show (offerCode _ _).sl = _
    rw [offerCode_sl, hsl]
  · show (offerCode _ _).moment.positions = _
    rw [offerCode_moment]
    exact hpos
  · show (offerCode _ _).moment.exam = _
    rw [offerCode_moment]
    exact hexam

/-- The timebase state that the examination of a wrap sees: LOST where the holdover limit has been reached (R37). -/
theorem wrapIdle_tbSettled : (handNotice x (s.wrapped x)).tbSettled =
    if (s.moment.lost = true ∨ s.tb.holdoverLimit ≤ s.tb.advanced) ∧ s.tb.state = .holdover then .lost else s.tb.state := by
  obtain ⟨-, -, -, -, -, hlost⟩ := wrapped_due x s
  have hboth : (s.wrapped x).moment.lost = true ∧ s.tb.state = .holdover ↔
      (s.moment.lost = true ∨ s.tb.holdoverLimit ≤ s.tb.advanced) ∧ s.tb.state = .holdover := by
    rw [hlost]
    exact and_congr_left fun hh => or_congr_right (and_iff_right hh)
  rw [State.tbSettled, handNotice_moment_lost, handNotice_tb, wrapped_tb]
  exact if_congr hboth rfl rfl

end IdleWrap

/-! ### The activation (R40, R41) -/

theorem mayActivate_iff {s : State} {w : WindowRec} : s.mayActivate w = true ↔
    w.life = .scheduled ∧ w.start ≤ s.tb.seconds ∧ s.tb.seconds < w.stop
      ∧ (s.tbSettled = .locked ∨ s.tbSettled = .holdover) ∧ ∀ v ∈ s.sl.windows, v.life = .scheduled := by
  simp only [State.mayActivate, Bool.and_eq_true, Bool.or_eq_true, decide_eq_true_eq, List.all_eq_true, and_assoc]

/-- The list with its first entry activated, its notice made. -/
abbrev State.entryActive (w : WindowRec) (ws : List WindowRec) (s : State) : State :=
  addNotice w.id .activated { s with sl := { s.sl with windows := { w with life := .active (s.activation w) } :: ws } }

theorem entryActive_active (w : WindowRec) (ws : List WindowRec) (s : State) :
    (s.entryActive w ws).active = some ({ w with life := .active (s.activation w) }, s.activation w) := rfl

theorem activateFirst_takes {s : State} {w : WindowRec} {ws : List WindowRec} (hw : s.sl.windows = w :: ws)
    (hm : s.mayActivate w = true) (hk : s.sk.stack = []) :
    activateFirst s =
      openCapture (s.activation w).phase (decide ((s.activation w).phase ≠ 0)) (sync (s.entryActive w ws)) := by
  have hempty : (s.sk.stack).isEmpty = true := by rw [hk]; rfl
  rw [activateFirst, hw]
  simp only [hm, if_true, hempty]
  rfl

/-- The pair of an activation: anchored at the entry's start, with cycle number 0 there (R49). -/
theorem State.activation_eq {s : State} {w : WindowRec} (htick : s.tb.tick = 0) (hstart : w.start ≤ s.tb.seconds)
    (hlt : ((s.tb.seconds : Int) - w.start) * 2400 < 5153960755200) :
    s.activation w =
      { anchorSec := w.start, anchorTick := 0, anchorCycle := 0
        cycle := ((s.tb.seconds : Int) - w.start) * 2400 / (s.profileOf w).period
        phase := (((s.tb.seconds : Int) - w.start) * 2400 % (s.profileOf w).period).toNat } := by
  have helapsed : elapsed ⟨w.start, 0, 0, 0, 0⟩ s.tb.seconds s.tb.tick = ((s.tb.seconds : Int) - w.start) * 2400 := by
    rw [htick]
    simp only [elapsed, signedDiff, Config.ticksPerSecond]
    rw [Int.bmod_eq_of_le (by simp only [Config.count32]; omega) (by simp only [Config.count32]; omega)]
    omega
  simp only [State.activation, derive, helapsed, zero_add]

/-- With nothing to end, to write or to skip the examination is the activation. -/
theorem examineSecond_activates {s : State} {w : WindowRec} {ws : List WindowRec} (hw : s.sl.windows = w :: ws)
    (hl : w.life = .scheduled) (hq : s.cq.queue = []) (hahead : ∀ v ∈ s.sl.windows, s.tb.seconds < v.stop) :
    examineSecond s = { activateFirst s with moment := { (activateFirst s).moment with exam := false } } := by
  have hended : endByTime s = s := by
    rw [endByTime_first hw, WindowRec.toEnding_eq, hl, ite_self, ← hw]
  have hskip : skipWindows s = s := skipWindows_none fun v hv => by
    simp only [WindowRec.skipped, decide_eq_false (Nat.not_le.mpr (hahead v hv)), Bool.and_false]
  rw [examineSecond_eq, examinedFrom_of_queue_nil hq, hended, hskip]

/-- What the activation gives, and what it leaves (R31, R41, R53, R57). -/
theorem activateFirst_gives {s : State} {w : WindowRec} {ws : List WindowRec} (hw : s.sl.windows = w :: ws)
    (hm : s.mayActivate w = true) (hk : s.sk.stack = []) :
    let t := activateFirst s
    t.sl.windows = { w with life := .active (s.activation w) } :: ws
      ∧ t.sl.notices =
          s.sl.notices.drop (s.sl.notices.length - 7) ++ [⟨s.sl.noticeNo, w.id, .activated, s.tb.seconds⟩]
      ∧ t.sl.noticeNo = next16 s.sl.noticeNo
      ∧ t.sl.capture.map Capture.opening = some ((s.activation w).phase, decide ((s.activation w).phase ≠ 0))
      ∧ (t.sl.demand = .opened ↔ (s.profileOf w).onT ≤ (s.activation w).phase) := by
  have hactive := entryActive_active w ws s
  rw [activateFirst_takes hw hm hk]
  refine ⟨openCapture_sl_windows .., ?_, openCapture_sl_noticeNo .., openCapture_opening (s := sync (s.entryActive w ws)) hactive .., ?_⟩
  · rw [openCapture_sl_notices]
    exact addNotice_notices ..
  · rw [openCapture_demand]
    have hphase := State.demand_iff_phase hactive hk
    exact hphase

/-- Settles O15: with no window running the wrap's notice leaves SL, and the examination activates the first entry. -/
theorem windowActivates : Obligations.WindowActivates := by
  unfold Obligations.WindowActivates
  intro x s w ws hwrap hsec hst hw hl hstart hstop hws hk hq hpos p e
  have hall : ∀ v ∈ s.sl.windows, v.life = .scheduled ∧ s.tb.seconds + 1 < v.stop := by
    rw [hw]
    exact List.forall_mem_cons.mpr ⟨⟨hl, hstop⟩, hws⟩
  let u := handNotice x (s.wrapped x)
  have htake : takeWrap s = u := takeWrap_counts hwrap (hst.imp id fun h => h.2.1)
  obtain ⟨husl, hupos, huexam⟩ := wrapIdle_sl (x := x) (active_none_of_scheduled fun v hv => (hall v hv).1)
  have hutb : u.tb = _ := (handNotice_tb x _).trans (wrapped_tb x s)
  have husec : u.tb.seconds = s.tb.seconds + 1 := by
    rw [hutb]
    exact Nat.mod_eq_of_lt (by omega)
  have huw : u.sl.windows = w :: ws := by rw [husl]; exact hw
  obtain ⟨-, hrg, hoc, hcq, hsk, hpins, hpending, hchannels, -, hmu, hlog, hns, -⟩ := wrapped_keeps x s
  have huk : u.sk = s.sk := (handNotice_sk x _).trans hsk
  have hucq : u.cq = s.cq := (handNotice_cq x _).trans hcq
  have hm : u.mayActivate w = true := by
    refine mayActivate_iff.mpr ⟨hl, by rw [husec]; exact hstart, by rw [husec]; exact hstop, ?_, fun v hv => ?_⟩
    · rw [wrapIdle_tbSettled]
      rcases hst with hlocked | ⟨hholdover, -, hlost, hlimit⟩
      · exact .inl (by rw [if_neg (by rw [hlocked]; nofun), hlocked])
      · have hbelow : ¬ s.tb.holdoverLimit ≤ s.tb.advanced := by
          rw [Tb.advanced, if_pos (.inl hholdover)]
          omega
        exact .inr (by rw [if_neg (by simp [hlost, hbelow]), hholdover])
    · rw [husl] at hv
      exact (hall v hv).1
  have hexamine : examineNow (takeWrap s) = { activateFirst u with moment := { (activateFirst u).moment with exam := false } } := by
    rw [htake, examineNow_due huexam (by rw [hupos, hpos]; exact List.not_mem_nil)]
    refine examineSecond_activates huw hl (by rw [hucq, hq]) fun v hv => ?_
    rw [husl] at hv
    rw [husec]
    exact (hall v hv).2
  obtain ⟨hwindows, hnotices, hno, hcap, hdemand⟩ := activateFirst_gives huw hm (by rw [huk, hk])
  have hprofile : u.profileOf w = p := by
    show u.sl.profiles.get w.profile = _
    rw [husl]
    rfl
  refine ⟨_, u.activation w, (exec_secondBoundary s).trans (congrArg Host.Outcome.next hexamine), hwindows, fun _ he => ?_, ?_, ?_, hcap, ?_, ?_, ?_, ?_, ?_, ?_, ?_, ?_, ?_, ?_, ?_⟩
  · have := State.activation_eq (s := u) (w := w) (by rw [hutb]) (by rw [husec]; exact hstart) (by rw [husec]; exact he)
    rw [this, hprofile, husec]
  · rw [hnotices, husl, husec]
  · rw [hno, husl]
    rfl
  · rw [hdemand, hprofile]
  · exact (activateFirst_sl_nextId u).trans (by rw [husl])
  · exact (activateFirst_cl_log u).trans ((congrArg Cl.log (handNotice_cl ..)).trans hlog)
  · exact (activateFirst_rg u).trans ((handNotice_rg ..).trans hrg)
  · exact (activateFirst_oc_output u).trans ((handNotice_oc_output ..).trans (by rw [hoc]))
  · exact (activateFirst_sk u).trans huk
  · exact (congrArg Hs.channels ((activateFirst_hs u).trans (handNotice_hs ..))).trans hchannels
  · exact (activateFirst_mu_cal u).trans ((handNotice_mu_cal ..).trans (by rw [hmu]; rfl))
  · exact (congrArg Ns.image ((activateFirst_ns u).trans (handNotice_ns ..))).trans (by rw [hns]; rfl)
  · exact (activateFirst_pins u).trans ((handNotice_pins ..).trans hpins)
  · exact (activateFirst_pending u).trans ((handNotice_pending ..).trans hpending)

end Sys2Proof.Machine
end

