-- ==== Sys2Proof/Proofs/TimelineFaults.lean ====
section
/-! The two faults of the timeline, TIMING_LOST and TIME_STEP (O13; R11, R12, R17 to R19, R63, R68, R148, R152 to R160). -/

namespace Sys2Proof.Machine

/-! ### The entry to LOST (R11, R12) -/

section Lost
variable {s : State}

/-- TB in LOST, with its TIMING event, and nothing due of it. -/
abbrev State.lostEntered (s : State) : State := enterTb .lost { s with moment := { s.moment with lost := false } }

theorem lostEntered_link (l : LinkId) : s.lostEntered.link l = (s.link l).raise .timing := raiseAll_link ..

theorem exec_enterLost_plain (hl : s.moment.lost = true) (hh : s.tb.state = .holdover)
    (hp : s.tb.lossAction = .cont ∨ s.active = none) : exec .enterLost s = .next s.lostEntered := by
  refine congrArg Host.Outcome.next ((if_pos ⟨hl, hh⟩).trans (if_neg ?_))
  rintro ⟨hsuspend, hactive⟩
  rcases hp with hp | hp
  · exact absurd (hsuspend.symm.trans hp) (by decide)
  · rw [hp] at hactive
    exact absurd hactive (by decide)

theorem exec_enterLost_suspends {w : WindowRec} {c : CyclePart} (hl : s.moment.lost = true) (hh : s.tb.state = .holdover)
    (hs : s.tb.lossAction = .suspend) (ha : s.active = some (w, c)) :
    exec .enterLost s = .next (takeFault .timingLost none s.lostEntered) :=
  congrArg Host.Outcome.next ((if_pos ⟨hl, hh⟩).trans (if_pos ⟨hs, by rw [ha]; rfl⟩))

/-- The frame of TIMING_LOST below two frames, and what each block holds after it. -/
theorem lostEntered_pushes {w : WindowRec} {c : CyclePart} (ha : s.active = some (w, c)) (hk : s.sk.stack.length < 2)
    (ho : s.oc.output ≠ .lockout) :
    let t := takeFault .timingLost none s.lostEntered
    t.tb = { s.tb with state := .lost }
      ∧ t.sk = { s.sk with
          stack :=
            { seq := s.sk.nextFrame, kind := .timingLost, sec := s.tb.seconds, tick := s.tb.tick
              output := s.oc.output.kind, mode := s.rg.set.mode, iset := s.rg.set.iset, duty := s.rg.duty
              timeline := some ⟨w.id, c.cycle, c.phase⟩, capture := none
              pendingList := s.cq.queue.map fun e => ⟨true, e⟩, continuation := .cycle } :: s.sk.stack
          nextFrame := next16 s.sk.nextFrame }
      ∧ t.cq.queue = [] ∧ t.oc.output = s.oc.output ∧ t.rg = s.rg ∧ t.hs = s.hs
      ∧ t.sl.windows = s.sl.windows ∧ t.cl.log = s.cl.log
      ∧ (∀ l, (t.link l).flags = (s.link l).flags ||| EventClass.timing.bit ||| EventClass.fault.bit)
      ∧ (CaptureLaw s → s.sk.stack = [] →
          t.sl.capture = none ∧ t.cl.assembly = none ∧ t.sl.demand = .closed ∧ t.oc.switch = .closed) := by
  intro t
  have hpush : t = pushFrame .timingLost none s.lostEntered := takeFault_push _ _ ho hk
  rw [hpush]
  refine ⟨pushFrame_tb .., ?_, pushFrame_queue .., pushFrame_output_free rfl, pushFrame_rg_free rfl, pushFrame_hs ..,
    pushFrame_sl_windows .., pushFrame_cl_log .., fun l => ?_, fun hlaw hempty =>
      ⟨pushFrame_capture hempty, pushFrame_assembly hempty fun hc => hlaw.assembly_none hc, pushFrame_demand hempty,
        pushFrame_switch hempty⟩⟩
  · rw [pushFrame_sk]
    unfold buildFrame
    rw [show s.lostEntered.active = some (w, c) from ha]
    rfl
  · rw [pushFrame_link_free rfl, Link.raise_flags, lostEntered_link]
    rfl

/-- With two frames held TIMING_LOST is LOCKOUT, the frames as they are. -/
theorem lostEntered_locksOut (hk : 2 ≤ s.sk.stack.length) (ho : s.oc.output ≠ .lockout) :
    let t := takeFault .timingLost none s.lostEntered
    t.tb = { s.tb with state := .lost } ∧ t.sk = { s.sk with lockout := some ⟨.timingLost, s.tb.seconds, s.tb.tick⟩ }
      ∧ t.oc = { s.oc with output := .lockout, switch := .closed, drive := 0 } ∧ t.rg = { s.rg with duty := 0 }
      ∧ t.cq = s.cq ∧ t.hs = s.hs ∧ t.sl.windows = s.sl.windows ∧ t.sl.capture = s.sl.capture ∧ t.cl.log = s.cl.log
      ∧ ∀ l, (t.link l).flags
          = (s.link l).flags ||| EventClass.timing.bit ||| EventClass.output.bit ||| EventClass.fault.bit := by
  refine ⟨takeFault_tb .., takeFault_full_sk (s := s.lostEntered) ho hk, takeFault_full_oc (s := s.lostEntered) ho hk,
    takeFault_full_rg (s := s.lostEntered) ho hk, takeFault_full_cq (s := s.lostEntered) ho hk, takeFault_hs ..,
    takeFault_sl_windows .., takeFault_full_capture (s := s.lostEntered) ho hk, takeFault_cl_log .., fun l => ?_⟩
  rw [takeFault_full_link (s := s.lostEntered) ho hk, Link.raise_flags, Link.raise_flags, lostEntered_link]
  rfl

/-- In LOCKOUT the record alone is replaced. -/
theorem lostEntered_inLockout (ho : s.oc.output = .lockout) :
    takeFault .timingLost none s.lostEntered =
      { s with
        tb := { s.tb with state := .lost }
        sk := { s.sk with lockout := some ⟨.timingLost, s.tb.seconds, s.tb.tick⟩ }
        lc := { s.lc with links := s.lc.links.map fun k => (k.raise .timing).raise .fault }
        moment := { s.moment with lost := false } } :=
  takeFault_lockout (s := s.lostEntered) _ _ ho

end Lost

/-! ### What an examination leaves while a window runs (R37 to R41, R61) -/

/-- The running window by its identity and its pair in progress. -/
abbrev State.running (s : State) : Option (Nat × Int × Nat) := s.active.map fun a => (a.1.id, a.2.cycle, a.2.phase)

/-- The timeline goes on from `s` to `t` with its window running: TB, SK, CL, the capture and the output stay, outputs at rest stay so,
and where nothing is queued neither RG nor the pair changes. -/
structure Continues (s t : State) : Prop where
  tb : t.tb = s.tb
  sk : t.sk = s.sk
  cl : t.cl = s.cl
  output : t.oc.output = s.oc.output
  duty : t.rg.duty = s.rg.duty
  capture : t.sl.capture = s.sl.capture
  held : s.sk.stack ≠ [] → s.oc.switch = .closed → t.oc.switch = .closed
  idle : s.oc.output.drives = false → s.oc.switch = .closed → s.oc.drive = 0 → t.oc.switch = .closed ∧ t.oc.drive = 0
  raises : Raises s t
  runs : t.active.isSome = s.active.isSome
  plain : s.cq.queue = [] → t.rg = s.rg ∧ t.cq.queue = [] ∧ t.running = s.running

theorem Continues.refl (s : State) : Continues s s :=
  ⟨rfl, rfl, rfl, rfl, rfl, rfl, fun _ h => h, fun _ h h' => ⟨h, h'⟩, .refl s, rfl, fun h => ⟨rfl, h, rfl⟩⟩

theorem Continues.trans {s t u : State} (h : Continues s t) (h' : Continues t u) : Continues s u where
  tb := h'.tb.trans h.tb
  sk := h'.sk.trans h.sk
  cl := h'.cl.trans h.cl
  output := h'.output.trans h.output
  duty := h'.duty.trans h.duty
  capture := h'.capture.trans h.capture
  held hk hs := h'.held (by rwa [h.sk]) (h.held hk hs)
  idle hd hs hv := by
    obtain ⟨hs', hv'⟩ := h.idle hd hs hv
    exact h'.idle (by rwa [h.output]) hs' hv'
  raises := h.raises.trans h'.raises
  runs := h'.runs.trans h.runs
  plain hq := by
    obtain ⟨hrg, hq', hrun⟩ := h.plain hq
    obtain ⟨hrg', hq'', hrun'⟩ := h'.plain hq'
    exact ⟨hrg'.trans hrg, hq'', hrun'.trans hrun⟩

/-- Where only windows, notices and links change, the running window and its pair decide. -/
theorem Continues.of_rest {s t : State} (htb : t.tb = s.tb) (hsk : t.sk = s.sk) (hcl : t.cl = s.cl) (hoc : t.oc = s.oc)
    (hrg : t.rg = s.rg) (hcq : t.cq = s.cq) (hcapture : t.sl.capture = s.sl.capture) (hraises : Raises s t)
    (hrun : t.running = s.running) : Continues s t where
  tb := htb
  sk := hsk
  cl := hcl
  output := by rw [hoc]
  duty := by rw [hrg]
  capture := hcapture
  held _ h := by rwa [hoc]
  idle _ h h' := by rw [hoc]; exact ⟨h, h'⟩
  raises := hraises
  runs := by
    have := congrArg Option.isSome hrun
    simpa only [State.running, Option.isSome_map] using this
  plain h := ⟨hrg, by rw [hcq, h], hrun⟩

theorem WindowRec.toEnding_keeps (w : WindowRec) (cause : EndCause) :
    (w.toEnding cause).id = w.id ∧ (w.toEnding cause).life.part = w.life.part := by
  cases h : w.life <;> simp [WindowRec.toEnding, h, Life.part]

theorem endByTime_running (s : State) : (endByTime s).running = s.running := by
  unfold endByTime
  split
  · rfl
  next w ws hw =>
    split
    · obtain ⟨hid, hpart⟩ := w.toEnding_keeps .time
      simp only [State.running, State.active, hw, activeOf, hpart, Option.map_map, Function.comp_def, hid]
    · rfl

theorem endByTime_continues (s : State) : Continues s (endByTime s) :=
  .of_rest (endByTime_tb s) (endByTime_sk s) (endByTime_cl s) (endByTime_oc s) (endByTime_rg s) (endByTime_cq s)
    (endByTime_sl_capture s) (endByTime_raises s) (endByTime_running s)

/-- A running window is the first of the list and not SCHEDULED. -/
theorem State.first_runs {s : State} (h : s.active.isSome = true) : ∃ w ws, s.sl.windows = w :: ws ∧ w.life ≠ .scheduled := by
  obtain ⟨⟨w, c⟩, hwc⟩ := Option.isSome_iff_exists.mp h
  obtain ⟨ws, hw, hpart⟩ := State.active_eq_some.mp hwc
  exact ⟨w, ws, hw, fun hl => by rw [hl] at hpart; cases hpart⟩

theorem skipWindows_continues {s : State} (h : s.active.isSome = true) : Continues s (skipWindows s) := by
  obtain ⟨w, ws, hw, hl⟩ := State.first_runs h
  refine .of_rest (skipWindows_tb s) (skipWindows_sk s) (skipWindows_cl s) (skipWindows_oc s) (skipWindows_rg s) (skipWindows_cq s)
    (skipWindows_sl_capture s) (skipWindows_raises s) ?_
  have hkept : w.skipped s.tb.seconds = false := by simp [WindowRec.skipped, hl]
  simp only [State.running, State.active, skipWindows_windows, hw, List.filter_cons, hkept, Bool.not_false, if_true, activeOf]

theorem activateFirst_running {s : State} (h : s.active.isSome = true) : activateFirst s = s := by
  obtain ⟨w, ws, hw, hl⟩ := State.first_runs h
  exact activateFirst_none (.inl ⟨w, by rw [hw]; exact List.mem_cons_self, hl⟩)

theorem sync_held {s : State} (h : s.sk.stack ≠ []) : (sync s).oc.switch = .closed := by
  rw [sync_switch, State.wantsOpen_held h]
  rfl

/-- A re-anchoring drives the outputs of the state it leaves; with no window running there is none. -/
theorem reanchor_outputs (b : Bool) (s : State) :
    (reanchor b s).oc = s.oc ∨ ∃ u, u.sk = s.sk ∧ u.oc = s.oc ∧ (reanchor b s).oc = (sync u).oc := by
  unfold reanchor
  split
  · exact .inl rfl
  · refine .inr ⟨_, ?_, ?_, rfl⟩ <;> rfl

/-- An apply point leaves the outputs, or drives them once where it re-anchors the window. -/
theorem applyPoint_outputs (b : Bool) (s : State) :
    (applyPoint b s).oc = s.oc ∨ ∃ u, u.sk = s.sk ∧ u.oc = s.oc ∧ (applyPoint b s).oc = (sync u).oc := by
  unfold applyPoint
  dsimp only
  split
  · exact .inl rfl
  · rw [raiseAll_oc]
    split
    · rcases reanchor_outputs b { (s.cq.queue.filter fun e => !s.waits e).foldl (fun t e => applyEntry e t) s with
        cq := { queue := s.cq.queue.filter s.waits } } with h | ⟨u, hsk, hoc, h⟩
      · exact .inl (h.trans (applyEntries_oc _ s))
      · exact .inr ⟨u, hsk.trans (applyEntries_sk _ s), hoc.trans (applyEntries_oc _ s), h⟩
    · exact .inl (applyEntries_oc _ s)

theorem applyPoint_continues (b : Bool) (s : State) : Continues s (applyPoint b s) where
  tb := by simp
  sk := by simp
  cl := by simp
  output := by simp
  duty := applyPoint_duty b s
  capture := by simp
  held hk hs := by
    rcases applyPoint_outputs b s with h | ⟨u, hsk, -, h⟩
    · rw [h, hs]
    · rw [h, sync_held (by rwa [hsk])]
  idle hd hs hv := by
    rcases applyPoint_outputs b s with h | ⟨u, -, hoc, h⟩
    · rw [h]
      exact ⟨hs, hv⟩
    · rw [h]
      exact sync_quiet (by rwa [hoc])
  raises := applyPoint_raises s b
  runs := (applyPoint_sameList b s).active
  plain h := by rw [applyPoint_of_queue_nil b h]; exact ⟨rfl, h, rfl⟩

/-- With a window running an examination ends and skips, applies what is queued where it may, and activates none. -/
theorem examineSecond_continues {s : State} (h : s.active.isSome = true) : Continues s (examineSecond s) := by
  have hended : Continues s (endByTime s) := endByTime_continues s
  have happlied : Continues s s.examinedFrom := by
    unfold State.examinedFrom
    split
    · exact hended.trans (applyPoint_continues false _)
    · exact hended
  have hskipped := happlied.trans (skipWindows_continues (s := s.examinedFrom) (happlied.runs.trans h))
  rw [examineSecond_eq, activateFirst_running (hskipped.runs.trans h)]
  exact hskipped.trans (.of_rest rfl rfl rfl rfl rfl rfl rfl (.of_lc rfl) rfl)

theorem examineNow_continues {s : State} (h : s.active.isSome = true) : Continues s (examineNow s) := by
  unfold examineNow
  split
  · exact examineSecond_continues h
  · exact .refl s

theorem examineStep_continues {s : State} (h : s.active.isSome = true) : Continues s (examineStep s) := by
  have hended := endByTime_continues s
  have hskipped := hended.trans (skipWindows_continues (hended.runs.trans h))
  rw [examineStep, activateFirst_running (hskipped.runs.trans h)]
  exact hskipped

/-- The code of a notice touches MU alone. -/
theorem offered_continues (code : Int) (s : State) :
    Continues s { offerCode code s with moment := { (offerCode code s).moment with tickCode := some code } } := by
  refine .of_rest (offerCode_tb ..) (offerCode_sk ..) (offerCode_cl ..) (offerCode_oc ..) (offerCode_rg ..) (offerCode_cq ..)
    (congrArg Sl.capture (offerCode_sl ..)) (.of_lc (offerCode_lc ..)) ?_
  show (offerCode code s).running = s.running
  rw [State.running, State.active_congr (congrArg Sl.windows (offerCode_sl code s))]

/-! ### A pair taken outright (R68) -/

theorem elapsed_second (c : CyclePart) (sec : Nat) :
    elapsed c sec 0 = Int.bmod ((sec : Int) - c.anchorSec) 4294967296 * 2400 - c.anchorTick := by
  simp only [elapsed, signedDiff, Config.count32, Config.ticksPerSecond]
  omega

/-- After a large step SL's notice takes the pair of the new time, whatever the pair in progress. -/
theorem tickNotice_outright {s : State} {w : WindowRec} {c : CyclePart} (ha : s.active = some (w, c)) (ho : s.sl.outright = true) :
    tickNotice s =
      let pair := derive (s.profileOf w) c s.tb.seconds s.tb.tick
      sync { s.setPair pair.1 pair.2 with sl := { (s.setPair pair.1 pair.2).sl with outright := false } } := by
  simp only [tickNotice, ha, ho, if_true]

theorem setPair_running {s : State} {w : WindowRec} {c : CyclePart} (ha : s.active = some (w, c)) (n : Int) (φ : Nat) :
    (s.setPair n φ).running = some (w.id, n, φ) := by
  rw [State.running, setPair_active ha]
  rfl

theorem tickNotice_running {s : State} {w : WindowRec} {c : CyclePart} (ha : s.active = some (w, c)) (ho : s.sl.outright = true) :
    (tickNotice s).running = some (w.id, derive (s.profileOf w) c s.tb.seconds s.tb.tick) := by
  rw [tickNotice_outright ha ho]
  exact setPair_running ha _ _

theorem tickNotice_outputs {s : State} {w : WindowRec} {c : CyclePart} (ha : s.active = some (w, c)) (ho : s.sl.outright = true) :
    (s.sk.stack ≠ [] → (tickNotice s).oc.switch = .closed)
      ∧ (s.oc.output.drives = false → (tickNotice s).oc.switch = .closed ∧ (tickNotice s).oc.drive = 0) := by
  rw [tickNotice_outright ha ho]
  refine ⟨fun hk => sync_held ?_, fun hd => sync_quiet ?_⟩
  · simpa using hk
  · simpa using hd

/-! ### TIME_STEP (R19, R63, R68, R152 to R160) -/

theorem takeFault_sets_fault (kind : FaultKind) (cap : Option CapturePart) {s t : State} (ht : Raises (takeFault kind cap s) t)
    (l : LinkId) : (t.link l).flags &&& EventClass.fault.bit = EventClass.fault.bit := by
  by_cases hlock : s.oc.output = .lockout
  · rw [takeFault_lockout kind cap hlock] at ht
    exact ht.sets l
  · by_cases hfull : 2 ≤ s.sk.stack.length
    · rw [takeFault_full kind cap hlock hfull] at ht
      exact ht.sets l
    · rw [takeFault_push kind cap hlock (by omega), pushFrame_eq] at ht
      exact ht.sets l

/-- TIME_STEP taken: the next notice takes the pair outright. -/
abbrev State.stepTaken (n : State) : State :=
  { takeFault .timeStep none n with sl := { (takeFault .timeStep none n).sl with outright := true } }

section Step
variable {n : State} {w : WindowRec} {c : CyclePart} (ha : n.active = some (w, c))
include ha

theorem stepTaken_active : n.stepTaken.active = some (w, c) :=
  (State.active_congr (takeFault_sl_windows ..)).trans ha

omit ha in
theorem stepTaken_profileOf : n.stepTaken.profileOf w = n.profileOf w := by
  show (takeFault .timeStep none n).sl.profiles.get _ = _
  rw [takeFault_sl_profiles]
  rfl

/-- SL's notice after TIME_STEP: SK, RG, CQ and the capture as the fault left them, the pair that of the new time. -/
theorem stepNoticed :
    let u := tickNotice n.stepTaken
    let f := takeFault .timeStep none n
    u.sk = f.sk ∧ u.rg = f.rg ∧ u.cq = f.cq ∧ u.cl = f.cl ∧ u.oc.output = f.oc.output ∧ u.sl.capture = f.sl.capture
      ∧ u.running = some (w.id, derive (n.profileOf w) c n.tb.seconds n.tb.tick) ∧ u.active.isSome = true := by
  refine ⟨tickNotice_sk .., tickNotice_rg .., tickNotice_cq .., tickNotice_cl .., tickNotice_oc_output ..,
    tickNotice_sl_capture .., ?_, ?_⟩
  · rw [tickNotice_running (stepTaken_active ha) rfl, stepTaken_profileOf]
    show some (w.id, derive (n.profileOf w) c (takeFault .timeStep none n).tb.seconds (takeFault .timeStep none n).tb.tick) = _
    rw [takeFault_tb]
  · rw [(tickNotice_sameList n.stepTaken).active, stepTaken_active ha]
    rfl

end Step

/-- What the notices of the fault find: the state of `s` with the time T in force. -/
structure StepNamed (s n : State) (T : Nat) : Prop where
  sec : n.tb.seconds = T
  tick : n.tb.tick = 0
  sk : n.sk = s.sk
  oc : n.oc = s.oc
  rg : n.rg = s.rg
  cq : n.cq = s.cq
  sl : n.sl = s.sl
  assembly : s.cl.assembly = none → n.cl.assembly = none

section StepFaults
variable {s n t : State} {w : WindowRec} {c : CyclePart} {T : Nat} (hn : StepNamed s n T) (ha : s.active = some (w, c))
  (ht : Continues (tickNotice n.stepTaken) t)
include hn ha

omit ht in
theorem StepNamed.active : n.active = some (w, c) := (State.active_congr (congrArg Sl.windows hn.sl)).trans ha

omit ha in
theorem StepNamed.profileOf : n.profileOf w = s.profileOf w := by rw [State.profileOf, hn.sl]; rfl

include ht

/-- SK and CQ after the fault and what follows it. -/
theorem stepFaults_rest :
    t.sk = (takeFault .timeStep none n).sk ∧ t.oc.output = (takeFault .timeStep none n).oc.output
      ∧ t.rg.duty = (takeFault .timeStep none n).rg.duty ∧ t.cl = (takeFault .timeStep none n).cl
      ∧ t.sl.capture = (takeFault .timeStep none n).sl.capture
      ∧ ((takeFault .timeStep none n).cq.queue = [] → t.rg = (takeFault .timeStep none n).rg ∧ t.cq.queue = []) := by
  obtain ⟨hsk, hrg, hcq, hcl, hout, hcap, -, -⟩ := stepNoticed (hn.active ha)
  refine ⟨ht.sk.trans hsk, ht.output.trans hout, ht.duty.trans (by rw [hrg]), ht.cl.trans hcl, ht.capture.trans hcap, fun hq => ?_⟩
  obtain ⟨hrg', hq', -⟩ := ht.plain (by rw [hcq, hq])
  exact ⟨hrg'.trans hrg, hq'⟩

/-- Below two frames: the frame, the queue in it, the output and RG going on, and on an empty stack the capture discarded. -/
theorem stepFaults_pushes (hk : s.sk.stack.length < 2) (ho : s.oc.output ≠ .lockout) :
    t.sk = { s.sk with
      stack :=
        { seq := s.sk.nextFrame, kind := .timeStep, sec := T, tick := 0, output := s.oc.output.kind,
          mode := s.rg.set.mode, iset := s.rg.set.iset, duty := s.rg.duty, timeline := some ⟨w.id, c.cycle, c.phase⟩,
          capture := none, pendingList := s.cq.queue.map fun e => ⟨true, e⟩, continuation := .cycle } :: s.sk.stack
      nextFrame := next16 s.sk.nextFrame }
      ∧ t.cq.queue = [] ∧ t.oc.output = s.oc.output ∧ t.rg = s.rg
      ∧ (CaptureLaw s → s.sk.stack = [] → t.sl.capture = none ∧ t.cl.assembly = none ∧ t.oc.switch = .closed) := by
  obtain ⟨hsk, hout, -, hcl, hcap, hplain⟩ := stepFaults_rest hn ha ht
  have hpush : takeFault .timeStep none n = pushFrame .timeStep none n :=
    takeFault_push _ _ (by rwa [hn.oc]) (by rwa [hn.sk])
  rw [hpush] at hsk hout hcl hcap hplain
  obtain ⟨hrg, hq⟩ := hplain (pushFrame_queue ..)
  refine ⟨?_, hq, hout.trans ((pushFrame_output_free rfl).trans (by rw [hn.oc])),
    hrg.trans ((pushFrame_rg_free rfl).trans hn.rg), fun hlaw hempty => ?_⟩
  · rw [hsk, pushFrame_sk]
    unfold buildFrame
    rw [hn.active ha, hn.sk, hn.oc, hn.rg, hn.cq, hn.sec, hn.tick]
    rfl
  · have hstack : n.sk.stack = [] := by rw [hn.sk, hempty]
    refine ⟨hcap.trans (pushFrame_capture hstack), (congrArg Cl.assembly hcl).trans (pushFrame_assembly hstack fun hc => ?_), ?_⟩
    · rw [hn.sl] at hc
      exact hn.assembly (hlaw.assembly_none hc)
    · have hheld : n.stepTaken.sk.stack ≠ [] := by
        show (takeFault .timeStep none n).sk.stack ≠ []
        rw [hpush, pushFrame_sk]
        exact List.cons_ne_nil _ _
      exact ht.held (by rw [tickNotice_sk]; exact hheld)
        ((tickNotice_outputs (stepTaken_active (hn.active ha)) rfl).1 hheld)

/-- With two frames held: LOCKOUT, the outputs at rest. -/
theorem stepFaults_locksOut (hk : 2 ≤ s.sk.stack.length) (ho : s.oc.output ≠ .lockout) :
    t.sk = { s.sk with lockout := some ⟨.timeStep, T, 0⟩ } ∧ t.oc.output = .lockout ∧ t.oc.switch = .closed
      ∧ t.oc.drive = 0 ∧ t.rg.duty = 0 ∧ ∀ l, (t.link l).flags &&& EventClass.output.bit = EventClass.output.bit := by
  obtain ⟨hsk, hout, hduty, -⟩ := stepFaults_rest hn ha ht
  have hno : n.oc.output ≠ .lockout := by rwa [hn.oc]
  have hnk : 2 ≤ n.sk.stack.length := by rwa [hn.sk]
  have hlock : n.stepTaken.oc.output.drives = false := by
    show (takeFault .timeStep none n).oc.output.drives = false
    rw [takeFault_full_oc hno hnk]
    rfl
  obtain ⟨hswitch, hdrive⟩ := (tickNotice_outputs (stepTaken_active (hn.active ha)) rfl).2 hlock
  obtain ⟨hswitch', hdrive'⟩ := ht.idle (by rw [tickNotice_oc_output]; exact hlock) hswitch hdrive
  refine ⟨?_, ?_, hswitch', hdrive', ?_, fun l => ?_⟩
  · rw [hsk, takeFault_full_sk hno hnk, hn.sk, hn.sec, hn.tick]
  · rw [hout, takeFault_full_oc hno hnk]
  · rw [hduty, takeFault_full_rg hno hnk]
  · have hraises : Raises (takeFault .timeStep none n) t := ((Raises.of_lc rfl).trans (tickNotice_raises n.stepTaken)).trans ht.raises
    refine hraises.keeps_flag ?_
    rw [takeFault_full_link hno hnk]
    exact Link.raise_keeps _ _ (Link.raise_sets ..)

/-- In LOCKOUT: the record replaced. -/
theorem stepFaults_inLockout (ho : s.oc.output = .lockout) :
    t.sk = { s.sk with lockout := some ⟨.timeStep, T, 0⟩ } ∧ t.oc.output = .lockout := by
  obtain ⟨hsk, hout, -⟩ := stepFaults_rest hn ha ht
  have hlock := takeFault_lockout .timeStep none (s := n) (by rw [hn.oc, ho])
  rw [hlock, raiseAll_sk] at hsk
  rw [hlock, raiseAll_oc] at hout
  refine ⟨?_, hout.trans (by rw [← ho, ← hn.oc])⟩
  rw [hsk, hn.sk, hn.sec, hn.tick]

/-- The pair of the new time is in progress, where the queue waits for no apply point of the moment. -/
theorem stepFaults_pair (hq : s.sk.stack.length < 2 ∧ s.oc.output ≠ .lockout ∨ s.cq.queue = []) :
    t.running = some (w.id, c.anchorCycle
        + (Int.bmod ((T : Int) - c.anchorSec) 4294967296 * 2400 - c.anchorTick) / (s.profileOf w).period,
      ((Int.bmod ((T : Int) - c.anchorSec) 4294967296 * 2400 - c.anchorTick) % (s.profileOf w).period).toNat) := by
  obtain ⟨-, -, hcq, -, -, -, hrun, -⟩ := stepNoticed (hn.active ha)
  have hqueue : (takeFault .timeStep none n).cq.queue = [] := by
    rcases hq with ⟨hk, ho⟩ | hq
    · rw [takeFault_push _ _ (by rwa [hn.oc]) (by rwa [hn.sk])]
      exact pushFrame_queue ..
    · exact takeFault_queue_nil _ _ (by rw [hn.cq, hq])
  obtain ⟨-, -, hpair⟩ := ht.plain (by rw [hcq, hqueue])
  rw [hpair, hrun, hn.profileOf, hn.sec, hn.tick, derive, elapsed_second]

/-- TIME_STEP and what follows it is what the statement says of it. -/
theorem stepFaults_of_continues : s.stepFaults t w c T := by
  refine ⟨stepFaults_pushes hn ha ht, stepFaults_locksOut hn ha ht, stepFaults_inLockout hn ha ht,
    takeFault_sets_fault .timeStep none (((Raises.of_lc rfl).trans (tickNotice_raises n.stepTaken)).trans ht.raises),
    stepFaults_pair hn ha ht⟩

end StepFaults

/-! ### The states on which TIME_STEP is raised (R16 to R19) -/

/-- Naming a staged time changes TB and the links alone. -/
theorem timeNamed_rest (atEdge : Bool) (st : StagedTime) (s : State) :
    let n := s.timeNamed atEdge st
    n.sl = s.sl ∧ n.oc = s.oc ∧ n.rg = s.rg ∧ n.cq = s.cq ∧ n.sk = s.sk ∧ n.cl = s.cl ∧ n.moment = s.moment := by
  intro n
  have hn : n = s.timeNamed atEdge st := rfl
  unfold State.timeNamed at hn
  split at hn <;> rw [hn] <;> exact ⟨rfl, rfl, rfl, rfl, rfl, rfl, rfl⟩

/-- A staged time more than 1 s away raises TIME_STEP where a window runs. -/
theorem applyStaged_steps {s : State} {atEdge : Bool} {st : StagedTime} (h : s.tb.staged = some st)
    (ha : s.active.isSome = true) (hfar : st.value + 1 < s.tb.seconds ∨ s.tb.seconds + 1 < st.value) :
    applyStaged atEdge s = (s.timeNamed atEdge st).stepTaken := by
  have hactive : (s.timeNamed atEdge st).active.isSome = true := by
    rw [State.active_congr (congrArg Sl.windows (timeNamed_rest atEdge st s).1), ha]
  rw [applyStaged_some h]
  dsimp only
  rw [if_neg (by omega), if_neg (by omega), if_pos hactive]

theorem wrapped_assembly {s : State} (x : Samples) (h : s.cl.assembly = none) : (s.wrapped x).cl.assembly = none := by
  rw [State.wrapped, markSecond_cl, advanceHoldover_cl]
  show s.cl.assembly.map _ = none
  rw [h]
  rfl

/-- At the wrap the fault finds the state of before but for TB and the marks of the new second. -/
theorem wrap_stepNamed {s : State} (x : Samples) (st : StagedTime) :
    StepNamed s ((s.wrapped x).timeNamed false st) st.value := by
  obtain ⟨hsl, hoc, hrg, hcq, hsk, hcl, -⟩ := timeNamed_rest false st (s.wrapped x)
  obtain ⟨hsl', hrg', hoc', hcq', hsk', -⟩ := wrapped_keeps x s
  exact ⟨by rw [timeNamed_tb], by rw [timeNamed_tb], hsk.trans hsk', hoc.trans hoc', hrg.trans hrg', hcq.trans hcq', hsl.trans hsl',
    fun h => by rw [hcl, wrapped_assembly x h]⟩

/-- At an edge with nothing due for MU and HS, only TB, the links and the marks of the moment change before the staged time. -/
theorem edgeLocked_rest {s : State} (c : Nat) (hreg : s.moment.regTick = false) (hscan : s.scanDue = false) :
    let k := s.edgeLocked c
    k.sl = s.sl ∧ k.oc = s.oc ∧ k.rg = s.rg ∧ k.cq = s.cq ∧ k.sk = s.sk ∧ k.cl = s.cl ∧ k.hs.channels = s.hs.channels
      ∧ k.moment.positions = s.moment.positions ∧ (¬ 2398 ≤ c → k.moment.exam = s.moment.exam) := by
  have hcorrected : s.edgeCorrected c =
      if 2398 ≤ c then markSecond { s.edgeRecorded c with
        tb := { (s.edgeRecorded c).tb with tick := 0, seconds := next32 (s.edgeRecorded c).tb.seconds } }
      else { s.edgeRecorded c with tb := { (s.edgeRecorded c).tb with tick := 0 } } := by
    have hscanned : (s.edgeRecorded c).scanned = s.edgeRecorded c := if_neg (by rw [show (s.edgeRecorded c).scanDue = false from hscan]; decide)
    have hticked : (s.edgeRecorded c).ticked = s.edgeRecorded c := if_neg (by rw [show (s.edgeRecorded c).moment.regTick = false from hreg]; decide)
    rw [State.edgeCorrected, boundaryAtEdge_eq, hscanned, hticked]
    by_cases h : 2398 ≤ c <;> simp [h]
  have hrest : (s.edgeCorrected c).sl = s.sl ∧ (s.edgeCorrected c).oc = s.oc ∧ (s.edgeCorrected c).rg = s.rg
      ∧ (s.edgeCorrected c).cq = s.cq ∧ (s.edgeCorrected c).sk = s.sk ∧ (s.edgeCorrected c).cl = s.cl
      ∧ (s.edgeCorrected c).hs.channels = s.hs.channels ∧ (s.edgeCorrected c).moment.positions = s.moment.positions
      ∧ (¬ 2398 ≤ c → (s.edgeCorrected c).moment.exam = s.moment.exam) := by
    rw [hcorrected]
    split
    case isTrue h => exact ⟨rfl, rfl, rfl, rfl, rfl, rfl, rfl, rfl, fun h' => absurd h h'⟩
    case isFalse => exact ⟨rfl, rfl, rfl, rfl, rfl, rfl, rfl, rfl, fun _ => rfl⟩
  have hlocked : (s.edgeLocked c).sl = (s.edgeCorrected c).sl ∧ (s.edgeLocked c).oc = (s.edgeCorrected c).oc
      ∧ (s.edgeLocked c).rg = (s.edgeCorrected c).rg ∧ (s.edgeLocked c).cq = (s.edgeCorrected c).cq
      ∧ (s.edgeLocked c).sk = (s.edgeCorrected c).sk ∧ (s.edgeLocked c).cl = (s.edgeCorrected c).cl
      ∧ (s.edgeLocked c).moment.positions = (s.edgeCorrected c).moment.positions
      ∧ (s.edgeLocked c).moment.exam = (s.edgeCorrected c).moment.exam := by
    unfold State.edgeLocked
    split <;> exact ⟨rfl, rfl, rfl, rfl, rfl, rfl, rfl, rfl⟩
  obtain ⟨hsl, hoc, hrg, hcq, hsk, hcl, hpos, hexam⟩ := hlocked
  intro k
  rw [show k.sl = _ from hsl, show k.oc = _ from hoc, show k.rg = _ from hrg, show k.cq = _ from hcq, show k.sk = _ from hsk,
    show k.cl = _ from hcl, show k.moment.positions = _ from hpos, show k.moment.exam = _ from hexam,
    show k.hs = _ from edgeLocked_hs c s]
  exact hrest

theorem edge_stepNamed {s : State} (c : Nat) (st : StagedTime) (hreg : s.moment.regTick = false) (hscan : s.scanDue = false) :
    StepNamed s ((s.edgeLocked c).timeNamed true st) st.value := by
  obtain ⟨hsl, hoc, hrg, hcq, hsk, hcl, -⟩ := timeNamed_rest true st (s.edgeLocked c)
  obtain ⟨hsl', hoc', hrg', hcq', hsk', hcl', -⟩ := edgeLocked_rest c hreg hscan
  exact ⟨by rw [timeNamed_tb], by rw [timeNamed_tb], hsk.trans hsk', hoc.trans hoc', hrg.trans hrg', hcq.trans hcq', hsl.trans hsl',
    fun h => by rw [hcl, hcl', h]⟩

/-- With TIME_STEP taken, SL's notice at an edge leaves the positions and the examination as they were. -/
theorem stepNotice_moment {n : State} {w : WindowRec} {c : CyclePart} (ha : n.active = some (w, c)) :
    (tickNotice n.stepTaken).moment = n.moment := by
  rw [tickNotice_outright (stepTaken_active ha) rfl, sync_moment]
  show (State.setPair _ _ _).moment = _
  rw [State.setPair_moment]
  exact takeFault_moment ..

/-- At an edge TIME_STEP is followed by SL's notice and, where no second begins, by its examination. -/
theorem exec_pulseEdge_steps {s : State} {st : StagedTime} {w : WindowRec} {c : CyclePart} (hst : s.tb.staged = some st)
    (ha : s.active = some (w, c)) (hdone : s.timelineDone) (hlost : s.moment.lost = false) (hreg : s.moment.regTick = false)
    (hscan : s.scanDue = false)
    (hband : (s.tb.tick = 2398 ∨ s.tb.tick = 2399) ∧ s.tb.seconds < 4294967295
        ∧ (st.value + 1 < s.tb.seconds + 1 ∨ s.tb.seconds + 2 < st.value)
      ∨ s.tb.tick ≤ 2 ∧ s.tb.state = .locked ∧ (st.value + 1 < s.tb.seconds ∨ s.tb.seconds + 1 < st.value)) :
    let n := (s.edgeLocked s.tb.tick).timeNamed true st
    ∃ t, exec .pulseEdge s = .next t ∧ Continues (tickNotice n.stepTaken) t
      ∧ applyStaged true (s.edgeLocked s.tb.tick) = n.stepTaken
      ∧ t.hs = (s.edgeLocked s.tb.tick).hs ∧ t.mu.cal = (s.edgeLocked s.tb.tick).mu.cal := by
  intro n
  have hexec := exec_pulseEdge_point hst hlost (by
    rcases hband with ⟨h | h, -⟩ | ⟨h, hl, -⟩
    exacts [.inl h, .inr (.inl h), .inr (.inr ⟨h, hl⟩)])
  rw [finishTimeline_done hdone.1 hdone.2] at hexec
  have hnamed := edge_stepNamed s.tb.tick st hreg hscan
  obtain ⟨hsl, -, -, -, -, -, -, hpos, hexam⟩ := edgeLocked_rest s.tb.tick hreg hscan
  have hstep : applyStaged true (s.edgeLocked s.tb.tick) = n.stepTaken := by
    refine applyStaged_steps (by rw [edgeLocked_tb, hst]) ?_ ?_
    · rw [State.active_congr (congrArg Sl.windows hsl), ha]
      rfl
    · rw [edgeLocked_tb]
      rcases hband with ⟨hb, hsec, hfar⟩ | ⟨hb, -, hfar⟩
      · dsimp only
        rw [if_pos (by omega), Nat.mod_eq_of_lt (by omega)]
        omega
      · dsimp only
        rw [if_neg (by omega)]
        exact hfar
  have hhs : (tickNotice n.stepTaken).hs = (s.edgeLocked s.tb.tick).hs := by rw [tickNotice_hs, ← hstep, applyStaged_hs]
  have hcal : (tickNotice n.stepTaken).mu.cal = (s.edgeLocked s.tb.tick).mu.cal := by
    rw [tickNotice_mu_cal, ← hstep, applyStaged_mu_cal]
  rw [hstep] at hexec
  by_cases hc : 2398 ≤ s.tb.tick
  · rw [if_pos hc] at hexec
    exact ⟨_, hexec, .refl _, hstep, hhs, hcal⟩
  · have hruns : (tickNotice n.stepTaken).active.isSome = true :=
      (stepNoticed (hnamed.active ha)).2.2.2.2.2.2.2
    have hmoment : (examineStep (tickNotice n.stepTaken)).moment = (s.edgeLocked s.tb.tick).moment := by
      rw [examineStep_moment, stepNotice_moment (hnamed.active ha)]
      exact (timeNamed_rest true st _).2.2.2.2.2.2
    rw [if_neg hc, finishTimeline_done (by rw [hmoment, hpos, hdone.1]) (by rw [hmoment, hexam hc, hdone.2])] at hexec
    exact ⟨_, hexec, examineStep_continues hruns, hstep, (examineStep_hs _).trans hhs, (examineStep_mu_cal _).trans hcal⟩

/-- Settles O13: the entry to LOST by its three cases, and TIME_STEP at the wrap and at the edge with what follows it. -/
theorem timelineFaultsTaken : Obligations.TimelineFaultsTaken := by
  unfold Obligations.TimelineFaultsTaken
  refine ⟨fun s hh hl => ⟨exec_enterLost_plain hl hh, fun w c hs ha => ?lost⟩,
    fun x s st w c hwrap hstate hst ha hsec hfar => ?wrap,
    fun s st w c hst ha hdone hlost hreg hscan hband => ?edge⟩
  case lost =>
    have hexec := exec_enterLost_suspends hl hh hs ha
    exact ⟨fun hk ho => ⟨_, hexec, lostEntered_pushes ha hk ho⟩, fun hk ho => ⟨_, hexec, lostEntered_locksOut hk ho⟩,
      fun ho => hexec.trans (congrArg _ (lostEntered_inLockout ho))⟩
  case wrap =>
    have hl : s.tb.state ≠ .locked := by rcases hstate with h | h <;> rw [h] <;> decide
    let n := (s.wrapped x).timeNamed false st
    have hnamed := wrap_stepNamed (s := s) x st
    obtain ⟨hsl, -, -, -, -, hpins, hpending, hchannels, -, hmu, hlog, hns, -⟩ := wrapped_keeps x s
    have hstep : applyStaged false (s.wrapped x) = n.stepTaken := by
      refine applyStaged_steps (by rw [wrapped_tb, hst]) ?_ ?_
      · rw [State.active_congr (congrArg Sl.windows hsl), ha]
        rfl
      · rw [wrapped_tb]
        dsimp only
        rw [Nat.mod_eq_of_lt (by omega)]
        omega
    have hoffered := offered_continues (convert x.pot) (tickNotice n.stepTaken)
    have hruns : (tickNotice n.stepTaken).active.isSome = true :=
      (stepNoticed (hnamed.active ha)).2.2.2.2.2.2.2
    have hcont : Continues (tickNotice n.stepTaken) (examineNow (handNotice x n.stepTaken)) :=
      hoffered.trans (examineNow_continues (hoffered.runs.trans hruns))
    have htb := wrapTaken_tb x hst hl
    refine ⟨_, exec_secondBoundary s, ?_⟩
    rw [takeWrap_applies hwrap hl, hstep]
    refine ⟨stepFaults_of_continues hnamed ha hcont, ?_, ?_, ?_, ?_, ?_, ?_, ?_⟩
    · rw [examineNow_tb, handNotice_tb, ← hstep, htb]
    · rw [examineNow_cl_log, handNotice_cl]
      exact (takeFault_cl_log ..).trans ((congrArg Cl.log (timeNamed_rest false st _).2.2.2.2.2.1).trans hlog)
    · rw [examineNow_hs, handNotice_hs, ← hstep, applyStaged_hs, hchannels]
    · rw [examineNow_mu_cal, handNotice_mu_cal, ← hstep, applyStaged_mu_cal, hmu]
      rfl
    · rw [examineNow_ns, handNotice_ns, ← hstep, applyStaged_ns, hns]
      rfl
    · rw [examineNow_pins, handNotice_pins, ← hstep, applyStaged_pins, hpins]
    · rw [examineNow_pending, handNotice_pending, ← hstep, applyStaged_pending, hpending]
  case edge =>
    obtain ⟨t, hexec, hcont, hstep, hhs, hcal⟩ := exec_pulseEdge_steps hst ha hdone hlost hreg hscan hband
    have hnext := Host.Outcome.next.inj hexec
    have hnamed := edge_stepNamed s.tb.tick st hreg hscan
    obtain ⟨-, -, -, -, -, hcl, hchannels, -⟩ := edgeLocked_rest s.tb.tick hreg hscan
    refine ⟨t, hexec, stepFaults_of_continues hnamed ha hcont, ?_, ?_, ?_, ?_, ?_, ?_, ?_⟩
    · rw [hcont.tb, tickNotice_tb, ← hstep, edgeTaken_tb _ hst]
    · rw [hcont.cl, tickNotice_cl]
      exact (takeFault_cl_log ..).trans (congrArg Cl.log ((timeNamed_rest true st _).2.2.2.2.2.1.trans hcl))
    · rw [hhs, hchannels]
    · rw [hcal, edgeLocked_cal]
    · exact (congrArg State.ns hnext).symm.trans (pulseEdgeStep_ns s)
    · exact (congrArg State.pins hnext).symm.trans (pulseEdgeStep_pins s)
    · exact (congrArg State.pending hnext).symm.trans (pulseEdgeStep_pending s)

end Sys2Proof.Machine
end

