-- ==== Sys2Proof/Proofs/Realignment.lean ====
section
/-! A re-phase and the third agreeing edge, which re-aligns TB (O11; R8, R9, R11, R16, R17, R65 to R67, R88). -/

namespace Sys2Proof.Machine

/-! ### A record completed with REALIGNED set is not valid, and RG leaves it (R85, R88) -/

theorem completeCapture_realigned {s : State} {cap : Capture} {a : Assembly} (hcap : s.sl.capture = some cap)
    (hasm : s.cl.assembly = some a) (hre : cap.realigned = true) :
    completeCapture s = s.recordLogged (buildRecord cap a s) := by
  have hinvalid : (buildRecord cap a s).valid = false := by
    rw [Bool.eq_false_iff]
    intro hv
    obtain ⟨-, -, -, -, -, -, hfalse⟩ := CRecord.valid_iff.mp hv
    exact absurd (hre.symm.trans hfalse) (by decide)
  rw [completeCapture_open hcap hasm, judgeRecord_of_not_valid hinvalid]

theorem completeCapture_none {s : State} (h : s.sl.capture = none ∨ s.cl.assembly = none) :
    completeCapture s = { s with sl := { s.sl with capture := none }, cl := { s.cl with assembly := none } } := by
  unfold completeCapture
  split
  case h_1 hc ha =>
    rcases h with h | h
    · exact absurd (hc.symm.trans h) nofun
    · exact absurd (ha.symm.trans h) nofun
  case h_2 => rfl

/-- Where the capture is marked its completion leaves every block but SL, CL and LC. -/
theorem completeCapture_marked_rest (s : State) :
    let t := completeCapture s.markedRealigned
    t.rg = s.rg ∧ t.oc = s.oc ∧ t.cq = s.cq ∧ t.sk = s.sk ∧ t.mu = s.mu ∧ t.sl.demand = s.sl.demand := by
  intro t
  by_cases hnone : s.markedRealigned.sl.capture = none ∨ s.markedRealigned.cl.assembly = none
  · rw [show t = _ from completeCapture_none hnone]
    exact ⟨rfl, rfl, rfl, rfl, rfl, rfl⟩
  · obtain ⟨hcap, hasm⟩ := not_or.mp hnone
    obtain ⟨cap, hcap⟩ := Option.ne_none_iff_exists'.mp hcap
    obtain ⟨a, hasm⟩ := Option.ne_none_iff_exists'.mp hasm
    have hre : cap.realigned = true := by
      obtain ⟨k, -, rfl⟩ := Option.map_eq_some_iff.mp hcap
      rfl
    rw [show t = _ from completeCapture_realigned hcap hasm hre]
    exact ⟨rfl, rfl, rfl, rfl, rfl, rfl⟩

/-- MU drops what is open as a capture is cut short; nothing else follows its completion. -/
theorem cutShort_rest (s : State) :
    let t := cutShort s
    let u := completeCapture s.markedRealigned
    t.rg = u.rg ∧ t.oc = u.oc ∧ t.cq = u.cq ∧ t.sk = u.sk ∧ t.sl = u.sl ∧ t.cl = u.cl ∧ t.lc = u.lc := by
  unfold cutShort
  dsimp only
  split <;> split <;> exact ⟨rfl, rfl, rfl, rfl, rfl, rfl, rfl⟩

/-- A re-phase leaves RG, the output, the queue and the stack. -/
theorem rephase_rest (s : State) :
    (rephase s).rg = s.rg ∧ (rephase s).oc.output = s.oc.output ∧ (rephase s).cq = s.cq ∧ (rephase s).sk = s.sk := by
  cases ha : s.active with
  | none =>
    rw [rephase_idle ha]
    exact ⟨rfl, rfl, rfl, rfl⟩
  | some wc =>
    obtain ⟨w, c⟩ := wc
    have hmoved : (s.moved w c).rg = s.rg ∧ (s.moved w c).oc.output = s.oc.output ∧ (s.moved w c).cq = s.cq
        ∧ (s.moved w c).sk = s.sk := by simp
    obtain ⟨hrg, hoc, hcq, hsk, -⟩ := cutShort_rest (s.moved w c)
    obtain ⟨hrg', hoc', hcq', hsk', -⟩ := completeCapture_marked_rest (s.moved w c)
    have hcut : (cutShort (s.moved w c)).rg = s.rg ∧ (cutShort (s.moved w c)).oc.output = s.oc.output
        ∧ (cutShort (s.moved w c)).cq = s.cq ∧ (cutShort (s.moved w c)).sk = s.sk :=
      ⟨(hrg.trans hrg').trans hmoved.1, (congrArg Oc.output (hoc.trans hoc')).trans hmoved.2.1,
        (hcq.trans hcq').trans hmoved.2.2.1, (hsk.trans hsk').trans hmoved.2.2.2⟩
    rw [rephase_running ha]
    dsimp only
    split
    · exact hmoved
    · split
      · simp
      · split
        · simpa using hcut
        · exact hcut

/-! ### The pair and the demand (R65) -/

section Running
variable {s : State} {w : WindowRec} {c : CyclePart} (ha : s.active = some (w, c))
include ha

/-- The cycle part with the pair of the time in force. -/
abbrev State.rephasedPart (w : WindowRec) (c : CyclePart) (s : State) : CyclePart :=
  { c with
    cycle := (derive (s.profileOf w) c s.tb.seconds s.tb.tick).1
    phase := (derive (s.profileOf w) c s.tb.seconds s.tb.tick).2 }

theorem moved_windows : (s.moved w c).sl.windows
    = { w with life := w.life.withPart (s.rephasedPart w c) } :: s.sl.windows.tail := by
  obtain ⟨ws, hw, -⟩ := State.active_eq_some.mp ha
  rw [sync_sl_windows]
  simp only [State.setPair, ha, hw, withCyclePart, List.tail_cons]

theorem moved_active : (s.moved w c).active
    = some ({ w with life := w.life.withPart (s.rephasedPart w c) }, s.rephasedPart w c) := setPair_active ha _ _

theorem moved_demand : (s.moved w c).sl.demand = .opened ↔
    s.sk.stack = [] ∧ (s.profileOf w).onT ≤ (s.rephasedPart w c).phase := by
  have hprofile : (s.moved w c).profileOf { w with life := w.life.withPart (s.rephasedPart w c) } = s.profileOf w := by
    show (s.moved w c).sl.profiles.get _ = _
    rw [sync_sl_profiles, State.setPair_sl_profiles]
    rfl
  by_cases hk : s.sk.stack = []
  · have hiff := State.demand_iff_phase (moved_active ha) (by rw [sync_sk, State.setPair_sk, hk])
    rw [hprofile] at hiff
    rw [and_iff_right hk, ← hiff]
    rfl
  · rw [sync_demand, State.wantsOpen_held (by rwa [State.setPair_sk])]
    simp [hk]

end Running

theorem regulate_moment_lost (rise : Bool) (s : State) : (regulate rise s).moment.lost = s.moment.lost := by
  have htaken : (takeAverages s.frozen s).moment.lost = s.moment.lost := by rw [takeAverages_eq]
  rw [regulate_eq]
  split
  · rw [innerLoop_moment, rampRise_moment, htaken]
  · rw [rampRise_moment, innerLoop_moment, htaken]

theorem boundaryAtEdge_moment_lost (s : State) : (boundaryAtEdge s).moment.lost = s.moment.lost := by
  have hscanned : s.scanned.moment.lost = s.moment.lost := by
    unfold State.scanned
    split <;> simp
  rw [boundaryAtEdge_eq, markSecond_moment_lost]
  unfold State.ticked
  dsimp only
  split
  · rw [regulate_moment_lost, hscanned]
  · exact hscanned

/-! ### A re-alignment, stage by stage (R8, R9) -/

section Realign
variable (c : Nat) (s : State)

/-- The edge recorded REJECTED, the streak emptied, as a moment of its own. -/
abbrev State.realignReady : State :=
  { s with
    tb := { s.tb with lastEdge := some ⟨c, s.tb.seconds, .rejected⟩, rejectStreak := [] }
    moment := { s.moment with tickCode := none, requeued := [] } }

/-- The second boundary that a re-alignment forward takes, with its TIMING event. -/
abbrev State.realignForward : State := raiseAll .timing (advanceHoldover (boundaryAtEdge (s.realignReady c)))

/-- The second's beginning that a re-alignment back takes, with its TIMING event. -/
abbrev State.realignBack : State :=
  raiseAll .timing { s.realignReady c with tb := { (s.realignReady c).tb with tick := 0 } }

variable {c s}

theorem realign_forward (h : 1200 ≤ c) : realign c (recordEdge c .rejected s) =
    if s.tb.state.appliesAtBoundary then applyStaged false (rephase (s.realignForward c)) else rephase (s.realignForward c) :=
  if_pos h

theorem realign_back (h : ¬ 1200 ≤ c) : realign c (recordEdge c .rejected s) = rephase (s.realignBack c) := if_neg h

theorem exec_pulseEdge_realigns {a b : Nat} (hlo : 2 < s.tb.tick) (hhi : s.tb.tick < 2398) (hlost : s.moment.lost = false)
    (hstreak : s.tb.rejectStreak = [a, b]) (hagree : agree [a, b, s.tb.tick] = true) :
    exec .pulseEdge s = .next (realign s.tb.tick (recordEdge s.tb.tick .rejected (finishTimeline s))) := by
  have hready : finishTimeline (enterLostNow s) = finishTimeline s := by rw [enterLostNow_none (.inl hlost)]
  have htb : (finishTimeline s).tb = s.tb := finishTimeline_tb s
  have hband : inBand s.tb.tick = false := decide_eq_false (by omega)
  refine congrArg Host.Outcome.next ?_
  rw [pulseEdgeStep, hready, htb]
  rw [hband, if_neg Bool.false_ne_true]
  exact rejectEdge_agreeing (by rw [htb, hstreak]) hagree

variable (c s)

theorem realignForward_tb : (s.realignForward c).tb = { s.tb with
    tick := 0, seconds := (s.tb.seconds + 1) % 4294967296
    lastEdge := some ⟨c, s.tb.seconds, .rejected⟩, rejectStreak := [], holdoverSec := s.tb.advanced } := by
  rw [State.realignForward, raiseAll_tb, advanceHoldover_tb, boundaryAtEdge_tb]
  rfl

theorem realignBack_tb : (s.realignBack c).tb = { s.tb with
    tick := 0, lastEdge := some ⟨c, s.tb.seconds, .rejected⟩, rejectStreak := [] } := rfl

/-- The second boundary of a re-alignment makes due what a second boundary does (R2, R11, R174). -/
theorem realignForward_due :
    (s.realignForward c).moment.exam = true ∧ (s.realignForward c).moment.regTick = true
      ∧ (s.realignForward c).hs.scan = some 0
      ∧ ((s.realignForward c).moment.lost = true ↔
        s.moment.lost = true ∨ s.tb.state = .holdover ∧ s.tb.holdoverLimit ≤ s.tb.advanced) := by
  rw [State.realignForward, raiseAll_moment, raiseAll_hs, advanceHoldover_hs, advanceHoldover_lost, boundaryAtEdge_tb]
  refine ⟨?_, ?_, rfl, ?_⟩
  · rw [advanceHoldover_exam, boundaryAtEdge_exam]
  · rw [advanceHoldover_moment_regTick]
    rfl
  · rw [boundaryAtEdge_moment_lost]

end Realign

/-- A re-phase leaves the list but for the pair of its running window. -/
theorem rephase_windows {s : State} {w : WindowRec} {c : CyclePart} (ha : s.active = some (w, c)) :
    (rephase s).sl.windows = (s.moved w c).sl.windows := by
  have hcut : (cutShort (s.moved w c)).sl.windows = (s.moved w c).sl.windows := cutShort_sl_windows _
  rw [rephase_running ha]
  dsimp only
  split
  · rfl
  · split
    · rw [rephaseWindow_sl_windows, rephaseWindow_sl_windows]
    · split
      · rw [openCapture_sl_windows, hcut]
      · exact hcut

theorem rephase_active {s : State} {w : WindowRec} {c : CyclePart} (ha : s.active = some (w, c)) :
    (rephase s).active = some ({ w with life := w.life.withPart (s.rephasedPart w c) }, s.rephasedPart w c) :=
  (State.active_congr (rephase_windows ha)).trans (moved_active ha)

/-! ### A staged time after a re-alignment forward (R16, R17) -/

section Staged
variable {s : State} {c : Nat} {st : StagedTime}

/-- The staged time of a re-alignment forward is taken on its second boundary. -/
theorem realignTaken_tb (h : s.tb.staged = some st) :
    (applyStaged false (rephase (s.realignForward c))).tb = { s.tb with
      tick := 0, seconds := st.value, staged := none
      state := if s.tb.state = .unset then .holdover else s.tb.state
      lastEdge := some ⟨c, s.tb.seconds, .rejected⟩, rejectStreak := []
      holdoverSec := if s.tb.state = .unset then 0 else s.tb.advanced } := by
  rw [applyStaged_tb (st := st) (by rw [rephase_tb, realignForward_tb, h]), timeNamed_tb, rephase_tb, realignForward_tb]
  rfl

/-- With nothing due for MU and HS a re-alignment's second boundary leaves the blocks that TIME_STEP and a re-phase read. -/
theorem realignForward_rest (hreg : s.moment.regTick = false) (hscan : s.scanDue = false) :
    let t := s.realignForward c
    t.sl = s.sl ∧ t.oc = s.oc ∧ t.rg = s.rg ∧ t.cq = s.cq ∧ t.sk = s.sk ∧ t.cl = s.cl ∧ t.mu = s.mu := by
  have hscanned : (s.realignReady c).scanned = s.realignReady c :=
    if_neg (by rw [show (s.realignReady c).scanDue = false from hscan]; decide)
  have hticked : (s.realignReady c).ticked = s.realignReady c :=
    if_neg (by rw [show (s.realignReady c).moment.regTick = false from hreg]; decide)
  rw [State.realignForward, boundaryAtEdge_eq, hscanned, hticked]
  simp

/-- A large step after a re-alignment forward pushes a TIME_STEP frame below two frames (R19). -/
theorem realignTaken_pushes {w : WindowRec} {p : CyclePart} (h : s.tb.staged = some st) (ha : s.active = some (w, p))
    (hfar : st.value + 1 < (s.tb.seconds + 1) % 4294967296 ∨ (s.tb.seconds + 1) % 4294967296 + 1 < st.value)
    (hreg : s.moment.regTick = false) (hscan : s.scanDue = false) (hk : s.sk.stack.length < 2) (ho : s.oc.output ≠ .lockout) :
    let t := applyStaged false (rephase (s.realignForward c))
    ∃ f, t.sk.stack = f :: s.sk.stack ∧ f.kind = .timeStep ∧ f.seq = s.sk.nextFrame ∧ (f.sec, f.tick) = (st.value, 0)
      ∧ f.timeline.map TimelinePart.windowId = some w.id ∧ f.continuation = .cycle
      ∧ f.pendingList = s.cq.queue.map (fun e => ⟨true, e⟩) ∧ t.cq.queue = [] ∧ t.oc.output = s.oc.output
      ∧ ∀ l, (t.link l).flags &&& EventClass.fault.bit = EventClass.fault.bit := by
  obtain ⟨hsl, hoc, -, hcq, hsk, -, -⟩ := realignForward_rest (c := c) hreg hscan
  obtain ⟨-, hout', hcq', hsk'⟩ := rephase_rest (s.realignForward c)
  have hactive := rephase_active ((State.active_congr (congrArg Sl.windows hsl)).trans ha)
  let n := (rephase (s.realignForward c)).timeNamed false st
  obtain ⟨hsln, hocn, -, hcqn, hskn, -⟩ := timeNamed_rest false st (rephase (s.realignForward c))
  have hstep : applyStaged false (rephase (s.realignForward c)) = n.stepTaken :=
    applyStaged_steps (by rw [rephase_tb, realignForward_tb, h]) (by rw [hactive]; rfl) (by rw [rephase_tb, realignForward_tb]; exact hfar)
  have hnactive : n.active = _ := (State.active_congr (congrArg Sl.windows hsln)).trans hactive
  have hntb : n.tb.seconds = st.value ∧ n.tb.tick = 0 := by rw [timeNamed_tb]; exact ⟨rfl, rfl⟩
  have hnsk : n.sk = s.sk := hskn.trans (hsk'.trans hsk)
  have hnout : n.oc.output = s.oc.output := (congrArg Oc.output hocn).trans (hout'.trans (by rw [hoc]))
  have hncq : n.cq = s.cq := hcqn.trans (hcq'.trans hcq)
  have hpush : takeFault .timeStep none n = pushFrame .timeStep none n := takeFault_push _ _ (by rwa [hnout]) (by rwa [hnsk])
  intro t
  have ht : t = n.stepTaken := hstep
  refine ⟨buildFrame .timeStep none n, ?_, rfl, ?_, ?_, ?_, ?_, ?_, ?_, ?_, ?_⟩
  · rw [ht]
    show (takeFault .timeStep none n).sk.stack = _
    rw [hpush, pushFrame_sk, hnsk]
  · show n.sk.nextFrame = _
    rw [hnsk]
  · show (n.tb.seconds, n.tb.tick) = _
    rw [hntb.1, hntb.2]
  · show (n.active.map _).map TimelinePart.windowId = _
    rw [hnactive]
    rfl
  · show FaultKind.timeStep.continuation n.active.isSome = _
    rw [hnactive]
    rfl
  · show n.cq.queue.map _ = _
    rw [hncq]
  · rw [ht]
    show (takeFault .timeStep none n).cq.queue = []
    rw [hpush, pushFrame_queue]
  · rw [ht]
    show (takeFault .timeStep none n).oc.output = _
    rw [hpush, pushFrame_output_free rfl, hnout]
  · rw [ht]
    exact takeFault_sets_fault .timeStep none (.of_lc rfl)

end Staged

/-- What every re-alignment forward leaves due and raises, with a staged time or without. -/
theorem realign_forward_due {s t : State} {c : Nat} (hm : t.moment = (s.realignForward c).moment)
    (hh : t.hs = (s.realignForward c).hs) :
    t.moment.exam = true ∧ t.moment.regTick = true ∧ t.hs.scan = some 0
      ∧ (t.moment.lost = true ↔ s.moment.lost = true ∨ s.tb.state = .holdover ∧ s.tb.holdoverLimit ≤ s.tb.advanced) := by
  rw [hm, hh]
  exact realignForward_due c s

/-- Settles O11: back to the second's beginning below 1200, and forward from there on, with the staged time or without. -/
theorem pulseRealigns : Obligations.PulseRealigns := by
  unfold Obligations.PulseRealigns
  intro s a b hlo hhi hlost hstreak apart hab hac hbc forward held next taken
  have hagree : agree [a, b, s.tb.tick] = true := by
    rw [agree_three, aroundSecond_eq, aroundSecond_eq, aroundSecond_eq]
    exact ⟨hab, hac, hbc⟩
  have hexec := exec_pulseEdge_realigns hlo hhi hlost hstreak hagree
  have hnext := Host.Outcome.next.inj hexec
  have hns := (congrArg State.ns hnext).symm.trans (pulseEdgeStep_ns s)
  have hpins := (congrArg State.pins hnext).symm.trans (pulseEdgeStep_pins s)
  have hpending := (congrArg State.pending hnext).symm.trans (pulseEdgeStep_pending s)
  let r := finishTimeline s
  let k := r.realignForward s.tb.tick
  have hr : r.tb = s.tb := finishTimeline_tb s
  have hrlost : r.moment.lost = false := (finishTimeline_moment_lost s).trans hlost
  refine ⟨_, hexec, ?_⟩
  by_cases hf : 1200 ≤ s.tb.tick
  case neg =>
    have htaken : taken = none := if_neg fun h => hf h.1
    have hheld : held = s.tb.holdoverSec := if_neg fun h => hf h.1
    have hsame : next = s.tb.seconds := if_neg hf
    clear_value taken held next
    subst htaken hheld hsame
    rw [realign_back hf] at hns hpins hpending ⊢
    refine ⟨?_, iff_of_false ?_ fun h => hf h.1, fun h => absurd h hf, fun h => absurd rfl h,
      fun st _ _ h => absurd h.symm (Option.some_ne_none st), hns, hpins, hpending, (rephase_raises _).sets⟩
    · rw [rephase_tb, realignBack_tb, hr]
      simp
    · rw [rephase_moment, raiseAll_moment]
      exact fun h => absurd (hrlost.symm.trans h) Bool.false_ne_true
  case pos =>
    have hheld : held = s.tb.advanced := by
      simp only [held, forward, hf, true_and]
    have hsecond : next = (s.tb.seconds + 1) % 4294967296 := if_pos hf
    have htakenEq : taken = if s.tb.state ≠ .locked then s.tb.staged else none := by
      simp only [taken, forward, hf, true_and]
    have hlostIff : (r.moment.lost = true ∨ r.tb.state = .holdover ∧ r.tb.holdoverLimit ≤ r.tb.advanced) ↔
        forward ∧ s.tb.state = .holdover ∧ s.tb.holdoverLimit ≤ held := by
      rw [hrlost, hr, hheld]
      simp [forward, hf]
    have hktb := realignForward_tb s.tb.tick r
    rw [hr] at hktb
    rw [realign_forward hf] at hns hpins hpending ⊢
    cases ht : taken with
    | none =>
      have hplain : (if r.tb.state.appliesAtBoundary then applyStaged false (rephase k) else rephase k) = rephase k := by
        by_cases hl : s.tb.state = .locked
        · rw [hr, hl]
          rfl
        · rw [htakenEq, if_pos hl] at ht
          rw [applyStaged_none false (by rw [rephase_tb, hktb, ht]), ite_self]
      rw [hplain] at hns hpins hpending ⊢
      obtain ⟨hexam, hreg, hscan, hl⟩ := realign_forward_due (s := r) (rephase_moment k) (rephase_hs k)
      refine ⟨?_, hl.trans hlostIff, fun _ => ⟨hexam, hreg, hscan⟩, fun h => absurd rfl h, fun st _ _ h => absurd h.symm (Option.some_ne_none st), hns, hpins,
        hpending, (rephase_raises _).sets⟩
      rw [rephase_tb, hktb, hheld, hsecond]
      simp
    | some st =>
      have hl : s.tb.state ≠ .locked := fun hl => by
        rw [htakenEq, if_neg (fun h => h hl)] at ht
        exact nomatch ht
      have hst : s.tb.staged = some st := by rwa [htakenEq, if_pos hl] at ht
      have happlies : (if r.tb.state.appliesAtBoundary then applyStaged false (rephase k) else rephase k)
          = applyStaged false (rephase k) := if_pos (by rw [hr]; exact decide_eq_true hl)
      rw [happlies] at hns hpins hpending ⊢
      have htb := realignTaken_tb (s := r) (c := s.tb.tick) (st := st) (by rw [hr, hst])
      obtain ⟨hexam, hreg, hscan, hlost'⟩ := realign_forward_due (s := r) (t := applyStaged false (rephase k))
        ((applyStaged_moment ..).trans (rephase_moment k)) ((applyStaged_hs ..).trans (rephase_hs k))
      refine ⟨?_, hlost'.trans hlostIff, fun _ => ⟨hexam, hreg, hscan⟩,
        fun _ => applyStaged_sets_timeSet (st := st) (by rw [rephase_tb, hktb, hst]) (.refl _), fun st' w c h ha hfar hdone hreg' hscan' hk ho => ?_,
        hns, hpins, hpending, ((rephase_raises _).trans (applyStaged_raises _ _)).sets⟩
      · rw [htb, hr, hheld]
        simp
      · obtain rfl := Option.some.inj h
        have hdone' : r = s := finishTimeline_done hdone.1 hdone.2
        rw [show k = s.realignForward s.tb.tick from congrArg (State.realignForward s.tb.tick) hdone']
        exact realignTaken_pushes hst ha (by rwa [← hsecond]) hreg' hscan' hk ho

end Sys2Proof.Machine
end

