-- ==== Sys2Proof/Proofs/Rephase.lean ====
section
/-! What a re-phase does with the capture, and where a re-phase is taken (O14; R9, R16, R19, R65 to R67, R88). -/

namespace Sys2Proof.Machine

/-! ### A measurement window over a re-phase (R67) -/

/-- A measurement window's status after a re-phase to phase `φ` that leaves the cycle number. -/
def Profile.statusRephased (p : Profile) (φ : Nat) (m : MWindow) : WStatus → WStatus
  | .opened => .missed
  | .pending => if p.opensAt m < φ then .missed else if p.opensAt m = φ then .opened else .pending
  | .short => .short
  | .done => .done
  | .missed => .missed

theorem setWindowStatus_sl {s : State} {k : Capture} (hk : s.sl.capture = some k) (m : MWindow) (v : WStatus) :
    (s.setWindowStatus m v).sl = { s.sl with capture := some (k.setStatus m v) } := by
  rw [State.setWindowStatus_of_capture hk]

theorem Capture.setStatus_self (k : Capture) (m : MWindow) : k.setStatus m (k.status m) = k := by
  cases m <;> rfl

/-- A re-phase within the cycle changes the window's status alone in SL. -/
theorem rephaseWindow_sl {s : State} {k : Capture} (hk : s.sl.capture = some k) (p : Profile) (φ : Nat) (m : MWindow) :
    (rephaseWindow p φ m s).sl
      = { s.sl with capture := some (k.setStatus m (p.statusRephased φ m (k.status m))) } := by
  have hstatus : s.windowStatus m = some (k.status m) := State.windowStatus_of_capture hk
  have hkept : { s.sl with capture := some (k.setStatus m (k.status m)) } = s.sl := by
    rw [Capture.setStatus_self, ← hk]
  unfold rephaseWindow
  rw [hstatus]
  cases hs : k.status m with
  | opened => exact setWindowStatus_sl hk m .missed
  | pending =>
    simp only [Profile.statusRephased]
    split
    · exact setWindowStatus_sl hk m .missed
    · split
      · rw [openWindow_sl, hstatus, hs, if_pos rfl]
        exact setWindowStatus_sl hk m .opened
      · rw [← hs, hkept]
  | short =>
    rw [Profile.statusRephased, ← hs, hkept, hs]
  | done =>
    rw [Profile.statusRephased, ← hs, hkept, hs]
  | missed =>
    rw [Profile.statusRephased, ← hs, hkept, hs]

/-! ### The demand and the capture (R65 to R67, R88) -/

section Rephased
variable {s : State} {w : WindowRec} {c : CyclePart} (ha : s.active = some (w, c))
include ha

/-- With no capture OPEN a re-phase is the pair and the demand alone. -/
theorem rephase_noCapture (hk : s.sl.capture = none) : rephase s = s.moved w c := by
  rw [rephase_running ha]
  exact if_pos (by rw [hk]; rfl)

/-- Where the cycle number stays, an OPEN capture goes on. -/
theorem rephase_sameCycle {k : Capture} (hk : s.sl.capture = some k) (hn : (s.rephasedPart w c).cycle = c.cycle) :
    rephase s = rephaseWindow (s.profileOf w) (s.rephasedPart w c).phase .off
      (rephaseWindow (s.profileOf w) (s.rephasedPart w c).phase .on (s.moved w c).markedRealigned) := by
  rw [rephase_running ha]
  exact (if_neg (by simp [hk])).trans (if_pos hn)

/-- Where it changes, the capture is cut short and, with the stack empty, another opens. -/
theorem rephase_otherCycle {k : Capture} (hk : s.sl.capture = some k) (hn : (s.rephasedPart w c).cycle ≠ c.cycle) :
    rephase s =
      if (cutShort (s.moved w c)).sk.stack.isEmpty then openCapture (s.rephasedPart w c).phase true (cutShort (s.moved w c))
      else cutShort (s.moved w c) := by
  rw [rephase_running ha]
  exact (if_neg (by simp [hk])).trans (if_neg hn)

omit ha in
theorem moved_capture : (s.moved w c).sl.capture = s.sl.capture := by
  rw [sync_sl_capture, State.setPair_sl_capture]

/-- Statuses of a capture that goes on over a re-phase, and the log, which stays. -/
theorem rephase_sameCycle_capture {k : Capture} (hk : s.sl.capture = some k) (hn : (s.rephasedPart w c).cycle = c.cycle) :
    (rephase s).sl.capture = some
        { entryPhase := k.entryPhase, realigned := true
          onStatus := (s.profileOf w).statusRephased (s.rephasedPart w c).phase .on k.onStatus
          offStatus := (s.profileOf w).statusRephased (s.rephasedPart w c).phase .off k.offStatus }
      ∧ (rephase s).cl.log = s.cl.log ∧ (rephase s).sl.demand = (s.moved w c).sl.demand := by
  have hmarked : (s.moved w c).markedRealigned.sl.capture = some { k with realigned := true } := by
    show (s.moved w c).sl.capture.map _ = _
    rw [moved_capture, hk]
    rfl
  have hon := rephaseWindow_sl hmarked (s.profileOf w) (s.rephasedPart w c).phase .on
  have hoff := rephaseWindow_sl (congrArg Sl.capture hon) (s.profileOf w) (s.rephasedPart w c).phase .off
  rw [rephase_sameCycle ha hk hn]
  refine ⟨congrArg Sl.capture hoff, ?_, ?_⟩
  · rw [rephaseWindow_cl, rephaseWindow_cl]
    show (s.moved w c).cl.log = s.cl.log
    rw [sync_cl, State.setPair_cl]
  · have hdemand := congrArg Sl.demand hon
    rw [hoff]
    exact hdemand

/-- A re-phase drives the demand by the pair it takes. -/
theorem rephase_demand : (rephase s).sl.demand = .opened ↔
    s.sk.stack = [] ∧ (s.profileOf w).onT ≤ (s.rephasedPart w c).phase := by
  have hsame : (rephase s).sl.demand = (s.moved w c).sl.demand := by
    cases hk : s.sl.capture with
    | none => rw [rephase_noCapture ha hk]
    | some k =>
      by_cases hn : (s.rephasedPart w c).cycle = c.cycle
      · exact (rephase_sameCycle_capture ha hk hn).2.2
      · have hcut : (cutShort (s.moved w c)).sl.demand = (s.moved w c).sl.demand :=
          (congrArg Sl.demand (cutShort_rest (s.moved w c)).2.2.2.2.1).trans (completeCapture_marked_rest (s.moved w c)).2.2.2.2.2
        rw [rephase_otherCycle ha hk hn]
        split
        · rw [openCapture_demand, hcut]
        · exact hcut
  rw [hsame]
  exact moved_demand ha

/-- The record of the cut cycle, marked REALIGNED, and the capture of the cycle landed in. -/
theorem rephase_otherCycle_capture {k : Capture} {a : Assembly} (hk : s.sl.capture = some k) (hasm : s.cl.assembly = some a)
    (hn : (s.rephasedPart w c).cycle ≠ c.cycle) (hstack : s.sk.stack = []) :
    let t := rephase s
    ∃ r, t.cl.log = s.cl.log.drop (s.cl.log.length - 31) ++ [r] ∧ r.seq = s.cl.nextSeq
      ∧ (r.windowId, r.cycle, r.flags.realigned) = (a.windowId, a.cycle, true)
      ∧ r.onPot = (if k.onStatus = .done then s.mu.onResult else none)
      ∧ r.offPot = (if k.offStatus = .done then s.mu.offResult.map OffResult.potential else none)
      ∧ t.cl.nextSeq = (s.cl.nextSeq + 1) % 4294967296
      ∧ t.sl.capture.map Capture.opening = some ((s.rephasedPart w c).phase, true)
      ∧ t.cl.assembly.map Assembly.follows = some (w.id, (s.rephasedPart w c).cycle)
      ∧ ∀ l, (t.link l).flags &&& EventClass.capture.bit = EventClass.capture.bit := by
  let m := (s.moved w c).markedRealigned
  let r := buildRecord { k with realigned := true } a m
  have hmcap : m.sl.capture = some { k with realigned := true } := by
    show (s.moved w c).sl.capture.map _ = _
    rw [moved_capture, hk]
    rfl
  have hmcl : m.cl = s.cl := by
    show (s.moved w c).cl = s.cl
    rw [sync_cl, State.setPair_cl]
  have hmmu : m.mu.onResult = s.mu.onResult ∧ m.mu.offResult = s.mu.offResult := by
    show (s.moved w c).mu.onResult = _ ∧ (s.moved w c).mu.offResult = _
    rw [sync_mu, State.setPair_mu]
    exact ⟨rfl, rfl⟩
  have hcompleted : completeCapture m = m.recordLogged r :=
    completeCapture_realigned hmcap (by rw [hmcl, hasm]) rfl
  obtain ⟨-, -, -, hsk, hsl, hcl, hlc⟩ := cutShort_rest (s.moved w c)
  rw [show completeCapture (s.moved w c).markedRealigned = _ from hcompleted] at hsk hsl hcl hlc
  have hempty : (cutShort (s.moved w c)).sk.stack.isEmpty = true := by
    rw [hsk]
    show (s.moved w c).sk.stack.isEmpty = true
    rw [sync_sk, State.setPair_sk, hstack]
    rfl
  have hcutActive : (cutShort (s.moved w c)).active
      = some ({ w with life := w.life.withPart (s.rephasedPart w c) }, s.rephasedPart w c) :=
    (State.active_congr (cutShort_sl_windows _)).trans (moved_active ha)
  have ht : rephase s = openCapture (s.rephasedPart w c).phase true (cutShort (s.moved w c)) := by
    rw [rephase_otherCycle ha hk hn, if_pos hempty]
  have hraises : Raises (m.recordLogged r) (rephase s) := by
    rw [ht]
    exact .of_lc ((openCapture_lc ..).trans hlc)
  intro t
  refine ⟨r, ?_, ?_, rfl, ?_, ?_, ?_, ?_, ?_, hraises.sets⟩
  · rw [show t = _ from ht, openCapture_cl_log, hcl]
    show logRecord r m.cl.log = _
    rw [hmcl, logRecord_eq]
  · show m.cl.nextSeq = _
    rw [hmcl]
  · rw [← hmmu.1]
    rfl
  · rw [← hmmu.2]
    show (if k.offStatus = .done then m.mu.offResult else none).map OffResult.potential = _
    split <;> rfl
  · rw [show t = _ from ht, openCapture_cl_nextSeq, hcl]
    show next32 m.cl.nextSeq = _
    rw [hmcl]
    rfl
  · rw [show t = _ from ht, openCapture_opening hcutActive]
  · rw [show t = _ from ht, openCapture_assembly hcutActive]
    rfl

end Rephased

/-! ### A re-phase as the statement describes it -/

/-- The state on which a re-phase is taken: that of `s` with second `sec` in force, as far as SL, CL and the record see it. -/
structure RephaseNamed (s u : State) (sec : Nat) : Prop where
  sec : u.tb.seconds = sec
  tick : u.tb.tick = 0
  sl : u.sl = s.sl
  sk : u.sk = s.sk
  log : u.cl.log = s.cl.log
  nextSeq : u.cl.nextSeq = s.cl.nextSeq
  onResult : u.mu.onResult = s.mu.onResult
  offResult : u.mu.offResult = s.mu.offResult
  assembly : ∀ a, s.cl.assembly = some a → ∃ a', u.cl.assembly = some a' ∧ a'.windowId = a.windowId ∧ a'.cycle = a.cycle

/-- What follows a re-phase leaves what it gave in SL and CL. -/
structure RephaseKept (u t : State) : Prop where
  windows : t.sl.windows = u.sl.windows
  demand : t.sl.demand = u.sl.demand
  capture : t.sl.capture = u.sl.capture
  cl : t.cl = u.cl
  raises : Raises u t

theorem RephaseKept.refl (u : State) : RephaseKept u u := ⟨rfl, rfl, rfl, rfl, .refl u⟩

section Rephases
variable {s u t : State} {sec : Nat} {w : WindowRec} {c : CyclePart} (hu : RephaseNamed s u sec) (ha : s.active = some (w, c))
  (ht : RephaseKept (rephase u) t)
include hu

theorem RephaseNamed.active (ha : s.active = some (w, c)) : u.active = some (w, c) :=
  (State.active_congr (congrArg Sl.windows hu.sl)).trans ha

theorem RephaseNamed.profileOf : u.profileOf w = s.profileOf w := by rw [State.profileOf, hu.sl]; rfl

theorem RephaseNamed.part :
    let e : Int := Int.bmod ((sec : Int) - c.anchorSec) 4294967296 * 2400 - c.anchorTick
    u.rephasedPart w c =
      { c with cycle := c.anchorCycle + e / (s.profileOf w).period, phase := (e % (s.profileOf w).period).toNat } := by
  simp only [State.rephasedPart, derive, hu.sec, hu.tick, elapsed_second, hu.profileOf]

include ha ht

/-- The capture of a re-phase within the cycle, and the log, as `s` stood. -/
theorem RephaseNamed.sameCycle {k : Capture} (hk : s.sl.capture = some k) (hn : (u.rephasedPart w c).cycle = c.cycle) :
    t.sl.capture = some
        { entryPhase := k.entryPhase, realigned := true
          onStatus := (s.profileOf w).statusRephased (u.rephasedPart w c).phase .on k.onStatus
          offStatus := (s.profileOf w).statusRephased (u.rephasedPart w c).phase .off k.offStatus }
      ∧ t.cl.log = s.cl.log := by
  obtain ⟨hcap, hlog, -⟩ := rephase_sameCycle_capture (hu.active ha) (by rw [hu.sl, hk]) hn
  rw [hu.profileOf] at hcap
  exact ⟨ht.capture.trans hcap, (congrArg Cl.log ht.cl).trans (hlog.trans hu.log)⟩

theorem RephaseNamed.otherCycle {k : Capture} {a : Assembly} (hk : s.sl.capture = some k) (hasm : s.cl.assembly = some a)
    (hn : (u.rephasedPart w c).cycle ≠ c.cycle) (hstack : s.sk.stack = []) :
    ∃ r, t.cl.log = s.cl.log.drop (s.cl.log.length - 31) ++ [r] ∧ r.seq = s.cl.nextSeq
      ∧ (r.windowId, r.cycle, r.flags.realigned) = (a.windowId, a.cycle, true)
      ∧ r.onPot = (if k.onStatus = .done then s.mu.onResult else none)
      ∧ r.offPot = (if k.offStatus = .done then s.mu.offResult.map OffResult.potential else none)
      ∧ t.cl.nextSeq = (s.cl.nextSeq + 1) % 4294967296
      ∧ t.sl.capture.map Capture.opening = some ((u.rephasedPart w c).phase, true)
      ∧ t.cl.assembly.map Assembly.follows = some (w.id, (u.rephasedPart w c).cycle)
      ∧ ∀ l, (t.link l).flags &&& EventClass.capture.bit = EventClass.capture.bit := by
  obtain ⟨a', hasm', hid, hcycle⟩ := hu.assembly a hasm
  obtain ⟨r, hlog, hseq, hr, hon, hoff, hnext, hcap, hfollows, hflags⟩ :=
    rephase_otherCycle_capture (hu.active ha) (by rw [hu.sl, hk]) hasm' hn (by rw [hu.sk, hstack])
  rw [hu.log] at hlog
  rw [hu.nextSeq] at hseq hnext
  rw [hid, hcycle] at hr
  rw [hu.onResult] at hon
  rw [hu.offResult] at hoff
  exact ⟨r, (congrArg Cl.log ht.cl).trans hlog, hseq, hr, hon, hoff, (congrArg Cl.nextSeq ht.cl).trans hnext,
    by rw [ht.capture, hcap], by rw [ht.cl, hfollows], fun l => ht.raises.keeps_flag (hflags l)⟩

/-- A re-phase is what the statement says of it. -/
theorem rephases_of_rephase : s.rephases t w c sec := by
  have hua := hu.active ha
  have hpart := hu.part (w := w) (c := c)
  dsimp only at hpart
  refine ⟨?_, ?_, fun hk => ?_, fun k hk hn => ?_, fun k a hk hasm hn hstack => ?_⟩
  · rw [ht.windows, rephase_windows hua, moved_windows hua, hpart, hu.sl]
  · rw [ht.demand, rephase_demand hua, hpart, hu.sk, hu.profileOf]
  · have hmoved := rephase_noCapture hua (by rw [hu.sl, hk])
    rw [ht.capture, ht.cl, hmoved, moved_capture, hu.sl, sync_cl, State.setPair_cl]
    exact ⟨hk, hu.log⟩
  · have hsame := hu.sameCycle ha ht hk (by rw [hpart]; exact hn)
    rw [hpart] at hsame
    refine ⟨hsame.1.trans ?_, hsame.2⟩
    rfl
  · have hother := hu.otherCycle ha ht hk hasm (by rw [hpart]; exact hn) hstack
    rw [hpart] at hother
    exact hother

end Rephases

/-! ### A notice at the pair in progress (R51, R68) -/

section Standing
variable {s : State} {w : WindowRec} {c : CyclePart} (ha : s.active = some (w, c))
include ha

theorem setPair_self : s.setPair c.cycle c.phase = s := by
  obtain ⟨ws, hw, hpart⟩ := State.active_eq_some.mp ha
  have hlife : w.life.withPart c = w.life := by
    cases hl : w.life <;> rw [hl] at hpart <;> cases hpart <;> rfl
  simp only [State.setPair, ha, hw, withCyclePart, hlife]
  rw [← hw]

/-- A notice whose pair is the pair in progress leaves SL but, after a large step, the mark of it and the demand, which follows. -/
theorem tickNotice_standing (hpair : derive (s.profileOf w) c s.tb.seconds s.tb.tick = (c.cycle, c.phase)) :
    tickNotice s = if s.sl.outright then sync { s with sl := { s.sl with outright := false } } else s := by
  have hlater : later c.cycle c.phase c = false := by simp [later]
  simp only [tickNotice, ha, hpair, setPair_self ha, hlater, Bool.false_eq_true, if_false]

/-- Where the demand follows the phase already, such a notice leaves what a re-phase gave. -/
theorem tickNotice_keeps (hpair : derive (s.profileOf w) c s.tb.seconds s.tb.tick = (c.cycle, c.phase)) (hk : s.sk.stack = [])
    (hd : s.sl.demand = .opened ↔ (s.profileOf w).onT ≤ c.phase) : RephaseKept s (tickNotice s) := by
  have hdemand : (sync { s with sl := { s.sl with outright := false } }).sl.demand = s.sl.demand := by
    have hiff := (State.demand_iff_phase (s := { s with sl := { s.sl with outright := false } }) ha hk).trans hd.symm
    rw [sync_demand]
    cases hs : s.sl.demand with
    | opened => exact hiff.mpr hs
    | closed =>
      split
      case isTrue hw => rw [hw, hs] at hiff; exact absurd (hiff.mp rfl) (by decide)
      case isFalse => rfl
  refine ⟨?_, ?_, tickNotice_sl_capture s, tickNotice_cl s, tickNotice_raises s⟩
  · rw [tickNotice_standing ha hpair]
    split <;> rfl
  · rw [tickNotice_standing ha hpair]
    split
    · exact hdemand
    · rfl

end Standing

/-- With the stack empty, a window running and every end ahead, an examination finds nothing to do. -/
theorem examineSecond_nothing {s : State} (hk : s.sk.stack = []) (ha : s.active.isSome = true)
    (hahead : ∀ v ∈ s.sl.windows, s.tb.seconds < v.stop) :
    examineSecond s = { s with moment := { s.moment with exam := false } } := by
  obtain ⟨w, ws, hw, -⟩ := State.first_runs ha
  have hended : endByTime s = s := by
    have := hahead w (by rw [hw]; exact List.mem_cons_self)
    rw [endByTime_first hw, if_neg (by omega), ← hw]
  have hfrom : s.examinedFrom = s := by
    have hno : ¬ (s.sk.stack.isEmpty = false ∨ s.active.isNone = true) := by
      rw [hk, Option.isNone_iff_eq_none, ← Option.not_isSome_iff_eq_none, ha]
      decide
    rw [State.examinedFrom, if_neg hno, hended]
  have hskip : skipWindows s = s := skipWindows_none fun v hv => by
    simp only [WindowRec.skipped, decide_eq_false (Nat.not_le.mpr (hahead v hv)), Bool.and_false]
  rw [examineSecond_eq, hfrom, hskip, activateFirst_running ha]

/-! ### The states on which a re-phase is taken (R9, R19) -/

theorem realignBack_named (c : Nat) (s : State) : RephaseNamed s (s.realignBack c) s.tb.seconds :=
  ⟨rfl, rfl, rfl, rfl, rfl, rfl, rfl, rfl, fun a h => ⟨a, h, rfl, rfl⟩⟩

theorem realignForward_named {s : State} (c : Nat) (hreg : s.moment.regTick = false) (hscan : s.scanDue = false) :
    RephaseNamed s (s.realignForward c) ((s.tb.seconds + 1) % 4294967296) := by
  obtain ⟨hsl, -, -, -, hsk, hcl, hmu⟩ := realignForward_rest (c := c) hreg hscan
  exact ⟨by rw [realignForward_tb], by rw [realignForward_tb], hsl, hsk, by rw [hcl], by rw [hcl], by rw [hmu], by rw [hmu],
    fun a h => ⟨a, by rw [hcl, h], rfl, rfl⟩⟩

theorem wrapped_cl (x : Samples) (s : State) : (s.wrapped x).cl =
    { s.cl with assembly := s.cl.assembly.map fun a => { a with closedNow := false } } := by
  rw [State.wrapped, markSecond_cl, advanceHoldover_cl]
  rfl

theorem timeNamed_mu (atEdge : Bool) (st : StagedTime) (s : State) : (s.timeNamed atEdge st).mu = s.mu := by
  unfold State.timeNamed
  split <;> rfl

theorem wrap_rephaseNamed (x : Samples) (st : StagedTime) (s : State) :
    RephaseNamed s ((s.wrapped x).timeNamed false st) st.value := by
  obtain ⟨hsl, -, -, -, hsk, hcl, -⟩ := timeNamed_rest false st (s.wrapped x)
  obtain ⟨hsl', -, -, -, hsk', -, -, -, -, hmu, -⟩ := wrapped_keeps x s
  have hmu' := timeNamed_mu false st (s.wrapped x)
  refine ⟨by rw [timeNamed_tb], by rw [timeNamed_tb], hsl.trans hsl', hsk.trans hsk', by rw [hcl, wrapped_cl], by rw [hcl, wrapped_cl],
    by rw [hmu', hmu]; rfl, by rw [hmu', hmu]; rfl, fun a h => ⟨{ a with closedNow := false }, ?_, rfl, rfl⟩⟩
  rw [hcl, wrapped_cl, h]
  rfl

theorem applyStaged_rephases {s : State} {atEdge : Bool} {st : StagedTime} (h : s.tb.staged = some st)
    (hnear : (st.value : Int) - s.tb.seconds = 1 ∨ (st.value : Int) - s.tb.seconds = -1) :
    applyStaged atEdge s = rephase (s.timeNamed atEdge st) := by
  rw [applyStaged_some h]
  dsimp only
  rw [if_neg (by omega), if_pos hnear]

theorem examineNow_nothing {s : State} (hk : s.sk.stack = []) (ha : s.active.isSome = true)
    (hahead : ∀ v ∈ s.sl.windows, s.tb.seconds < v.stop) : ∃ m, examineNow s = { s with moment := m } := by
  unfold examineNow
  split
  · exact ⟨_, examineSecond_nothing hk ha hahead⟩
  · exact ⟨s.moment, rfl⟩

/-- The notice of a wrap after a re-phase leaves what the re-phase gave. -/
theorem handNotice_keeps {n : State} {w : WindowRec} {c : CyclePart} (x : Samples) (ha : n.active = some (w, c))
    (hk : n.sk.stack = []) : RephaseKept (rephase n) (handNotice x (rephase n)) := by
  have hpair : derive ((rephase n).profileOf { w with life := w.life.withPart (n.rephasedPart w c) }) (n.rephasedPart w c)
      (rephase n).tb.seconds (rephase n).tb.tick = ((n.rephasedPart w c).cycle, (n.rephasedPart w c).phase) := by
    rw [State.profileOf, rephase_sl_profiles, rephase_tb]
    rfl
  have hprofile : (rephase n).profileOf { w with life := w.life.withPart (n.rephasedPart w c) } = n.profileOf w := by
    rw [State.profileOf, rephase_sl_profiles]
    rfl
  have hkept := tickNotice_keeps (rephase_active ha) hpair (by rw [(rephase_rest n).2.2.2, hk])
    (by rw [rephase_demand ha, hprofile, and_iff_right hk])
  have hsl : (handNotice x (rephase n)).sl = (tickNotice (rephase n)).sl := offerCode_sl ..
  exact ⟨(congrArg Sl.windows hsl).trans hkept.windows, (congrArg Sl.demand hsl).trans hkept.demand,
    (congrArg Sl.capture hsl).trans hkept.capture, handNotice_cl .., .of_lc (handNotice_lc ..)⟩

/-- Settles O14: the re-phase at a re-alignment either way, and at a staged time 1 s away with the notice and the examination after it. -/
theorem rephaseTaken : Obligations.RephaseTaken := by
  unfold Obligations.RephaseTaken
  refine ⟨fun s w c a b hlo hhi hdone hlost hstreak ha hab hac hbc => ?realigned,
    fun x s st w c hwrap hpos hl hst hsec hnear ha hk hahead => ?wrap⟩
  case realigned =>
    have hagree : agree [a, b, s.tb.tick] = true := by
      rw [agree_three, aroundSecond_eq, aroundSecond_eq, aroundSecond_eq]
      exact ⟨hab, hac, hbc⟩
    have hexec := exec_pulseEdge_realigns hlo hhi hlost hstreak hagree
    rw [finishTimeline_done hdone.1 hdone.2] at hexec
    refine ⟨fun hc => ?back, fun hc hstaged hreg hscan => ?forward⟩
    case back =>
      rw [realign_back (by omega)] at hexec
      obtain ⟨hrg, hout, hcq, hsk⟩ := rephase_rest (s.realignBack s.tb.tick)
      exact ⟨_, hexec, by rw [rephase_tb]; rfl, rephases_of_rephase (realignBack_named _ s) ha (.refl _), hrg, hsk, hcq,
        rephase_hs _, hout, rephase_sl_notices _⟩
    case forward =>
      have hplain : applyStaged false (rephase (s.realignForward s.tb.tick)) = rephase (s.realignForward s.tb.tick) :=
        applyStaged_none false (by rw [rephase_tb, realignForward_tb, hstaged])
      rw [realign_forward hc, hplain, ite_self] at hexec
      obtain ⟨hrg, hout, hcq, hsk⟩ := rephase_rest (s.realignForward s.tb.tick)
      obtain ⟨hsl', hoc', hrg', hcq', hsk', -, -⟩ := realignForward_rest (c := s.tb.tick) hreg hscan
      refine ⟨_, hexec, by rw [rephase_tb, realignForward_tb], rephases_of_rephase (realignForward_named _ hreg hscan) ha (.refl _),
        hrg.trans hrg', hsk.trans hsk', hcq.trans hcq', hout.trans (by rw [hoc']), ?_⟩
      rw [rephase_sl_notices, hsl']
  case wrap =>
    let n := (s.wrapped x).timeNamed false st
    have hnamed := wrap_rephaseNamed x st s
    have hna : n.active = some (w, c) := hnamed.active ha
    have hstep : applyStaged false (s.wrapped x) = rephase n := by
      refine applyStaged_rephases (by rw [wrapped_tb, hst]) ?_
      rw [wrapped_tb]
      dsimp only
      rw [Nat.mod_eq_of_lt (by omega)]
      omega
    obtain ⟨hsln, hocn, hrgn, hcqn, hskn, -, -⟩ := timeNamed_rest false st (s.wrapped x)
    obtain ⟨hsl', hrg', hoc', hcq', hsk', -⟩ := wrapped_keeps x s
    obtain ⟨hrg, hout, hcq, hsk⟩ := rephase_rest n
    have hnk : n.sk.stack = [] := by rw [hnamed.sk, hk]
    have hkept := handNotice_keeps x hna hnk
    have htb : (handNotice x (rephase n)).tb = n.tb := by rw [handNotice_tb, rephase_tb]
    have hntb : n.tb.seconds = st.value ∧ n.tb.tick = 0 := ⟨hnamed.sec, hnamed.tick⟩
    obtain ⟨m, hexam⟩ := examineNow_nothing (s := handNotice x (rephase n)) (by rw [handNotice_sk, hsk, hnk])
      (by rw [State.active_congr hkept.windows, rephase_active hna]; rfl)
      (fun v hv => by
        rw [htb, hntb.1]
        rw [hkept.windows, rephase_windows hna, moved_windows hna, hnamed.sl] at hv
        obtain ⟨ws, hw, -⟩ := State.active_eq_some.mp ha
        rw [hw] at hv hahead
        rcases List.mem_cons.mp hv with rfl | hv
        · exact hahead w List.mem_cons_self
        · exact hahead v (List.mem_cons_of_mem w hv))
    have hexec : exec .secondBoundary s = .next { handNotice x (rephase n) with moment := m } := by
      rw [exec_secondBoundary, takeWrap_applies hwrap hl, hstep, hexam]
    refine ⟨_, hexec, ?_, rephases_of_rephase hnamed ha ⟨hkept.windows, hkept.demand, hkept.capture, hkept.cl, hkept.raises⟩,
      ?_, ?_, ?_, ?_, ?_⟩
    · show ((handNotice x (rephase n)).tb.seconds, (handNotice x (rephase n)).tb.tick) = _
      rw [htb, hntb.1, hntb.2]
    · exact (handNotice_rg ..).trans (hrg.trans (hrgn.trans hrg'))
    · exact (handNotice_sk ..).trans (hsk.trans (hskn.trans hsk'))
    · exact (handNotice_cq ..).trans (hcq.trans (hcqn.trans hcq'))
    · exact (handNotice_oc_output ..).trans (hout.trans (congrArg Oc.output (hocn.trans hoc')))
    · exact (handNotice_sl_notices ..).trans ((rephase_sl_notices n).trans (congrArg Sl.notices (hsln.trans hsl')))

end Sys2Proof.Machine
end

