-- ==== Sys2Proof/Proofs/Resume.lean ====
section
/-! The tests of RESUME and what one that passes does (O46; R64, R130, R150, R162 to R170). -/

namespace Sys2Proof.Machine

/-! ### The tests of RESUME (R163 to R166) -/

/-- An element agrees with the held one by target, index and value. -/
theorem ResumeElement.agrees_iff (e : ResumeElement) (held : PElement) : e.agrees held = true ↔
    e.target = held.entry.setting.code ∧ (∀ i ∈ held.entry.setting.index, e.index = i)
      ∧ (e.valid = true → held.valid = true ∧ held.entry.setting.acceptsExact e.value = true) := by
  unfold ResumeElement.agrees
  cases held.entry.setting.index <;> cases e.valid <;> simp [and_assoc]

/-- The comparison of a RESUME, its continuation taken by the two marks that the command carries. -/
theorem ResumeFields.fits_iff (f : ResumeFields) (top : Frame) (r : RegSettings) : f.fits top r = true ↔ f.agreesWith top r := by
  unfold ResumeFields.fits ResumeFields.agreesWith
  cases hr : f.ramp <;> cases hc : f.cycle <;>
    simp [ResumeFields.continuation, hr, hc, Frame.allows, FaultKind.holds, ResumeElement.agrees_iff, and_assoc]

/-- RAMP is named alone, CYCLE alone, or neither. -/
theorem ResumeFields.continuation_eq {f : ResumeFields} (h : f.ramp = true → f.cycle = false) :
    f.continuation = some (if f.ramp then .ramp else if f.cycle then .cycle else .none) := by
  unfold ResumeFields.continuation
  cases hr : f.ramp <;> cases hc : f.cycle <;> simp_all

/-- The continuation that the fields name where they name one. -/
abbrev ResumeFields.named (f : ResumeFields) : Continuation := if f.ramp then .ramp else if f.cycle then .cycle else .none

theorem ResumeFields.named_none_iff (f : ResumeFields) : f.named = .none ↔ f.ramp = false ∧ f.cycle = false := by
  unfold ResumeFields.named
  cases f.ramp <;> cases f.cycle <;> simp

theorem ResumeFields.named_ramp_iff (f : ResumeFields) : f.named = .ramp ↔ f.ramp = true := by
  unfold ResumeFields.named
  cases f.ramp <;> cases f.cycle <;> simp

theorem ResumeFields.named_code (f : ResumeFields) : f.named.code = if f.ramp then 1 else if f.cycle then 2 else 0 := by
  unfold ResumeFields.named
  cases f.ramp <;> cases f.cycle <;> rfl

section Tests
variable {l : LinkId} {args : Bytes} {s : State} {r : Reply}

theorem exec_resume_serve (h : s.serves l 22 args) : exec .resume s = .next (serve cmdResume l (22 :: args) s) :=
  congrArg Host.Outcome.next (serveCode_serve (cmd := cmdResume) h)

/-- A RESUME that a test refuses changes nothing but the answering link. -/
theorem exec_resume_refused (h : s.serves l 22 args) (ht : resumeTest l args (takeFrame l s) = .error r) :
    exec .resume s = .next (s.answer l 22 r) := by
  rw [exec_resume_serve h]
  exact congrArg _ (serve_unchanged h (by rw [cmdResume, ht]))

theorem resumeTest_lockout (ho : s.oc.output = .lockout) : resumeTest l args s = .error ⟨.lockedOut, []⟩ := if_pos ho

variable (ho : s.oc.output ≠ .lockout)
include ho

theorem resumeTest_barred (hb : s.barred l = true) : resumeTest l args s = .error ⟨.localHeld, []⟩ := by
  rw [resumeTest, if_neg ho, if_pos hb]
  rfl

variable (hb : s.barred l = false)
include hb

theorem resumeTest_badLength (hf : resumeFields args = none) : resumeTest l args s = .error ⟨.badLength, []⟩ := by
  rw [resumeTest, if_neg ho, if_neg (by rw [hb]; exact Bool.false_ne_true), hf]
  rfl

variable {f : ResumeFields} (hf : resumeFields args = some f)
include hf

theorem resumeTest_empty (hk : s.sk.stack = []) : resumeTest l args s = .error (refusalTop .stale s) := by
  simp only [resumeTest, if_neg ho, hb, Bool.false_eq_true, if_false, hf, hk]

variable {top : Frame} {lower : List Frame} (hk : s.sk.stack = top :: lower)
include hk

theorem resumeTest_other (hs : f.seq ≠ top.seq) : resumeTest l args s =
    .error (refusalTop (if lower.any fun g => decide (g.seq = f.seq) then .notTop else .stale) s) := by
  simp only [resumeTest, if_neg ho, hb, Bool.false_eq_true, if_false, hf, hk, if_neg hs]
  split <;> rfl

variable (hs : f.seq = top.seq)
include hs

theorem resumeTest_format (ha : ¬ f.agreesWith top s.rg.set) : resumeTest l args s = .error ⟨.format, []⟩ := by
  simp only [resumeTest, if_neg ho, hb, Bool.false_eq_true, if_false, hf, hk, if_pos hs]
  rw [if_neg (mt (f.fits_iff top s.rg.set).mp ha)]
  rfl

theorem resumeTest_agrees (ha : f.agreesWith top s.rg.set) : resumeTest l args s =
    if s.refusesResume f top then .error ⟨.notReady, []⟩ else .ok (f, top, f.named) := by
  have ⟨_, _, _, _, hramp, _⟩ := ha
  have hready : s.resumeNotReady top f.named = true ↔ s.refusesResume f top := by
    have hcycle : f.named = .cycle ↔ f.cycle = true := by
      unfold ResumeFields.named
      cases hr : f.ramp
      · cases f.cycle <;> simp
      · simp [(hramp hr).1]
    simp [State.resumeNotReady, hcycle]
  simp only [resumeTest, if_neg ho, hb, Bool.false_eq_true, if_false, hf, hk, if_pos hs]
  rw [if_pos ((f.fits_iff top s.rg.set).mpr ha), ResumeFields.continuation_eq fun hr => (hramp hr).1]
  simp only [← hready]
  rfl

end Tests

theorem resumeFields_short {args : Bytes} (h : args.length < 8) : resumeFields args = none := by
  rw [resumeFields, if_neg]
  omega

/-- The field of STALE and NOT_TOP with a frame held: the top frame's number (R166). -/
theorem refusalTop_cons {s : State} {top : Frame} {lower : List Frame} (st : Status) (hk : s.sk.stack = top :: lower) :
    refusalTop st s = ⟨st, [1] ++ u16 top.seq⟩ := by
  have hflag : flagByte true = [1] := by decide
  rw [refusalTop, topField, hk]
  exact congrArg (fun b => (⟨st, b ++ u16 top.seq⟩ : Reply)) hflag

/-- The refusals of RESUME in their order (R163 to R166). -/
theorem resume_refusals {s : State} {l : LinkId} {args : Bytes} (hs : s.serves l 22 args) :
    (s.oc.output = .lockout → exec .resume s = .next (s.answer l 22 ⟨.lockedOut, []⟩))
      ∧ (s.oc.output ≠ .lockout → l = .telemetry → s.pins.localIn = true →
          exec .resume s = .next (s.answer l 22 ⟨.localHeld, []⟩))
      ∧ (s.oc.output ≠ .lockout → s.barred l = false → args.length < 8 →
          exec .resume s = .next (s.answer l 22 ⟨.badLength, []⟩))
      ∧ (∀ f, resumeFields args = some f → s.oc.output ≠ .lockout → s.barred l = false →
          (s.sk.stack = [] → exec .resume s = .next (s.answer l 22 ⟨.stale, [0, 0, 0]⟩))
          ∧ (∀ top, s.sk.stack = [top] → f.seq ≠ top.seq →
              exec .resume s = .next (s.answer l 22 ⟨.stale, [1] ++ u16 top.seq⟩))
          ∧ (∀ top low, s.sk.stack = [top, low] → f.seq ≠ top.seq →
              exec .resume s = .next
                (s.answer l 22 ⟨if f.seq = low.seq then .notTop else .stale, [1] ++ u16 top.seq⟩))
          ∧ (∀ top lower, s.sk.stack = top :: lower → f.seq = top.seq →
              (¬ f.agreesWith top s.rg.set → exec .resume s = .next (s.answer l 22 ⟨.format, []⟩))
              ∧ (f.agreesWith top s.rg.set → s.refusesResume f top →
                  exec .resume s = .next (s.answer l 22 ⟨.notReady, []⟩)))) := by
  let u := takeFrame l s
  refine ⟨fun ho => exec_resume_refused hs (resumeTest_lockout (s := u) ho),
    fun ho hl hp => exec_resume_refused hs (resumeTest_barred (s := u) ho ?_),
    fun ho hb hl => exec_resume_refused hs (resumeTest_badLength (s := u) ho hb (resumeFields_short hl)),
    fun f hf ho hb => ⟨fun hk => ?_, fun top hk hne => ?_, fun top low hk hne => ?_, fun top lower hk heq => ⟨fun ha => ?_, fun ha hr => ?_⟩⟩⟩
  · change s.barred l = true
    simp [State.barred, hl, hp]
  · rw [exec_resume_refused hs (resumeTest_empty (s := u) ho hb hf hk)]
    have hfield : refusalTop .stale u = ⟨.stale, [0, 0, 0]⟩ := by
      rw [refusalTop, topField, show u.sk.stack = [] from hk]
      rfl
    rw [hfield]
  · rw [exec_resume_refused hs (resumeTest_other (s := u) ho hb hf hk hne), refusalTop_cons (s := u) _ hk]
    rfl
  · rw [exec_resume_refused hs (resumeTest_other (s := u) ho hb hf hk hne), refusalTop_cons (s := u) _ hk]
    simp only [List.any_cons, List.any_nil, Bool.or_false, decide_eq_true_eq, eq_comm (a := low.seq)]
  · exact exec_resume_refused hs (resumeTest_format (s := u) ho hb hf hk heq ha)
  · exact exec_resume_refused hs ((resumeTest_agrees (s := u) ho hb hf hk heq ha).trans (if_pos hr))

/-! ### A RESUME that passes (R130, R150, R167 to R169) -/

/-- The entries given back are those of the valid elements, with the command's values. -/
theorem requeued_eq (elements : List ResumeElement) (held : List PElement) : requeued elements held =
    ((elements.zip held).filter fun p => p.1.valid).map fun p => { p.2.entry with value := p.1.value } := by
  unfold requeued
  induction elements.zip held with
  | nil => rfl
  | cons p ps ih =>
    rw [List.filterMap_cons, List.filter_cons]
    cases p.1.valid <;> simp [ih]

/-! #### The release of the output -/

/-- A change of output state, or none, leaves the duty where the output stays or drives. -/
theorem changeOutput_rg_ite (o : Output) (s : State) : (changeOutput o s).rg =
    { s.rg with duty := if o = s.oc.output ∨ o.drives = true then s.rg.duty else 0 } := by
  by_cases h : s.oc.output = o
  · rw [changeOutput_same h, if_pos (.inl h.symm)]
  · rw [changeOutput_rg h]
    simp [Ne.symm h]

theorem changeOutput_link_ite (o : Output) (s : State) (k : LinkId) : (changeOutput o s).link k =
    if o = s.oc.output then s.link k else (s.link k).raise .output := by
  by_cases h : s.oc.output = o
  · rw [changeOutput_same h, if_pos h.symm]
  · rw [changeOutput_link h, if_neg (Ne.symm h)]

/-- The output that a RESUME leaves, and its restart-pending (R130, R168). -/
def State.releasedTo (c : Continuation) (s : State) : Output × Bool :=
  if s.oc.output = .held ∧ ∀ g ∈ s.sk.stack, g.kind.format = .timeline then
    match c with
    | .ramp => if s.hs.mains = .present then (.ramp, false) else (.stopped .mains, s.oc.restartPending)
    | .none => (.stopped .cleared, false)
    | .cycle => (s.oc.output, s.oc.restartPending)
  else (s.oc.output, s.oc.restartPending)

/-- The ramp limit that goes with an output: 0 where RAMP is entered. -/
def State.rampLimitFor (s : State) (o : Output) : Int := if o = .ramp ∧ s.oc.output ≠ .ramp then 0 else s.oc.rampLimit

/-- The release is a change to the output that it leaves, which is none where that is the output in force. -/
theorem releaseHeld_eq (c : Continuation) (s : State) : releaseHeld c s = changeOutput (s.releasedTo c).1
    { s with oc := { s.oc with restartPending := (s.releasedTo c).2, rampLimit := s.rampLimitFor (s.releasedTo c).1 } } := by
  have hstays : s = changeOutput s.oc.output
      { s with oc := { s.oc with restartPending := s.oc.restartPending, rampLimit := s.rampLimitFor s.oc.output } } := by
    have hlimit : s.rampLimitFor s.oc.output = s.oc.rampLimit := if_neg fun h => h.2 h.1
    rw [hlimit, changeOutput_same rfl]
  have hall : (s.sk.stack.all fun f => !f.kind.holds) = true ↔ ∀ g ∈ s.sk.stack, g.kind.format = .timeline := by
    simp [FaultKind.holds]
  unfold releaseHeld State.releasedTo
  simp only [hall]
  by_cases hr : s.oc.output = .held ∧ ∀ g ∈ s.sk.stack, g.kind.format = .timeline
  · have hne : s.oc.output ≠ .ramp := by rw [hr.1]; decide
    rw [if_pos hr, if_pos hr]
    cases c with
    | ramp =>
      by_cases hm : s.hs.mains = .present
      · simp [hm, State.rampLimitFor, hne, enterRamp]
      · simp [hm, State.rampLimitFor]
    | none => simp [State.rampLimitFor]
    | cycle => exact hstays
  · rw [if_neg hr, if_neg hr]
    exact hstays

/-! #### The window that the popped frame names -/

/-- What a RESUME with NONE on a TIMELINE frame makes of an entry: as DELETE WINDOW (R169, log 40). -/
def WindowRec.resumed (ends : Prop) [Decidable ends] (named : Option Nat) (now : Nat) (v : WindowRec) : WindowRec :=
  match v.life with
  | .active c =>
    if ends ∧ named = some v.id then
      (if now < v.stop then { v with stop := max now (v.start + 1), life := .ending c .delete } else { v with life := .ending c .time })
    else v
  | .scheduled => v
  | .ending _ _ => v

theorem WindowRec.resumed_eq (ends : Prop) [Decidable ends] (named : Option Nat) (now : Nat) (v : WindowRec) :
    v.resumed ends named now = if ends ∧ named = some v.id then v.cut now else v := by
  unfold WindowRec.resumed
  cases hlife : v.life with
  | active c =>
    refine if_congr Iff.rfl ?_ rfl
    split
    case isTrue h => exact (WindowRec.cut_ahead hlife h).symm
    case isFalse h => exact (WindowRec.cut_past hlife (Nat.not_lt.mp h)).symm
  | scheduled => rw [WindowRec.cut_other (by simp [hlife]), ite_self]
  | ending c cause => rw [WindowRec.cut_other (by simp [hlife]), ite_self]

/-- A resumed entry keeps its ID, its profile and its cycle part. -/
theorem WindowRec.resumed_keeps (ends : Prop) [Decidable ends] (named : Option Nat) (now : Nat) (v : WindowRec) :
    (v.resumed ends named now).id = v.id ∧ (v.resumed ends named now).profile = v.profile
      ∧ (v.resumed ends named now).life.part = v.life.part := by
  unfold WindowRec.resumed
  cases hlife : v.life with
  | active c =>
    dsimp only
    split
    · split <;> exact ⟨rfl, rfl, rfl⟩
    · exact ⟨rfl, rfl, by rw [hlife]⟩
  | scheduled => exact ⟨rfl, rfl, by rw [hlife]⟩
  | ending c cause => exact ⟨rfl, rfl, by rw [hlife]⟩

theorem resumeWindow_windows (top : Frame) (c : Continuation) (s : State) : (resumeWindow top c s).sl.windows =
    s.sl.windows.map (WindowRec.resumed (c = .none ∧ top.kind.format = .timeline) (top.timeline.map TimelinePart.windowId) s.tb.seconds) := by
  have hid : s.sl.windows = s.sl.windows.map id := (List.map_id _).symm
  unfold resumeWindow
  cases ht : top.timeline with
  | none =>
    refine hid.trans (List.map_congr_left fun v _ => ?_)
    rw [WindowRec.resumed_eq, if_neg (by simp)]
    rfl
  | some part =>
    by_cases hends : c = .none ∧ top.kind.format = .timeline
    · dsimp only
      rw [if_pos hends]
      refine List.map_congr_left fun v _ => ?_
      rw [WindowRec.resumed_eq]
      exact if_congr (by simp [hends, eq_comm]) rfl rfl
    · dsimp only
      rw [if_neg hends]
      refine hid.trans (List.map_congr_left fun v _ => ?_)
      rw [WindowRec.resumed_eq, if_neg (fun h => hends h.1)]
      rfl

/-- The window that runs goes on at its pair. -/
theorem resumeWindow_active (top : Frame) (c : Continuation) {s : State} {w : WindowRec} {part : CyclePart} (h : s.active = some (w, part)) :
    ∃ v, (resumeWindow top c s).active = some (v, part) ∧ v.id = w.id ∧ v.profile = w.profile := by
  unfold State.active at h ⊢
  rw [resumeWindow_windows]
  cases hw : s.sl.windows with
  | nil => simp [hw, activeOf] at h
  | cons x xs =>
    simp only [hw, activeOf, Option.map_eq_some_iff, Prod.mk.injEq] at h
    obtain ⟨p, hp, rfl, rfl⟩ := h
    obtain ⟨hid, hprofile, hpart⟩ := x.resumed_keeps (c = .none ∧ top.kind.format = .timeline) (top.timeline.map TimelinePart.windowId) s.tb.seconds
    refine ⟨_, ?_, hid, hprofile⟩
    rw [List.map_cons, activeOf, hpart, hp]
    rfl

theorem resumeWindow_active_none (top : Frame) (c : Continuation) {s : State} (h : s.active = none) : (resumeWindow top c s).active = none := by
  unfold State.active at h ⊢
  rw [resumeWindow_windows]
  cases hw : s.sl.windows with
  | nil => rfl
  | cons x xs =>
    rw [hw, activeOf, Option.map_eq_none_iff] at h
    rw [List.map_cons, activeOf, (x.resumed_keeps _ _ _).2.2, h]
    rfl

/-! #### A RESUME carried out, block by block -/

/-- Steps 1 to 3 of R167: the frame popped, its elements queued, Iset the command's. -/
abbrev State.resumePopped (f : ResumeFields) (top : Frame) (s : State) : State :=
  let back := requeued f.elements top.pendingList
  { s with
    sk := { s.sk with stack := s.sk.stack.tail }
    rg := { s.rg with set := { s.rg.set with iset := f.iset }, overStreak := 0 }
    cq := { queue := s.cq.queue ++ back }
    moment := { s.moment with requeued := s.moment.requeued ++ back.map QEntry.setting } }

/-- Steps 4 and 5 of R167: the output released and the window that the frame names ended. -/
abbrev State.resumeActed (f : ResumeFields) (top : Frame) (c : Continuation) (s : State) : State :=
  resumeWindow top c (releaseHeld c (s.resumePopped f top))

section Blocks
variable (f : ResumeFields) (top : Frame) (c : Continuation) (s : State)

theorem resumeFrame_eq : resumeFrame f top c s = raiseAll .resumed
    (if (s.resumeActed f top c).sk.stack.isEmpty then endSuspension (s.resumeActed f top c) else s.resumeActed f top c) := rfl

/-- What the end of a suspension, if it comes, leaves of the state acted on. -/
theorem resumeFrame_keeps :
    let a := s.resumeActed f top c
    let t := resumeFrame f top c s
    t.sk = a.sk ∧ t.rg = a.rg ∧ t.cq = a.cq ∧ t.oc.output = a.oc.output ∧ t.oc.restartPending = a.oc.restartPending
      ∧ t.oc.rampLimit = a.oc.rampLimit ∧ t.sl.windows = a.sl.windows ∧ ∀ k, t.link k = (a.link k).raise .resumed := by
  intro a t
  simp only [t, resumeFrame_eq]
  split
  · simp [a, fun k => show (endSuspension (s.resumeActed f top c)).link k = (s.resumeActed f top c).link k by
      rw [State.link, endSuspension_lc]; rfl]
  · simp [a]

theorem resumeActed_output :
    let out := (s.resumePopped f top).releasedTo c
    ((s.resumeActed f top c).oc.output, (s.resumeActed f top c).oc.restartPending) = out
      ∧ (s.resumeActed f top c).oc.rampLimit = s.rampLimitFor out.1 := by
  intro out
  simp only [State.resumeActed, resumeWindow_oc, releaseHeld_eq, changeOutput_output, changeOutput_oc_restartPending,
    changeOutput_oc_rampLimit]
  exact ⟨rfl, rfl⟩

theorem resumeActed_rg : (s.resumeActed f top c).rg = { s.rg with
    set := { s.rg.set with iset := f.iset }, overStreak := 0
    duty := if ((s.resumePopped f top).releasedTo c).1 = s.oc.output ∨ ((s.resumePopped f top).releasedTo c).1.drives = true
      then s.rg.duty else 0 } := by
  rw [State.resumeActed, resumeWindow_rg, releaseHeld_eq, changeOutput_rg_ite]

theorem resumeActed_link (k : LinkId) : (s.resumeActed f top c).link k =
    if ((s.resumePopped f top).releasedTo c).1 = s.oc.output then s.link k else (s.link k).raise .output := by
  rw [State.resumeActed, State.link, resumeWindow_lc, releaseHeld_eq]
  exact changeOutput_link_ite _ _ k

theorem resumeActed_active {w : WindowRec} {part : CyclePart} (h : s.active = some (w, part)) :
    ∃ v, (s.resumeActed f top c).active = some (v, part) ∧ v.id = w.id ∧ (s.resumeActed f top c).profileOf v = s.profileOf w := by
  obtain ⟨v, hactive, hid, hprofile⟩ := resumeWindow_active top c (s := releaseHeld c (s.resumePopped f top))
    ((State.active_congr (by simp)).trans h)
  refine ⟨v, hactive, hid, ?_⟩
  simp [State.profileOf, hprofile]

/-- Where no suspension ends, or no window runs, the capture stays as it was. -/
theorem resumeFrame_capture (h : s.sk.stack.tail ≠ [] ∨ s.active = none) : (resumeFrame f top c s).sl.capture = s.sl.capture := by
  rw [resumeFrame_eq, raiseAll_sl]
  have hacted : (s.resumeActed f top c).sl.capture = s.sl.capture := by simp [State.resumeActed, releaseHeld_eq]
  rcases h with h | h
  · rw [if_neg (by simpa [State.resumeActed] using h), hacted]
  · have hidle : (s.resumeActed f top c).active = none := resumeWindow_active_none top c ((State.active_congr (by simp)).trans h)
    split
    · rw [endSuspension_idle hidle, hacted]
    · exact hacted

/-- Where the suspension ends with a window running, its demand follows the phase, and a capture opens at it but for a cycle
boundary that is still to be taken. -/
theorem resumeFrame_running {w : WindowRec} {part : CyclePart} (hk : s.sk.stack.tail = []) (h : s.active = some (w, part)) :
    let t := resumeFrame f top c s
    (t.sl.demand = .opened ↔ (s.profileOf w).onT ≤ part.phase)
      ∧ (Position.boundary ∉ s.moment.positions →
          t.sl.capture.map Capture.opening = some (part.phase, true) ∧ t.cl.assembly.map Assembly.follows = some (w.id, part.cycle))
      ∧ (Position.boundary ∈ s.moment.positions → t.sl.capture = s.sl.capture) := by
  intro t
  obtain ⟨v, hactive, hid, hprofile⟩ := resumeActed_active f top c s h
  have hstack : (s.resumeActed f top c).sk.stack = [] := by simpa [State.resumeActed] using hk
  have hpos : (s.resumeActed f top c).moment.positions = s.moment.positions := by simp [State.resumeActed]
  have ht : t = raiseAll .resumed (endSuspension (s.resumeActed f top c)) := by
    rw [show t = _ from resumeFrame_eq f top c s, if_pos (by rw [hstack]; rfl)]
  rw [ht, raiseAll_sl, raiseAll_cl, ← hpos, ← hid, ← hprofile]
  refine ⟨endSuspension_demand hactive hstack, endSuspension_opens hactive, fun hb => ?_⟩
  rw [endSuspension_waits hactive hb, sync_sl_capture]
  simp [State.resumeActed, releaseHeld_eq]

end Blocks

/-- The output that a release leaves, by the marks of the command. -/
theorem releasedTo_named (f : ResumeFields) {s : State} {lower : List Frame} (hk : s.sk.stack = lower) : s.releasedTo f.named =
    if (s.oc.output = .held ∧ ∀ g ∈ lower, g.kind.format = .timeline) ∧ f.ramp = true then
      (if s.hs.mains = .present then (.ramp, false) else (.stopped .mains, s.oc.restartPending))
    else if (s.oc.output = .held ∧ ∀ g ∈ lower, g.kind.format = .timeline) ∧ (f.ramp = false ∧ f.cycle = false) then
      (.stopped .cleared, false)
    else (s.oc.output, s.oc.restartPending) := by
  unfold State.releasedTo
  rw [hk]
  by_cases hr : s.oc.output = .held ∧ ∀ g ∈ lower, g.kind.format = .timeline
  · simp only [eq_true hr, true_and, if_true]
    cases hramp : f.ramp <;> cases hcycle : f.cycle <;> simp [ResumeFields.named, hramp, hcycle]
  · simp only [hr, false_and, if_false]

/-- The payload of an OK with result fields: the command code, the error flags and the fields (R207). -/
theorem responsePayload_fields (code : Byte) (e : ErrFlags) (fields : Bytes) :
    responsePayload code.toNat e ⟨.ok, fields⟩ = [code, BitVec.ofNat 8 e.word] ++ fields :=
  congrArg (· ++ fields) ((List.append_nil _).symm.trans (responsePayload_ok code e))

/-- Settles O46: the tests in order, the frame popped, the output and the window by the continuation, and the end of the
suspension. -/
theorem resumeTakes : Obligations.ResumeTakes := by
  unfold Obligations.ResumeTakes
  refine ⟨fun s l args hs => resume_refusals hs, fun s l args f top lower hs ho hb hf hk hseq ha hr => ?_⟩
  intro gives none2 released out
  let u := takeFrame l s
  let t := resumeFrame f top f.named u
  have hgives : requeued f.elements top.pendingList = gives := requeued_eq ..
  have hpopped : (u.resumePopped f top).sk.stack = lower := congrArg List.tail hk
  have hout : (u.resumePopped f top).releasedTo f.named = out := releasedTo_named f hpopped
  have hcmd : cmdResume l args u = (⟨.ok, u8 lower.length ++ u8 f.named.code ++ u8 gives.length⟩, t) := by
    have htest : resumeTest l args u = .ok (f, top, f.named) :=
      (resumeTest_agrees (s := u) ho hb hf hk hseq ha).trans (if_neg hr)
    have hlength : u.sk.stack.length - 1 = lower.length := by
      rw [show u.sk.stack = _ from hk]
      rfl
    rw [cmdResume, htest, ← hgives, ← hlength]
    rfl
  obtain ⟨hsk, hrg, hcq, houtput, hpending, hlimit, hwindows, hlink⟩ := resumeFrame_keeps f top f.named u
  obtain ⟨hpair, hramp⟩ := resumeActed_output f top f.named u
  rw [hout] at hpair hramp
  rw [exec_resume_serve hs]
  refine ⟨_, congrArg _ (serve_eq hcmd), hsk.trans ?sk, hrg.trans ?rg, ?queue, ?moment, ?output, resumeFrame_oc_autoRestart ..,
    hlimit.trans hramp, hwindows.trans ?windows, fun w c hlow hactive => ?running, fun h => ?capture, fun k => ?flags,
    resumeFrame_tb .., resumeFrame_hs .., resumeFrame_ns .., resumeFrame_cl_log .., resumeFrame_cl_nextSeq ..,
    resumeFrame_sl_notices .., resumeFrame_pins .., resumeFrame_pending .., ?buffer⟩
  case sk =>
    rw [State.resumeActed, resumeWindow_sk, releaseHeld_sk]
    exact congrArg (fun stack => { s.sk with stack := stack }) hpopped
  case rg =>
    rw [resumeActed_rg, hout]
    rfl
  case queue =>
    rw [← hgives]
    exact (congrArg Cq.queue hcq).trans (congrArg Cq.queue ((resumeWindow_cq ..).trans (releaseHeld_cq ..)))
  case moment =>
    rw [← hgives]
    exact resumeFrame_moment ..
  case output =>
    rw [← hpair]
    exact Prod.ext houtput hpending
  case windows =>
    rw [resumeWindow_windows, releaseHeld_sl_windows, releaseHeld_tb]
    refine List.map_congr_left fun v _ => ?_
    cases hlife : v.life with
    | active c =>
      simp only [WindowRec.resumed, hlife, f.named_none_iff, and_assoc, none2]
      rfl
    | scheduled => simp only [WindowRec.resumed, hlife]
    | ending c cause => simp only [WindowRec.resumed, hlife]
  case running =>
    obtain ⟨hdemand, hopens, hwaits⟩ := resumeFrame_running f top f.named u (hpopped.trans hlow) hactive
    exact ⟨hdemand, hopens, hwaits⟩
  case capture => exact resumeFrame_capture f top f.named u (h.imp_left fun hne => by rwa [← hpopped] at hne)
  case flags =>
    rw [onLink_respond_flags, hlink, Link.raise_flags, resumeActed_link, hout, ← takeFrame_link_flags hs k]
    congr 1
    by_cases hsame : out.1 = s.oc.output
    · rw [if_pos hsame, if_pos (by exact hsame)]
      simp [u]
    · rw [if_neg hsame, if_neg (by exact hsame)]
      rfl
  case buffer =>
    rw [State.onLink_link, if_pos rfl]
    have herrors : (t.link l).errors = (s.link l).errors := by
      rw [hlink, Link.raise_errors, resumeActed_link]
      split
      · rw [takeFrame_link_eq hs, if_pos rfl]
      · rw [Link.raise_errors, takeFrame_link_eq hs, if_pos rfl]
    change some (frameOf (responsePayload (22 : Byte).toNat (t.link l).errors _)) = _
    rw [responsePayload_fields, herrors, f.named_code]
    push_cast
    simp only [List.append_assoc]

end Sys2Proof.Machine
end

