-- ==== Sys2Proof/Proofs/NoticePairs.lean ====
section
/-! The pair and the positions that a notice takes (O6; R48 to R51, R54 to R56, R58, R70, R71). -/

namespace Sys2Proof.Machine

/-! ### What a notice takes (R49 to R51, R54 to R56) -/

/-- The elapsed ticks of R49, with the seconds' difference around their wrap. -/
theorem elapsed_eq (c : CyclePart) (sec tick : Nat) :
    elapsed c sec tick = Int.bmod ((sec : Int) - c.anchorSec) 4294967296 * 2400 + tick - c.anchorTick := by
  simp only [elapsed, signedDiff, Config.count32, Config.ticksPerSecond]
  omega

/-- The positions of a cycle by their marks: whether the cycle has the position, its phase and its kind. -/
def Profile.marks (p : Profile) : List (Bool × Nat × Position) :=
  [(true, 0, .boundary), (p.fits .on, p.opensAt .on, .opens .on), (p.fits .on, p.closesAt .on, .closes .on),
    (true, p.onT, .offEdge), (p.fits .off, p.opensAt .off, .opens .off), (p.fits .off, p.closesAt .off, .closes .off)]

theorem Profile.positions_eq_marks (p : Profile) :
    p.positions = p.marks.filterMap fun m => if m.1 = true then some m.2 else none := by
  unfold Profile.positions Profile.marks
  cases p.fits .on <;> cases p.fits .off <;> rfl

theorem Profile.between_eq_marks (p : Profile) (φ k φ' : Nat) : p.between φ k φ' =
    (List.range (k + 1)).flatMap fun j => p.marks.filterMap fun m =>
      if m.1 = true ∧ φ < j * p.period + m.2.1 ∧ j * p.period + m.2.1 ≤ k * p.period + φ' then some m.2.2 else none := by
  unfold Profile.between
  simp only [p.positions_eq_marks, List.filterMap_filterMap]
  refine congrArg (fun g => (List.range (k + 1)).flatMap g) (funext fun j => congrArg (fun g => p.marks.filterMap g) (funext fun m => ?_))
  by_cases hm : m.1 = true <;> simp [hm]

theorem Profile.inWindow_on (p : Profile) (φ : Nat) : p.inWindow .on φ = true ↔
    p.onOffsetT + p.nw ≤ p.onT ∧ p.onT - p.onOffsetT - p.nw ≤ φ ∧ φ < p.onT - p.onOffsetT :=
  Bool.and_eq_true_iff.trans (and_congr decide_eq_true_iff decide_eq_true_iff)

theorem Profile.inWindow_off (p : Profile) (φ : Nat) : p.inWindow .off φ = true ↔
    p.onT + p.delayT + p.nw ≤ p.period ∧ p.onT + p.delayT ≤ φ ∧ φ < p.onT + p.delayT + p.nw :=
  Bool.and_eq_true_iff.trans (and_congr decide_eq_true_iff decide_eq_true_iff)

/-- The pair and the positions that a notice of second `sec`, tick `tick` takes (R51). -/
def State.noticeTaken (s : State) (w : WindowRec) (c : CyclePart) (sec tick : Nat) : CyclePart × List Position :=
  let p := s.profileOf w
  let pair := derive p c sec tick
  if later pair.1 pair.2 c then ({ c with cycle := pair.1, phase := pair.2 }, p.between c.phase (pair.1 - c.cycle).toNat pair.2)
  else (c, [])

/-- What a notice leaves of a window's record. -/
abbrev WindowRec.named (w : WindowRec) : Nat × Nat × Nat × Fin 8 × LinkId := (w.id, w.start, w.stop, w.profile, w.origin)

section Noticed
variable {s t : State} {w v : WindowRec} {c d : CyclePart} {sec tick : Nat} {code : Option Int}

/-- The statement's clauses on a notice from the pair taken, the positions due and what MU did with the code. -/
theorem noticed_of (hactive : t.active = some (v, d)) (hnamed : v.named = w.named)
    (htaken : (d, t.moment.positions) = s.noticeTaken w c sec tick)
    (hsilent : code = none → (t.mu.onAcc, t.mu.offAcc, t.mu.offMin, t.mu.offMax) = (s.mu.onAcc, s.mu.offAcc, s.mu.offMin, s.mu.offMax))
    (hcode : ∀ x, code = some x →
      t.mu.onAcc = (if s.windowStatus .on = some .opened ∧ (s.profileOf w).inWindow .on d.phase = true then
          ⟨s.mu.onAcc.sum + x, s.mu.onAcc.count + 1⟩ else s.mu.onAcc)
        ∧ (t.mu.offAcc, t.mu.offMin, t.mu.offMax) =
          (if s.windowStatus .off = some .opened ∧ (s.profileOf w).inWindow .off d.phase = true then s.mu.offTaken x
          else (s.mu.offAcc, s.mu.offMin, s.mu.offMax)))
    (hresults : (t.mu.onResult, t.mu.offResult) = (s.mu.onResult, s.mu.offResult)) :
    s.noticed t w c sec tick code := by
  obtain ⟨hd, hpositions⟩ := Prod.ext_iff.mp htaken
  dsimp only at hd hpositions
  refine ⟨v, d, hactive, hnamed, ?anchor, ?pair, ?mu, hresults⟩
  case anchor =>
    rw [hd, State.noticeTaken]
    split <;> rfl
  case pair =>
    rw [hd, hpositions, State.noticeTaken]
    simp only [derive, elapsed_eq]
    by_cases hlater : later (derive (s.profileOf w) c sec tick).1 (derive (s.profileOf w) c sec tick).2 c = true
    all_goals simp only [derive, elapsed_eq] at hlater
    · rw [if_pos hlater]
      refine (if_pos (later_iff.mp hlater)).mpr ⟨rfl, rfl, ?_⟩
      rw [Profile.between_eq_marks]
      rfl
    · rw [if_neg hlater]
      exact (if_neg (mt later_iff.mpr hlater)).mpr ⟨rfl, rfl⟩
  case mu =>
    cases code with
    | none => exact hsilent rfl
    | some x =>
      obtain ⟨hon, hoff⟩ := hcode x rfl
      refine ⟨hon.trans (if_congr ?_ rfl rfl), hoff.trans (if_congr ?_ rfl rfl)⟩
      · exact and_congr Iff.rfl (Profile.inWindow_on ..)
      · exact and_congr Iff.rfl (Profile.inWindow_off ..)

end Noticed

/-! ### The notice, and the examination after it -/

section Taken
variable {n : State} {w : WindowRec} {c : CyclePart} (ha : n.active = some (w, c)) (ho : n.sl.outright = false)
  (hp : n.moment.positions = [])
include ha ho hp

/-- SL's part of a notice takes the pair and makes the positions due. -/
theorem tickNotice_taken : ∃ v d, (tickNotice n).active = some (v, d) ∧ v.named = w.named
    ∧ (d, (tickNotice n).moment.positions) = n.noticeTaken w c n.tb.seconds n.tb.tick := by
  unfold tickNotice State.noticeTaken
  simp only [ha, ho, Bool.false_eq_true, if_false]
  split
  · refine ⟨_, _, setPair_active ha _ _, rfl, ?_⟩
    simp [hp]
  · exact ⟨w, c, ha, rfl, by rw [hp]⟩

/-- A notice with its potential code, which enters the windows by the phase after it. -/
theorem handNotice_taken (x : Samples) : ∃ v d, (handNotice x n).active = some (v, d) ∧ v.named = w.named
    ∧ (d, (handNotice x n).moment.positions) = n.noticeTaken w c n.tb.seconds n.tb.tick
    ∧ ∀ m, (handNotice x n).phaseIn m = (n.profileOf w).inWindow m d.phase := by
  obtain ⟨v, d, hactive, hnamed, htaken⟩ := tickNotice_taken ha ho hp
  have hsl : (handNotice x n).sl = (tickNotice n).sl := offerCode_sl ..
  have hpositions : (handNotice x n).moment.positions = (tickNotice n).moment.positions := by
    rw [handNotice]
    simp
  have hactive' : (handNotice x n).active = some (v, d) := (State.active_congr (congrArg Sl.windows hsl)).trans hactive
  refine ⟨v, d, hactive', hnamed, by rw [hpositions, htaken], fun m => ?_⟩
  have hprofile : (handNotice x n).profileOf v = n.profileOf w := by
    have hindex : v.profile = w.profile := congrArg (fun a : Nat × Nat × Nat × Fin 8 × LinkId => a.2.2.2.1) hnamed
    rw [State.profileOf, handNotice_sl_profiles, hindex]
    rfl
  simp only [State.phaseIn, hactive', hprofile]

end Taken

/-- With no apply point, an examination leaves the window that runs, its pair, the positions due and MU. -/
theorem examineSecond_taken {m : State} {v : WindowRec} {d : CyclePart} (ha : m.active = some (v, d))
    (hq : m.sk.stack = [] ∨ m.cq.queue = []) : ∃ u, (examineSecond m).active = some (u, d) ∧ u.named = v.named
      ∧ (examineSecond m).moment.positions = m.moment.positions ∧ (examineSecond m).mu = m.mu := by
  obtain ⟨ws, hw, hpart⟩ := State.active_eq_some.mp ha
  have hfrom : m.examinedFrom = endByTime m := by
    rcases hq with hk | hq
    · refine if_neg ?_
      rw [hk, ha]
      simp
    · exact examinedFrom_of_queue_nil hq
  let u := if v.stop ≤ m.tb.seconds then v.toEnding .time else v
  have hu : u.named = v.named ∧ u.life.part = some d := by
    simp only [u]
    split
    · refine ⟨?_, (v.toEnding_keeps .time).2.trans hpart⟩
      cases hl : v.life <;> simp only [WindowRec.toEnding, hl]
    · exact ⟨rfl, hpart⟩
  have hended : (endByTime m).sl.windows = u :: ws := by rw [endByTime_first hw]
  have hkept : u.skipped (endByTime m).tb.seconds = false := by
    have hlife : u.life ≠ .scheduled := fun hl => by rw [hl] at hu; exact absurd hu.2 nofun
    simp [WindowRec.skipped, hlife]
  have hskipped : (skipWindows (endByTime m)).active = some (u, d) := by
    simp only [State.active, skipWindows_windows, hended, List.filter_cons, hkept, Bool.not_false, if_true, activeOf, hu.2,
      Option.map_some]
  rw [examineSecond_eq, hfrom, activateFirst_running (by rw [hskipped]; rfl)]
  exact ⟨u, hskipped, hu.1, by simp, by simp⟩

theorem examineNow_taken {m : State} {v : WindowRec} {d : CyclePart} (ha : m.active = some (v, d))
    (hq : m.sk.stack = [] ∨ m.cq.queue = []) : ∃ u, (examineNow m).active = some (u, d) ∧ u.named = v.named
      ∧ (examineNow m).moment.positions = m.moment.positions ∧ (examineNow m).mu = m.mu := by
  unfold examineNow
  split
  · exact examineSecond_taken ha hq
  · exact ⟨v, ha, rfl, rfl, rfl⟩

theorem noticeTaken_congr {s n : State} (h : n.sl = s.sl) (w : WindowRec) (c : CyclePart) (sec tick : Nat) :
    n.noticeTaken w c sec tick = s.noticeTaken w c sec tick := by
  have hprofile : n.profileOf w = s.profileOf w := by simp only [State.profileOf, h]
  simp only [State.noticeTaken, hprofile]

/-- What MU keeps of the two measurement windows. -/
abbrev Mu.measured (m : Mu) : (Acc × Acc × Option Int × Option Int) × Option Int × Option OffResult :=
  ((m.onAcc, m.offAcc, m.offMin, m.offMax), m.onResult, m.offResult)

/-- A notice handed to a state `n` whose SL and measurement windows are those of `s`, and what comes after it leaves the pair, the
positions and MU. -/
theorem noticed_of_handed {s n t : State} {w v : WindowRec} {c d : CyclePart} (x : Samples) (ha : s.active = some (w, c))
    (ho : s.sl.outright = false) (hsl : n.sl = s.sl) (hmu : n.mu.measured = s.mu.measured) (hp : n.moment.positions = [])
    (hhanded : (handNotice x n).active = some (v, d))
    (hleft : ∃ u, t.active = some (u, d) ∧ u.named = v.named ∧ t.moment.positions = (handNotice x n).moment.positions
      ∧ t.mu = (handNotice x n).mu) :
    s.noticed t w c n.tb.seconds n.tb.tick (some (min 32767 (max (-32768) x.pot))) := by
  have ha' : n.active = some (w, c) := (State.active_congr (congrArg Sl.windows hsl)).trans ha
  obtain ⟨v', d', hactive, hnamed, htaken, hphase⟩ := handNotice_taken ha' (by rw [hsl, ho]) hp x
  obtain ⟨rfl, rfl⟩ := Prod.ext_iff.mp (Option.some.inj (hhanded.symm.trans hactive))
  obtain ⟨u, hu, hunamed, hpositions, hmut⟩ := hleft
  obtain ⟨hon, hoff, hresults⟩ := handNotice_windows x n
  have hstatus (m : MWindow) : n.windowStatus m = s.windowStatus m := State.windowStatus_congr (congrArg Sl.capture hsl) m
  have hprofile : n.profileOf w = s.profileOf w := by simp only [State.profileOf, hsl]
  rw [hphase, hstatus, hprofile] at hon hoff
  simp only [Mu.measured, Prod.mk.injEq] at hmu
  obtain ⟨⟨hona, hoffa, hmin, hmax⟩, honr, hoffr⟩ := hmu
  simp only [Mu.offTaken, hona, hoffa, hmin, hmax, honr, hoffr] at hon hoff hresults
  refine noticed_of hu (hunamed.trans hnamed) ?_ nofun (fun y hy => ?_) ?_
  · rw [hpositions, htaken, noticeTaken_congr hsl]
  · obtain rfl := Option.some.inj hy
    rw [hmut]
    exact ⟨hon, hoff⟩
  · rw [hmut, hresults]

/-- A notice leaves the entries behind the first. -/
theorem tickNotice_tail (s : State) : (tickNotice s).sl.windows.tail = s.sl.windows.tail := by
  have hpair (n : Int) (φ : Nat) : (s.setPair n φ).sl.windows.tail = s.sl.windows.tail := by
    unfold State.setPair
    split
    · rfl
    · dsimp only
      cases s.sl.windows <;> rfl
  unfold tickNotice
  split
  · rfl
  · dsimp only
    split
    · exact hpair ..
    · split
      · exact hpair ..
      · rfl

/-- With nothing due for MU and HS an edge leaves MU. -/
theorem edgeLocked_mu {s : State} (c : Nat) (hreg : s.moment.regTick = false) (hscan : s.scanDue = false) :
    (s.edgeLocked c).mu = s.mu := by
  have hscanned : (s.edgeRecorded c).scanned = s.edgeRecorded c :=
    if_neg (by rw [show (s.edgeRecorded c).scanDue = false from hscan]; decide)
  have hticked : (s.edgeRecorded c).ticked = s.edgeRecorded c :=
    if_neg (by rw [show (s.edgeRecorded c).moment.regTick = false from hreg]; decide)
  have hcorrected : (s.edgeCorrected c).mu = s.mu := by
    unfold State.edgeCorrected
    split
    · rw [boundaryAtEdge_eq, hscanned, hticked]
      rfl
    · rfl
  unfold State.edgeLocked
  split
  · exact hcorrected
  · exact hcorrected

/-- Settles O6: the notice at a tick, at a wrap with the examination after it, and at an edge, which gives MU no code. -/
theorem tickTakesPair : Obligations.TickTakesPair := by
  unfold Obligations.TickTakesPair
  refine ⟨fun x s w c hquiet htick ha ho => ?tick, fun x s w c hwrap hp hst ha ho hq => ?wrap,
    fun s w c hband hst hdone hlost hreg hscan ha ho => ?edge⟩
  case tick =>
    have hp : (s.tickBegun x).moment.positions = [] := hquiet.2.2.2.2.1
    have hexec := exec_tick_counts x (s := s) (by rwa [settle_quiet hquiet])
    rw [settle_quiet hquiet, countTick_eq] at hexec
    obtain ⟨v, d, hactive, -⟩ := handNotice_taken (n := s.tickBegun x) (w := w) (c := c) ha ho hp x
    refine ⟨_, hexec, ?_, noticed_of_handed (n := s.tickBegun x) x ha ho rfl rfl hp hactive ⟨v, hactive, rfl, rfl, rfl⟩⟩
    have hsl : (handNotice x (s.tickBegun x)).sl = (tickNotice (s.tickBegun x)).sl := offerCode_sl ..
    rw [hsl, tickNotice_tail]
    rfl
  case wrap =>
    let n := s.wrapped x
    obtain ⟨hsl, -, -, hcq, hsk, -, -, -, -, hmu, -⟩ := wrapped_keeps x s
    have hp' : n.moment.positions = [] := (wrapped_due x s).2.2.2.1.trans hp
    have htb := wrapped_tb x s
    have ha' : n.active = some (w, c) := (State.active_congr (congrArg Sl.windows hsl)).trans ha
    obtain ⟨v, d, hactive, -⟩ := handNotice_taken ha' (by rw [hsl, ho]) hp' x
    have hexec := exec_secondBoundary s
    rw [takeWrap_counts hwrap hst] at hexec
    have hnoticed := noticed_of_handed x ha ho hsl ((congrArg Mu.measured hmu).trans rfl) hp' hactive
      (examineNow_taken hactive (by rw [handNotice_sk, handNotice_cq, hsk, hcq]; exact hq))
    rw [htb] at hnoticed
    exact ⟨_, hexec, hnoticed⟩
  case edge =>
    have hready : s.edgeReady = s := by rw [State.edgeReady, enterLostNow_none (.inl hlost), finishTimeline_done hdone.1 hdone.2]
    have hexec := exec_pulseEdge_accepted (s := s) (by omega) (by rw [hready])
    rw [hready, acceptEdge_plain (.inl hst), if_pos (by omega)] at hexec
    obtain ⟨hsl, -, -, -, -, -, -, hpositions, -⟩ := edgeLocked_rest s.tb.tick hreg hscan
    have hmu := edgeLocked_mu s.tb.tick hreg hscan
    have htb := edgeLocked_tb s.tb.tick s
    rw [if_pos (by omega)] at htb
    obtain ⟨v, d, hactive, hnamed, htaken⟩ := tickNotice_taken ((State.active_congr (congrArg Sl.windows hsl)).trans ha)
      (by rw [hsl, ho]) (hpositions.trans hdone.1)
    obtain ⟨hon, hoff, hmin, hmax, honr, hoffr⟩ := tickNotice_windows (s.edgeLocked s.tb.tick)
    rw [noticeTaken_congr hsl, htb] at htaken
    refine ⟨_, hexec, noticed_of hactive hnamed htaken (fun _ => ?_) nofun ?_⟩
    · rw [hon, hoff, hmin, hmax, hmu]
    · rw [honr, hoffr, hmu]

end Sys2Proof.Machine
end

