-- ==== Sys2Proof/Proofs/ApplyPoints.lean ====
section
/-! The apply points, with the entries written and the window anchored anew (O21; R26, R57, R59, R61, R62, R99 to R105, R145, R150). -/

namespace Sys2Proof.Machine

/-! ### The entries of an apply point (R61, R99, R145, R150) -/

/-- The entries that an apply point hands out, and those that a RESUME of the moment has put back. -/
abbrev State.dueEntries (s : State) : List QEntry := s.cq.queue.filter fun e => decide (e.setting ∉ s.moment.requeued)
abbrev State.stayEntries (s : State) : List QEntry := s.cq.queue.filter fun e => decide (e.setting ∈ s.moment.requeued)

theorem due_eq (s : State) : (s.cq.queue.filter fun e => !s.waits e) = s.dueEntries :=
  List.filter_congr fun e _ => by simp [State.waits]

/-- What an entry makes of the settings of RG. -/
def QEntry.writeReg (r : RegSettings) (e : QEntry) : RegSettings :=
  match e.setting with
  | .reg x => r.apply x e.value
  | .profile _ _ => r

/-- What an entry makes of the profiles. -/
def QEntry.writeProfile (ps : Vector Profile 8) (e : QEntry) : Vector Profile 8 :=
  match e.setting with
  | .reg _ => ps
  | .profile x i => ps.set i ((ps.get i).write x e.value)

/-- Whether an entry writes the profile that a window names. -/
def QEntry.touches (w : WindowRec) (e : QEntry) : Bool :=
  match e.setting with
  | .reg _ => false
  | .profile _ i => decide (i = w.profile)

theorem applyEntry_eq (e : QEntry) (s : State) : applyEntry e s =
    { s with rg := { s.rg with set := e.writeReg s.rg.set }, sl := { s.sl with profiles := e.writeProfile s.sl.profiles } } := by
  obtain ⟨x, v, origin⟩ := e
  cases x <;> rfl

theorem applyEntries_eq (q : List QEntry) (s : State) : q.foldl (fun t e => applyEntry e t) s =
    { s with
      rg := { s.rg with set := q.foldl QEntry.writeReg s.rg.set }
      sl := { s.sl with profiles := q.foldl QEntry.writeProfile s.sl.profiles } } := by
  induction q generalizing s with
  | nil => rfl
  | cons e q ih => rw [List.foldl_cons, applyEntry_eq, ih]; rfl

theorem touchesActive_running {s : State} {w : WindowRec} {c : CyclePart} (h : s.active = some (w, c)) :
    s.touchesActive = QEntry.touches w := by
  funext e
  simp only [State.touchesActive, h, QEntry.touches]
  cases e.setting with
  | reg x => rfl
  | profile x i => exact decide_eq_decide.mpr eq_comm

theorem touchesActive_idle {s : State} (h : s.active = none) (e : QEntry) : s.touchesActive e = false := by
  simp only [State.touchesActive, h]

/-- What an apply point tells a link: CHANGE, where an entry was due. -/
def Link.told (due : List QEntry) (k : Link) : Link := if due = [] then k else k.raise .change

/-- The state with the entries due written, out of the queue and told. -/
abbrev State.changed (s : State) : State :=
  { s with
    rg := { s.rg with set := s.dueEntries.foldl QEntry.writeReg s.rg.set }
    sl := { s.sl with profiles := s.dueEntries.foldl QEntry.writeProfile s.sl.profiles }
    cq := { queue := s.stayEntries }
    lc := { s.lc with links := s.lc.links.map (Link.told s.dueEntries) } }

/-- Where no entry is due, all of them wait. -/
theorem changed_none {s : State} (h : s.dueEntries = []) : s.changed = s := by
  have hstay : s.stayEntries = s.cq.queue := List.filter_eq_self.mpr fun e he => by
    simpa using List.filter_eq_nil_iff.mp h e he
  have hlinks : s.lc.links.map (Link.told []) = s.lc.links := PerLink.ext_get fun l => by
    rw [PerLink.get_map]
    rfl
  rw [State.changed, h, hstay, hlinks]
  rfl

/-- Re-anchoring and an event on every link do not meet. -/
theorem raiseAll_reanchor (c : EventClass) (b : Bool) (s : State) : raiseAll c (reanchor b s) = reanchor b (raiseAll c s) := by
  have hactive : (raiseAll c s).active = s.active := rfl
  unfold reanchor
  rw [hactive]
  cases s.active <;> rfl

theorem applyPoint_eq (b : Bool) (s : State) :
    applyPoint b s = if s.dueEntries.any s.touchesActive then reanchor b s.changed else s.changed := by
  unfold applyPoint
  dsimp only
  rw [due_eq]
  by_cases h : s.dueEntries = []
  · rw [changed_none h, h]
    rfl
  · have htold : Link.told s.dueEntries = Link.raise .change := funext fun k => if_neg h
    have hchanged : raiseAll .change { s.dueEntries.foldl (fun t e => applyEntry e t) s with
        cq := { queue := s.cq.queue.filter s.waits } } = s.changed := by
      rw [applyEntries_eq, State.changed, htold]
      rfl
    rw [if_neg (by simpa using h), apply_ite (raiseAll .change), raiseAll_reanchor, hchanged]

/-- With no window running an apply point only writes. -/
theorem applyPoint_idle {b : Bool} {s : State} (h : s.active = none) : applyPoint b s = s.changed := by
  rw [applyPoint_eq, if_neg (by simp [touchesActive_idle h])]

/-- The cycle part anchored at the moment, at phase 0 of the cycle that begins at a boundary and of the next one elsewhere (R62). -/
abbrev State.anchorAt (b : Bool) (s : State) (c : CyclePart) : CyclePart :=
  let n := if b then c.cycle else c.cycle + 1
  { anchorSec := s.tb.seconds, anchorTick := s.tb.tick, anchorCycle := n, cycle := n, phase := 0 }

/-- The cycle part of a running window after an apply point: anchored anew where its profile was written to. -/
def State.anchoredPart (b : Bool) (s : State) (w : WindowRec) (c : CyclePart) : CyclePart :=
  if s.dueEntries.any (QEntry.touches w) then s.anchorAt b c else c

/-- With a window running an apply point writes, and anchors it where its profile was written to. -/
theorem applyPoint_running {s : State} (b : Bool) {w : WindowRec} {ws : List WindowRec} {c : CyclePart} (hw : s.sl.windows = w :: ws)
    (hl : w.life = .active c) :
    let t := applyPoint b s
    let u := s.changed
    t.rg = u.rg ∧ t.sl.profiles = u.sl.profiles ∧ t.cq = u.cq ∧ t.lc = u.lc
      ∧ t.sl.windows = { w with life := .active (s.anchoredPart b w c) } :: ws
      ∧ t.cl = s.cl ∧ t.sl.outright = s.sl.outright ∧ t.sl.capture = s.sl.capture := by
  have hactive : s.active = some (w, c) := by simp only [State.active, hw, activeOf, hl]; rfl
  have hlife : ({ w with life := .active c } : WindowRec) = w := by rw [← hl]
  intro t u
  simp only [t, u, applyPoint_eq, touchesActive_running hactive, State.anchoredPart]
  split
  · have hre : reanchor b s.changed = sync { s.changed with
        sl := { s.changed.sl with windows := { w with life := .active (s.anchorAt b c) } :: ws }
        moment := { s.moment with positions := [] } } := by
      have hactive' : s.changed.active = some (w, c) := hactive
      simp only [reanchor, hactive', hw, withCyclePart, hl]
      rfl
    rw [hre]
    exact ⟨rfl, rfl, rfl, rfl, rfl, rfl, rfl, rfl⟩
  · exact ⟨rfl, rfl, rfl, rfl, by rw [hlife]; exact hw, rfl, rfl, rfl⟩

/-! ### A capture that opens at a cycle boundary (R57, R59) -/

/-- Whether a window of a capture is SHORT. -/
abbrev Capture.short (m : MWindow) (k : Capture) : Bool := decide (k.status m = .short)

/-- A measurement window that opens was PENDING, so that none becomes or ceases to be SHORT. -/
theorem openWindow_short (w m : MWindow) (s : State) :
    (openWindow w s).sl.capture.map (Capture.short m) = s.sl.capture.map (Capture.short m) := by
  rw [openWindow_sl]
  split
  case isFalse => rfl
  case isTrue h =>
    unfold State.windowStatus at h
    cases hk : s.sl.capture with
    | none => rw [hk] at h; cases h
    | some k =>
      rw [hk] at h
      have hpending : k.status w = .pending := Option.some.inj h
      have hset : (s.setWindowStatus w .opened).sl.capture = some (k.setStatus w .opened) := by
        simp only [State.setWindowStatus, hk, Option.map_some]
      rw [hset, Option.map_some, Option.map_some]
      refine congrArg some (decide_eq_decide.mpr ?_)
      cases w <;> cases m <;> simp_all [Capture.setStatus, Capture.status]

theorem openAt_short (p : Profile) (phase : Nat) (w m : MWindow) (t : State) :
    (openAt p phase w t).sl.capture.map (Capture.short m) = t.sl.capture.map (Capture.short m) := by
  unfold openAt
  split
  · exact openWindow_short w m t
  · rfl

/-- A window is SHORT in a capture that opens exactly where the profile does not hold it. -/
theorem openCapture_short {s : State} {w : WindowRec} {c : CyclePart} (h : s.active = some (w, c)) (entry : Nat) (realigned : Bool)
    {m : MWindow} {k : Capture} (hk : (openCapture entry realigned s).sl.capture = some k) :
    k.status m = .short ↔ (s.profileOf w).fits m = false := by
  have hshort : (openCapture entry realigned s).sl.capture.map (Capture.short m) =
      some (decide ((s.profileOf w).statusAt entry m = .short)) := by
    rw [openCapture_running h, openAt_short, openAt_short]
    cases m <;> rfl
  rw [hk, Option.map_some, Option.some_inj, decide_eq_decide] at hshort
  rw [hshort, Profile.statusAt]
  cases hf : (s.profileOf w).fits m <;> simp
  split <;> simp

/-! ### A cycle boundary with a window ACTIVE (R59, R62) -/

/-- With every end ahead nothing is skipped or activated after an apply point. -/
theorem applyPoint_examined {v : State} {w : WindowRec} {ws : List WindowRec} {c : CyclePart} (b : Bool) (hw : v.sl.windows = w :: ws)
    (hl : w.life = .active c) (hahead : ∀ x ∈ w :: ws, v.tb.seconds < x.stop) :
    skipWindows (applyPoint b v) = applyPoint b v ∧ activateFirst (applyPoint b v) = applyPoint b v := by
  obtain ⟨-, -, -, -, hwindows, -⟩ := applyPoint_running b hw hl
  refine ⟨skipWindows_none fun x hx => ?_, activateFirst_running ?_⟩
  · rw [hwindows] at hx
    rcases List.mem_cons.mp hx with rfl | hx
    · rfl
    · simp [WindowRec.skipped, hahead x (List.mem_cons_of_mem w hx)]
  · simp only [State.active, hwindows, activeOf]
    rfl

section Boundary
variable {v : State} {w : WindowRec} {ws : List WindowRec} {c : CyclePart} (second : Bool) (hw : v.sl.windows = w :: ws)
  (hl : w.life = .active c) (hk : v.sk.stack = []) (hahead : second = true → ∀ x ∈ w :: ws, v.tb.seconds < x.stop)
include hw hl hk hahead

/-- With the stack empty and every end ahead the boundary takes its apply point and the cycle begins. -/
theorem boundaryRest_active : boundaryRest second v =
    beginCycle { applyPoint true v with moment := { (applyPoint true v).moment with exam := false } } := by
  have hended : (if second then endByTime v else v) = v := by
    cases second with
    | false => rfl
    | true =>
      have := hahead rfl w List.mem_cons_self
      rw [if_pos rfl, endByTime_first hw, if_neg (by omega), ← hw]
  have hremoved : removeEnding v = v := by simp only [removeEnding, hw, hl]
  have hexamined : (if second then activateFirst (skipWindows (applyPoint true v)) else applyPoint true v) = applyPoint true v := by
    cases second with
    | false => rfl
    | true =>
      obtain ⟨hskip, hactivate⟩ := applyPoint_examined true hw hl (hahead rfl)
      rw [if_pos rfl, hskip, hactivate]
  simp only [boundaryRest, hended, hremoved, hk, List.isEmpty_nil, true_or, if_true, hexamined]

variable (ho : v.sl.outright = false) (hcap : v.sl.capture = none)
include ho hcap

/-- The cycle that begins: what is written, the window anchored, and the capture that opens with the profile as written. -/
theorem boundaryRest_begins :
    let t := boundaryRest second v
    let part := v.anchoredPart true w c
    (t.sl.profiles = v.changed.sl.profiles ∧ t.cq.queue = v.stayEntries
      ∧ t.sl.windows = { w with life := .active part } :: ws
      ∧ (t.sl.demand = .opened ↔ (v.changed.sl.profiles.get w.profile).onT ≤ part.phase)
      ∧ t.sl.capture.map Capture.opening = some (0, false)
      ∧ t.cl.assembly.map Assembly.follows = some (w.id, part.cycle)
      ∧ (∀ m k, t.sl.capture = some k → (k.status m = .short ↔ (v.changed.sl.profiles.get w.profile).fits m = false))
      ∧ t.tb = v.tb ∧ t.sk = v.sk ∧ t.hs = v.hs ∧ t.ns = v.ns ∧ t.oc.output = v.oc.output
      ∧ t.sl.notices = v.sl.notices ∧ t.pins = v.pins ∧ t.pending = v.pending)
    ∧ t.rg = v.changed.rg ∧ t.cl.log = v.cl.log ∧ t.cl.nextSeq = v.cl.nextSeq ∧ ∀ l, t.link l = (v.link l).told v.dueEntries := by
  intro t part
  obtain ⟨hrg, hprofiles, hcq, hlc, hwindows, hcl, hout, hcapture⟩ := applyPoint_running true hw hl
  let u : State := { applyPoint true v with moment := { (applyPoint true v).moment with exam := false } }
  have hactive : (sync u).active = some ({ w with life := .active part }, part) := by
    simp only [State.active, sync_sl_windows, u, hwindows, activeOf]
    rfl
  have ht : t = openCapture 0 false (sync u) := by
    have hopens : u.sk.stack.isEmpty = true ∧ u.sl.capture = none ∧ u.pairStands = true := by
      refine ⟨by simp [u, hk], hcapture.trans hcap, ?_⟩
      exact State.pairStands_of_not_outright (hout.trans ho)
    rw [show t = _ from boundaryRest_active second hw hl hk hahead, beginCycle, if_pos hopens]
  have hprofile : (sync u).profileOf { w with life := .active part } = v.changed.sl.profiles.get w.profile := by
    rw [State.profileOf, sync_sl_profiles]
    exact congrArg (fun p : Vector Profile 8 => p.get w.profile) hprofiles
  rw [ht]
  refine ⟨⟨?_, ?_, ?_, ?_, openCapture_opening hactive 0 false, ?_, fun m k hk => ?_, ?_, ?_, ?_, ?_, ?_, ?_, ?_, ?_⟩, ?_, ?_, ?_, fun l => ?_⟩
  · rw [openCapture_sl_profiles, sync_sl_profiles]
    exact hprofiles
  · rw [openCapture_cq, sync_cq]
    exact congrArg Cq.queue hcq
  · rw [openCapture_sl_windows, sync_sl_windows]
    exact hwindows
  · rw [openCapture_demand, ← hprofile]
    exact State.demand_iff_phase (s := u) hactive (by simp [u, hk])
  · rw [openCapture_assembly hactive]
    rfl
  · rw [← hprofile]
    exact openCapture_short hactive 0 false hk
  · simp [u]
  · simp [u]
  · simp [u]
  · simp [u]
  · simp [u]
  · simp [u]
  · simp [u]
  · simp [u]
  · rw [openCapture_rg, sync_rg]
    exact hrg
  · simp [u]
  · simp [u]
  · rw [State.link, openCapture_lc, sync_lc]
    exact (congrArg (fun x : Lc => x.links.get l) hlc).trans (PerLink.get_map ..)

end Boundary

/-! ### An apply point at an examination (R61) -/

section Examined
variable {s : State} (hwrap : s.moment.wrap = none) (hexam : s.moment.exam = true) (hpos : Position.boundary ∉ s.moment.positions)
include hwrap hexam hpos

/-- With an empty list the examination is its apply point. -/
theorem exec_secondBoundary_writes (hw : s.sl.windows = []) : exec .secondBoundary s = .next
    { s.changed with moment := { s.moment with exam := false } } := by
  have hidle : s.active = none := by rw [State.active, hw]; rfl
  have hended : endByTime s = s := by simp only [endByTime, hw]
  have hfrom : s.examinedFrom = s.changed := by
    rw [State.examinedFrom, if_pos (.inr (by rw [hidle]; rfl)), hended, applyPoint_idle hidle]
  have hskip : skipWindows s.changed = s.changed := skipWindows_none fun x hx => by
    rw [show s.changed.sl.windows = _ from hw] at hx
    exact absurd hx List.not_mem_nil
  have hactivate : activateFirst s.changed = s.changed := by
    simp only [activateFirst, hw]
  rw [exec_secondBoundary_examines hwrap hexam hpos, examineSecond_eq, hfrom, hskip, hactivate]

/-- Under suspension, with every end ahead, the examination is its apply point. -/
theorem exec_secondBoundary_held {w : WindowRec} {ws : List WindowRec} {c : CyclePart} (hw : s.sl.windows = w :: ws)
    (hl : w.life = .active c) (hk : s.sk.stack ≠ []) (hahead : ∀ v ∈ w :: ws, s.tb.seconds < v.stop) :
    exec .secondBoundary s = .next
      { applyPoint false s with moment := { (applyPoint false s).moment with exam := false } } := by
  have hended : endByTime s = s := by
    have := hahead w List.mem_cons_self
    rw [endByTime_first hw, if_neg (by omega), ← hw]
  have hfrom : s.examinedFrom = applyPoint false s := by
    rw [State.examinedFrom, if_pos (.inl (by simpa using hk)), hended]
  obtain ⟨hskip, hactivate⟩ := applyPoint_examined false hw hl hahead
  rw [exec_secondBoundary_examines hwrap hexam hpos, examineSecond_eq, hfrom, hskip, hactivate]

end Examined

/-! ### The record judged before the apply point (R101 to R105) -/

/-- RG's part after a record: judged where it is valid. -/
abbrev Rg.taken (g : Rg) (r : CRecord) : Rg := if r.valid = true then g.judged r (r.offPot.getD 0) else g

/-- Below two OVER captures in a row a record changes RG alone. -/
theorem judgeRecord_quiet {r : CRecord} {s : State} (h : s.rg.overStreak < 2) : judgeRecord r s = { s with rg := s.rg.taken r } := by
  cases hv : r.valid with
  | false => rw [judgeRecord_of_not_valid hv, Rg.taken, hv]; rfl
  | true =>
    obtain ⟨pot, hp⟩ := CRecord.offPot_of_valid hv
    have hno : ¬ (r.flags.overLim = true ∧ (if r.flags.overLim = true then s.rg.overStreak + 1 else 0) ≥ 3) := by
      rintro ⟨ho, hge⟩
      rw [if_pos ho] at hge
      omega
    simp only [judgeRecord, hv, hp, if_neg hno, Rg.taken, if_true, Option.getD_some, Rg.judged]

/-- The statement's account of the judged settings and the streak. -/
theorem taken_eq {g : Rg} {r : CRecord} (ho : r.flags.overLim = (r.valid && decide (r.offPot.getD 0 < g.set.overLimit))) :
    let valid := r.offPot ≠ none ∧ r.flags.noisy = false ∧ r.flags.shortOn = false ∧ r.flags.unsynced = false
      ∧ r.flags.ramp = false ∧ r.flags.noOutput = false ∧ r.flags.realigned = false
    let pot := r.offPot.getD 0
    let e := pot - g.set.target
    let delta :=
      if pot < g.set.overLimit then -g.set.stepLimit
      else if -g.set.deadband ≤ e ∧ e ≤ g.set.deadband then 0
      else min g.set.stepLimit (max (-g.set.stepLimit) (Int.tdiv (e * g.set.outerGain) 256))
    g.taken r = { g with
      set := if valid ∧ g.set.mode = .potentialOff then
          { g.set with iset := min g.set.ilim (max g.set.imin (g.set.iset + delta)) } else g.set
      overStreak := if valid then (if pot < g.set.overLimit then g.overStreak + 1 else 0) else g.overStreak } := by
  intro valid pot e delta
  have hdelta : delta = outerStep g.set pot := by
    by_cases hover : pot < g.set.overLimit
    · rw [outerStep_of_over hover]
      exact if_pos hover
    · rw [outerStep_of_not_over hover]
      exact if_neg hover
  by_cases hv : r.valid = true
  · have hvalid : valid := CRecord.valid_iff.mp hv
    rw [Rg.taken, if_pos hv, Rg.judged, ho, hv, hdelta]
    simp only [hvalid, true_and, Bool.true_and, decide_eq_true_eq, if_true]
    rfl
  · have hvalid : ¬ valid := mt CRecord.valid_iff.mpr hv
    rw [Rg.taken, if_neg hv]
    simp only [hvalid, false_and, if_false]

/-! ### The three points of the statement (O21) -/

/-- The state as a cycle boundary that stands alone is taken. -/
abbrev State.boundaryAlone (s : State) : State := { s with moment := { s.moment with positions := [] } }

theorem completeCapture_closed {s : State} (h : s.sl.capture = none) :
    completeCapture s = { s with sl := { s.sl with capture := none }, cl := { s.cl with assembly := none } } := by
  simp only [completeCapture, h]

/-- Below two OVER captures in a row a completed record goes to the log and RG takes it. -/
theorem completeCapture_quiet {s : State} {k : Capture} {a : Assembly} (hcap : s.sl.capture = some k) (hasm : s.cl.assembly = some a)
    (hstreak : s.rg.overStreak < 2) : completeCapture s =
      { s.recordLogged (buildRecord k a s) with rg := s.rg.taken (buildRecord k a s) } := by
  rw [completeCapture_open hcap hasm, judgeRecord_quiet (s := s.recordLogged (buildRecord k a s)) hstreak]
  rfl

/-- The state in which a boundary has removed its ENDING entry, before its apply point. -/
theorem boundaryRest_removes {v : State} {w : WindowRec} {ws : List WindowRec} {c : CyclePart} {cause : EndCause}
    (hw : v.sl.windows = w :: ws) (hl : w.life = .ending c cause) (hws : ∀ x ∈ ws, x.life = .scheduled) (hk : v.sk.stack = []) :
    boundaryRest false v = sync { (v.entryRemoved w ws cause).changed with
      moment := { (v.entryRemoved w ws cause).moment with exam := false } } := by
  have hidle : (v.entryRemoved w ws cause).active = none := active_none_of_scheduled hws
  have hstack : (v.entryRemoved w ws cause).sk.stack = [] := hk
  simp only [boundaryRest, Bool.false_eq_true, if_false, or_false, removeEnding_ending hw hl, hstack, List.isEmpty_nil, if_true,
    applyPoint_idle hidle]
  exact beginCycle_idle hidle

/-- Settles O21: at each of the points the entries due are written in order, and the window on a profile written to is anchored anew. -/
theorem applyPointTaken : Obligations.ApplyPointTaken := by
  unfold Obligations.ApplyPointTaken
  intro s due stay told write field regs profs anchored
  have hregs : regs = fun r => s.dueEntries.foldl QEntry.writeReg r := by
    funext r
    refine congrArg (fun f => s.dueEntries.foldl f r) (funext fun r => funext fun e => ?_)
    obtain ⟨x, v, origin⟩ := e
    cases x with
    | reg x => cases x <;> rfl
    | profile x i => rfl
  have hprofs : profs = s.changed.sl.profiles := by
    refine congrArg (fun f => s.dueEntries.foldl f s.sl.profiles) (funext fun ps => funext fun e => ?_)
    obtain ⟨x, v, origin⟩ := e
    cases x with
    | reg x => rfl
    | profile x i => cases x <;> rfl
  have hanchored : anchored = fun w c n => if s.dueEntries.any (QEntry.touches w) then
      { anchorSec := s.tb.seconds, anchorTick := s.tb.tick, anchorCycle := n, cycle := n, phase := 0 } else c := rfl
  have htold : told = Link.told s.dueEntries := rfl
  clear_value anchored profs regs told
  subst hregs hprofs hanchored htold
  refine ⟨fun hwrap hexam hpos => ⟨exec_secondBoundary_writes hwrap hexam hpos, fun w ws c hw hl hk hahead => ?held⟩,
    fun w ws c hpos hsecond hw hl hk ho => ⟨fun hcap => ?closed, fun k a hcap hasm hstreak => ?opened⟩,
    fun w ws c cause hpos hexam hw hl hws hk hcap => ?removed⟩
  case held =>
    obtain ⟨hrg, hprofiles, hcq, hlc, hwindows, hcl, -⟩ := applyPoint_running false hw hl
    refine ⟨_, exec_secondBoundary_held hwrap hexam hpos hw hl hk hahead, hrg, hprofiles, congrArg Cq.queue hcq, hwindows, fun l => ?_,
      applyPoint_tb .., applyPoint_sk .., applyPoint_hs .., applyPoint_ns .., hcl, applyPoint_oc_output .., applyPoint_sl_notices ..,
      applyPoint_pins .., applyPoint_pending ..⟩
    exact (congrArg (fun x : Lc => x.links.get l) hlc).trans (PerLink.get_map ..)
  case closed =>
    let v : State := { s.boundaryAlone with sl := { s.sl with capture := none }, cl := { s.cl with assembly := none } }
    have hv : completeCapture s.boundaryAlone = v := completeCapture_closed hcap
    have hexec := exec_cycleBoundary_of_alone hpos
    rw [cycleBoundary_eq, hv] at hexec
    obtain ⟨hbegins, hrg, hlog, -, hlink⟩ := boundaryRest_begins (v := v) s.moment.exam hw hl hk (fun h => hsecond.resolve_left (by rw [h]; decide)) ho rfl
    exact ⟨_, hexec, hbegins, hrg, hlog, hlink⟩
  case opened =>
    let u := s.boundaryAlone
    let r := buildRecord k a u
    let v : State := { u.recordLogged r with rg := s.rg.taken r }
    have hv : completeCapture u = v := completeCapture_quiet (s := u) hcap hasm hstreak
    have hexec := exec_cycleBoundary_of_alone hpos
    rw [cycleBoundary_eq, hv] at hexec
    obtain ⟨hbegins, hrg, hlog, hseq, hlink⟩ :=
      boundaryRest_begins (v := v) s.moment.exam hw hl hk (fun h => hsecond.resolve_left (by rw [h]; decide)) ho rfl
    have hover : r.flags.overLim = (r.valid && decide (r.offPot.getD 0 < s.rg.set.overLimit)) := buildRecord_overLim
    have htaken := taken_eq (g := s.rg) hover
    have hrgv : v.rg = _ := htaken
    have hrgt : (boundaryRest s.moment.exam v).rg = { v.rg with set := s.dueEntries.foldl QEntry.writeReg v.rg.set } := hrg
    rw [hrgv] at hrgt
    have hlogt : (boundaryRest s.moment.exam v).cl.log = s.cl.log.drop (s.cl.log.length - 31) ++ [r] := hlog.trans (logRecord_eq ..)
    have hpot : r.offPot = if k.offStatus = .done then s.mu.offResult.map OffResult.potential else none :=
      apply_ite (Option.map OffResult.potential) ..
    have hiff := (Bool.eq_iff_iff.mp hover).trans (Bool.and_eq_true_iff.trans (and_congr CRecord.valid_iff decide_eq_true_iff))
    have hlinks (l : LinkId) : (boundaryRest s.moment.exam v).link l = ((s.link l).raise .capture).told s.dueEntries := by
      rw [hlink]
      exact congrArg (Link.told s.dueEntries) (raiseAll_link ..)
    have hnamed : (r.seq, r.windowId, r.cycle, r.flags.realigned) = (s.cl.nextSeq, a.windowId, a.cycle, k.realigned) := rfl
    exact ⟨_, r, hexec, hbegins, hlogt, hseq, hnamed, hpot, ⟨hiff, hrgt⟩, hlinks⟩
  case removed =>
    let u := s.boundaryAlone
    let v : State := { u with sl := { s.sl with capture := none }, cl := { s.cl with assembly := none } }
    let x := v.entryRemoved w ws cause
    have hv : completeCapture u = v := completeCapture_closed hcap
    have hexec := exec_cycleBoundary_of_alone hpos
    rw [cycleBoundary_eq, hv, hexam, boundaryRest_removes (v := v) hw hl hws hk] at hexec
    have hidle : x.active = none := active_none_of_scheduled hws
    refine ⟨_, hexec, rfl, rfl, rfl, rfl, rfl, ?_, fun l => ?_, rfl, rfl, rfl, rfl, rfl, rfl, rfl, rfl⟩
    · rw [sync_demand, State.wantsOpen_idle (by exact hidle)]
      rfl
    · rw [State.link, sync_lc]
      refine (PerLink.get_map ..).trans (congrArg (Link.told s.dueEntries) ?_)
      exact raiseAll_link ..

end Sys2Proof.Machine
end
